-- ==== Sys2Proof/Word.lean ====
section
/-! DEFINITION. The plainest notions every other file stands on: text as the serial line carries it, and
tables numbered from 1 as the manual numbers its bells, melodies, entries, rules and cues. -/

namespace Sys2Proof

/-- A piece of a serial line: ASCII characters in the order they stand on the line (R184, R185). -/
abbrev Text := List Char

/-- A table of `n` like things, numbered 1..n in the manual; slot `k` stands at index `k - 1`. -/
abbrev Table (α : Type) (n : Nat) := Vector α n

end Sys2Proof
end

