-- ==== Sys2Proof/Syntax.lean ====
section
/-! DEFINITION. The commands of the TC56: one constructor per row of the table of operations and events. An event
of a pin or of the clock carries the number of the bell, cue or request it falls on. A request carries its tag and
its argument fields as the text that stands on the line, so that every check the manual makes on that text is the
model's to make (R6, R85, R105, R127, R140, R179, R185). -/

namespace Sys2Proof

/-- The words of the serial line: verbs, keywords and words of replies and reports, each named as the manual
writes it, with `_Q` for a closing question mark. `Kw.text` gives the spelling. -/
inductive Kw where
  | BELL | BELL_Q | COUNT_Q | STRIKE | TEST | MEL | MEL_Q | PLAY | CANCEL | ADJUST | STOP | TOLL
  | ENTRY | ENTRY_Q | HOLD | QUIET | QUIET_Q | TIME | SYNC | CUE | CUE_Q | REPORT | REPORT_Q | ID
  | STATUS | QUEUE_Q | SAVE | RESET | ENABLE | DISABLE | CLEAR | PULSE | FLIGHT | REARM | HEAT
  | DUTY | SENSE | FITTED | ABSENT | POL | RISE | FALL | LEARN | ON | OFF | DEFAULT | READY | BUCKET
  | STAMP | MISSES | HITS | LAST | NONE | FIRED | HIT | MISS | STRAY | SLIP | THROTTLE | DROP
  | GOOD | SUSPECT | FAULTED | DISABLED | STUCK | FAULT | SUPPLY | REPEAT | POWER | OPEN | ADD
  | CLOSE | DELETE | EMPTY | RECORDS | NOTES | BARS | BLOCKS | FREE | TUNE | AT | CLOCK | TEMPO
  | TRANSPOSE | CAP | WAIT | QUEUED | MERGED | LATEST | CANCELLED | PENDING | NOW | BAR | IDLE
  | ARMED | PLAYING | DRAINING | STOPPING | HOUR12 | HOUR24 | FIXED | INTERVAL | LEVEL | MODE
  | AFTER | CUT | OVER | HOURS | MINUTES | SECOND | DAYS | MONTHS | DATES | EXPIRY | FORCE | CHANGED
  | LIVE | UNUSED | SILENCE | FROM | TO | MO | TU | WE | TH | FR | SA | SU | SET | SLEW | STEP
  | UNSET | ACQUIRE | LOCKED | HOLDOVER | EDGE | BOTH | DEBOUNCE | ACTION | LATCH | HIGH | LOW
  | ACTIVE | ALL | VELISCA | TC56 | REV | A | N | C | RATE | STORE | BAD | BUSY | WALL | PLAYQ
  | STRIKEQ | COILS | REPORTQ | LATCHED | DIP | LOST | RECOVERING | LINE | COMMAND | SCHEDULE
  | SOURCE | CLASS | MELODY | START | ASAP | EFFECTIVE | YES | NO | FIRE | ORIG | ONSET | ORIGIN
  | SERIAL | SLIPPED | DEADLINE | TAKEN | DONE | NOSCORE | THROTTLED | RANGE | OK | FAIL
  deriving DecidableEq, Repr

/-- The levels of the input lines (lines and electrical summary of 00_scope.md). `true` is high. The strap lines
stand as codes, their lowest line the least significant bit (R3, R184). -/
structure Pins where
  /-- NSEL2..NSEL0. -/
  nsel : BitVec 3
  /-- CSEL1..CSEL0. -/
  csel : BitVec 2
  /-- RATE1..RATE0. -/
  rate : BitVec 2
  /-- SENSE1..SENSE64. -/
  sense : Table Bool 64
  /-- CUE1..CUE4. -/
  cue : Table Bool 4
  /-- SUPGOOD. -/
  supgood : Bool
  deriving DecidableEq, Repr

/-- The commands, in the order of the table. -/
inductive Instr where
  /-- R195, R196: power-up or a brownout of the logic supply; `pins` are the levels the lines hold as the reset ends. -/
  | powerOnReset (pins : Pins)
  /-- R195: the RESET line falls. -/
  | resetLineFall
  /-- R195: the RESET line rises, with the lines at `pins`. -/
  | resetLineRise (pins : Pins)
  /-- R195: the warm reset a RESET request asked for is taken, with the lines at `pins`. -/
  | warmResetCommand (pins : Pins)
  /-- R184: a CR arrives on RXD and ends the line in the receive buffer. -/
  | lineReceived
  /-- R186: the first line of the input queue is executed. -/
  | lineExecute
  /-- R187: the idle transmitter begins sending the earliest-made waiting line. -/
  | transmitLine
  /-- R6: `tag BELL` and then `fields`, the bell and its settings. -/
  | bell (tag : Text) (fields : List Text)
  /-- R20: `tag BELL bell DISABLE` and whatever fields follow. -/
  | bellDisable (tag bell : Text) (more : List Text)
  /-- R21: `tag BELL bell ENABLE` and whatever fields follow. -/
  | bellEnable (tag bell : Text) (more : List Text)
  /-- R22: `tag BELL bell CLEAR` and whatever fields follow. -/
  | bellClear (tag bell : Text) (more : List Text)
  /-- R19: `tag BELL?` and its fields. -/
  | bellRead (tag : Text) (fields : List Text)
  /-- R18: `tag COUNT?` and its fields. -/
  | countRead (tag : Text) (fields : List Text)
  /-- R18: `tag COUNT? bell CLEAR` and whatever fields follow. -/
  | countClear (tag bell : Text) (more : List Text)
  /-- R60: `tag STRIKE` and its fields, the bell and the level. -/
  | strike (tag : Text) (fields : List Text)
  /-- R61: `tag TEST` and its fields, the bell and the level. -/
  | test (tag : Text) (fields : List Text)
  /-- R45: the dispatcher takes the head entry of the strike queue. -/
  | dispatch
  /-- R52: the energised coil of `bell` reaches its release time. -/
  | coilRelease (bell : Nat)
  /-- R53: the deadline of the entry at `place` (from 0, in grant order) of the coil-wait list arrives. -/
  | coilWaitDeadline (place : Nat)
  /-- R66, R67: the sense line of `bell` is seen to change to its active level. -/
  | senseActiveEdge (bell : Nat)
  /-- R66, R75: the sense line of `bell` is seen to change back to its inactive level. -/
  | senseReleaseEdge (bell : Nat)
  /-- R69: the open window of `bell` reaches its end. -/
  | windowEnd (bell : Nat)
  /-- R76: the stuck timer of `bell` has run 2000 grains. -/
  | stuckTimeout (bell : Nat)
  /-- R84: `tag MEL melody OPEN` and then the name and the beat. -/
  | melOpen (tag melody : Text) (args : List Text)
  /-- R85: `tag MEL melody ADD` and then the score records. -/
  | melAdd (tag melody : Text) (args : List Text)
  /-- R88: `tag MEL melody CLOSE` and whatever fields follow. -/
  | melClose (tag melody : Text) (more : List Text)
  /-- R89: `tag MEL melody DELETE` and whatever fields follow. -/
  | melDelete (tag melody : Text) (more : List Text)
  /-- R90: `tag MEL?` and its fields. -/
  | melRead (tag : Text) (fields : List Text)
  /-- R105: `tag PLAY` and its fields, the melody and the options. -/
  | play (tag : Text) (fields : List Text)
  /-- R104: `tag CANCEL` and its fields. -/
  | cancel (tag : Text) (fields : List Text)
  /-- R103: now has passed the latest start of the queued request with this id. -/
  | expired (request : Nat)
  /-- R107: the TUNE lane takes a request. -/
  | tuneTake
  /-- R109: the TUNE lane expands its next record. -/
  | expandRecord
  /-- R116: `tag ADJUST` and its fields, the lane and the settings. -/
  | adjust (tag : Text) (fields : List Text)
  /-- R118, R119: `tag STOP lane NOW` and whatever fields follow. -/
  | stopNow (tag lane : Text) (more : List Text)
  /-- R118, R120: `tag STOP lane BAR` and whatever fields follow. -/
  | stopBar (tag lane : Text) (more : List Text)
  /-- R127: `tag TOLL` and its fields, the rule, the bell and the options. -/
  | toll (tag : Text) (fields : List Text)
  /-- R130: the TOLL lane takes a request. -/
  | tollTake
  /-- R132: the TOLL lane expands its next stroke. -/
  | expandStroke
  /-- R134: the queued CUT toll with this id orders the playing tune to stop at its bar. -/
  | cutOrder (request : Nat)
  /-- R140: `tag ENTRY` and its fields, the number, the time fields and the action. -/
  | entry (tag : Text) (fields : List Text)
  /-- R141: `tag ENTRY number CLEAR` and whatever fields follow. -/
  | entryClear (tag number : Text) (more : List Text)
  /-- R142: `tag ENTRY?` and its fields, the number and the table. -/
  | entryRead (tag : Text) (fields : List Text)
  /-- R144: `tag HOLD ON` and whatever fields follow. -/
  | holdOn (tag : Text) (more : List Text)
  /-- R144: `tag HOLD OFF` and whatever fields follow. -/
  | holdOff (tag : Text) (more : List Text)
  /-- R150: `tag QUIET` and its fields, the number and the rule. -/
  | quiet (tag : Text) (fields : List Text)
  /-- R150: `tag QUIET number CLEAR` and whatever fields follow. -/
  | quietClear (tag number : Text) (more : List Text)
  /-- R150: `tag QUIET?` and its fields. -/
  | quietRead (tag : Text) (fields : List Text)
  /-- R146: the SET wall clock crosses into its next second. -/
  | secondBoundary
  /-- R163: `tag TIME` and its fields, the date and the time. -/
  | time (tag : Text) (fields : List Text)
  /-- R161: the slew tick of a strike-clock value that is a multiple of 500. -/
  | slewTick
  /-- R160: the wall clock reaches 2100-01-01 00:00:00.0000. -/
  | wallClockRangeEnd
  /-- R166: `tag SYNC FREE` and whatever fields follow. -/
  | syncFree (tag : Text) (more : List Text)
  /-- R166: `tag SYNC PULSE` and whatever fields follow. -/
  | syncPulse (tag : Text) (more : List Text)
  /-- R167: SECPULSE is first seen high. -/
  | secpulseEdge
  /-- R170: 15,000 grains have passed in LOCKED without a good pulse. -/
  | pulseLoss
  /-- R176: the cue line is seen at the other level. -/
  | cueLineChange (cue : Nat)
  /-- R176: the debounce timer of the cue expires. -/
  | cueDebounceExpire (cue : Nat)
  /-- R179: `tag CUE` and its fields, the cue and its settings. -/
  | cue (tag : Text) (fields : List Text)
  /-- R180: `tag CUE cue ENABLE` and whatever fields follow. -/
  | cueEnable (tag cue : Text) (more : List Text)
  /-- R180: `tag CUE cue DISABLE` and whatever fields follow. -/
  | cueDisable (tag cue : Text) (more : List Text)
  /-- R180: `tag CUE cue CLEAR` and whatever fields follow. -/
  | cueClear (tag cue : Text) (more : List Text)
  /-- R180: `tag CUE?` and its fields. -/
  | cueRead (tag : Text) (fields : List Text)
  /-- R181: SUPGOOD is first seen low. -/
  | supgoodFall
  /-- R181: SUPGOOD is first seen high. -/
  | supgoodRise
  /-- R182: SUPGOOD has been low for 20,000 grains. -/
  | supplyLost
  /-- R181: SUPGOOD has been high for 10,000 grains. -/
  | supplyGood
  /-- R189: `tag REPORT` and its fields, the pairs of kind and ON or OFF. -/
  | report (tag : Text) (fields : List Text)
  /-- R189: `tag REPORT?` and whatever fields follow. -/
  | reportRead (tag : Text) (more : List Text)
  /-- R190: `tag ID` and whatever fields follow. -/
  | identity (tag : Text) (more : List Text)
  /-- R191: `tag STATUS` and whatever fields follow. -/
  | status (tag : Text) (more : List Text)
  /-- R192: `tag QUEUE?` with no field. -/
  | queueSummary (tag : Text)
  /-- R192: `tag QUEUE? PLAY` and its fields. -/
  | queuePlayItem (tag : Text) (fields : List Text)
  /-- R192: `tag QUEUE? STRIKE` and its fields. -/
  | queueStrikeItem (tag : Text) (fields : List Text)
  /-- R192: `tag QUEUE? WAIT` and its fields. -/
  | queueWaitItem (tag : Text) (fields : List Text)
  /-- R193: `tag SAVE` and whatever fields follow. -/
  | save (tag : Text) (more : List Text)
  /-- R193: the nonvolatile memory ends its write, and the sum read back matches or not. -/
  | saveComplete (sumMatches : Bool)
  /-- R193: 30,000 grains have passed since the SAVE was accepted. -/
  | saveTimeout
  /-- R195: `tag RESET` and whatever fields follow. -/
  | reset (tag : Text) (more : List Text)
  /-- R184: a character other than CR arrives on RXD, with its stop bit or without. -/
  | characterReceived (character : BitVec 8) (stopBit : Bool)
  deriving DecidableEq, Repr

end Sys2Proof
end

