-- ==== Sys2Proof/Machine/State.lean ====
section
/-! DEFINITION. Everything the TC56 holds, as plain data, and the machine right after a power-on reset.
Times are strike-clock values in grains of 100 µs unless a field says otherwise; wall instants are whole seconds
counted from 2000-01-01 00:00:00 (R160). -/

namespace Sys2Proof.Machine

/-! ## Bells -/

/-- R41: who made a strike entry. -/
inductive Origin where
  | tune | toll | strike | test
  deriving DecidableEq, Repr

/-- R16, R56: why an entry was dropped; `repeated` is the manual's REPEAT. -/
inductive DropReason where
  | fault | supply | repeated | power | heat | stop
  deriving DecidableEq, Repr

/-- R4: the edge of the sense line that marks an impact. -/
inductive Polarity where
  | rise | fall
  deriving DecidableEq, Repr

/-- R14: why a bell became FAULTED. -/
inductive FaultCause where
  | misses | stuck
  deriving DecidableEq, Repr

/-- R14: the health of a bell; a fault cause is present only in FAULTED. -/
inductive Health where
  | good | suspect | faulted (cause : FaultCause) | disabled
  deriving DecidableEq, Repr

/-- R4: the calibration of a bell, less its disabled flag. Level `L` of a drive table is slot `L`. -/
structure Calibration where
  /-- Pulse width of each level, 20..400 grains. -/
  pulse : Table Nat 7
  /-- Flight time of each level, 50..2000 grains. -/
  flight : Table Nat 7
  /-- 300..5000 grains. -/
  rearm : Nat
  /-- Heat capacity, 200..4000 grains. -/
  heat : Nat
  /-- 5..50 percent. -/
  duty : Nat
  /-- Sense FITTED (true) or ABSENT (false). -/
  fitted : Bool
  polarity : Polarity
  /-- Learn ON (true) or OFF (false). -/
  learn : Bool
  deriving DecidableEq, Repr

/-- R4: the defaults. -/
def Calibration.default : Calibration where
  pulse := #v[40, 55, 70, 85, 100, 120, 140]
  flight := #v[900, 820, 760, 700, 650, 600, 560]
  rearm := 800
  heat := 1200
  duty := 20
  fitted := true
  polarity := .fall
  learn := true

/-- R17: the seven counters of a bell, each 0..65535. -/
structure Counters where
  fired : Nat := 0
  hit : Nat := 0
  miss : Nat := 0
  stray : Nat := 0
  slip : Nat := 0
  throttle : Nat := 0
  drop : Nat := 0
  deriving DecidableEq, Repr

/-- R64: an open sense window. -/
structure Window where
  /-- The firing instant. -/
  firedAt : Nat
  /-- The fired level. -/
  level : Nat
  /-- Whether the entry's origin was TEST. -/
  test : Bool
  /-- The expected onset. -/
  onset : Nat
  /-- The width W. -/
  width : Nat
  /-- Band start, the expected onset less W. -/
  bandStart : Nat
  /-- Window end, the expected onset plus W. -/
  closes : Nat
  /-- Supply clean. -/
  clean : Bool
  /-- Learn blocked. -/
  blocked : Bool
  deriving DecidableEq, Repr

/-- R75: the stuck timer of a bell. -/
inductive StuckTimer where
  | idle | running (start : Nat) | expired
  deriving DecidableEq, Repr

/-- R2 to R17, R64, R75: one bell record with its sense window (`none` when closed) and stuck timer. -/
structure Bell where
  cal : Calibration
  disabledFlag : Bool
  ready : Nat
  /-- Heat bucket, in hundredths of a grain. -/
  bucket : Nat
  /-- Bucket stamp. -/
  stamp : Nat
  health : Health
  /-- Consecutive-miss count, 0..3. -/
  misses : Nat
  /-- Consecutive-hit count, 0..3. -/
  hits : Nat
  lastDrop : Option DropReason
  counters : Counters
  window : Option Window
  stuck : StuckTimer
  deriving DecidableEq, Repr

/-- The runtime state of a power-on reset (section 1.7) over a calibration and a disabled flag. -/
def Bell.powerOn (cal : Calibration) (disabledFlag : Bool) : Bell where
  cal := cal
  disabledFlag := disabledFlag
  ready := 0
  bucket := cal.heat * 100
  stamp := 0
  health := if disabledFlag then .disabled else .good
  misses := 0
  hits := 0
  lastDrop := none
  counters := {}
  window := none
  stuck := .idle

/-! ## Strike queue and dispatcher -/

/-- R41: a strike entry. -/
structure Entry where
  fire : Nat
  /-- The original fire time. -/
  orig : Nat
  onset : Nat
  bell : Nat
  level : Nat
  origin : Origin
  slip : Nat
  serial : Option Nat
  slipped : Bool
  deriving DecidableEq, Repr

/-- R51: a member of the energised-coil set. -/
structure Coil where
  bell : Nat
  release : Nat
  origin : Origin
  deriving DecidableEq, Repr

/-! ## Melody store -/

/-- R82: a score record. -/
inductive ScoreRecord where
  | note (delta bell level : Nat)
  | rest (delta : Nat)
  | bar (delta : Nat)
  | tempo (delta beat : Nat)
  deriving DecidableEq, Repr

/-- R80: where a melody stands in its upload. -/
inductive MelodyPhase where
  | empty | opened | ready
  deriving DecidableEq, Repr

/-- R80: a melody header. -/
structure Melody where
  phase : MelodyPhase := .empty
  name : Option Text := none
  beat : Option Nat := none
  records : Nat := 0
  notes : Nat := 0
  bars : Nat := 0
  /-- Block numbers 1..384, in score order. -/
  blocks : List Nat := []
  /-- Held by the TUNE lane (true) or by none (false). -/
  held : Bool := false
  deriving DecidableEq, Repr

/-! ## Play requests and lanes -/

/-- R126: how the strokes of a toll are counted. -/
inductive CountRule where
  | hour12 | hour24 | fixed (n : Nat)
  deriving DecidableEq, Repr

/-- R126: how a toll shares the tower with a tune. -/
inductive TollMode where
  | after | cut | over
  deriving DecidableEq, Repr

/-- R126: a toll spec; its max wait is the wait of its request. -/
structure TollSpec where
  rule : CountRule
  bell : Nat
  interval : Nat
  level : Nat
  mode : TollMode
  deriving DecidableEq, Repr

/-- R98: what a TUNE request asks for. -/
structure TuneSpec where
  melody : Nat
  tempo : Nat
  transpose : Int
  repeats : Nat
  deriving DecidableEq, Repr

/-- R98: the class of a request, with the fields of that class. -/
inductive Play where
  | tune (spec : TuneSpec)
  | toll (spec : TollSpec)
  deriving DecidableEq, Repr

/-- R98: who made a request. -/
inductive Source where
  | schedule (entry : Nat) | cue (cue : Nat) | line
  deriving DecidableEq, Repr

/-- R98: a play request. -/
structure PlayRequest where
  id : Nat
  source : Source
  play : Play
  /-- Signed (R23); `none` is "as soon as possible". -/
  start : Option Int
  arrival : Nat
  /-- The latest start, signed (R23). -/
  latest : Int
  cap : Nat
  slip : Nat
  force : Bool
  /-- The model's own mark: this queued CUT toll has given its cut order (R134; assumption 6). -/
  cutGiven : Bool
  deriving DecidableEq, Repr

/-- R114: the summary of a play. -/
structure Summary where
  queued : Nat := 0
  fired : Nat := 0
  slipped : Nat := 0
  throttled : Nat := 0
  range : Nat := 0
  repeated : Nat := 0
  power : Nat := 0
  heat : Nat := 0
  fault : Nat := 0
  supply : Nat := 0
  stop : Nat := 0
  deriving DecidableEq, Repr

/-- R115: the reason an END report gives for a play a lane held. -/
inductive EndReason where
  | done | stop | cut | supply
  deriving DecidableEq, Repr

/-- R106: the state of a lane outside IDLE; the end reason is present in DRAINING. -/
inductive LanePhase where
  | armed | playing | draining (reason : EndReason)
  deriving DecidableEq, Repr

/-- R106, R120: a bar stop under way. -/
structure BarStop where
  reason : EndReason
  limit : Nat
  deriving DecidableEq, Repr

/-- R24: the timing state of the TUNE lane. -/
structure Timing where
  /-- Score beat B. -/
  beat : Nat
  /-- Tempo percent p. -/
  percent : Nat
  /-- Effective beat B_eff. -/
  eff : Nat
  segOrigin : Nat
  segDivision : Nat
  /-- Division count d. -/
  division : Nat
  pass : Nat
  liveCap : Nat
  requestCap : Nat
  transpose : Int
  deriving DecidableEq, Repr

/-- R106: the record of the TUNE lane outside IDLE. -/
structure TuneLane where
  phase : LanePhase
  request : PlayRequest
  /-- What the request asks for, as the take read it. -/
  spec : TuneSpec
  origin : Nat
  timing : Timing
  /-- The next record to expand, 1..r. -/
  cursor : Nat
  lastOnset : Option Nat
  pendingTempo : Option Nat
  pendingCap : Option Nat
  barStop : Option BarStop
  lag : Bool
  /-- The last note serial given (R34), 0 before the first. -/
  serial : Nat
  summary : Summary
  deriving DecidableEq, Repr

/-- R106, R129: the record of the TOLL lane outside IDLE. -/
structure TollLane where
  phase : LanePhase
  request : PlayRequest
  /-- What the request asks for, as the take read it. -/
  spec : TollSpec
  origin : Nat
  requestCap : Nat
  /-- The stroke count, fixed at the take (R131). -/
  strokes : Nat
  /-- The next stroke, 0..strokes. -/
  next : Nat
  lastOnset : Option Nat
  lag : Bool
  summary : Summary
  deriving DecidableEq, Repr

/-! ## Calendar schedule -/

/-- R139: a day and month. -/
structure DayMonth where
  day : Nat
  month : Nat
  deriving DecidableEq, Repr

/-- R139: the action of a schedule entry. -/
inductive ScheduleAction where
  | tune (spec : TuneSpec) (cap : Nat)
  | toll (spec : TollSpec)
  deriving DecidableEq, Repr

/-- R139: the contents of a schedule entry in use. The sets are held as ascending lists with no repeat, so equal
contents are equal data; weekdays are 0 (MO) to 6 (SU). -/
structure ScheduleEntry where
  hours : List Nat
  minutes : List Nat
  second : Nat
  days : List Nat
  months : List Nat
  dates : Option (DayMonth × DayMonth)
  action : ScheduleAction
  /-- Seconds. -/
  expiry : Nat
  force : Bool
  deriving DecidableEq, Repr

/-- R139, R143: a table of 48 entries; `none` is not in use. -/
abbrev ScheduleTable := Table (Option ScheduleEntry) 48

/-- R150: the tune action of a quiet rule. -/
inductive QuietTune where
  | silence | cap (level : Nat)
  deriving DecidableEq, Repr

/-- R150: a quiet rule in use; `fromMin` and `toMin` are minutes of the day. -/
structure QuietRule where
  days : List Nat
  fromMin : Nat
  toMin : Nat
  tune : QuietTune
  tollCap : Nat
  deriving DecidableEq, Repr

/-! ## Tower inputs -/

/-- R175: which accepted changes are presses. -/
inductive CueEdge where
  | rise | fall | both
  deriving DecidableEq, Repr

/-- R175: what a cue line does; `wait` is in seconds. -/
inductive CueAction where
  | none
  | tune (spec : TuneSpec) (cap slip wait : Nat)
  | toll (spec : TollSpec) (cap slip wait : Nat)
  | stop
  deriving DecidableEq, Repr

/-- R175: the configuration of a cue line. -/
structure CueConfig where
  edge : CueEdge := .fall
  /-- 200..5000 grains. -/
  debounce : Nat := 500
  enable : Bool := false
  action : CueAction := .none
  force : Bool := false
  deriving DecidableEq, Repr

/-- R176: a running debounce timer, with the debounce held when it started. -/
structure Debounce where
  start : Nat
  length : Nat
  deriving DecidableEq, Repr

/-- R175: a cue line record. -/
structure Cue where
  config : CueConfig := {}
  /-- The settled level, HIGH when true. -/
  settled : Bool
  timer : Option Debounce := .none
  latch : Bool := false
  deriving DecidableEq, Repr

/-- R181: the coil-supply monitor, with its timer start in DIP and RECOVERING. -/
inductive Supply where
  | good | dip (start : Nat) | lost | recovering (start : Nat)
  deriving DecidableEq, Repr

/-! ## Timebase -/

/-- R166: the sync source. -/
inductive SyncSource where
  | free | pulse
  deriving DecidableEq, Repr

/-- R166: the sync state. -/
inductive SyncState where
  | free | acquire | locked | holdover
  deriving DecidableEq, Repr

/-- The timebase (section 9). -/
structure Timebase where
  /-- The strike clock, a 48-bit count (R159). -/
  now : Nat
  /-- The wall offset. -/
  offset : Int
  /-- The wall-set flag, SET when true. -/
  isSet : Bool
  /-- The pending slew. -/
  slew : Int
  /-- The pending TIME, a wall instant. -/
  pendingTime : Option Nat
  source : SyncSource
  sync : SyncState
  /-- The qualification count, 0..3. -/
  qualified : Nat
  /-- The last pulse. -/
  lastPulse : Option Nat
  /-- The model's own: the wall second whose boundary was crossed last (assumption 4). -/
  crossed : Nat
  /-- The model's own: the strike-clock value at which the last slew tick was taken, whether or not the offset moved
  (assumption 4). -/
  slewedAt : Option Nat
  deriving DecidableEq, Repr

/-! ## Serial line -/

/-- R185: the error codes. -/
inductive ErrCode where
  | badline | unknown | arg | busy | locked | full | qfull | notready | unset
  deriving DecidableEq, Repr

/-- R188, R189: the twelve maskable report kinds, in the order of R188. -/
inductive Kind where
  | clock | set | step | play | ended | expired | dropped | missed | quiet | health | supply | saved
  deriving DecidableEq, Repr

/-- R188: the report kinds; START and OVERRUN are not maskable. -/
inductive ReportKind where
  | start | overrun | maskable (kind : Kind)
  deriving DecidableEq, Repr

/-- One field of a reply or report: a word, a number, a signed number (written with a sign when below 0), a step or
slew (written with its sign always, R162), a wall instant as date and time, or text as it stands. -/
inductive Fld where
  | word (w : Kw)
  | kind (k : Kind)
  | num (n : Nat)
  | int (x : Int)
  | signed (x : Int)
  | wall (instant : Nat)
  | text (t : Text)
  deriving DecidableEq, Repr

/-- R185, R188: a line the TC56 sends. -/
inductive Line where
  | ok (tag : Text) (fields : List Fld)
  | error (tag : Text) (code : ErrCode)
  | report (kind : ReportKind) (fields : List Fld)
  deriving DecidableEq, Repr

/-- R187: a line with the order in which it was made. -/
structure MadeLine where
  order : Nat
  line : Line
  deriving DecidableEq, Repr

/-- R187: a line being sent, and the strike-clock time its transmission ends (assumption 9). -/
structure Sending where
  line : Line
  finish : Nat
  deriving DecidableEq, Repr

/-- R195: how far a RESET request has come. -/
inductive ResetWait where
  | none
  /-- Its reply has been made and waits. -/
  | replyMade
  /-- Its reply is being sent and its transmission ends at `finish`. -/
  | replySending (finish : Nat)
  deriving DecidableEq, Repr

/-- The serial-line block (section 11), less the store. -/
structure Serial where
  /-- The receive buffer, 0..120 characters (R184). -/
  buffer : Text := []
  /-- The bad-line mark: the line in arrival is too long or bad. -/
  badLine : Bool := false
  /-- The input queue, 0..4 lines. -/
  input : List Text := []
  /-- The reply of the executed line. -/
  executed : Option MadeLine := .none
  /-- The refusal replies, 0..4. -/
  refusals : List MadeLine := []
  /-- The report queue, 0..32 lines. -/
  reports : List MadeLine := []
  /-- The discard count, 0..65535. -/
  discards : Nat := 0
  /-- The report mask: one enable per maskable kind, in the order of `Kind`. -/
  mask : Table Bool 12 := Vector.replicate 12 true
  /-- The latched-kinds set. -/
  latched : Table Bool 12 := Vector.replicate 12 false
  /-- The line the transmitter sends or sent last; `none` when it has sent none since the reset. -/
  sending : Option Sending := .none
  resetWait : ResetWait := .none
  /-- How many lines have been made: the order of the next (R187). -/
  made : Nat := 0
  deriving DecidableEq, Repr

/-! ## Store -/

/-- R95: a READY melody as the image records it. -/
structure SavedMelody where
  name : Text
  beat : Nat
  records : List ScoreRecord
  deriving DecidableEq, Repr

/-- R194: the contents of the image. -/
structure StoreContents where
  bells : Table (Calibration × Bool) 64
  melodies : Table (Option SavedMelody) 64
  schedule : ScheduleTable
  quiet : Table (Option QuietRule) 8
  cues : Table CueConfig 4
  source : SyncSource
  mask : Table Bool 12
  deriving DecidableEq, Repr

/-- R193, R194: the image in the nonvolatile memory (assumption 10). -/
inductive StoreImage where
  /-- No mark. -/
  | unwritten
  /-- The mark, and contents that were not written whole: what a write under way, cut short or failed has left, with a
  sum that does not match it. -/
  | torn
  /-- The mark, the contents written whole, and the 16-bit sum held beside them. -/
  | written (contents : StoreContents) (sum : BitVec 16)
  deriving DecidableEq, Repr

/-- R193, R194: the store state; BUSY holds the instant of the SAVE's acceptance and its snapshot. -/
inductive StoreState where
  | good | bad | empty | busy (since : Nat) (snapshot : StoreContents)
  deriving DecidableEq, Repr

/-- R190: the cause of the last reset. -/
inductive ResetCause where
  | power | line | command
  deriving DecidableEq, Repr

/-! ## The machine -/

/-- Everything the TC56 holds. -/
structure State where
  /-- The commands that are waiting, first in, first out. -/
  pending : List Instr
  /-- The model's own: how many free choices of order have been made (assumption 3). -/
  choices : Nat
  /-- The RESET line is held low (R195). -/
  held : Bool
  /-- The levels of the input lines. -/
  pins : Pins
  /-- The cause of the last reset. -/
  cause : ResetCause
  /-- N, latched (R3). -/
  bellCount : Nat
  /-- C, latched (R3). -/
  coilBudget : Nat
  /-- The line rate, latched (R184). -/
  lineRate : Nat
  time : Timebase
  bells : Table Bell 64
  /-- The strike queue, in the order of R43. -/
  queue : List Entry
  /-- The coil-wait list, in grant order (R53). -/
  waiting : List Entry
  /-- The energised-coil set. -/
  coils : List Coil
  melodies : Table Melody 64
  /-- The block pool: the records each block holds, at most 32 (R81). -/
  pool : Table (List ScoreRecord) 384
  /-- The play queue, in the order of R101. -/
  playQueue : List PlayRequest
  /-- The id last assigned, 0..255 (R99). -/
  lastId : Nat
  /-- The TUNE lane; `none` is IDLE. -/
  tune : Option TuneLane
  /-- The TOLL lane; `none` is IDLE. -/
  toll : Option TollLane
  /-- The live table. -/
  live : ScheduleTable
  /-- The pending table. -/
  draft : ScheduleTable
  /-- The last-fired stamps, one per live entry (R148). -/
  stamps : Table (Option Nat) 48
  /-- The hold flag, ON when true (R144). -/
  hold : Bool
  quiet : Table (Option QuietRule) 8
  cues : Table Cue 4
  supply : Supply
  serial : Serial
  store : StoreState
  /-- The nonvolatile memory. -/
  image : StoreImage
  deriving DecidableEq, Repr

/-- The faults of a step. Safe: each is a stop where the manual gives no behaviour. -/
inductive Fault where
  /-- Raised by the passing of a grain when the 48-bit strike clock is exhausted, for which the manual gives no
  behaviour: "in service it does not wrap" (R159). Safe. -/
  | strikeClockExhausted
  deriving DecidableEq, Repr

/-- The refusals of a step. -/
inductive Refusal where
  /-- Raised by `exec` for a command that has no meaning yet. Safe. No command of this model raises it. -/
  | notModelled (mnemonic : String)
  deriving DecidableEq, Repr

/-- The levels of the lines in the reset state: inputs with pull-ups high, straps low (assumption 1). -/
def Pins.resting : Pins where
  nsel := 0
  csel := 0
  rate := 0
  sense := Vector.replicate 64 true
  cue := Vector.replicate 4 true
  supgood := true

/-- Every block at its power-on values with an empty store, before the straps are latched and the START report is
posted (R11, R62, R78, R96, R124, R158, R173, R183, R195). -/
def State.blank : State where
  pending := []
  choices := 0
  held := false
  pins := Pins.resting
  cause := .power
  bellCount := 23
  coilBudget := 2
  lineRate := 9600
  time :=
    { now := 0, offset := 0, isSet := false, slew := 0, pendingTime := none, source := .free, sync := .free,
      qualified := 0, lastPulse := none, crossed := 0, slewedAt := none }
  bells := Vector.replicate 64 (Bell.powerOn Calibration.default false)
  queue := []
  waiting := []
  coils := []
  melodies := Vector.replicate 64 {}
  pool := Vector.replicate 384 []
  playQueue := []
  lastId := 0
  tune := none
  toll := none
  live := Vector.replicate 48 none
  draft := Vector.replicate 48 none
  stamps := Vector.replicate 48 none
  hold := false
  quiet := Vector.replicate 8 none
  cues := Vector.replicate 4 { settled := true }
  supply := .recovering 0
  serial := {}
  store := .empty
  image := .unwritten

/-- The machine right after a power-on reset with an image that has no mark and the lines at `Pins.resting`: the
blank state with the START report posted (R196). -/
def State.reset : State :=
  { State.blank with
    serial :=
      { reports := [⟨0, .report .start [.word .POWER, .word .EMPTY, .word .FREE, .word .N, .num 23, .word .C, .num 2]⟩]
        made := 1 } }

end Sys2Proof.Machine
end

