-- ==== Sys2Proof/Config.lean ====
section
/-! DEFINITION. What the manual leaves open, as constants with no body: nothing can be proved of their values, so a
claim holds whatever they are. -/

namespace Sys2Proof

/-- The order in which steps that fall at one instant are taken, where the manual allows every order (R44, R53,
R54, R77, R107, R121, R172, R176, R181): the n-th choice the machine has to make takes the candidate at
`arbiter n` modulo the number of candidates. Free value; assumption 3. -/
opaque Config.arbiter : Nat → Nat

/-- Whether, at the very instant at which the queued CUT toll with an id comes within its reach, the reach is taken
before a TUNE take of the same instant, where the manual allows either order (R134): `reachFirst now id`. Free value;
assumption 26. -/
opaque Config.reachFirst : Nat → Nat → Bool

/-- Whether the correction of a TIME is measured against the wall clock with the slew still pending counted in: a sentence
of R164 says so, and its bullets name the wall clock at now. Free value; assumption 27. -/
opaque Config.slewCounted : Bool

/-- The bytes the contents of the store image are written as; the manual gives the 16-bit sum over them and no layout
(R194). Free value; assumption 10. -/
opaque Config.contentsBytes : Machine.StoreContents → List (BitVec 8)

end Sys2Proof
end

