-- ==== Sys2Proof/Decode.lean ====
section
/-! DEFINITION. Reading request lines, and spelling them. The table of operations gives no row any bits, so
`decodeTableWord` reads no command from a word; what the TC56 decodes is text: a complete line of the serial line
becomes one of the request commands, an argument error, or an unknown verb (R185, 11.8). -/

namespace Sys2Proof

/-- The command a word of the table's bits spells. No row of the table has bits (its "fields" are all empty), so no
word spells a command. -/
def decodeTableWord (_nbits _w : Nat) : Option Instr := none

/-- How the manual writes a word of the line. -/
def Kw.text : Kw → Text
  | .BELL => ['B', 'E', 'L', 'L']
  | .BELL_Q => ['B', 'E', 'L', 'L', '?']
  | .COUNT_Q => ['C', 'O', 'U', 'N', 'T', '?']
  | .STRIKE => ['S', 'T', 'R', 'I', 'K', 'E']
  | .TEST => ['T', 'E', 'S', 'T']
  | .MEL => ['M', 'E', 'L']
  | .MEL_Q => ['M', 'E', 'L', '?']
  | .PLAY => ['P', 'L', 'A', 'Y']
  | .CANCEL => ['C', 'A', 'N', 'C', 'E', 'L']
  | .ADJUST => ['A', 'D', 'J', 'U', 'S', 'T']
  | .STOP => ['S', 'T', 'O', 'P']
  | .TOLL => ['T', 'O', 'L', 'L']
  | .ENTRY => ['E', 'N', 'T', 'R', 'Y']
  | .ENTRY_Q => ['E', 'N', 'T', 'R', 'Y', '?']
  | .HOLD => ['H', 'O', 'L', 'D']
  | .QUIET => ['Q', 'U', 'I', 'E', 'T']
  | .QUIET_Q => ['Q', 'U', 'I', 'E', 'T', '?']
  | .TIME => ['T', 'I', 'M', 'E']
  | .SYNC => ['S', 'Y', 'N', 'C']
  | .CUE => ['C', 'U', 'E']
  | .CUE_Q => ['C', 'U', 'E', '?']
  | .REPORT => ['R', 'E', 'P', 'O', 'R', 'T']
  | .REPORT_Q => ['R', 'E', 'P', 'O', 'R', 'T', '?']
  | .ID => ['I', 'D']
  | .STATUS => ['S', 'T', 'A', 'T', 'U', 'S']
  | .QUEUE_Q => ['Q', 'U', 'E', 'U', 'E', '?']
  | .SAVE => ['S', 'A', 'V', 'E']
  | .RESET => ['R', 'E', 'S', 'E', 'T']
  | .ENABLE => ['E', 'N', 'A', 'B', 'L', 'E']
  | .DISABLE => ['D', 'I', 'S', 'A', 'B', 'L', 'E']
  | .CLEAR => ['C', 'L', 'E', 'A', 'R']
  | .PULSE => ['P', 'U', 'L', 'S', 'E']
  | .FLIGHT => ['F', 'L', 'I', 'G', 'H', 'T']
  | .REARM => ['R', 'E', 'A', 'R', 'M']
  | .HEAT => ['H', 'E', 'A', 'T']
  | .DUTY => ['D', 'U', 'T', 'Y']
  | .SENSE => ['S', 'E', 'N', 'S', 'E']
  | .FITTED => ['F', 'I', 'T', 'T', 'E', 'D']
  | .ABSENT => ['A', 'B', 'S', 'E', 'N', 'T']
  | .POL => ['P', 'O', 'L']
  | .RISE => ['R', 'I', 'S', 'E']
  | .FALL => ['F', 'A', 'L', 'L']
  | .LEARN => ['L', 'E', 'A', 'R', 'N']
  | .ON => ['O', 'N']
  | .OFF => ['O', 'F', 'F']
  | .DEFAULT => ['D', 'E', 'F', 'A', 'U', 'L', 'T']
  | .READY => ['R', 'E', 'A', 'D', 'Y']
  | .BUCKET => ['B', 'U', 'C', 'K', 'E', 'T']
  | .STAMP => ['S', 'T', 'A', 'M', 'P']
  | .MISSES => ['M', 'I', 'S', 'S', 'E', 'S']
  | .HITS => ['H', 'I', 'T', 'S']
  | .LAST => ['L', 'A', 'S', 'T']
  | .NONE => ['N', 'O', 'N', 'E']
  | .FIRED => ['F', 'I', 'R', 'E', 'D']
  | .HIT => ['H', 'I', 'T']
  | .MISS => ['M', 'I', 'S', 'S']
  | .STRAY => ['S', 'T', 'R', 'A', 'Y']
  | .SLIP => ['S', 'L', 'I', 'P']
  | .THROTTLE => ['T', 'H', 'R', 'O', 'T', 'T', 'L', 'E']
  | .DROP => ['D', 'R', 'O', 'P']
  | .GOOD => ['G', 'O', 'O', 'D']
  | .SUSPECT => ['S', 'U', 'S', 'P', 'E', 'C', 'T']
  | .FAULTED => ['F', 'A', 'U', 'L', 'T', 'E', 'D']
  | .DISABLED => ['D', 'I', 'S', 'A', 'B', 'L', 'E', 'D']
  | .STUCK => ['S', 'T', 'U', 'C', 'K']
  | .FAULT => ['F', 'A', 'U', 'L', 'T']
  | .SUPPLY => ['S', 'U', 'P', 'P', 'L', 'Y']
  | .REPEAT => ['R', 'E', 'P', 'E', 'A', 'T']
  | .POWER => ['P', 'O', 'W', 'E', 'R']
  | .OPEN => ['O', 'P', 'E', 'N']
  | .ADD => ['A', 'D', 'D']
  | .CLOSE => ['C', 'L', 'O', 'S', 'E']
  | .DELETE => ['D', 'E', 'L', 'E', 'T', 'E']
  | .EMPTY => ['E', 'M', 'P', 'T', 'Y']
  | .RECORDS => ['R', 'E', 'C', 'O', 'R', 'D', 'S']
  | .NOTES => ['N', 'O', 'T', 'E', 'S']
  | .BARS => ['B', 'A', 'R', 'S']
  | .BLOCKS => ['B', 'L', 'O', 'C', 'K', 'S']
  | .FREE => ['F', 'R', 'E', 'E']
  | .TUNE => ['T', 'U', 'N', 'E']
  | .AT => ['A', 'T']
  | .CLOCK => ['C', 'L', 'O', 'C', 'K']
  | .TEMPO => ['T', 'E', 'M', 'P', 'O']
  | .TRANSPOSE => ['T', 'R', 'A', 'N', 'S', 'P', 'O', 'S', 'E']
  | .CAP => ['C', 'A', 'P']
  | .WAIT => ['W', 'A', 'I', 'T']
  | .QUEUED => ['Q', 'U', 'E', 'U', 'E', 'D']
  | .MERGED => ['M', 'E', 'R', 'G', 'E', 'D']
  | .LATEST => ['L', 'A', 'T', 'E', 'S', 'T']
  | .CANCELLED => ['C', 'A', 'N', 'C', 'E', 'L', 'L', 'E', 'D']
  | .PENDING => ['P', 'E', 'N', 'D', 'I', 'N', 'G']
  | .NOW => ['N', 'O', 'W']
  | .BAR => ['B', 'A', 'R']
  | .IDLE => ['I', 'D', 'L', 'E']
  | .ARMED => ['A', 'R', 'M', 'E', 'D']
  | .PLAYING => ['P', 'L', 'A', 'Y', 'I', 'N', 'G']
  | .DRAINING => ['D', 'R', 'A', 'I', 'N', 'I', 'N', 'G']
  | .STOPPING => ['S', 'T', 'O', 'P', 'P', 'I', 'N', 'G']
  | .HOUR12 => ['H', 'O', 'U', 'R', '1', '2']
  | .HOUR24 => ['H', 'O', 'U', 'R', '2', '4']
  | .FIXED => ['F', 'I', 'X', 'E', 'D']
  | .INTERVAL => ['I', 'N', 'T', 'E', 'R', 'V', 'A', 'L']
  | .LEVEL => ['L', 'E', 'V', 'E', 'L']
  | .MODE => ['M', 'O', 'D', 'E']
  | .AFTER => ['A', 'F', 'T', 'E', 'R']
  | .CUT => ['C', 'U', 'T']
  | .OVER => ['O', 'V', 'E', 'R']
  | .HOURS => ['H', 'O', 'U', 'R', 'S']
  | .MINUTES => ['M', 'I', 'N', 'U', 'T', 'E', 'S']
  | .SECOND => ['S', 'E', 'C', 'O', 'N', 'D']
  | .DAYS => ['D', 'A', 'Y', 'S']
  | .MONTHS => ['M', 'O', 'N', 'T', 'H', 'S']
  | .DATES => ['D', 'A', 'T', 'E', 'S']
  | .EXPIRY => ['E', 'X', 'P', 'I', 'R', 'Y']
  | .FORCE => ['F', 'O', 'R', 'C', 'E']
  | .CHANGED => ['C', 'H', 'A', 'N', 'G', 'E', 'D']
  | .LIVE => ['L', 'I', 'V', 'E']
  | .UNUSED => ['U', 'N', 'U', 'S', 'E', 'D']
  | .SILENCE => ['S', 'I', 'L', 'E', 'N', 'C', 'E']
  | .FROM => ['F', 'R', 'O', 'M']
  | .TO => ['T', 'O']
  | .MO => ['M', 'O']
  | .TU => ['T', 'U']
  | .WE => ['W', 'E']
  | .TH => ['T', 'H']
  | .FR => ['F', 'R']
  | .SA => ['S', 'A']
  | .SU => ['S', 'U']
  | .SET => ['S', 'E', 'T']
  | .SLEW => ['S', 'L', 'E', 'W']
  | .STEP => ['S', 'T', 'E', 'P']
  | .UNSET => ['U', 'N', 'S', 'E', 'T']
  | .ACQUIRE => ['A', 'C', 'Q', 'U', 'I', 'R', 'E']
  | .LOCKED => ['L', 'O', 'C', 'K', 'E', 'D']
  | .HOLDOVER => ['H', 'O', 'L', 'D', 'O', 'V', 'E', 'R']
  | .EDGE => ['E', 'D', 'G', 'E']
  | .BOTH => ['B', 'O', 'T', 'H']
  | .DEBOUNCE => ['D', 'E', 'B', 'O', 'U', 'N', 'C', 'E']
  | .ACTION => ['A', 'C', 'T', 'I', 'O', 'N']
  | .LATCH => ['L', 'A', 'T', 'C', 'H']
  | .HIGH => ['H', 'I', 'G', 'H']
  | .LOW => ['L', 'O', 'W']
  | .ACTIVE => ['A', 'C', 'T', 'I', 'V', 'E']
  | .ALL => ['A', 'L', 'L']
  | .VELISCA => ['V', 'E', 'L', 'I', 'S', 'C', 'A']
  | .TC56 => ['T', 'C', '5', '6']
  | .REV => ['R', 'E', 'V']
  | .A => ['A']
  | .N => ['N']
  | .C => ['C']
  | .RATE => ['R', 'A', 'T', 'E']
  | .STORE => ['S', 'T', 'O', 'R', 'E']
  | .BAD => ['B', 'A', 'D']
  | .BUSY => ['B', 'U', 'S', 'Y']
  | .WALL => ['W', 'A', 'L', 'L']
  | .PLAYQ => ['P', 'L', 'A', 'Y', 'Q']
  | .STRIKEQ => ['S', 'T', 'R', 'I', 'K', 'E', 'Q']
  | .COILS => ['C', 'O', 'I', 'L', 'S']
  | .REPORTQ => ['R', 'E', 'P', 'O', 'R', 'T', 'Q']
  | .LATCHED => ['L', 'A', 'T', 'C', 'H', 'E', 'D']
  | .DIP => ['D', 'I', 'P']
  | .LOST => ['L', 'O', 'S', 'T']
  | .RECOVERING => ['R', 'E', 'C', 'O', 'V', 'E', 'R', 'I', 'N', 'G']
  | .LINE => ['L', 'I', 'N', 'E']
  | .COMMAND => ['C', 'O', 'M', 'M', 'A', 'N', 'D']
  | .SCHEDULE => ['S', 'C', 'H', 'E', 'D', 'U', 'L', 'E']
  | .SOURCE => ['S', 'O', 'U', 'R', 'C', 'E']
  | .CLASS => ['C', 'L', 'A', 'S', 'S']
  | .MELODY => ['M', 'E', 'L', 'O', 'D', 'Y']
  | .START => ['S', 'T', 'A', 'R', 'T']
  | .ASAP => ['A', 'S', 'A', 'P']
  | .EFFECTIVE => ['E', 'F', 'F', 'E', 'C', 'T', 'I', 'V', 'E']
  | .YES => ['Y', 'E', 'S']
  | .NO => ['N', 'O']
  | .FIRE => ['F', 'I', 'R', 'E']
  | .ORIG => ['O', 'R', 'I', 'G']
  | .ONSET => ['O', 'N', 'S', 'E', 'T']
  | .ORIGIN => ['O', 'R', 'I', 'G', 'I', 'N']
  | .SERIAL => ['S', 'E', 'R', 'I', 'A', 'L']
  | .SLIPPED => ['S', 'L', 'I', 'P', 'P', 'E', 'D']
  | .DEADLINE => ['D', 'E', 'A', 'D', 'L', 'I', 'N', 'E']
  | .TAKEN => ['T', 'A', 'K', 'E', 'N']
  | .DONE => ['D', 'O', 'N', 'E']
  | .NOSCORE => ['N', 'O', 'S', 'C', 'O', 'R', 'E']
  | .THROTTLED => ['T', 'H', 'R', 'O', 'T', 'T', 'L', 'E', 'D']
  | .RANGE => ['R', 'A', 'N', 'G', 'E']
  | .OK => ['O', 'K']
  | .FAIL => ['F', 'A', 'I', 'L']

/-- Every word. -/
def Kw.all : List Kw := [
  .BELL, .BELL_Q, .COUNT_Q, .STRIKE, .TEST, .MEL, .MEL_Q, .PLAY, .CANCEL, .ADJUST, .STOP, .TOLL, .ENTRY,
  .ENTRY_Q, .HOLD, .QUIET, .QUIET_Q, .TIME, .SYNC, .CUE, .CUE_Q, .REPORT, .REPORT_Q, .ID, .STATUS, .QUEUE_Q,
  .SAVE, .RESET, .ENABLE, .DISABLE, .CLEAR, .PULSE, .FLIGHT, .REARM, .HEAT, .DUTY, .SENSE, .FITTED, .ABSENT,
  .POL, .RISE, .FALL, .LEARN, .ON, .OFF, .DEFAULT, .READY, .BUCKET, .STAMP, .MISSES, .HITS, .LAST, .NONE,
  .FIRED, .HIT, .MISS, .STRAY, .SLIP, .THROTTLE, .DROP, .GOOD, .SUSPECT, .FAULTED, .DISABLED, .STUCK,
  .FAULT, .SUPPLY, .REPEAT, .POWER, .OPEN, .ADD, .CLOSE, .DELETE, .EMPTY, .RECORDS, .NOTES, .BARS, .BLOCKS,
  .FREE, .TUNE, .AT, .CLOCK, .TEMPO, .TRANSPOSE, .CAP, .WAIT, .QUEUED, .MERGED, .LATEST, .CANCELLED,
  .PENDING, .NOW, .BAR, .IDLE, .ARMED, .PLAYING, .DRAINING, .STOPPING, .HOUR12, .HOUR24, .FIXED, .INTERVAL,
  .LEVEL, .MODE, .AFTER, .CUT, .OVER, .HOURS, .MINUTES, .SECOND, .DAYS, .MONTHS, .DATES, .EXPIRY, .FORCE,
  .CHANGED, .LIVE, .UNUSED, .SILENCE, .FROM, .TO, .MO, .TU, .WE, .TH, .FR, .SA, .SU, .SET, .SLEW, .STEP,
  .UNSET, .ACQUIRE, .LOCKED, .HOLDOVER, .EDGE, .BOTH, .DEBOUNCE, .ACTION, .LATCH, .HIGH, .LOW, .ACTIVE,
  .ALL, .VELISCA, .TC56, .REV, .A, .N, .C, .RATE, .STORE, .BAD, .BUSY, .WALL, .PLAYQ, .STRIKEQ, .COILS,
  .REPORTQ, .LATCHED, .DIP, .LOST, .RECOVERING, .LINE, .COMMAND, .SCHEDULE, .SOURCE, .CLASS, .MELODY,
  .START, .ASAP, .EFFECTIVE, .YES, .NO, .FIRE, .ORIG, .ONSET, .ORIGIN, .SERIAL, .SLIPPED, .DEADLINE,
  .TAKEN, .DONE, .NOSCORE, .THROTTLED, .RANGE, .OK, .FAIL]

/-- The word a field spells; words are matched in upper case as written (R185). -/
def readKw (t : Text) : Option Kw := Kw.all.find? (fun k => k.text == t)

/-- A decimal digit. -/
def isDigit (c : Char) : Bool := 48 ≤ c.toNat && c.toNat ≤ 57

/-- The pieces of a text between separators. -/
def splitOn (sep : Char) : Text → List Text
  | [] => [[]]
  | c :: cs =>
    if c = sep then [] :: splitOn sep cs
    else
      match splitOn sep cs with
      | [] => [[c]]
      | w :: ws => (c :: w) :: ws

/-- The fields of a text: its pieces between runs of spaces (R185). -/
def words (t : Text) : List Text := (splitOn ' ' t).filter (fun w => !w.isEmpty)

/-- The fields joined by single spaces. -/
def joinWords : List Text → Text
  | [] => []
  | [w] => w
  | w :: ws => w ++ ' ' :: joinWords ws

/-- R185: the tag a line begins with, 1 to 4 digits followed by a space or by nothing, and the text after it.
DEDUCED that a tag that ends the line is "a tag followed by nothing" (assumption 8). -/
def readTag (line : Text) : Option (Text × Text) :=
  let tag := line.takeWhile isDigit
  if 1 ≤ tag.length ∧ tag.length ≤ 4 then
    match line.drop tag.length with
    | [] => some (tag, [])
    | c :: rest => if c = ' ' then some (tag, rest) else none
  else none

/-- What a complete line is. -/
inductive RequestLine where
  /-- A request of the table. -/
  | request (command : Instr)
  /-- A known verb whose form is no request of the table: `ERR ARG`. -/
  | badArg (tag : Text)
  /-- No verb, or a verb the index does not give: `ERR UNKNOWN` (R185). -/
  | unknown (tag : Text)
  /-- No valid tag: `?? ERR BADLINE` (R185). -/
  | noTag
  deriving DecidableEq, Repr

/-- The request that follows a tag: its verb and its fields (R185, 11.8). -/
def readVerb (tag : Text) : List Text → RequestLine
  | [] => .unknown tag
  | verb :: args =>
    match readKw verb with
    | some .BELL =>
      match args with
      | b :: w :: more =>
        match readKw w with
        | some .DISABLE => .request (.bellDisable tag b more)
        | some .ENABLE => .request (.bellEnable tag b more)
        | some .CLEAR => .request (.bellClear tag b more)
        | _ => .request (.bell tag args)
      | _ => .request (.bell tag args)
    | some .BELL_Q => .request (.bellRead tag args)
    | some .COUNT_Q =>
      match args with
      | b :: w :: more =>
        match readKw w with
        | some .CLEAR => .request (.countClear tag b more)
        | _ => .request (.countRead tag args)
      | _ => .request (.countRead tag args)
    | some .STRIKE => .request (.strike tag args)
    | some .TEST => .request (.test tag args)
    | some .MEL =>
      match args with
      | m :: w :: rest =>
        match readKw w with
        | some .OPEN => .request (.melOpen tag m rest)
        | some .ADD => .request (.melAdd tag m rest)
        | some .CLOSE => .request (.melClose tag m rest)
        | some .DELETE => .request (.melDelete tag m rest)
        | _ => .badArg tag
      | _ => .badArg tag
    | some .MEL_Q => .request (.melRead tag args)
    | some .PLAY => .request (.play tag args)
    | some .CANCEL => .request (.cancel tag args)
    | some .ADJUST => .request (.adjust tag args)
    | some .STOP =>
      match args with
      | lane :: w :: more =>
        match readKw w with
        | some .NOW => .request (.stopNow tag lane more)
        | some .BAR => .request (.stopBar tag lane more)
        | _ => .badArg tag
      | _ => .badArg tag
    | some .TOLL => .request (.toll tag args)
    | some .ENTRY =>
      match args with
      | k :: w :: more =>
        match readKw w with
        | some .CLEAR => .request (.entryClear tag k more)
        | _ => .request (.entry tag args)
      | _ => .request (.entry tag args)
    | some .ENTRY_Q => .request (.entryRead tag args)
    | some .HOLD =>
      match args with
      | w :: more =>
        match readKw w with
        | some .ON => .request (.holdOn tag more)
        | some .OFF => .request (.holdOff tag more)
        | _ => .badArg tag
      | _ => .badArg tag
    | some .QUIET =>
      match args with
      | q :: w :: more =>
        match readKw w with
        | some .CLEAR => .request (.quietClear tag q more)
        | _ => .request (.quiet tag args)
      | _ => .request (.quiet tag args)
    | some .QUIET_Q => .request (.quietRead tag args)
    | some .TIME => .request (.time tag args)
    | some .SYNC =>
      match args with
      | w :: more =>
        match readKw w with
        | some .FREE => .request (.syncFree tag more)
        | some .PULSE => .request (.syncPulse tag more)
        | _ => .badArg tag
      | _ => .badArg tag
    | some .CUE =>
      match args with
      | c :: w :: more =>
        match readKw w with
        | some .ENABLE => .request (.cueEnable tag c more)
        | some .DISABLE => .request (.cueDisable tag c more)
        | some .CLEAR => .request (.cueClear tag c more)
        | _ => .request (.cue tag args)
      | _ => .request (.cue tag args)
    | some .CUE_Q => .request (.cueRead tag args)
    | some .REPORT => .request (.report tag args)
    | some .REPORT_Q => .request (.reportRead tag args)
    | some .ID => .request (.identity tag args)
    | some .STATUS => .request (.status tag args)
    | some .QUEUE_Q =>
      match args with
      | [] => .request (.queueSummary tag)
      | w :: more =>
        match readKw w with
        | some .PLAY => .request (.queuePlayItem tag more)
        | some .STRIKE => .request (.queueStrikeItem tag more)
        | some .WAIT => .request (.queueWaitItem tag more)
        | _ => .badArg tag
    | some .SAVE => .request (.save tag args)
    | some .RESET => .request (.reset tag args)
    | _ => .unknown tag

/-- R185: what a complete line is. The rule gives the tag one space and says "one or more spaces" only between the verb
and its arguments; the model reads a tag followed by several spaces as the request too (assumption 8). -/
def readRequest (line : Text) : RequestLine :=
  match readTag line with
  | none => .noTag
  | some (tag, rest) => readVerb tag (words rest)

/-- The tag and the fields of the line that is a request command; `none` for a command that is no request. -/
def Instr.fields : Instr → Option (Text × List Text)
  | .bell tag fields => some (tag, Kw.BELL.text :: fields)
  | .bellDisable tag b more => some (tag, Kw.BELL.text :: b :: Kw.DISABLE.text :: more)
  | .bellEnable tag b more => some (tag, Kw.BELL.text :: b :: Kw.ENABLE.text :: more)
  | .bellClear tag b more => some (tag, Kw.BELL.text :: b :: Kw.CLEAR.text :: more)
  | .bellRead tag fields => some (tag, Kw.BELL_Q.text :: fields)
  | .countRead tag fields => some (tag, Kw.COUNT_Q.text :: fields)
  | .countClear tag b more => some (tag, Kw.COUNT_Q.text :: b :: Kw.CLEAR.text :: more)
  | .strike tag fields => some (tag, Kw.STRIKE.text :: fields)
  | .test tag fields => some (tag, Kw.TEST.text :: fields)
  | .melOpen tag m args => some (tag, Kw.MEL.text :: m :: Kw.OPEN.text :: args)
  | .melAdd tag m args => some (tag, Kw.MEL.text :: m :: Kw.ADD.text :: args)
  | .melClose tag m more => some (tag, Kw.MEL.text :: m :: Kw.CLOSE.text :: more)
  | .melDelete tag m more => some (tag, Kw.MEL.text :: m :: Kw.DELETE.text :: more)
  | .melRead tag fields => some (tag, Kw.MEL_Q.text :: fields)
  | .play tag fields => some (tag, Kw.PLAY.text :: fields)
  | .cancel tag fields => some (tag, Kw.CANCEL.text :: fields)
  | .adjust tag fields => some (tag, Kw.ADJUST.text :: fields)
  | .stopNow tag lane more => some (tag, Kw.STOP.text :: lane :: Kw.NOW.text :: more)
  | .stopBar tag lane more => some (tag, Kw.STOP.text :: lane :: Kw.BAR.text :: more)
  | .toll tag fields => some (tag, Kw.TOLL.text :: fields)
  | .entry tag fields => some (tag, Kw.ENTRY.text :: fields)
  | .entryClear tag k more => some (tag, Kw.ENTRY.text :: k :: Kw.CLEAR.text :: more)
  | .entryRead tag fields => some (tag, Kw.ENTRY_Q.text :: fields)
  | .holdOn tag more => some (tag, Kw.HOLD.text :: Kw.ON.text :: more)
  | .holdOff tag more => some (tag, Kw.HOLD.text :: Kw.OFF.text :: more)
  | .quiet tag fields => some (tag, Kw.QUIET.text :: fields)
  | .quietClear tag q more => some (tag, Kw.QUIET.text :: q :: Kw.CLEAR.text :: more)
  | .quietRead tag fields => some (tag, Kw.QUIET_Q.text :: fields)
  | .time tag fields => some (tag, Kw.TIME.text :: fields)
  | .syncFree tag more => some (tag, Kw.SYNC.text :: Kw.FREE.text :: more)
  | .syncPulse tag more => some (tag, Kw.SYNC.text :: Kw.PULSE.text :: more)
  | .cue tag fields => some (tag, Kw.CUE.text :: fields)
  | .cueEnable tag c more => some (tag, Kw.CUE.text :: c :: Kw.ENABLE.text :: more)
  | .cueDisable tag c more => some (tag, Kw.CUE.text :: c :: Kw.DISABLE.text :: more)
  | .cueClear tag c more => some (tag, Kw.CUE.text :: c :: Kw.CLEAR.text :: more)
  | .cueRead tag fields => some (tag, Kw.CUE_Q.text :: fields)
  | .report tag fields => some (tag, Kw.REPORT.text :: fields)
  | .reportRead tag more => some (tag, Kw.REPORT_Q.text :: more)
  | .identity tag more => some (tag, Kw.ID.text :: more)
  | .status tag more => some (tag, Kw.STATUS.text :: more)
  | .queueSummary tag => some (tag, [Kw.QUEUE_Q.text])
  | .queuePlayItem tag fields => some (tag, Kw.QUEUE_Q.text :: Kw.PLAY.text :: fields)
  | .queueStrikeItem tag fields => some (tag, Kw.QUEUE_Q.text :: Kw.STRIKE.text :: fields)
  | .queueWaitItem tag fields => some (tag, Kw.QUEUE_Q.text :: Kw.WAIT.text :: fields)
  | .save tag more => some (tag, Kw.SAVE.text :: more)
  | .reset tag more => some (tag, Kw.RESET.text :: more)
  | .powerOnReset _ => none
  | .resetLineFall => none
  | .resetLineRise _ => none
  | .warmResetCommand _ => none
  | .lineReceived => none
  | .lineExecute => none
  | .transmitLine => none
  | .dispatch => none
  | .coilRelease _ => none
  | .coilWaitDeadline _ => none
  | .senseActiveEdge _ => none
  | .senseReleaseEdge _ => none
  | .windowEnd _ => none
  | .stuckTimeout _ => none
  | .expired _ => none
  | .tuneTake => none
  | .expandRecord => none
  | .tollTake => none
  | .expandStroke => none
  | .cutOrder _ => none
  | .secondBoundary => none
  | .slewTick => none
  | .wallClockRangeEnd => none
  | .secpulseEdge => none
  | .pulseLoss => none
  | .cueLineChange _ => none
  | .cueDebounceExpire _ => none
  | .supgoodFall => none
  | .supgoodRise => none
  | .supplyLost => none
  | .supplyGood => none
  | .saveComplete _ => none
  | .saveTimeout => none
  | .characterReceived _ _ => none

/-- The line that is a request command, its fields one space apart. -/
def encode (i : Instr) : Option Text :=
  i.fields.map (fun (tag, fields) => tag ++ ' ' :: joinWords fields)

end Sys2Proof
end

