-- ==== Sys2Proof/Machine/Calendar.lean ====
section
/-! DEFINITION. The civil calendar of the wall clock: whole seconds from 2000-01-01 00:00:00 to and from dates (R147,
R160). Every fourth year from 2000 to 2096 is a leap year and every day has 86,400 seconds. -/

namespace Sys2Proof.Machine

/-- Seconds in the wall clock's range: the count at 2100-01-01 00:00:00 (R160). -/
def wallEnd : Nat := 36525 * 86400

/-- Grains in a second. -/
def grainsPerSecond : Nat := 10000

/-- The lengths of the months. -/
def monthLengths (leap : Bool) : List Nat :=
  [31, if leap then 29 else 28, 31, 30, 31, 30, 31, 31, 30, 31, 30, 31]

/-- The month (from `month`) and day of the month of a day counted from 0 within the months listed. -/
def monthOfDay : List Nat → Nat → Nat → Nat × Nat
  | [], month, day => (month, day + 1)
  | len :: rest, month, day => if day < len then (month, day + 1) else monthOfDay rest (month + 1) (day - len)

/-- A date and time of day. -/
structure Civil where
  year : Nat
  month : Nat
  day : Nat
  hour : Nat
  minute : Nat
  second : Nat
  /-- 0 (MO) to 6 (SU). -/
  weekday : Nat
  deriving DecidableEq, Repr

/-- The weekday of a day counted from 2000-01-01, which is a Saturday (R147). -/
def weekdayOf (day : Nat) : Nat := (day + 5) % 7

/-- The date and time of a wall instant. -/
def civil (instant : Nat) : Civil :=
  let day := instant / 86400
  let inCycle := day % 1461
  let yearInCycle := if inCycle < 366 then 0 else 1 + (inCycle - 366) / 365
  let dayOfYear := if inCycle < 366 then inCycle else (inCycle - 366) % 365
  let (month, dayOfMonth) := monthOfDay (monthLengths (yearInCycle == 0)) 1 dayOfYear
  { year := 2000 + day / 1461 * 4 + yearInCycle
    month := month
    day := dayOfMonth
    hour := instant / 3600 % 24
    minute := instant / 60 % 60
    second := instant % 60
    weekday := weekdayOf day }

/-- Whether a year of the range is a leap year. -/
def isLeap (year : Nat) : Bool := year % 4 == 0

/-- Days from 2000-01-01 to the first day of a year of the range. -/
def daysBeforeYear (year : Nat) : Nat := (year - 2000) * 365 + (year - 2000 + 3) / 4

/-- The wall instant of a date and time, if they name one within the range (R105, R160, R163). -/
def instantOf (year month day hour minute second : Nat) : Option Nat :=
  let lengths := monthLengths (isLeap year)
  if 2000 ≤ year ∧ year ≤ 2099 ∧ 1 ≤ month ∧ month ≤ 12 ∧ 1 ≤ day ∧ day ≤ lengths.getD (month - 1) 0
      ∧ hour ≤ 23 ∧ minute ≤ 59 ∧ second ≤ 59 then
    let days := daysBeforeYear year + (lengths.take (month - 1)).sum + (day - 1)
    some (days * 86400 + hour * 3600 + minute * 60 + second)
  else none

end Sys2Proof.Machine
end

