-- ==== Sys2Proof/Machine/Render.lean ====
section
/-! DEFINITION. The text of the lines the TC56 sends: how each field is written, and how long a line takes to send
(R185, R187, R188, and the reply and report forms of every chapter). -/

namespace Sys2Proof.Machine

/-- A number in decimal, without separators or leading zeros (Conventions of 00_scope.md). -/
def decimal (n : Nat) : Text := Nat.toDigits 10 n

/-- A number of at most `width` digits, filled with leading zeros. -/
def padded (width n : Nat) : Text :=
  let d := decimal n
  List.replicate (width - d.length) '0' ++ d

/-- yyyy-mm-dd (R163). -/
def dateText (instant : Nat) : Text :=
  let c := civil instant
  padded 4 c.year ++ '-' :: padded 2 c.month ++ '-' :: padded 2 c.day

/-- hh:mm:ss (R163). -/
def timeText (instant : Nat) : Text :=
  let c := civil instant
  padded 2 c.hour ++ ':' :: padded 2 c.minute ++ ':' :: padded 2 c.second

/-- The names of the maskable report kinds (R188). -/
def kindText : Kind → Text
  | .clock => ['C', 'L', 'O', 'C', 'K']
  | .set => ['S', 'E', 'T']
  | .step => ['S', 'T', 'E', 'P']
  | .play => ['P', 'L', 'A', 'Y']
  | .ended => ['E', 'N', 'D']
  | .expired => ['E', 'X', 'P', 'I', 'R', 'E', 'D']
  | .dropped => ['D', 'R', 'O', 'P', 'P', 'E', 'D']
  | .missed => ['M', 'I', 'S', 'S', 'E', 'D']
  | .quiet => ['Q', 'U', 'I', 'E', 'T']
  | .health => ['H', 'E', 'A', 'L', 'T', 'H']
  | .supply => ['S', 'U', 'P', 'P', 'L', 'Y']
  | .saved => ['S', 'A', 'V', 'E', 'D']

/-- The maskable kinds in the order of R188. -/
def allKinds : List Kind :=
  [.clock, .set, .step, .play, .ended, .expired, .dropped, .missed, .quiet, .health, .supply, .saved]

/-- The place of a kind in `allKinds`, from 1. -/
def kindNumber : Kind → Nat
  | .clock => 1
  | .set => 2
  | .step => 3
  | .play => 4
  | .ended => 5
  | .expired => 6
  | .dropped => 7
  | .missed => 8
  | .quiet => 9
  | .health => 10
  | .supply => 11
  | .saved => 12

/-- The name of a report kind (R188). -/
def reportKindText : ReportKind → Text
  | .start => ['S', 'T', 'A', 'R', 'T']
  | .overrun => ['O', 'V', 'E', 'R', 'R', 'U', 'N']
  | .maskable k => kindText k

/-- The error codes as R185 writes them. -/
def errText : ErrCode → Text
  | .badline => ['B', 'A', 'D', 'L', 'I', 'N', 'E']
  | .unknown => ['U', 'N', 'K', 'N', 'O', 'W', 'N']
  | .arg => ['A', 'R', 'G']
  | .busy => ['B', 'U', 'S', 'Y']
  | .locked => ['L', 'O', 'C', 'K', 'E', 'D']
  | .full => ['F', 'U', 'L', 'L']
  | .qfull => ['Q', 'F', 'U', 'L', 'L']
  | .notready => ['N', 'O', 'T', 'R', 'E', 'A', 'D', 'Y']
  | .unset => ['U', 'N', 'S', 'E', 'T']

/-- A signed number: a minus sign below 0, and a plus sign otherwise only where `plus` says so (R162). -/
def signedText (plus : Bool) (x : Int) : Text :=
  if x < 0 then '-' :: decimal x.natAbs
  else if plus then '+' :: decimal x.natAbs
  else decimal x.natAbs

/-- One field as it stands on the line. -/
def fldText : Fld → Text
  | .word w => w.text
  | .kind k => kindText k
  | .num n => decimal n
  | .int x => signedText false x
  | .signed x => signedText true x
  | .wall t => dateText t ++ ' ' :: timeText t
  | .text t => t

/-- A line as it stands between its first character and its CR (R185, R188). -/
def lineText : Line → Text
  | .ok tag fields => joinWords (tag :: Kw.OK.text :: fields.map fldText)
  | .error tag code => joinWords [tag, ['E', 'R', 'R'], errText code]
  | .report kind fields => '!' :: joinWords (reportKindText kind :: fields.map fldText)

/-- How long a line takes to send at a rate in bits per second, in grains, rounded up: 10 bit times (a start bit, 8
data bits and a stop bit) for each character, its CR and LF among them. DEDUCED from "8 data bits, no parity, 1 stop
bit" and from the 960 characters a second R186 gives for 9600; assumption 9. -/
def sendGrains (rate : Nat) (line : Line) : Nat :=
  (((lineText line).length + 2) * 10 * 10000 + (rate - 1)) / rate

end Sys2Proof.Machine
end

