-- ==== Sys2Proof/Machine/Operands.lean ====
section
/-! DEFINITION. The operand forms of the requests: how numbers, dates, lists, score records and options are read from
the fields of a line. Each reader answers `none` where its rule refuses the field with ERR ARG. -/

namespace Sys2Proof.Machine

/-- The value of a run of digits. -/
def digitsValue (t : Text) : Nat := t.foldl (fun v c => v * 10 + (c.toNat - 48)) 0

/-- An unsigned decimal number of any length. -/
def readNat (t : Text) : Option Nat :=
  if !t.isEmpty && t.all isDigit then some (digitsValue t) else none

/-- An unsigned decimal number of 1 to `most` digits. -/
def readNum (most : Nat) (t : Text) : Option Nat :=
  if t.length ≤ most then readNat t else none

/-- A decimal number of 1 to `most` digits with an optional sign (R105). -/
def readInt (most : Nat) : Text → Option Int
  | [] => none
  | c :: cs =>
    if c = '+' then (readNum most cs).map Int.ofNat
    else if c = '-' then (readNum most cs).map (fun n => -(Int.ofNat n))
    else (readNum most (c :: cs)).map Int.ofNat

/-- A number within a range. -/
def within (lo hi : Nat) (n : Nat) : Option Nat := if lo ≤ n ∧ n ≤ hi then some n else none

/-- A decimal number within a range. -/
def readWithin (lo hi : Nat) (t : Text) : Option Nat := (readNat t).bind (within lo hi)

/-- A decimal number of 1..6 digits within a range. -/
def readWithin6 (lo hi : Nat) (t : Text) : Option Nat := (readNum 6 t).bind (within lo hi)

/-- A decimal number of 1..15 digits within a range. -/
def readWithin15 (lo hi : Nat) (t : Text) : Option Nat := (readNum 15 t).bind (within lo hi)

/-- A number of exactly `width` digits. -/
def readFixed (width : Nat) (t : Text) : Option Nat := if t.length = width then readNat t else none

/-- A wall instant written yyyy-mm-dd hh:mm:ss (R105, R163). -/
def readWall (date time : Text) : Option Nat :=
  match splitOn '-' date, splitOn ':' time with
  | [y, m, d], [hh, mm, ss] => do
    let y ← readFixed 4 y
    let m ← readFixed 2 m
    let d ← readFixed 2 d
    let hh ← readFixed 2 hh
    let mm ← readFixed 2 mm
    let ss ← readFixed 2 ss
    instantOf y m d hh mm ss
  | _, _ => none

/-- A time of day written hh:mm, in minutes (R150). -/
def readClock (t : Text) : Option Nat :=
  match splitOn ':' t with
  | [hh, mm] => do
    let hh ← (readFixed 2 hh).bind (within 0 23)
    let mm ← (readFixed 2 mm).bind (within 0 59)
    pure (hh * 60 + mm)
  | _ => none

/-- A day and month written dd-mm, a day the month has in a leap year (R140). -/
def readDayMonth (t : Text) : Option DayMonth :=
  match splitOn '-' t with
  | [dd, mm] => do
    let dd ← readFixed 2 dd
    let mm ← (readFixed 2 mm).bind (within 1 12)
    let dd ← within 1 ((monthLengths true).getD (mm - 1) 0) dd
    pure ⟨dd, mm⟩
  | _ => none

/-- One item of a list of hours or months: a number, or a range a-b with a at most b (R140). -/
def readSpan (lo hi : Nat) (t : Text) : Option (List Nat) :=
  match splitOn '-' t with
  | [a] => (readWithin6 lo hi a).map (fun a => [a])
  | [a, b] => do
    let a ← readWithin6 lo hi a
    let b ← readWithin6 lo hi b
    if a ≤ b then pure (List.range' a (b + 1 - a)) else none
  | _ => none

/-- A set of numbers as its ascending list. -/
def ascending (lo hi : Nat) (xs : List Nat) : List Nat := (List.range' lo (hi + 1 - lo)).filter (fun x => xs.contains x)

/-- A comma-separated list of numbers and ranges, or `*` for all (R140). -/
def readSet (lo hi : Nat) (t : Text) : Option (List Nat) :=
  if t = ['*'] then some (List.range' lo (hi + 1 - lo))
  else ((splitOn ',' t).mapM (readSpan lo hi)).map (fun xs => ascending lo hi xs.flatten)

/-- 1..4 distinct minutes, separated by commas (R140). -/
def readMinutes (t : Text) : Option (List Nat) := do
  let xs ← (splitOn ',' t).mapM (readWithin6 0 59)
  if xs.length ≤ 4 ∧ xs.Nodup then pure (ascending 0 59 xs) else none

/-- The number of a weekday: 0 (MO) to 6 (SU). -/
def readDay (t : Text) : Option Nat :=
  match readKw t with
  | some .MO => some 0
  | some .TU => some 1
  | some .WE => some 2
  | some .TH => some 3
  | some .FR => some 4
  | some .SA => some 5
  | some .SU => some 6
  | _ => none

/-- A comma-separated list of weekdays, or `*` for all (R140, R150). -/
def readDays (t : Text) : Option (List Nat) :=
  if t = ['*'] then some (List.range 7) else ((splitOn ',' t).mapM readDay).map (ascending 0 6)

/-- ON or OFF. -/
def readOnOff (t : Text) : Option Bool :=
  match readKw t with
  | some .ON => some true
  | some .OFF => some false
  | _ => none

/-- A level field of BELL, 1..7 (R6). R6 has a bullet of its own for a level, with no length, and the 1..6 digits of its
bullet on values are read as not binding it: a level may have any number of digits (DESIGN CHOICE; assumption 19). -/
def readLevel (t : Text) : Option Nat := readWithin 1 7 t

/-- A score record field (R83). -/
def readRecord (t : Text) : Option ScoreRecord :=
  match splitOn '/' t with
  | [k, delta, bell, level] =>
    if k = ['N'] then do
      let delta ← readWithin6 0 4095 delta
      let bell ← readWithin6 1 64 bell
      let level ← readWithin6 1 7 level
      pure (.note delta bell level)
    else none
  | [k, delta, beat] =>
    if k = ['T'] then do
      let delta ← readWithin6 0 4095 delta
      let beat ← readWithin6 2500 30000 beat
      pure (.tempo delta beat)
    else none
  | [k, delta] =>
    if k = ['R'] then (readWithin6 0 4095 delta).map .rest
    else if k = ['B'] then (readWithin6 0 4095 delta).map .bar
    else none
  | _ => none

/-- A melody name: 1..16 characters "!" to "~" (R84). -/
def readName (t : Text) : Option Text :=
  if 1 ≤ t.length ∧ t.length ≤ 16 ∧ t.all (fun c => 33 ≤ c.toNat && c.toNat ≤ 126) then some t else none

/-- R126, R127: a count rule and the fields after it, its count a number of at most `most` digits. -/
def readRule (most : Nat) : List Text → Option (CountRule × List Text)
  | [] => none
  | w :: rest =>
    match readKw w with
    | some .HOUR12 => some (.hour12, rest)
    | some .HOUR24 => some (.hour24, rest)
    | some .FIXED =>
      match rest with
      | [] => none
      | n :: rest => ((readNum most n).bind (within 1 24)).map (fun n => (.fixed n, rest))
    | _ => none

/-- The options of PLAY, TOLL, ADJUST and of the actions of ENTRY and CUE; `none` where not given. -/
structure Options where
  /-- AT: a wall instant. -/
  atTime : Option Nat := none
  /-- CLOCK: a strike-clock value. -/
  clock : Option Nat := none
  tempo : Option Nat := none
  transpose : Option Int := none
  cap : Option Nat := none
  repeats : Option Nat := none
  slip : Option Nat := none
  /-- WAIT, in seconds. -/
  wait : Option Nat := none
  interval : Option Nat := none
  level : Option Nat := none
  mode : Option TollMode := none
  deriving DecidableEq, Repr

/-- A toll mode word. -/
def readMode (t : Text) : Option TollMode :=
  match readKw t with
  | some .AFTER => some .after
  | some .CUT => some .cut
  | some .OVER => some .over
  | _ => none

/-- Write an option that has not been given yet; an option that stands twice is refused. -/
def once {α : Type} (held : Option α) (value : Option α) (write : α → Options) : Option Options :=
  match held with
  | some _ => none
  | none => value.map write

/-- One option read from the front of the fields, its value's number limited to `most` digits. -/
def readOption (most : Nat) (allowed : List Kw) (o : Options) : List Text → Option (Options × List Text)
  | w :: v :: rest =>
    match readKw w with
    | none => none
    | some k =>
      if !allowed.contains k then none
      else
        match k with
        | .AT =>
          match rest with
          | [] => none
          | time :: rest =>
            if o.clock.isSome then none
            else (once o.atTime (readWall v time) (fun t => { o with atTime := some t })).map (·, rest)
        | .CLOCK =>
          if o.atTime.isSome then none
          else (once o.clock (readNum most v) (fun n => { o with clock := some n })).map (·, rest)
        | .TEMPO => (once o.tempo (readNum most v) (fun n => { o with tempo := some n })).map (·, rest)
        | .TRANSPOSE => (once o.transpose (readInt most v) (fun x => { o with transpose := some x })).map (·, rest)
        | .CAP => (once o.cap (readNum most v) (fun n => { o with cap := some n })).map (·, rest)
        | .REPEAT =>
          (once o.repeats ((readNum most v).bind (within 1 4)) (fun n => { o with repeats := some n })).map (·, rest)
        | .SLIP => (once o.slip (readNum most v) (fun n => { o with slip := some n })).map (·, rest)
        | .WAIT => (once o.wait (readNum most v) (fun n => { o with wait := some n })).map (·, rest)
        | .INTERVAL =>
          (once o.interval ((readNum most v).bind (within 5000 50000)) (fun n => { o with interval := some n })).map
            (·, rest)
        | .LEVEL => (once o.level (readNum most v) (fun n => { o with level := some n })).map (·, rest)
        | .MODE => (once o.mode (readMode v) (fun m => { o with mode := some m })).map (·, rest)
        | _ => none
  | _ => none

/-- The options that make up the rest of a line, in any order; `fuel` bounds their number. -/
def readOptionsFrom (most : Nat) (allowed : List Kw) : Nat → Options → List Text → Option Options
  | _, o, [] => some o
  | 0, _, _ :: _ => none
  | fuel + 1, o, w :: ws =>
    match readOption most allowed o (w :: ws) with
    | none => none
    | some (o, rest) => readOptionsFrom most allowed fuel o rest

/-- The options that make up the rest of a line. -/
def readOptions (most : Nat) (allowed : List Kw) (ws : List Text) : Option Options :=
  readOptionsFrom most allowed ws.length {} ws

/-- The nearer end of a range (R1, R5). -/
def clamp (lo hi n : Nat) : Nat := max lo (min hi n)

/-- The nearer end of a signed range. -/
def clampInt (lo hi x : Int) : Int := max lo (min hi x)

/-- A level clamped to 1..7. -/
def clampLevel (n : Nat) : Nat := clamp 1 7 n

/-- R98: the TUNE fields the options give, clamped, with their defaults. -/
def Options.tuneSpec (o : Options) (melody : Nat) : TuneSpec where
  melody := melody
  tempo := clamp 50 200 (o.tempo.getD 100)
  transpose := clampInt (-12) 12 (o.transpose.getD 0)
  repeats := o.repeats.getD 1

/-- R126: the toll spec the options give, the level clamped, with its defaults. -/
def Options.tollSpec (o : Options) (rule : CountRule) (bell : Nat) : TollSpec where
  rule := rule
  bell := bell
  interval := o.interval.getD 20000
  level := clampLevel (o.level.getD 6)
  mode := o.mode.getD .after

/-- R98: the level cap the options give, clamped. -/
def Options.capOf (o : Options) : Nat := clampLevel (o.cap.getD 7)

/-- R98: the slip limit the options give, clamped. -/
def Options.slipOf (o : Options) : Nat := clamp 0 1000 (o.slip.getD 150)

/-- The wait the options give, in seconds, refused beyond `most` (R105, R127, R179). -/
def Options.waitOf (o : Options) (most : Nat) : Option Nat := within 0 most (o.wait.getD 120)

end Sys2Proof.Machine
end

