-- ==== Sys2Proof/Machine/Ops.lean ====
section
/-! DEFINITION. The named operations over the state that every block shares: reading and writing the numbered tables,
the two clocks, making replies and posting reports, and the frame in which an event or a request is taken. -/

namespace Sys2Proof.Machine

/-! ## Numbered tables -/

/-- Slot `k` of a table numbered from 1; `d` for a number outside it. -/
def slot {α : Type} {n : Nat} (v : Table α n) (k : Nat) (d : α) : α :=
  if k = 0 then d else (v[k - 1]?).getD d

/-- The table with slot `k` replaced; a number outside it changes nothing. -/
def setSlot {α : Type} {n : Nat} (v : Table α n) (k : Nat) (x : α) : Table α n :=
  if k = 0 then v else v.setIfInBounds (k - 1) x

/-- What is read for a bell number outside 1..64, which no command names. -/
def noBell : Bell := Bell.powerOn Calibration.default false

/-- The record of bell `b`. -/
def State.bell (s : State) (b : Nat) : Bell := slot s.bells b noBell

/-- Write the record of bell `b`. -/
def State.setBell (s : State) (b : Nat) (r : Bell) : State := { s with bells := setSlot s.bells b r }

/-- Change the record of bell `b`. -/
def State.modBell (s : State) (b : Nat) (f : Bell → Bell) : State := s.setBell b (f (s.bell b))

/-- The header of melody `m`. -/
def State.melody (s : State) (m : Nat) : Melody := slot s.melodies m {}

/-- Write the header of melody `m`. -/
def State.setMelody (s : State) (m : Nat) (h : Melody) : State := { s with melodies := setSlot s.melodies m h }

/-- The record of cue `c`. -/
def State.cue (s : State) (c : Nat) : Cue := slot s.cues c { settled := true }

/-- Write the record of cue `c`. -/
def State.setCue (s : State) (c : Nat) (r : Cue) : State := { s with cues := setSlot s.cues c r }

/-- The level of the sense line of bell `b`, high when true. -/
def State.senseLevel (s : State) (b : Nat) : Bool := slot s.pins.sense b true

/-- The level of cue line `c`, high when true. -/
def State.cueLevel (s : State) (c : Nat) : Bool := slot s.pins.cue c true

/-- Change the timebase. -/
def State.modTime (s : State) (f : Timebase → Timebase) : State := { s with time := f s.time }

/-- Change the record of the TUNE lane, if it is not IDLE. -/
def State.modTune (s : State) (f : TuneLane → TuneLane) : State := { s with tune := s.tune.map f }

/-- Change the record of the TOLL lane, if it is not IDLE. -/
def State.modToll (s : State) (f : TollLane → TollLane) : State := { s with toll := s.toll.map f }

/-! ## Clocks -/

/-- now: the strike clock. -/
def State.now (s : State) : Nat := s.time.now

/-- The wall clock, in grains from 2000-01-01 00:00:00.0000 (R160). -/
def State.wall (s : State) : Int := (s.now : Int) + s.time.offset

/-- The wall clock to the second. -/
def State.wallSecond (s : State) : Nat := (s.wall / 10000).toNat

/-- The strike-clock equivalent of a wall instant at the offset held now (R105, R149). -/
def State.equivalent (s : State) (instant : Nat) : Int := (instant : Int) * 10000 - s.time.offset

/-! ## Counters -/

/-- R17: a 16-bit counter that saturates. -/
def bump16 (n : Nat) : Nat := min (n + 1) 65535

/-! ## Lines -/

/-- R188: post a report at the serial line: latched if its kind is masked, queued if there is room, and otherwise
discarded and counted. -/
def Serial.post (l : Serial) (kind : ReportKind) (fields : List Fld) : Serial :=
  let queue : Serial :=
    if l.reports.length < 32 then
      { l with reports := l.reports ++ [⟨l.made, .report kind fields⟩], made := l.made + 1 }
    else { l with discards := bump16 l.discards }
  match kind with
  | .maskable k =>
    if slot l.mask (kindNumber k) true then queue else { l with latched := setSlot l.latched (kindNumber k) true }
  | _ => queue

/-- Post a report of a maskable kind. -/
def State.post (s : State) (kind : Kind) (fields : List Fld) : State :=
  { s with serial := s.serial.post (.maskable kind) fields }

/-- R185, R186: the reply of the executed line. -/
def Serial.reply (l : Serial) (line : Line) : Serial :=
  { l with executed := some ⟨l.made, line⟩, made := l.made + 1 }

/-- Reply `tag OK` and the fields. -/
def State.ok (s : State) (tag : Text) (fields : List Fld) : State := { s with serial := s.serial.reply (.ok tag fields) }

/-- Reply `tag ERR code`. -/
def State.err (s : State) (tag : Text) (code : ErrCode) : State := { s with serial := s.serial.reply (.error tag code) }

/-- R187: a refusal reply made at a line's arrival; with 4 refusals waiting it is not queued. -/
def Serial.refuse (l : Serial) (line : Line) : Serial :=
  if l.refusals.length < 4 then { l with refusals := l.refusals ++ [⟨l.made, line⟩], made := l.made + 1 } else l

/-! ## The frame of an event and of a request -/

/-- The outcome of every command: a next state. -/
abbrev Outcome := Host.Outcome State Fault Refusal

/-- An event is taken when the condition the manual sets for it holds; when it does not, the event does not come
about and nothing changes (assumption 7). -/
def event (condition : Bool) (s : State) (effect : State → State) : Outcome :=
  if condition then .next (effect s) else .next s

/-- R186, R195: the serial line can execute a line: no executed reply waits for its transmission to begin, no RESET
awaits its warm reset, and RESET is not held low. -/
def State.canExecute (s : State) : Bool :=
  !s.held && s.serial.executed.isNone && s.serial.resetWait == .none

/-- A request is executed when the serial line can execute a line (R186; assumption 7). -/
def request (s : State) (effect : State → State) : Outcome := event s.canExecute s effect

/-- A free choice among candidates that the manual leaves in any order: `none` when there is none, the one there is,
or the one the arbiter picks (assumption 3). -/
def choose {α : Type} (s : State) : List α → Option (α × State)
  | [] => none
  | [x] => some (x, s)
  | x :: y :: rest =>
    let all := x :: y :: rest
    some (all.getD (Config.arbiter s.choices % all.length) x, { s with choices := s.choices + 1 })

end Sys2Proof.Machine
end

