-- ==== Sys2Proof/Machine/Flags.lean ====
section
/-! DEFINITION. Conditions and counts the blocks derive from the state: which sense lines are watched and active, the
decision about a due or granted entry, the heat a bell can afford, and the counts of a lane's entries and coils. -/

namespace Sys2Proof.Machine

/-! ## Sense lines -/

/-- R4: the sense line of bell `b` is at its active level. -/
def State.lineActive (s : State) (b : Nat) : Bool := s.senseLevel b == ((s.bell b).cal.polarity == .rise)

/-- R66: the sense unit watches the line of bell `b`: a fitted bell, sense FITTED, health not DISABLED. -/
def State.watched (s : State) (b : Nat) : Bool :=
  1 ≤ b && b ≤ s.bellCount && (s.bell b).cal.fitted && (s.bell b).health != .disabled

/-- R75: the stuck timer of a line that becomes watched, or is timed afresh, now. -/
def State.stuckFromNow (s : State) (b : Nat) : StuckTimer :=
  if s.watched b && s.lineActive b then .running s.now else .idle

/-! ## Drive table -/

/-- The pulse width of a level. -/
def Bell.pulse (r : Bell) (level : Nat) : Nat := slot r.cal.pulse level 0

/-- The flight time of a level. -/
def Bell.flight (r : Bell) (level : Nat) : Nat := slot r.cal.flight level 0

/-- R39: the window width for a flight. -/
def widthOf (flight : Nat) : Nat := max 30 (flight / 4)

/-- R37: the cost of a level. -/
def Bell.cost (r : Bell) (level : Nat) : Nat := r.pulse level * 100

/-- R9, R36: the bucket refilled to `now` at the capacity and duty held. -/
def Bell.refilled (r : Bell) (now : Nat) : Nat := min (r.cal.heat * 100) (r.bucket + (now - r.stamp) * r.cal.duty)

/-- R37: the first level, from `level` downward, whose cost the bucket covers. -/
def Bell.affordable (r : Bell) (bucket : Nat) : Nat → Option Nat
  | 0 => none
  | level + 1 => if r.cost (level + 1) ≤ bucket then some (level + 1) else r.affordable bucket level

/-- R38: the ready time a firing at `level` sets. -/
def Bell.readyAfter (r : Bell) (now level : Nat) : Nat :=
  now + max (r.pulse level + r.cal.rearm) (r.flight level + widthOf (r.flight level))

/-! ## Clock -/

/-- R161: the strike clock stands at a multiple of 500, and the tick of this value has not been taken (assumption 4).
It is due whether or not a slew is pending, so a slew may be set at this value before the tick or after it. -/
def State.tickDue (s : State) : Bool := !s.held && s.now % 500 == 0 && s.time.slewedAt != some s.now

/-- R161: the tick of this grain has not been taken, and it will move the offset. -/
def State.slewDue (s : State) : Bool := s.tickDue && s.time.slew != 0

/-! ## Supply, slots and lanes -/

/-- The coil-supply monitor is GOOD. -/
def State.supplyGood (s : State) : Bool := s.supply == .good

/-- R42: the entry slots in use. -/
def State.slotsUsed (s : State) : Nat := s.queue.length + s.waiting.length

/-- R42: a slot is free. -/
def State.slotFree (s : State) : Bool := s.slotsUsed < 64

/-- R57: the number of a lane's entries in the strike queue and the coil-wait list. -/
def State.entriesOf (s : State) (o : Origin) : Nat :=
  s.queue.countP (fun e => e.origin == o) + s.waiting.countP (fun e => e.origin == o)

/-- R57: the number of a lane's coils in the energised-coil set. -/
def State.coilsOf (s : State) (o : Origin) : Nat := s.coils.countP (fun c => c.origin == o)

/-- R113: nothing of a lane is left at the dispatcher. -/
def State.laneDrained (s : State) (o : Origin) : Bool := s.entriesOf o == 0 && s.coilsOf o == 0

/-- FIRE1..FIRE64: the coil output of bell `b` is active (R51, R52). -/
def State.fireOutput (s : State) (b : Nat) : Bool := s.coils.any (fun c => c.bell == b)

/-! ## The decision -/

/-- R49: an entry's deadline. -/
def Entry.deadline (e : Entry) : Nat := e.orig + e.slip

/-- What the dispatcher decides about an entry (3.3). -/
inductive Decision where
  | drop (reason : DropReason)
  /-- Step 3: back to the strike queue, due at the ready time. -/
  | reinsert
  /-- Step 4: to the coil-wait list. -/
  | wait
  /-- Step 6: fire at this level. -/
  | fire (level : Nat)
  deriving DecidableEq, Repr

/-- The decision is to fire. -/
def Decision.fires : Decision → Bool
  | .fire _ => true
  | .drop _ => false
  | .reinsert => false
  | .wait => false

/-- R46: step 1 turns the entry away. -/
def healthBars (h : Health) (o : Origin) : Bool :=
  match h with
  | .good => false
  | .suspect => false
  | .faulted _ => o != .test
  | .disabled => true

/-- R46 to R50, R55: the decision about an entry, due at the head of the queue or `granted` a coil place. -/
def State.decide (s : State) (e : Entry) (granted : Bool) : Decision :=
  let r := s.bell e.bell
  if healthBars r.health e.origin then .drop .fault
  else if !s.supplyGood then .drop .supply
  else if s.now < r.ready then
    if r.ready - e.orig ≤ e.slip then .reinsert else .drop .repeated
  else if !granted && s.coilBudget ≤ s.coils.length then
    if s.now < e.deadline then .wait else .drop .power
  else
    match r.affordable (r.refilled s.now) e.level with
    | none => .drop .heat
    | some level => .fire level

/-- R64, R65: a firing of bell `b` may still come about at this instant: an entry of the bell, due in the strike queue
or waiting for a coil, would fire, and a coil place is free or comes free now. -/
def State.mayFire (s : State) (b : Nat) : Bool :=
  (s.coils.length < s.coilBudget || s.coils.any (fun c => c.release ≤ s.now))
    && (s.queue.filter (fun e => e.fire ≤ s.now) ++ s.waiting).any
      (fun e => e.bell == b && (s.decide e true).fires)

/-! ## Requests and lanes -/

/-- R98: the effective start of a request (R100). -/
def PlayRequest.effective (r : PlayRequest) : Int := r.start.getD ((r.arrival : Int) + 2500)

/-- The request is of class TOLL. -/
def PlayRequest.isToll (r : PlayRequest) : Bool :=
  match r.play with
  | .tune _ => false
  | .toll _ => true

/-- The request is a toll of the given mode. -/
def PlayRequest.hasMode (r : PlayRequest) (m : TollMode) : Bool :=
  match r.play with
  | .tune _ => false
  | .toll spec => spec.mode == m

/-- R107, R130, R134: the effective start is at or before now + 5000. -/
def State.inReach (s : State) (r : PlayRequest) : Bool := r.effective ≤ (s.now : Int) + 5000

/-- The lane is ARMED or PLAYING. -/
def LanePhase.runs : LanePhase → Bool
  | .armed => true
  | .playing => true
  | .draining _ => false

/-- The TUNE lane is ARMED or PLAYING. -/
def State.tuneRuns (s : State) : Bool :=
  match s.tune with
  | none => false
  | some l => l.phase.runs

/-- The TOLL lane is ARMED or PLAYING. -/
def State.tollRuns (s : State) : Bool :=
  match s.toll with
  | none => false
  | some l => l.phase.runs

end Sys2Proof.Machine
end

