-- ==== Sys2Proof/Machine/Sensing.lean ====
section
/-! DEFINITION. Strike sensing and flight learning (section 4): judging edges and window ends, learning flights,
moving the health, and the stuck timers; and the four events of the sense lines and their timers. -/

namespace Sys2Proof.Machine

/-! ## Health -/

/-- R14: the fields of a bell's health: the state, and the fault cause when FAULTED. -/
def healthFields : Health → List Fld
  | .good => [.word .GOOD]
  | .suspect => [.word .SUSPECT]
  | .faulted .misses => [.word .FAULTED, .word .MISSES]
  | .faulted .stuck => [.word .FAULTED, .word .STUCK]
  | .disabled => [.word .DISABLED]

/-- R14: post the HEALTH report of bell `b` if its health is no longer `before`. -/
def State.reportHealth (s : State) (b : Nat) (before : Health) : State :=
  if (s.bell b).health = before then s else s.post .health (.num b :: healthFields (s.bell b).health)

/-- Write a bell record the sense unit has moved, and report a change of its health (R14). -/
def State.moveBell (s : State) (b : Nat) (r : Bell) : State := (s.setBell b r).reportHealth b (s.bell b).health

/-- R73, R74: what a supply-clean hit does to the counts and the health. -/
def Bell.afterHit (r : Bell) (test : Bool) : Bell :=
  match r.health with
  | .good => { r with misses := 0, hits := 0 }
  | .suspect =>
    if r.hits < 3 then { r with misses := 0, hits := r.hits + 1 }
    else { r with misses := 0, hits := 0, health := .good }
  | .faulted _ => if test then { r with misses := 0, hits := 0, health := .suspect } else r
  | .disabled => r

/-- R73, R74: what a supply-clean miss does to the counts and the health. -/
def Bell.afterMiss (r : Bell) : Bell :=
  match r.health with
  | .good => { r with misses := 1, hits := 0, health := .suspect }
  | .suspect =>
    if r.misses < 2 then { r with misses := r.misses + 1, hits := 0 }
    else { r with misses := 3, hits := 0, health := .faulted .misses }
  | .faulted _ => r
  | .disabled => r

/-! ## Learning -/

/-- R40: the flight learned from a measured flight: the held flight moved one eighth of the way, halves away from
zero, clamped to 50..2000. -/
def learnedFlight (held measured : Nat) : Nat :=
  let difference : Int := (measured : Int) - held
  let size : Int := (difference.natAbs + 4) / 8
  (clampInt 50 2000 (if difference < 0 then held - size else held + size)).toNat

/-- R72: learning applies to a hit in this window. -/
def Bell.learns (r : Bell) (w : Window) : Bool := r.cal.learn && w.clean && !w.blocked

/-- R72: the bell after learning from an edge captured at `now` in this window. -/
def Bell.learn (r : Bell) (w : Window) (now : Nat) : Bell :=
  if r.learns w then
    { r with
      cal := { r.cal with flight := setSlot r.cal.flight w.level (learnedFlight (r.flight w.level) (now - w.firedAt)) } }
  else r

/-! ## Judgements -/

/-- R68: a hit in the window `w` of bell `b`. -/
def State.hit (s : State) (b : Nat) (w : Window) : State :=
  let r := s.bell b
  let r := { r with counters := { r.counters with hit := bump16 r.counters.hit }, window := none }
  let r := r.learn w s.now
  s.moveBell b (if w.clean then r.afterHit w.test else r)

/-- R69: the window `w` of bell `b` ends as a miss. -/
def State.miss (s : State) (b : Nat) (w : Window) : State :=
  let r := s.bell b
  let r := { r with counters := { r.counters with miss := bump16 r.counters.miss }, window := none }
  s.moveBell b (if w.clean then r.afterMiss else r)

/-- R70: a stray on the line of bell `b`. -/
def State.stray (s : State) (b : Nat) : State :=
  s.modBell b (fun r => { r with counters := { r.counters with stray := bump16 r.counters.stray } })

/-- R64, R65: an active edge of bell `b` captured now meets the window `w` already judged at its end: the end has
passed, or it is now and a firing of the bell may still come at this instant, whose new window the edge belongs to
(assumption 16). -/
def State.meetsEnded (s : State) (b : Nat) (w : Window) : Bool :=
  w.closes < s.now || (w.closes == s.now && s.mayFire b)

/-- R67: judge an active edge of bell `b` captured now. An edge that meets an open window already ended finds it judged
a miss, and is a stray (R67, R69). -/
def State.judgeEdge (s : State) (b : Nat) : State :=
  match (s.bell b).window with
  | none => s.stray b
  | some w =>
    if s.meetsEnded b w then (s.miss b w).stray b
    else if w.bandStart ≤ s.now then s.hit b w
    else s.stray b

/-- R75: an active edge starts an idle stuck timer. -/
def StuckTimer.onActive (now : Nat) : StuckTimer → StuckTimer
  | .idle => .running now
  | .running start => .running start
  | .expired => .expired

/-- R76: what the expiry of the stuck timer does to a bell. -/
def Bell.afterStuck (r : Bell) : Bell :=
  match r.health with
  | .good => { r with stuck := .expired, hits := 0, health := .faulted .stuck }
  | .suspect => { r with stuck := .expired, hits := 0, health := .faulted .stuck }
  | .faulted _ => { r with stuck := .expired }
  | .disabled => { r with stuck := .expired }

/-- The level of the sense line of bell `b` becomes `high`. -/
def State.setSense (s : State) (b : Nat) (high : Bool) : State :=
  { s with pins := { s.pins with sense := setSlot s.pins.sense b high } }

/-! ## Events -/

/-- A number of the 64 lines and records. -/
def isBellNumber (b : Nat) : Bool := 1 ≤ b && b ≤ 64

/-- R69: now has reached the end of the open window of bell `b`. -/
def State.windowDue (s : State) (b : Nat) : Bool :=
  !s.held &&
    match (s.bell b).window with
    | none => false
    | some w => w.closes ≤ s.now

/-- R76: the stuck timer of bell `b` has run 2000 grains. -/
def State.stuckDue (s : State) (b : Nat) : Bool :=
  !s.held &&
    match (s.bell b).stuck with
    | .running start => start + 2000 ≤ s.now
    | _ => false

/-- R66, R67, R75: the line of bell `b` is seen to change to its active level. On a watched line the edge is captured,
judged, and starts the stuck timer; on another line, and while RESET is held, only the level changes. The sampling of
R66 shows at most one change of a line in a grain; the model takes every command that a sender queues in one grain as a
change that was seen (DESIGN CHOICE; assumption 28). -/
def execSenseActiveEdge (b : Nat) (s : State) : Outcome :=
  event (isBellNumber b && !s.lineActive b) s fun s =>
    let s := s.setSense b (!s.senseLevel b)
    if !s.held && s.watched b then
      (s.judgeEdge b).modBell b (fun r => { r with stuck := r.stuck.onActive s.now })
    else s

/-- R66, R75: the line of bell `b` is seen to change back to its inactive level; on a watched line its stuck timer
becomes idle. Each of several in one grain is taken (assumption 28). -/
def execSenseReleaseEdge (b : Nat) (s : State) : Outcome :=
  event (isBellNumber b && s.lineActive b) s fun s =>
    let s := s.setSense b (!s.senseLevel b)
    if !s.held && s.watched b then s.modBell b (fun r => { r with stuck := .idle }) else s

/-- R69: the end of an open window is judged a miss. -/
def execWindowEnd (b : Nat) (s : State) : Outcome :=
  event (s.windowDue b) s fun s =>
    match (s.bell b).window with
    | none => s
    | some w => s.miss b w

/-- R76: the stuck timer expires. -/
def execStuckTimeout (b : Nat) (s : State) : Outcome :=
  event (s.stuckDue b) s fun s => s.moveBell b (s.bell b).afterStuck

end Sys2Proof.Machine
end

