-- ==== Sys2Proof/Machine/Dispatcher.lean ====
section
/-! DEFINITION. The strike queue, the coil-wait list and the energised-coil set (section 3): the order of the two lists,
and what each decision about a due or granted entry does. -/

namespace Sys2Proof.Machine

/-! ## Order -/

/-- R43, R53: TOLL before TUNE before STRIKE and TEST. -/
def Origin.rank : Origin → Nat
  | .toll => 0
  | .tune => 1
  | .strike => 2
  | .test => 2

/-- R43: `a` stands strictly before `b` by fire time, rank and bell. -/
def Entry.firesBefore (a b : Entry) : Bool :=
  a.fire < b.fire ||
    (a.fire == b.fire &&
      (a.origin.rank < b.origin.rank || (a.origin.rank == b.origin.rank && a.bell < b.bell)))

/-- R53: `a` stands strictly before `b` by original fire time, rank and bell. -/
def Entry.grantedBefore (a b : Entry) : Bool :=
  a.orig < b.orig ||
    (a.orig == b.orig &&
      (a.origin.rank < b.origin.rank || (a.origin.rank == b.origin.rank && a.bell < b.bell)))

/-- Insert behind every element that does not stand strictly after `e`. -/
def insertBy {α : Type} (before : α → α → Bool) (e : α) : List α → List α
  | [] => [e]
  | x :: xs => if before e x then e :: x :: xs else x :: insertBy before e xs

/-- R43: insert an entry in its place in the strike queue. R44 also says of an entry inserted late that it stands behind
every entry due at the same fire time and not yet taken; where rank or bell differ the two disagree, and the model
follows R43 alone (assumption 25). -/
def State.enqueue (s : State) (e : Entry) : State := { s with queue := insertBy Entry.firesBefore e s.queue }

/-- R53: an entry joins the coil-wait list in its place. -/
def State.joinWaiting (s : State) (e : Entry) : State := { s with waiting := insertBy Entry.grantedBefore e s.waiting }

/-! ## Summaries -/

/-- R58: change the summary of the play an origin names; STRIKE and TEST entries belong to no play. -/
def State.tally (s : State) (o : Origin) (f : Summary → Summary) : State :=
  match o with
  | .tune => s.modTune (fun l => { l with summary := f l.summary })
  | .toll => s.modToll (fun l => { l with summary := f l.summary })
  | .strike => s
  | .test => s

/-- R114: count a drop by its reason. -/
def Summary.countDrop (m : Summary) : DropReason → Summary
  | .fault => { m with fault := m.fault + 1 }
  | .supply => { m with supply := m.supply + 1 }
  | .repeated => { m with repeated := m.repeated + 1 }
  | .power => { m with power := m.power + 1 }
  | .heat => { m with heat := m.heat + 1 }
  | .stop => { m with stop := m.stop + 1 }

/-- R56: a drop of an entry that has left its list: DROP, the last drop reason and the summary of its play. -/
def State.drop (s : State) (e : Entry) (reason : DropReason) : State :=
  (s.modBell e.bell fun r =>
      { r with counters := { r.counters with drop := bump16 r.counters.drop }, lastDrop := some reason }).tally
    e.origin (fun m => m.countDrop reason)

/-- R48, R49: count a slip of an entry, its first alone. -/
def State.countSlip (s : State) (e : Entry) : State :=
  if e.slipped then s
  else
    (s.modBell e.bell fun r =>
        { r with counters := { r.counters with slip := bump16 r.counters.slip } }).tally
      e.origin (fun m => { m with slipped := m.slipped + 1 })

/-! ## Firing -/

/-- R36: the bucket of bell `b` refilled to now. -/
def State.refill (s : State) (b : Nat) : State :=
  s.modBell b fun r => { r with bucket := r.refilled s.now, stamp := s.now }

/-- R64: the window a firing now at `level` opens. -/
def Bell.windowFor (r : Bell) (now level : Nat) (test : Bool) : Window :=
  let flight := r.flight level
  { firedAt := now, level := level, test := test, onset := now + flight, width := widthOf flight
    bandStart := now + flight - widthOf flight, closes := now + flight + widthOf flight, clean := true
    blocked := false }

/-- R65: a window of bell `b` that is still open is judged, as its end would judge it. -/
def State.closeOldWindow (s : State) (b : Nat) : State :=
  match (s.bell b).window with
  | none => s
  | some w => s.miss b w

/-- R65: where the decision about an entry is to fire, the old window of its bell is judged before anything else of
the firing, and the decision is then taken on what that judgement leaves: it is the same as if the end of the window
had been taken first (assumption 16). -/
def State.judgeFirst (s : State) (e : Entry) (granted : Bool) : State :=
  if (s.decide e granted).fires then s.closeOldWindow e.bell else s

/-- R51: what a firing of an entry at `level` writes into the bell record: the cost, the ready time, the window if the
sense is FITTED, FIRED, and THROTTLE when the level is below the entry's (R50). -/
def Bell.fired (r : Bell) (e : Entry) (now level : Nat) : Bell :=
  { r with
    bucket := r.bucket - r.cost level
    ready := r.readyAfter now level
    window := if r.cal.fitted then some (r.windowFor now level (e.origin == .test)) else r.window
    counters :=
      { r.counters with
        fired := bump16 r.counters.fired
        throttle := if level < e.level then bump16 r.counters.throttle else r.counters.throttle } }

/-- R51: fire an entry that has left its list, at the level decided. -/
def State.fire (s : State) (e : Entry) (level : Nat) : State :=
  let s := s.refill e.bell
  let coil : Coil := { bell := e.bell, release := s.now + (s.bell e.bell).pulse level, origin := e.origin }
  let s := s.modBell e.bell (fun r => r.fired e s.now level)
  let s := { s with coils := s.coils ++ [coil] }
  s.tally e.origin fun m =>
    { m with fired := m.fired + 1, throttled := if level < e.level then m.throttled + 1 else m.throttled }

/-- What a decision does with an entry that has left its list (3.3). -/
def State.carryOut (s : State) (e : Entry) : Decision → State
  | .drop .heat => (s.refill e.bell).drop e .heat
  | .drop reason => s.drop e reason
  | .reinsert => (s.countSlip e).enqueue { e with fire := (s.bell e.bell).ready, slipped := true }
  | .wait => (s.countSlip e).joinWaiting { e with slipped := true }
  | .fire level => s.fire e level

/-! ## Dispatch, grant, deadline and removal -/

/-- R45: the head entry is due. -/
def State.dispatchDue (s : State) : Bool :=
  !s.held &&
    match s.queue with
    | [] => false
    | e :: _ => e.fire ≤ s.now

/-- R45: dispatch the head entry. -/
def State.dispatchHead (s : State) : State :=
  match s.queue with
  | [] => s
  | e :: rest =>
    let s := State.judgeFirst { s with queue := rest } e false
    s.carryOut e (s.decide e false)

/-- R54, R55: offer the freed place to the waiting entries in grant order until one fires or none is left. -/
def State.grantFrom (s : State) : List Entry → State
  | [] => s
  | e :: rest =>
    let s := State.judgeFirst { s with waiting := rest } e true
    match s.decide e true with
    | .fire level => s.fire e level
    | d => (s.carryOut e d).grantFrom rest

/-- R54: grant a freed coil place. -/
def State.grant (s : State) : State := s.grantFrom s.waiting

/-- R52: the coil of bell `b` has reached its release time. -/
def State.coilDue (s : State) (b : Nat) : Bool :=
  !s.held && s.coils.any (fun c => c.bell == b && c.release ≤ s.now)

/-- R52, R54: release the coil of bell `b` and grant the freed place. -/
def State.releaseCoil (s : State) (b : Nat) : State :=
  { s with coils := s.coils.eraseP (fun c => c.bell == b && c.release ≤ s.now) }.grant

/-- R53: the deadline of the waiting entry at a place of the list has come. -/
def State.deadlineDue (s : State) (place : Nat) : Bool :=
  !s.held &&
    match s.waiting[place]? with
    | none => false
    | some e => e.deadline ≤ s.now

/-- R53: what a waiting entry is dropped with at its deadline. -/
def State.deadlineReason (s : State) (e : Entry) : DropReason :=
  if healthBars (s.bell e.bell).health e.origin then .fault else if !s.supplyGood then .supply else .power

/-- R53: drop the waiting entry at a place of the list at its deadline. -/
def State.dropAtDeadline (s : State) (place : Nat) : State :=
  match s.waiting[place]? with
  | none => s
  | some e => { s with waiting := s.waiting.eraseIdx place }.drop e (s.deadlineReason e)

/-- R59: remove every entry of an origin from the queue and the list, each a drop with reason STOP. -/
def State.removeOrigin (s : State) (o : Origin) : State :=
  let gone := (s.queue ++ s.waiting).filter (fun e => e.origin == o)
  let s :=
    { s with
      queue := s.queue.filter (fun e => e.origin != o)
      waiting := s.waiting.filter (fun e => e.origin != o) }
  gone.foldl (fun s e => s.drop e .stop) s

end Sys2Proof.Machine
end

