-- ==== Sys2Proof/Machine/PlayQueue.lean ====
section
/-! DEFINITION. The play queue (6.1, 6.2): request ids, the order of the queue, and the admission of an offered request
with the reports of its maker. -/

namespace Sys2Proof.Machine

/-- R99: the ids of the requests in the play queue and in the lanes. -/
def State.idsInUse (s : State) : List Nat :=
  s.playQueue.map (·.id) ++ s.tune.toList.map (·.request.id) ++ s.toll.toList.map (·.request.id)

/-- R99: the next id after the last assigned, counting 255 round to 1, that is not in use. At most 18 are in use, so
one is always found. -/
def State.nextId (s : State) : Nat :=
  ((List.range 255).map (fun i => (s.lastId + i) % 255 + 1)).find? (fun id => !s.idsInUse.contains id) |>.getD 0

/-- R101: `a` stands strictly before `b` by class, effective start and arrival. -/
def PlayRequest.queuedBefore (a b : PlayRequest) : Bool :=
  (a.isToll && !b.isToll) ||
    (a.isToll == b.isToll &&
      (a.effective < b.effective || (a.effective == b.effective && a.arrival < b.arrival)))

/-- R102: the same source and the same start. -/
def PlayRequest.mergesWith (a b : PlayRequest) : Bool :=
  a.source == b.source &&
    match a.start, b.start with
    | some x, some y => x == y
    | none, none => a.arrival == b.arrival
    | _, _ => false

/-- What became of an offered request (R102). -/
inductive Admission where
  | merged (standing : PlayRequest)
  | full
  | admitted (id : Nat)
  deriving DecidableEq, Repr

/-- R102: offer a request, its arrival now, to the play queue. -/
def State.offer (s : State) (r : PlayRequest) : State × Admission :=
  match s.playQueue.find? (fun q => q.mergesWith r) with
  | some q => (s, .merged q)
  | none =>
    if 16 ≤ s.playQueue.length then (s, .full)
    else
      let id := s.nextId
      ({ s with playQueue := insertBy PlayRequest.queuedBefore { r with id := id } s.playQueue, lastId := id },
        .admitted id)

/-- R98: a request as its maker makes it now, its id not yet given. -/
def State.makeRequest (s : State) (source : Source) (play : Play) (start : Option Int) (waitSeconds cap slip : Nat)
    (force : Bool) : PlayRequest :=
  { id := 0, source := source, play := play, start := start, arrival := s.now
    latest := start.getD (s.now : Int) + (waitSeconds : Int) * 10000
    cap := cap, slip := slip, force := force, cutGiven := false }

/-- The fields that name a source (R102, R152). -/
def sourceFields : Source → List Fld
  | .schedule k => [.word .SCHEDULE, .num k]
  | .cue c => [.word .CUE, .num c]
  | .line => [.word .LINE]

/-- The word for a class. -/
def classWord (r : PlayRequest) : Fld := if r.isToll then .word .TOLL else .word .TUNE

/-- R102: the report of an offer made by the schedule engine or a cue line. -/
def State.reportOffer (s : State) (r : PlayRequest) : Admission → State
  | .merged standing => s.post .play ([.num standing.id, .word .MERGED] ++ sourceFields r.source)
  | .full => s.post .dropped (sourceFields r.source ++ [classWord r])
  | .admitted id => s.post .play ([.num id, .word .QUEUED] ++ sourceFields r.source ++ [classWord r])

/-- R102: offer a request of the schedule engine or of a cue line, and report what became of it. -/
def State.offerReported (s : State) (r : PlayRequest) : State :=
  let (s, outcome) := s.offer r
  s.reportOffer r outcome

/-- Remove the request with an id from the play queue. -/
def State.unqueue (s : State) (id : Nat) : State := { s with playQueue := s.playQueue.filter (fun r => r.id != id) }

/-- R178: a request from cue `c` stands in the play queue or is held by a lane: the id of the first. -/
def State.activeOf (s : State) (c : Nat) : Option Nat :=
  ((s.playQueue ++ s.tune.toList.map (·.request) ++ s.toll.toList.map (·.request)).find?
    (fun r => r.source == .cue c)).map (·.id)

end Sys2Proof.Machine
end

