-- ==== Sys2Proof/Machine/Schedule.lean ====
section
/-! DEFINITION. The calendar schedule (section 8): quiet rules, matching, the application of the pending table, the
evaluation of an instant, and the reaction to a step of the wall clock; and the SECOND_BOUNDARY event. -/

namespace Sys2Proof.Machine

/-! ## Quiet rules (8.4) -/

/-- R151: a quiet rule covers a wall instant. -/
def QuietRule.covers (q : QuietRule) (instant : Nat) : Bool :=
  let minute := instant / 60 % 1440
  let day := instant / 86400
  let today := q.days.contains (weekdayOf day)
  let yesterday := q.days.contains (weekdayOf (day + 6))
  if q.fromMin < q.toMin then today && q.fromMin ≤ minute && minute < q.toMin
  else if q.toMin < q.fromMin then (today && q.fromMin ≤ minute) || (yesterday && minute < q.toMin)
  else today

/-- R150: quiet rule `q`, if in use. -/
def State.quietRule (s : State) (q : Nat) : Option QuietRule := slot s.quiet q none

/-- R152: the numbers and rules in use that cover an instant, in ascending number. -/
def State.quietAt (s : State) (instant : Nat) : List (Nat × QuietRule) :=
  (List.range' 1 8).filterMap fun q =>
    match s.quietRule q with
    | some r => if r.covers instant then some (q, r) else none
    | none => none

/-- What the quiet rules do with a request (R152). -/
inductive QuietVerdict where
  | silenced (rule : Nat)
  | capped (cap : Nat)
  deriving DecidableEq, Repr

/-- R152: the verdict of the rules that apply to a request of a class with a cap. -/
def quietVerdict (rules : List (Nat × QuietRule)) (isToll : Bool) (cap : Nat) : QuietVerdict :=
  if isToll then .capped (rules.foldl (fun c r => min c r.2.tollCap) cap)
  else
    match rules.find? (fun r => r.2.tune == .silence) with
    | some (q, _) => .silenced q
    | none =>
      .capped (rules.foldl (fun c r =>
        match r.2.tune with
        | .silence => c
        | .cap level => min c level) cap)

/-- R149, R152, R178: offer a request of the schedule engine or of a cue line, the quiet rules acting on it first at a
wall instant; they act only when its force is no and the wall clock is SET. -/
def State.offerQuiet (s : State) (r : PlayRequest) (instant : Nat) : State :=
  let verdict :=
    if r.force || !s.time.isSet then .capped r.cap else quietVerdict (s.quietAt instant) r.isToll r.cap
  match verdict with
  | .silenced q => s.post .quiet (sourceFields r.source ++ [.num q])
  | .capped cap => s.offerReported { r with cap := cap }

/-! ## Matching (8.3) -/

/-- Compare days of the year by month and then by day. -/
def DayMonth.le (a b : DayMonth) : Bool := a.month < b.month || (a.month == b.month && a.day ≤ b.day)

/-- R147: a date range, which may wrap the year end, holds a day. -/
def inDates (range : DayMonth × DayMonth) (d : DayMonth) : Bool :=
  if range.1.le range.2 then range.1.le d && d.le range.2 else range.1.le d || d.le range.2

/-- R146, R147: an entry in use matches a wall instant; an instant beyond the range matches none. -/
def ScheduleEntry.matchesAt (e : ScheduleEntry) (instant : Nat) : Bool :=
  let c := civil instant
  instant < wallEnd && e.hours.contains c.hour && e.minutes.contains c.minute && e.second == c.second
    && e.days.contains c.weekday && e.months.contains c.month
    && match e.dates with
      | none => true
      | some range => inDates range ⟨c.day, c.month⟩

/-- R148: the stamp admits an instant: it is absent or earlier. -/
def stampAdmits (stamp : Option Nat) (instant : Nat) : Bool :=
  match stamp with
  | none => true
  | some t => t < instant

/-- R146: live entry `k` matches an instant under its stamp. -/
def State.matchOf (s : State) (k instant : Nat) : Option ScheduleEntry :=
  match slot s.live k none with
  | none => none
  | some e => if e.matchesAt instant && stampAdmits (slot s.stamps k none) instant then some e else none

/-- R148: set the stamp of entry `k`. -/
def State.stamp (s : State) (k : Nat) (t : Option Nat) : State := { s with stamps := setSlot s.stamps k t }

/-- R149: the request made from a match of entry `k`, with its start. -/
def State.scheduled (s : State) (k : Nat) (e : ScheduleEntry) (start : Int) : PlayRequest :=
  match e.action with
  | .tune spec cap => s.makeRequest (.schedule k) (.tune spec) (some start) e.expiry cap 150 e.force
  | .toll spec => s.makeRequest (.schedule k) (.toll spec) (some start) e.expiry 7 150 e.force

/-! ## The pending table (8.2) -/

/-- R143: the number of entries whose contents in the pending table differ from those in the live table. -/
def State.changed (s : State) : Nat :=
  (List.range' 1 48).countP (fun k => slot s.draft k none != slot s.live k none)

/-- R145: copy the pending table into force, a changed entry's stamp made absent. -/
def State.copyDraft (s : State) : State :=
  { s with
    live := s.draft
    stamps := Vector.ofFn (fun i => if s.draft[i] = s.live[i] then s.stamps[i] else none) }

/-- R145: a minute boundary: the pending table is applied if the wall clock is SET, the hold OFF and the tables
differ. -/
def State.applyDraft (s : State) : State :=
  if s.time.isSet && !s.hold && s.changed != 0 then s.copyDraft else s

/-! ## Evaluation (8.3, 8.5) -/

/-- How a match is disposed of (R146, R154). -/
inductive Disposal where
  | ordinary | catchUp | missed
  deriving DecidableEq, Repr

/-- R146, R154: evaluate one entry at an instant; the second component gathers the missed matches. -/
def State.evaluateEntry (instant : Nat) (disposal : Disposal) (acc : State × List (Nat × Nat)) (k : Nat) :
    State × List (Nat × Nat) :=
  let (s, missed) := acc
  match s.matchOf k instant with
  | none => acc
  | some e =>
    let s := s.stamp k (some instant)
    match disposal with
    | .ordinary => (s.offerQuiet (s.scheduled k e (s.equivalent instant)) instant, missed)
    | .catchUp => (s.offerQuiet (s.scheduled k e ((s.now : Int) + 2500)) instant, missed)
    | .missed => (s, missed ++ [(k, instant)])

/-- R146: evaluate an instant against the live table, entries in ascending number. -/
def State.evaluate (instant : Nat) (disposal : Disposal) (acc : State × List (Nat × Nat)) : State × List (Nat × Nat) :=
  (List.range' 1 48).foldl (State.evaluateEntry instant disposal) acc

/-- R154: how a match of an instant skipped by a step is disposed of, with the new offset in force. -/
def State.disposalOf (s : State) (instant : Nat) : Disposal :=
  if (s.now : Int) + 2500 ≤ s.equivalent instant then .ordinary
  else if s.wall - 600000 ≤ (instant : Int) * 10000 then .catchUp
  else .missed

/-- R154: evaluate the instants two seconds after each of `count` boundaries from `boundary` on, in ascending order. -/
def State.evaluateSpan : Nat → Nat → State × List (Nat × Nat) → State × List (Nat × Nat)
  | 0, _, acc => acc
  | count + 1, boundary, acc =>
    State.evaluateSpan count (boundary + 1) (State.evaluate (boundary + 2) (acc.1.disposalOf (boundary + 2)) acc)

/-- R155: one MISSED report for an entry that had missed matches, with their number and the latest of them. -/
def State.reportMissed (missed : List (Nat × Nat)) (s : State) (k : Nat) : State :=
  let mine := missed.filter (fun m => m.1 == k)
  match mine.getLast? with
  | none => s
  | some (_, latest) => s.post .missed [.num k, .num mine.length, .wall latest]

/-- R154, R155: the reaction to a forward step that has carried the wall clock across the boundaries from the one after
`crossed` to that of its second now. -/
def State.afterForwardStep (s : State) (crossed : Nat) : State :=
  let last := s.wallSecond
  let s := s.modTime (fun t => { t with crossed := last })
  let s := if crossed / 60 < last / 60 then s.applyDraft else s
  let (s, missed) := State.evaluateSpan (last - crossed) (crossed + 1) (s, [])
  (List.range' 1 48).foldl (State.reportMissed missed) s

/-! ## The second boundary -/

/-- R145, R146, R160: the SET wall clock has come to a second within its range whose boundary it has not crossed
yet. A slew tick of the same grain goes first: it is part of where the wall clock stands in that grain (R161). -/
def State.boundaryDue (s : State) : Bool :=
  !s.held && !s.slewDue && s.time.isSet && s.time.crossed < s.wallSecond && s.time.crossed + 1 < wallEnd

/-- R145, R146: cross into the next second `t`: at a minute boundary the pending table is applied first, and then the
instant two seconds on is evaluated. -/
def State.crossBoundary (s : State) : State :=
  let t := s.time.crossed + 1
  let s := s.modTime (fun time => { time with crossed := t })
  let s := if t % 60 = 0 then s.applyDraft else s
  (State.evaluate (t + 2) .ordinary (s, [])).1

/-- R145, R146: the wall clock crosses a second boundary. -/
def execSecondBoundary (s : State) : Outcome := event s.boundaryDue s State.crossBoundary

end Sys2Proof.Machine
end

