-- ==== Sys2Proof/Machine/Bells.lean ====
section
/-! DEFINITION. The requests of the bell table (section 1): BELL with its settings, DISABLE, ENABLE and CLEAR, BELL? and
COUNT?. -/

namespace Sys2Proof.Machine

/-! ## Reading a bell record -/

/-- R2: the bell a request addresses: a decimal number within 1..N. -/
def State.readBell (s : State) (t : Text) : Option Nat := readWithin 1 s.bellCount t

/-- R16: the word for a drop reason. -/
def dropWord : DropReason → Fld
  | .fault => .word .FAULT
  | .supply => .word .SUPPLY
  | .repeated => .word .REPEAT
  | .power => .word .POWER
  | .heat => .word .HEAT
  | .stop => .word .STOP

/-- ON or OFF. -/
def onOff (b : Bool) : Fld := .word (if b then .ON else .OFF)

/-- R19: the record of bell `b`, in the order of its table. -/
def State.bellFields (s : State) (b : Nat) : List Fld :=
  let r := s.bell b
  .num b :: healthFields r.health
    ++ .word .PULSE :: r.cal.pulse.toList.map .num
    ++ .word .FLIGHT :: r.cal.flight.toList.map .num
    ++ [.word .REARM, .num r.cal.rearm, .word .HEAT, .num r.cal.heat, .word .DUTY, .num r.cal.duty,
      .word .SENSE, .word (if r.cal.fitted then .FITTED else .ABSENT),
      .word .POL, .word (if r.cal.polarity = .rise then .RISE else .FALL),
      .word .LEARN, onOff r.cal.learn,
      .word .READY, .num r.ready, .word .BUCKET, .num r.bucket, .word .STAMP, .num r.stamp,
      .word .MISSES, .num r.misses, .word .HITS, .num r.hits,
      .word .LAST, match r.lastDrop with
        | none => .word .NONE
        | some reason => dropWord reason]

/-- R18: the bell number and the seven counters, in the order of R17. -/
def State.countFields (s : State) (b : Nat) : List Fld :=
  let c := (s.bell b).counters
  [.num b, .word .FIRED, .num c.fired, .word .HIT, .num c.hit, .word .MISS, .num c.miss, .word .STRAY, .num c.stray,
    .word .SLIP, .num c.slip, .word .THROTTLE, .num c.throttle, .word .DROP, .num c.drop]

/-- Reply OK with the record of bell `b`. -/
def State.okBell (s : State) (tag : Text) (b : Nat) : State := s.ok tag (s.bellFields b)

/-! ## Settings (1.3) -/

/-- R6: one setting of a BELL request. -/
inductive Setting where
  | pulse (level value : Nat)
  | flight (level value : Nat)
  | rearm (value : Nat)
  | heat (value : Nat)
  | duty (value : Nat)
  | sense (fitted : Bool)
  | pol (polarity : Polarity)
  | learn (on : Bool)
  | default
  deriving DecidableEq, Repr

/-- R6: FITTED or ABSENT. -/
def readFitted (t : Text) : Option Bool :=
  match readKw t with
  | some .FITTED => some true
  | some .ABSENT => some false
  | _ => none

/-- R6: RISE or FALL. -/
def readPolarity (t : Text) : Option Polarity :=
  match readKw t with
  | some .RISE => some .rise
  | some .FALL => some .fall
  | _ => none

/-- R6: a setting of one value. -/
def readSimpleSetting (k : Kw) (v : Text) : Option Setting :=
  match k with
  | .REARM => (readNum 6 v).map .rearm
  | .HEAT => (readNum 6 v).map .heat
  | .DUTY => (readNum 6 v).map .duty
  | .SENSE => (readFitted v).map .sense
  | .POL => (readPolarity v).map .pol
  | .LEARN => (readOnOff v).map .learn
  | _ => none

/-- R6: a setting of a level and a value. -/
def readLevelSetting (write : Nat → Nat → Setting) : List Text → Option (Setting × List Text)
  | l :: v :: rest => do
    let level ← readLevel l
    let value ← readNum 6 v
    pure (write level value, rest)
  | _ => none

/-- R6: the setting at the front of the fields. -/
def readSetting : List Text → Option (Setting × List Text)
  | [] => none
  | w :: rest =>
    match readKw w with
    | none => none
    | some .DEFAULT => some (.default, rest)
    | some .PULSE => readLevelSetting .pulse rest
    | some .FLIGHT => readLevelSetting .flight rest
    | some k =>
      match rest with
      | [] => none
      | v :: rest => (readSimpleSetting k v).map (·, rest)

/-- R6: the settings that make up the rest of the line; `fuel` bounds their number. -/
def readSettingsFrom : Nat → List Text → Option (List Setting)
  | _, [] => some []
  | 0, _ :: _ => none
  | fuel + 1, w :: ws => do
    let (setting, rest) ← readSetting (w :: ws)
    let more ← readSettingsFrom fuel rest
    pure (setting :: more)

/-- R6: the settings of a line; none given is refused. -/
def readSettings (ws : List Text) : Option (List Setting) :=
  if ws.isEmpty then none else readSettingsFrom ws.length ws

/-- Change the calibration of bell `b`. -/
def State.modCal (s : State) (b : Nat) (f : Calibration → Calibration) : State :=
  s.modBell b (fun r => { r with cal := f r.cal })

/-- The stuck timing of bell `b` begins, or restarts, now (R10, R21, R22, R75). -/
def State.restartStuck (s : State) (b : Nat) : State := s.modBell b (fun r => { r with stuck := s.stuckFromNow b })

/-- R8: writing the flight of the level that opened an open window blocks its learning. -/
def Window.blockedBy (level : Nat) (w : Window) : Window := if w.level = level then { w with blocked := true } else w

/-- R9: the bucket of bell `b` brought up to date at the capacity and duty held, its stamp moved to now. -/
def State.updateBucket (s : State) (b : Nat) : State :=
  s.modBell b (fun r => { r with bucket := r.refilled s.now, stamp := s.now })

/-- R6, R8 to R10: one setting of bell `b`, less DEFAULT; values are clamped (R5). -/
def State.applyOne (b : Nat) (s : State) : Setting → State
  | .pulse level value => s.modCal b (fun c => { c with pulse := setSlot c.pulse level (clamp 20 400 value) })
  | .flight level value =>
    (s.modCal b (fun c => { c with flight := setSlot c.flight level (clamp 50 2000 value) })).modBell b
      (fun r => { r with window := r.window.map (Window.blockedBy level) })
  | .rearm value => s.modCal b (fun c => { c with rearm := clamp 300 5000 value })
  | .heat value =>
    ((s.updateBucket b).modCal b (fun c => { c with heat := clamp 200 4000 value })).modBell b
      (fun r => { r with bucket := min r.bucket (r.cal.heat * 100) })
  | .duty value => (s.updateBucket b).modCal b (fun c => { c with duty := clamp 5 50 value })
  | .sense fitted =>
    if (s.bell b).cal.fitted = fitted then s
    else if fitted then (s.modCal b (fun c => { c with fitted := true })).restartStuck b
    else (s.modCal b (fun c => { c with fitted := false })).modBell b (fun r => { r with window := none, stuck := .idle })
  | .pol polarity =>
    if (s.bell b).cal.polarity = polarity then s
    else (s.modCal b (fun c => { c with polarity := polarity })).restartStuck b
  | .learn on => s.modCal b (fun c => { c with learn := on })
  | .default => s

/-- R7: the settings DEFAULT stands for, the values of R4. -/
def Setting.defaults : List Setting :=
  (List.range' 1 7).map (fun l => .pulse l (slot Calibration.default.pulse l 0))
    ++ (List.range' 1 7).map (fun l => .flight l (slot Calibration.default.flight l 0))
    ++ [.rearm Calibration.default.rearm, .heat Calibration.default.heat, .duty Calibration.default.duty,
      .sense Calibration.default.fitted, .pol Calibration.default.polarity, .learn Calibration.default.learn]

/-- R6, R7: one setting of bell `b`. -/
def State.applySetting (b : Nat) (s : State) (setting : Setting) : State :=
  match setting with
  | .default => Setting.defaults.foldl (State.applyOne b) s
  | other => s.applyOne b other

/-! ## The requests -/

/-- R6: `tag BELL b setting [setting ...]`, checked whole, then applied from left to right. -/
def bellRequest (tag : Text) (fields : List Text) (s : State) : State :=
  match fields with
  | [] => s.err tag .arg
  | b :: settings =>
    match s.readBell b, readSettings settings with
    | some b, some settings => (settings.foldl (State.applySetting b) s).okBell tag b
    | _, _ => s.err tag .arg

/-- The bell of a request that takes a bell and no further field. -/
def State.readBellAlone (s : State) (b : Text) (more : List Text) : Option Nat :=
  if more.isEmpty then s.readBell b else none

/-- R20: what DISABLE does to a record. -/
def Bell.disable (r : Bell) : Bell :=
  { r with disabledFlag := true, health := .disabled, misses := 0, hits := 0, window := none, stuck := .idle }

/-- R20: `tag BELL b DISABLE`. -/
def bellDisableRequest (tag b : Text) (more : List Text) (s : State) : State :=
  match s.readBellAlone b more with
  | none => s.err tag .arg
  | some b =>
    let t := (s.modBell b Bell.disable).okBell tag b
    if (s.bell b).health = .disabled then s.okBell tag b else t.reportHealth b (s.bell b).health

/-- R14, R15: the health moves to GOOD. -/
def Bell.makeGood (r : Bell) : Bell := { r with disabledFlag := false, health := .good, misses := 0, hits := 0 }

/-- R21, R22: the health of bell `b` moves to GOOD and its stuck timing begins afresh. -/
def State.restoreBell (s : State) (b : Nat) : State := (s.modBell b Bell.makeGood).restartStuck b

/-- R21: `tag BELL b ENABLE`. -/
def bellEnableRequest (tag b : Text) (more : List Text) (s : State) : State :=
  match s.readBellAlone b more with
  | none => s.err tag .arg
  | some b =>
    match (s.bell b).health with
    | .disabled => ((s.restoreBell b).okBell tag b).reportHealth b .disabled
    | _ => s.okBell tag b

/-- R22: `tag BELL b CLEAR`. -/
def bellClearRequest (tag b : Text) (more : List Text) (s : State) : State :=
  match s.readBellAlone b more with
  | none => s.err tag .arg
  | some b =>
    match (s.bell b).health with
    | .suspect => ((s.restoreBell b).okBell tag b).reportHealth b .suspect
    | .faulted cause => ((s.restoreBell b).okBell tag b).reportHealth b (.faulted cause)
    | .good => s.okBell tag b
    | .disabled => s.okBell tag b

/-- R19: `tag BELL? b`. -/
def bellReadRequest (tag : Text) (fields : List Text) (s : State) : State :=
  match fields with
  | [] => s.err tag .arg
  | b :: more =>
    match s.readBellAlone b more with
    | none => s.err tag .arg
    | some b => s.okBell tag b

/-- R18: `tag COUNT? b`. -/
def countReadRequest (tag : Text) (fields : List Text) (s : State) : State :=
  match fields with
  | [] => s.err tag .arg
  | b :: more =>
    match s.readBellAlone b more with
    | none => s.err tag .arg
    | some b => s.ok tag (s.countFields b)

/-- R18: `tag COUNT? b CLEAR`: the reply shows the counters before they are cleared. -/
def countClearRequest (tag b : Text) (more : List Text) (s : State) : State :=
  match s.readBellAlone b more with
  | none => s.err tag .arg
  | some b => (s.ok tag (s.countFields b)).modBell b (fun r => { r with counters := {}, lastDrop := none })

/-- R6 to R10: BELL with settings. -/
def execBell (tag : Text) (fields : List Text) (s : State) : Outcome := request s (bellRequest tag fields)

/-- R20: BELL DISABLE. -/
def execBellDisable (tag b : Text) (more : List Text) (s : State) : Outcome :=
  request s (bellDisableRequest tag b more)

/-- R21: BELL ENABLE. -/
def execBellEnable (tag b : Text) (more : List Text) (s : State) : Outcome := request s (bellEnableRequest tag b more)

/-- R22: BELL CLEAR. -/
def execBellClear (tag b : Text) (more : List Text) (s : State) : Outcome := request s (bellClearRequest tag b more)

/-- R19: BELL?. -/
def execBellRead (tag : Text) (fields : List Text) (s : State) : Outcome := request s (bellReadRequest tag fields)

/-- R18: COUNT?. -/
def execCountRead (tag : Text) (fields : List Text) (s : State) : Outcome := request s (countReadRequest tag fields)

/-- R18: COUNT? CLEAR. -/
def execCountClear (tag b : Text) (more : List Text) (s : State) : Outcome :=
  request s (countClearRequest tag b more)

end Sys2Proof.Machine
end

