-- ==== Sys2Proof/Machine/Lanes.lean ====
section
/-! DEFINITION. The two lanes (sections 2, 6 and 7): the timing state, taking a request, expanding records and strokes
into strike entries, bar stops and stops NOW, draining and the END report. -/

namespace Sys2Proof.Machine

/-! ## Timing (section 2) -/

/-- R26: the effective beat length. -/
def effectiveBeat (beat percent : Nat) : Nat := clamp 2500 30000 ((beat * 100 + percent / 2) / percent)

/-- R27: the onset of a record at a division. -/
def Timing.onset (t : Timing) (division : Nat) : Nat :=
  t.segOrigin + ((division - t.segDivision) * t.eff + 24) / 48

/-- R24: the timing state at the take. -/
def Timing.atTake (beat : Nat) (spec : TuneSpec) (cap origin : Nat) : Timing where
  beat := beat
  percent := spec.tempo
  eff := effectiveBeat beat spec.tempo
  segOrigin := origin
  segDivision := 0
  division := 0
  pass := 1
  liveCap := 7
  requestCap := cap
  transpose := spec.transpose

/-- R28: a TEMPO record at `onset` and `division` begins a segment at its beat. -/
def Timing.tempo (t : Timing) (onset division beat : Nat) : Timing :=
  { t with segOrigin := onset, segDivision := division, beat := beat, eff := effectiveBeat beat t.percent }

/-- R29: pending values become live in a segment that begins at `onset` and `division`. -/
def Timing.adjusted (t : Timing) (onset division : Nat) (tempo cap : Option Nat) : Timing :=
  let percent := tempo.getD t.percent
  { t with
    segOrigin := onset, segDivision := division, percent := percent, liveCap := cap.getD t.liveCap
    eff := effectiveBeat t.beat percent }

/-- The delta of a score record (R82). -/
def ScoreRecord.delta : ScoreRecord → Nat
  | .note delta _ _ => delta
  | .rest delta => delta
  | .bar delta => delta
  | .tempo delta _ => delta

/-! ## Melodies as the TUNE lane reads them (R94) -/

/-- The records of a melody, in score order: those of its blocks, one block after another (R80). -/
def State.score (s : State) (m : Nat) : List ScoreRecord := (s.melody m).blocks.flatMap (fun b => slot s.pool b [])

/-- Record `k` of a melody, from 1: slot ((k - 1) mod 32) + 1 of block floor((k - 1) / 32) + 1 of its list (R80). -/
def State.record (s : State) (m k : Nat) : Option ScoreRecord :=
  if k = 0 then none
  else
    match (s.melody m).blocks[(k - 1) / 32]? with
    | none => none
    | some b => (slot s.pool b [])[(k - 1) % 32]?

/-- Whether the TUNE lane's melody holds no BAR record. -/
def State.barless (s : State) (l : TuneLane) : Bool := (s.melody l.spec.melody).bars == 0

/-- R109: the next record of the TUNE lane. -/
def State.nextRecord (s : State) (l : TuneLane) : Option ScoreRecord := s.record l.spec.melody l.cursor

/-- R109: the onset of the TUNE lane's next record. -/
def State.nextOnset (s : State) (l : TuneLane) : Option Nat :=
  (s.nextRecord l).map (fun r => l.timing.onset (l.timing.division + r.delta))

/-! ## Stops (6.8) -/

/-- R119, R122: a stop NOW of the TUNE lane. The test of R113 is the caller's, in the same event. -/
def State.stopTuneNow (s : State) (reason : EndReason) : State :=
  match s.tune with
  | none => s
  | some _ =>
    (s.removeOrigin .tune).modTune fun l =>
      { l with phase := .draining reason, lag := false, barStop := none }

/-- R119, R122: a stop NOW of the TOLL lane. The test of R113 is the caller's, in the same event. -/
def State.stopTollNow (s : State) (reason : EndReason) : State :=
  match s.toll with
  | none => s
  | some _ => (s.removeOrigin .toll).modToll fun l => { l with phase := .draining reason, lag := false }

/-- R121: the test of a bar stop under way: with no BAR record, or with the next record beyond the search limit, it
acts as a stop NOW. -/
def State.testBarStop (s : State) : State :=
  match s.tune with
  | none => s
  | some l =>
    match l.phase.runs, l.barStop with
    | true, some stop =>
      if s.barless l then s.stopTuneNow stop.reason
      else
        match s.nextOnset l with
        | none => s
        | some onset => if stop.limit < onset then s.stopTuneNow stop.reason else s
    | _, _ => s

/-- R120, R122: a bar stop of the TUNE lane, with the test of R121. -/
def State.barStopTune (s : State) (reason : EndReason) : State :=
  match s.tune with
  | none => s
  | some l =>
    if l.phase.runs then
      (s.modTune fun l =>
          { l with
            barStop :=
              match l.barStop with
              | some stop => some { stop with reason := reason }
              | none => some { reason := reason, limit := l.lastOnset.getD l.origin + 80000 } }).testBarStop
    else s

/-! ## Expansion of records (6.5) -/

/-- R34: the entry made from a note or a stroke. -/
def State.makeEntry (s : State) (onset bell level : Nat) (origin : Origin) (slip serial : Nat) : Entry :=
  let fire := onset - (s.bell bell).flight level
  { fire := fire, orig := fire, onset := onset, bell := bell, level := level, origin := origin, slip := slip
    serial := some serial, slipped := false }

/-- An ARMED lane becomes PLAYING at its first accepted entry (R111). -/
def LanePhase.onAccepted : LanePhase → LanePhase
  | .armed => .playing
  | .playing => .playing
  | .draining r => .draining r

/-- R110: the steps common to every kind of record. -/
def TuneLane.passRecord (l : TuneLane) (onset division : Nat) : TuneLane :=
  { l with
    timing := { l.timing with division := division }, lastOnset := some onset, cursor := l.cursor + 1, lag := false }

/-- R29, R117: pending values, if there are any, become live at a BAR. -/
def TuneLane.liveAtBar (l : TuneLane) (onset division : Nat) : TuneLane :=
  if l.pendingTempo.isSome || l.pendingCap.isSome then
    { l with
      timing := l.timing.adjusted onset division l.pendingTempo l.pendingCap, pendingTempo := none, pendingCap := none }
  else l

/-- R120: a BAR ends the expansion of a lane with a bar stop under way. -/
def TuneLane.stopAtBar (l : TuneLane) : TuneLane :=
  match l.barStop with
  | none => l
  | some stop => { l with phase := .draining stop.reason }

/-- R30: the boundary into the next pass; `onset` is the last record's, `beat` the melody's default beat. -/
def TuneLane.nextPass (l : TuneLane) (onset beat : Nat) (barless : Bool) : TuneLane :=
  let t :=
    { l.timing with
      segOrigin := onset, segDivision := l.timing.division, beat := beat, pass := l.timing.pass + 1
      percent := if barless then l.pendingTempo.getD l.timing.percent else l.timing.percent
      liveCap := if barless then l.pendingCap.getD l.timing.liveCap else l.timing.liveCap }
  { l with
    timing := { t with eff := effectiveBeat beat t.percent }
    pendingTempo := if barless then none else l.pendingTempo
    pendingCap := if barless then none else l.pendingCap
    cursor := 1 }

/-- R112: what the end of a pass does to a lane that still runs. -/
def TuneLane.endPass (l : TuneLane) (onset beat : Nat) (barless : Bool) : TuneLane :=
  if l.timing.pass < l.spec.repeats then l.nextPass onset beat barless
  else
    { l with
      phase := .draining (match l.barStop with
        | none => .done
        | some stop => stop.reason) }

/-- R112: the test that follows a record: it may have been the last of its pass. -/
def State.afterRecord (s : State) (onset : Nat) : State :=
  s.modTune fun l =>
    let m := s.melody l.spec.melody
    if l.phase.runs && m.records < l.cursor then l.endPass onset (m.beat.getD 6000) (m.bars == 0) else l

/-- R110, R111: expand a record of the TUNE lane that is not a note. -/
def State.expandPlain (s : State) (onset division : Nat) (r : ScoreRecord) : State :=
  s.modTune fun l =>
    let l := l.passRecord onset division
    match r with
    | .tempo _ beat => { l with timing := l.timing.tempo onset division beat }
    | .bar _ => (l.liveAtBar onset division).stopAtBar
    | .rest _ => l
    | .note _ _ _ => l

/-- R31: the effective level of a note. -/
def Timing.levelOf (t : Timing) (level : Nat) : Nat := min level (min t.requestCap t.liveCap)

/-- R31 to R34, R111: expand a NOTE record of the TUNE lane. A refused offer undoes the expansion and sets the lag. -/
def State.expandNote (s : State) (l : TuneLane) (onset division bell level : Nat) : State :=
  let serial := l.serial + 1
  let target : Int := (bell : Int) + l.timing.transpose
  if 1 ≤ target ∧ target ≤ (s.bellCount : Int) then
    if s.slotFree then
      let e := s.makeEntry onset target.toNat (l.timing.levelOf level) .tune l.request.slip serial
      (s.enqueue e).modTune fun l =>
        { l.passRecord onset division with
          serial := serial, phase := l.phase.onAccepted, summary := { l.summary with queued := l.summary.queued + 1 } }
    else s.modTune fun l => { l with lag := true }
  else
    s.modTune fun l =>
      { l.passRecord onset division with
        serial := serial, summary := { l.summary with range := l.summary.range + 1 } }

/-- Whether the TUNE lane's last offer was refused. -/
def State.tuneLags (s : State) : Bool :=
  match s.tune with
  | none => false
  | some l => l.lag

/-- Whether the TOLL lane's last offer was refused. -/
def State.tollLags (s : State) : Bool :=
  match s.toll with
  | none => false
  | some l => l.lag

/-- R109 to R112, R121: the TUNE lane expands its next record. The test of R113 is the caller's, in the same event. -/
def State.expandTune (s : State) : State :=
  match s.tune with
  | none => s
  | some l =>
    if !l.phase.runs then s
    else
      match s.nextRecord l with
      | none => s
      | some r =>
        let division := l.timing.division + r.delta
        let onset := l.timing.onset division
        let s :=
          match r with
          | .note _ bell level => s.expandNote l onset division bell level
          | _ => s.expandPlain onset division r
        if s.tuneLags then s else (s.afterRecord onset).testBarStop

/-! ## Expansion of strokes (7.4) -/

/-- R132: the onset of the TOLL lane's next stroke. -/
def TollLane.nextOnset (l : TollLane) : Nat := l.origin + l.next * l.spec.interval

/-- R132, R133: a stroke has been expanded: the next, and DRAINING after the last. -/
def TollLane.passStroke (l : TollLane) : TollLane :=
  { l with
    lastOnset := some l.nextOnset, next := l.next + 1, lag := false
    phase := if l.strokes ≤ l.next + 1 then .draining .done else l.phase }

/-- R33, R132, R133: the TOLL lane expands its next stroke. The test of R113 is the caller's, in the same event. -/
def State.expandToll (s : State) : State :=
  match s.toll with
  | none => s
  | some l =>
    if !l.phase.runs then s
    else if 1 ≤ l.spec.bell ∧ l.spec.bell ≤ s.bellCount then
      if s.slotFree then
        let e :=
          s.makeEntry l.nextOnset l.spec.bell (min l.spec.level l.requestCap) .toll l.request.slip (l.next + 1)
        (s.enqueue e).modToll fun l =>
          let l := { l with phase := l.phase.onAccepted, summary := { l.summary with queued := l.summary.queued + 1 } }
          l.passStroke
      else s.modToll fun l => { l with lag := true }
    else
      s.modToll fun l => { l with summary := { l.summary with range := l.summary.range + 1 } }.passStroke

/-! ## Lag (R111) and the END report (6.6) -/

/-- R44, R111: when a slot is free, a lagging lane expands its refused record again; with both lagging either may be
first. Each retry ends a lag or fills the last slot, so two are enough. -/
def State.retryLags : Nat → State → State
  | 0, s => s
  | fuel + 1, s =>
    if !s.slotFree then s
    else
      match choose s ((if s.tuneLags then [Origin.tune] else []) ++ (if s.tollLags then [Origin.toll] else [])) with
      | none => s
      | some (.tune, s) => (s.modTune (fun l => { l with lag := false })).expandTune.retryLags fuel
      | some (_, s) => (s.modToll (fun l => { l with lag := false })).expandToll.retryLags fuel

/-- The word for an end reason (R115). -/
def endWord : EndReason → Fld
  | .done => .word .DONE
  | .stop => .word .STOP
  | .cut => .word .CUT
  | .supply => .word .SUPPLY

/-- R115: the counts of an END report. -/
def summaryFields (m : Summary) : List Fld :=
  [.word .QUEUED, .num m.queued, .word .FIRED, .num m.fired, .word .SLIPPED, .num m.slipped, .word .THROTTLED,
    .num m.throttled, .word .RANGE, .num m.range, .word .REPEAT, .num m.repeated, .word .POWER, .num m.power,
    .word .HEAT, .num m.heat, .word .FAULT, .num m.fault, .word .SUPPLY, .num m.supply, .word .STOP, .num m.stop]

/-- R92: set or release the hold on a melody. -/
def State.setHold (s : State) (m : Nat) (held : Bool) : State := s.setMelody m { s.melody m with held := held }

/-- R113: a DRAINING TUNE lane with nothing left becomes IDLE: END is posted, the hold released, the record
discarded. -/
def State.drainTune (s : State) : State :=
  match s.tune with
  | none => s
  | some l =>
    match l.phase with
    | .draining reason =>
      if s.laneDrained .tune then
        let s := s.post .ended ([.num l.request.id, endWord reason] ++ summaryFields l.summary)
        { s.setHold l.spec.melody false with tune := none }
      else s
    | _ => s

/-- R113: a DRAINING TOLL lane with nothing left becomes IDLE: END is posted and the record discarded. -/
def State.drainToll (s : State) : State :=
  match s.toll with
  | none => s
  | some l =>
    match l.phase with
    | .draining reason =>
      if s.laneDrained .toll then
        { s.post .ended ([.num l.request.id, endWord reason] ++ summaryFields l.summary) with toll := none }
      else s
    | _ => s

/-- What follows, in the same event, every change of the slots, entries and coils of the lanes: refused records are
expanded again where a slot is free (R111), and each lane is tested by R113, the TUNE lane first (R182). -/
def State.settleLanes (s : State) : State := (s.retryLags 2).drainTune.drainToll

/-! ## Taking a request -/

/-- R107: the first TUNE request of the play queue. -/
def State.firstTune (s : State) : Option PlayRequest := s.playQueue.find? (fun r => !r.isToll)

/-- R107, R130: the TOLL lane does not hold an AFTER or CUT toll. -/
def State.tollLaneAllowsTune (s : State) : Bool :=
  match s.toll with
  | none => true
  | some l => l.spec.mode == .over

/-- R107, R134: the queued request is a CUT toll within its reach, which bars a TUNE take. At the very instant at which
a toll queued before comes within its reach, a TUNE take may still be taken first; whether it may is a free value
(assumption 26). A toll that has given its cut order has come within its reach, and a take is no longer first. -/
def State.barsTune (s : State) (r : PlayRequest) : Bool :=
  r.hasMode .cut && s.inReach r
    && !(r.effective == (s.now : Int) + 5000 && r.arrival < s.now && !r.cutGiven && !Config.reachFirst s.now r.id)

/-- R107: the TUNE lane takes a request. At the instant at which a CUT toll comes within its reach the order of the two
is free (R134; assumption 26). -/
def State.tuneTakeDue (s : State) : Bool :=
  !s.held && s.tune.isNone && s.supplyGood && s.tollLaneAllowsTune
    && !s.playQueue.any (fun r => s.barsTune r)
    && match s.firstTune with
      | none => false
      | some r => s.inReach r

/-- R130: a toll is eligible by its mode. -/
def State.eligible (s : State) (r : PlayRequest) : Bool := r.hasMode .over || s.tune.isNone

/-- R130: the request the TOLL lane would take. -/
def State.firstToll (s : State) : Option PlayRequest :=
  s.playQueue.find? (fun r => r.isToll && s.inReach r && s.eligible r)

/-- R130: the TOLL lane takes a request. -/
def State.tollTakeDue (s : State) : Bool := !s.held && s.toll.isNone && s.supplyGood && s.firstToll.isSome

/-- R108: the origin a take now fixes. -/
def State.originFor (s : State) (r : PlayRequest) : Nat :=
  match r.start with
  | some start => if (s.now : Int) + 2500 ≤ start then start.toNat else s.now + 2500
  | none => s.now + 2500

/-- R108: the TUNE lane takes `r`, which asks for `spec`. -/
def State.takeTune (s : State) (r : PlayRequest) (spec : TuneSpec) : State :=
  let s := s.unqueue r.id
  let m := s.melody spec.melody
  if m.phase = .ready then
    let origin := s.originFor r
    let lane : TuneLane :=
      { phase := .armed, request := r, spec := spec, origin := origin
        timing := Timing.atTake (m.beat.getD 6000) spec r.cap origin
        cursor := 1, lastOnset := none, pendingTempo := none, pendingCap := none, barStop := none, lag := false
        serial := 0, summary := {} }
    ({ s.setHold spec.melody true with tune := some lane }).post .play
      [.num r.id, .word .TAKEN, .word .TUNE, .num origin]
  else s.post .ended ([.num r.id, .word .NOSCORE] ++ summaryFields {})

/-- R131: the wall instant nearest to an origin, an exact half second rounded up. -/
def State.nearestSecond (s : State) (origin : Nat) : Nat := (((origin : Int) + s.time.offset + 5000) / 10000).toNat

/-- R131: the stroke count a rule gives at an origin. -/
def State.strokeCount (s : State) (origin : Nat) : CountRule → Nat
  | .fixed n => n
  | .hour12 =>
    if s.time.isSet then
      let h := (civil (s.nearestSecond origin)).hour % 12
      if h = 0 then 12 else h
    else 1
  | .hour24 =>
    if s.time.isSet then
      let h := (civil (s.nearestSecond origin)).hour
      if h = 0 then 24 else h
    else 1

/-- R131: the TOLL lane takes `r`, which asks for `spec`. -/
def State.takeToll (s : State) (r : PlayRequest) (spec : TollSpec) : State :=
  let s := s.unqueue r.id
  let origin := s.originFor r
  let lane : TollLane :=
    { phase := .armed, request := r, spec := spec, origin := origin, requestCap := r.cap
      strokes := s.strokeCount origin spec.rule, next := 0, lastOnset := none, lag := false, summary := {} }
  ({ s with toll := some lane }).post .play [.num r.id, .word .TAKEN, .word .TOLL, .num origin]

/-! ## When the lanes expand -/

/-- R109: the TUNE lane expands its next record. -/
def State.recordDue (s : State) : Bool :=
  !s.held &&
    match s.tune with
    | none => false
    | some l =>
      l.phase.runs && !l.lag &&
        match s.nextOnset l with
        | none => false
        | some onset => onset ≤ s.now + 5000

/-- R132: the TOLL lane expands its next stroke. -/
def State.strokeDue (s : State) : Bool :=
  !s.held &&
    match s.toll with
    | none => false
    | some l => l.phase.runs && !l.lag && l.nextOnset ≤ s.now + 5000

end Sys2Proof.Machine
end

