-- ==== Sys2Proof/Machine/CueActs.lean ====
section
/-! DEFINITION. The action of a cue line (R178), and the settling of the lanes and the cues that ends every event which
may free a slot, end a play or make a request inactive. -/

namespace Sys2Proof.Machine

/-- R178: enable ON, latch set, an action to carry out, and no request from the cue active. -/
def State.cueReady (s : State) (c : Nat) : Bool :=
  let r := s.cue c
  r.config.enable && r.latch && r.config.action != .none && (s.activeOf c).isNone

/-- R178, step 1: the latch is cleared. -/
def State.clearLatch (s : State) (c : Nat) : State := s.setCue c { s.cue c with latch := false }

/-- R178: a play request of cue `c`, start absent, judged by the quiet rules at the wall second in which it is
made. -/
def State.cueRequest (s : State) (c : Nat) (play : Play) (cap slip wait : Nat) : State :=
  s.offerQuiet (s.makeRequest (.cue c) play none wait cap slip (s.cue c).config.force) s.wallSecond

/-- R178: cue `c` acts. -/
def State.cueAct (s : State) (c : Nat) : State :=
  let s := s.clearLatch c
  match (s.cue c).config.action with
  | .none => s
  | .tune spec cap slip wait => s.cueRequest c (.tune spec) cap slip wait
  | .toll spec cap slip wait => s.cueRequest c (.toll spec) cap slip wait
  | .stop => (s.barStopTune .stop).settleLanes

/-- R178: the cues that can act do so, each at most once since acting clears its latch; with several, in any order
(assumption 17). -/
def State.settleCues : Nat → State → State
  | 0, s => s
  | fuel + 1, s =>
    match choose s ((List.range' 1 4).filter s.cueReady) with
    | none => s
    | some (c, s) => (s.cueAct c).settleCues fuel

/-- The end of an event that touches the lanes: slots freed are offered to lagging lanes, DRAINING lanes with nothing
left end, and cues whose request has ceased to be active act (R111, R113, R178). -/
def State.settle (s : State) : State := s.settleLanes.settleCues 4

end Sys2Proof.Machine
end

