-- ==== Sys2Proof/Machine/Melodies.lean ====
section
/-! DEFINITION. The melody store (section 5): the block pool and the MEL and MEL? requests. -/

namespace Sys2Proof.Machine

/-! ## The block pool (5.2) -/

/-- R80: the melody a request names. -/
def readMelody (t : Text) : Option Nat := readWithin 1 64 t

/-- The blocks the 64 melodies own. -/
def State.ownedBlocks (s : State) : List Nat := s.melodies.toList.flatMap (·.blocks)

/-- R81: the number of free blocks. -/
def State.freeBlocks (s : State) : Nat := 384 - s.ownedBlocks.length

/-- R81: the lowest-numbered free block. -/
def State.lowestFree (s : State) : Option Nat := (List.range' 1 384).find? (fun k => !s.ownedBlocks.contains k)

/-- R81: the slots of freed blocks are discarded. -/
def State.discardBlocks (s : State) (blocks : List Nat) : State :=
  { s with pool := blocks.foldl (fun pool k => setSlot pool k []) s.pool }

/-- R82: a NOTE record. -/
def ScoreRecord.isNote : ScoreRecord → Bool
  | .note _ _ _ => true
  | .rest _ => false
  | .bar _ => false
  | .tempo _ _ => false

/-- R82: a BAR record. -/
def ScoreRecord.isBar : ScoreRecord → Bool
  | .note _ _ _ => false
  | .rest _ => false
  | .bar _ => true
  | .tempo _ _ => false

/-! ## Appending (R86, R87) -/

/-- R81, R87: a block for melody `m`, if one can be allocated: the lowest free, when it owns fewer than 64. -/
def State.allocate (s : State) (m : Nat) : Option State :=
  let h := s.melody m
  if 64 ≤ h.blocks.length then none
  else (s.lowestFree).map (fun k => s.setMelody m { h with blocks := h.blocks ++ [k] })

/-- R86: a record placed in the next slot of the last block of melody `m`. -/
def State.place (s : State) (m : Nat) (r : ScoreRecord) : State :=
  let h := s.melody m
  let k := h.blocks.getLast?.getD 0
  let s := { s with pool := setSlot s.pool k (slot s.pool k [] ++ [r]) }
  s.setMelody m
    { h with
      records := h.records + 1
      notes := if r.isNote then h.notes + 1 else h.notes
      bars := if r.isBar then h.bars + 1 else h.bars }

/-- R86: one record appended to melody `m`; `none` where the block it needs cannot be allocated. -/
def State.appendRecord (s : State) (m : Nat) (r : ScoreRecord) : Option State :=
  if (s.melody m).records % 32 = 0 then (s.allocate m).map (fun s => s.place m r) else some (s.place m r)

/-- R86: records appended in their order. -/
def State.appendAll (m : Nat) (s : State) : List ScoreRecord → Option State
  | [] => some s
  | r :: rest => (s.appendRecord m r).bind (fun s => State.appendAll m s rest)

/-! ## The requests -/

/-- R84: the name and the beat of MEL OPEN. -/
def readOpen : List Text → Option (Text × Nat)
  | [name] => (readName name).map (·, 6000)
  | [name, beat] => do
    let name ← readName name
    let beat ← readWithin 2500 30000 beat
    pure (name, beat)
  | _ => none

/-- R84: `tag MEL m OPEN name [beat]`. -/
def melOpenRequest (tag m : Text) (args : List Text) (s : State) : State :=
  match readMelody m, readOpen args with
  | some m, some (name, beat) =>
    if (s.melody m).held then s.err tag .locked
    else
      ((s.discardBlocks (s.melody m).blocks).setMelody m { phase := .opened, name := some name, beat := some beat }).ok
        tag [.num m, .word .OPEN]
  | _, _ => s.err tag .arg

/-- R85: 1 to 12 valid record fields. -/
def readRecords (args : List Text) : Option (List ScoreRecord) :=
  if 1 ≤ args.length ∧ args.length ≤ 12 then args.mapM readRecord else none

/-- R85 to R87: `tag MEL m ADD record [record ...]`. -/
def melAddRequest (tag m : Text) (args : List Text) (s : State) : State :=
  match readMelody m with
  | none => s.err tag .arg
  | some m =>
    if (s.melody m).phase ≠ .opened then s.err tag .notready
    else
      match readRecords args with
      | none => s.err tag .arg
      | some records =>
        match State.appendAll m s records with
        | none => s.err tag .full
        | some t => t.ok tag [.num m, .word .RECORDS, .num (t.melody m).records, .word .FREE, .num t.freeBlocks]

/-- R88: `tag MEL m CLOSE`. -/
def melCloseRequest (tag m : Text) (more : List Text) (s : State) : State :=
  match readMelody m with
  | none => s.err tag .arg
  | some m =>
    let h := s.melody m
    if !more.isEmpty then s.err tag .arg
    else if h.phase ≠ .opened then s.err tag .notready
    else if h.notes = 0 then s.err tag .arg
    else (s.setMelody m { h with phase := .ready }).ok tag [.num m, .word .READY, .word .RECORDS, .num h.records]

/-- R89: `tag MEL m DELETE`. -/
def melDeleteRequest (tag m : Text) (more : List Text) (s : State) : State :=
  match readMelody m with
  | none => s.err tag .arg
  | some m =>
    if !more.isEmpty then s.err tag .arg
    else if (s.melody m).held then s.err tag .locked
    else
      let s := (s.discardBlocks (s.melody m).blocks).setMelody m {}
      s.ok tag [.num m, .word .EMPTY, .word .FREE, .num s.freeBlocks]

/-- R90: the fields of a MEL? reply. -/
def State.melodyFields (s : State) (m : Nat) : List Fld :=
  let h := s.melody m
  let shown (state : Kw) : List Fld :=
    [.num m, .word state, .text (h.name.getD []), .num (h.beat.getD 0), .word .RECORDS, .num h.records,
      .word .NOTES, .num h.notes, .word .BARS, .num h.bars, .word .BLOCKS, .num h.blocks.length,
      .word .HOLD, .word (if h.held then .TUNE else .NONE), .word .FREE, .num s.freeBlocks]
  match h.phase with
  | .empty => [.num m, .word .EMPTY, .word .FREE, .num s.freeBlocks]
  | .opened => shown .OPEN
  | .ready => shown .READY

/-- R90: `tag MEL? m`. -/
def melReadRequest (tag : Text) (fields : List Text) (s : State) : State :=
  match fields with
  | [m] =>
    match readMelody m with
    | none => s.err tag .arg
    | some m => s.ok tag (s.melodyFields m)
  | _ => s.err tag .arg

/-- R84: MEL OPEN. -/
def execMelOpen (tag m : Text) (args : List Text) (s : State) : Outcome := request s (melOpenRequest tag m args)

/-- R85: MEL ADD. -/
def execMelAdd (tag m : Text) (args : List Text) (s : State) : Outcome := request s (melAddRequest tag m args)

/-- R88: MEL CLOSE. -/
def execMelClose (tag m : Text) (more : List Text) (s : State) : Outcome := request s (melCloseRequest tag m more)

/-- R89: MEL DELETE. -/
def execMelDelete (tag m : Text) (more : List Text) (s : State) : Outcome := request s (melDeleteRequest tag m more)

/-- R90: MEL?. -/
def execMelRead (tag : Text) (fields : List Text) (s : State) : Outcome := request s (melReadRequest tag fields)

end Sys2Proof.Machine
end

