-- ==== Sys2Proof/Machine/Plays.lean ====
section
/-! DEFINITION. The requests and events of the play queue and the TUNE lane (section 6): PLAY, CANCEL, ADJUST and STOP;
expiry, the take, and the expansion of a record. -/

namespace Sys2Proof.Machine

/-! ## PLAY (6.3) -/

/-- R105, R127: the start the options AT and CLOCK give. -/
def State.startOf (s : State) (o : Options) : Option Int :=
  match o.atTime, o.clock with
  | some instant, _ => some (s.equivalent instant)
  | none, some t => some (t : Int)
  | none, none => none

/-- R105, R127: AT names wall time while the wall clock is UNSET. -/
def State.namesUnset (s : State) (o : Options) : Bool := o.atTime.isSome && !s.time.isSet

/-- R102, R105, R128: the reply to a LINE request that has been offered; `shown` are the stored values. -/
def State.replyOffer (s : State) (tag : Text) (shown : List Fld) : Admission → State
  | .merged standing => s.ok tag [.num standing.id, .word .MERGED, classWord standing]
  | .full => s.err tag .qfull
  | .admitted id => s.ok tag ([.num id, .word .QUEUED] ++ shown)

/-- R105, R128: a LINE request that has passed the checks of its form: refused for an UNSET clock or a latest start
already past, and otherwise offered. -/
def State.offerLine (s : State) (tag : Text) (o : Options) (r : PlayRequest) (shown : List Fld) : State :=
  if s.namesUnset o then s.err tag .unset
  else if r.latest < (s.now : Int) then s.err tag .arg
  else (s.offer r).1.replyOffer tag shown (s.offer r).2

/-- R105: the options of PLAY. -/
def playOptions : List Kw := [.AT, .CLOCK, .TEMPO, .TRANSPOSE, .CAP, .REPEAT, .SLIP, .WAIT]

/-- R105: the stored values a PLAY reply shows. -/
def shownTune (spec : TuneSpec) (r : PlayRequest) : List Fld :=
  [.word .TEMPO, .num spec.tempo, .word .TRANSPOSE, .int spec.transpose, .word .CAP, .num r.cap, .word .REPEAT,
    .num spec.repeats, .word .SLIP, .num r.slip, .word .LATEST, .int r.latest]

/-- R105: `tag PLAY m [option ...]`; every numeric value of the line has at most 15 digits. -/
def playRequest (tag : Text) (fields : List Text) (s : State) : State :=
  match fields with
  | [] => s.err tag .arg
  | m :: options =>
    match readWithin15 1 64 m, readOptions 15 playOptions options with
    | some m, some o =>
      match o.waitOf 300 with
      | none => s.err tag .arg
      | some wait =>
        let spec := o.tuneSpec m
        let r := s.makeRequest .line (.tune spec) (s.startOf o) wait o.capOf o.slipOf false
        s.offerLine tag o r (shownTune spec r)
    | _, _ => s.err tag .arg

/-- R105: PLAY. -/
def execPlay (tag : Text) (fields : List Text) (s : State) : Outcome := request s (playRequest tag fields)

/-! ## CANCEL and expiry (6.2) -/

/-- R104: the ids of the requests the lanes hold. -/
def State.idsInLanes (s : State) : List Nat := s.tune.toList.map (·.request.id) ++ s.toll.toList.map (·.request.id)

/-- R104: `tag CANCEL id`; a cue whose request it was may act after it (R178). -/
def cancelRequest (tag : Text) (fields : List Text) (s : State) : State :=
  match fields with
  | [id] =>
    match readWithin 1 255 id with
    | none => s.err tag .arg
    | some id =>
      if s.playQueue.any (fun r => r.id == id) then
        ((s.unqueue id).ok tag [.num id, .word .CANCELLED]).settle
      else if s.idsInLanes.contains id then s.err tag .busy
      else s.err tag .arg
  | _ => s.err tag .arg

/-- R104: CANCEL. -/
def execCancel (tag : Text) (fields : List Text) (s : State) : Outcome := request s (cancelRequest tag fields)

/-- R103: the queued request with an id whose latest start has passed. -/
def State.expiredRequest (s : State) (id : Nat) : Option PlayRequest :=
  s.playQueue.find? (fun r => r.id == id && r.latest < (s.now : Int))

/-- R103: a request expires. -/
def State.expire (s : State) (id : Nat) : State :=
  match s.expiredRequest id with
  | none => s
  | some r => ((s.unqueue id).post .expired (.num id :: sourceFields r.source ++ [classWord r])).settle

/-- R103: the queued request with this id has passed its latest start. -/
def State.expiryDue (s : State) (id : Nat) : Bool := !s.held && (s.expiredRequest id).isSome

/-- R103: expiry. -/
def execExpired (id : Nat) (s : State) : Outcome := event (s.expiryDue id) s (fun s => s.expire id)

/-! ## The take and the expansion (6.4, 6.5) -/

/-- R107, R108: the TUNE lane takes the first TUNE request. -/
def State.takeFirstTune (s : State) : State :=
  match s.firstTune with
  | none => s
  | some r =>
    match r.play with
    | .tune spec => (s.takeTune r spec).settle
    | .toll _ => s

/-- R107, R108: the take of the TUNE lane. -/
def execTuneTake (s : State) : Outcome := event s.tuneTakeDue s State.takeFirstTune

/-- R109 to R112: the TUNE lane expands its next record. -/
def execExpandRecord (s : State) : Outcome := event s.recordDue s (fun s => s.expandTune.settle)

/-! ## ADJUST (6.7) -/

/-- A value, or NONE. -/
def numOrNone : Option Nat → Fld
  | none => .word .NONE
  | some n => .num n

/-- R116: the pending values after an ADJUST. -/
def TuneLane.adjust (l : TuneLane) (o : Options) : TuneLane :=
  { l with
    pendingTempo := (o.tempo.map (clamp 50 200)).or l.pendingTempo
    pendingCap := (o.cap.map clampLevel).or l.pendingCap }

/-- R116: TUNE, and at least one of TEMPO and CAP. -/
def readAdjust : List Text → Option Options
  | [] => none
  | lane :: options =>
    if readKw lane = some .TUNE ∧ !options.isEmpty then readOptions 120 [.TEMPO, .CAP] options else none

/-- R116: `tag ADJUST TUNE [TEMPO p] [CAP L]`. -/
def adjustRequest (tag : Text) (fields : List Text) (s : State) : State :=
  match readAdjust fields with
  | none => s.err tag .arg
  | some o =>
    match s.tune with
    | none => s.err tag .notready
    | some l =>
      if l.phase.runs then
        let l := l.adjust o
        { s with tune := some l }.ok tag
          [.word .TUNE, .num l.request.id, .word .PENDING, .word .TEMPO, numOrNone l.pendingTempo, .word .CAP,
            numOrNone l.pendingCap]
      else s.err tag .notready

/-- R116: ADJUST. -/
def execAdjust (tag : Text) (fields : List Text) (s : State) : Outcome := request s (adjustRequest tag fields)

/-! ## STOP (6.8) -/

/-- R118: the lane a STOP names. -/
inductive LaneName where
  | tune | toll
  deriving DecidableEq, Repr

/-- R118: TUNE or TOLL. -/
def readLane (t : Text) : Option LaneName :=
  match readKw t with
  | some .TUNE => some .tune
  | some .TOLL => some .toll
  | _ => none

/-- R118: the reply of a STOP: IDLE, DRAINING or STOPPING; a DRAINING lane with nothing left shows IDLE, since it
becomes IDLE at once. -/
def stopFields (lane : Kw) (phase : Option (Nat × LanePhase)) (drained : Bool) : List Fld :=
  match phase with
  | none => [.word lane, .word .IDLE]
  | some (id, .draining _) =>
    if drained then [.word lane, .word .IDLE] else [.word lane, .num id, .word .DRAINING]
  | some (id, _) => [.word lane, .num id, .word .STOPPING]

/-- R118: reply to a STOP of the TUNE lane by the lane's state, and only then settle the lanes, whose END reports
follow the reply. -/
def State.replyTuneStop (s : State) (tag : Text) : State :=
  (s.ok tag (stopFields .TUNE (s.tune.map (fun l => (l.request.id, l.phase))) (s.laneDrained .tune))).settle

/-- R118: reply to a STOP of the TOLL lane. -/
def State.replyTollStop (s : State) (tag : Text) : State :=
  (s.ok tag (stopFields .TOLL (s.toll.map (fun l => (l.request.id, l.phase))) (s.laneDrained .toll))).settle

/-- R121, R122, R138: a bar stop of the TOLL lane: in ARMED or PLAYING it finds no bar line and acts as a stop NOW, in
DRAINING and IDLE it has no effect. -/
def State.barStopToll (s : State) (reason : EndReason) : State := if s.tollRuns then s.stopTollNow reason else s

/-- R118, R119, R122: `tag STOP lane NOW`. -/
def stopNowRequest (tag lane : Text) (more : List Text) (s : State) : State :=
  if !more.isEmpty then s.err tag .arg
  else
    match readLane lane with
    | none => s.err tag .arg
    | some .tune => (s.stopTuneNow .stop).replyTuneStop tag
    | some .toll => (s.stopTollNow .stop).replyTollStop tag

/-- R118, R120 to R122: `tag STOP lane BAR`. -/
def stopBarRequest (tag lane : Text) (more : List Text) (s : State) : State :=
  if !more.isEmpty then s.err tag .arg
  else
    match readLane lane with
    | none => s.err tag .arg
    | some .tune => (s.barStopTune .stop).replyTuneStop tag
    | some .toll => (s.barStopToll .stop).replyTollStop tag

/-- R118, R119: STOP NOW. -/
def execStopNow (tag lane : Text) (more : List Text) (s : State) : Outcome := request s (stopNowRequest tag lane more)

/-- R118, R120: STOP BAR. -/
def execStopBar (tag lane : Text) (more : List Text) (s : State) : Outcome := request s (stopBarRequest tag lane more)

end Sys2Proof.Machine
end

