-- ==== Sys2Proof/Machine/Tolls.lean ====
section
/-! DEFINITION. The TOLL request and the events of the TOLL lane (section 7): the take, the expansion of a stroke, and
the cut order. -/

namespace Sys2Proof.Machine

/-! ## TOLL (7.2) -/

/-- R127: the options of TOLL. -/
def tollOptions : List Kw := [.AT, .CLOCK, .INTERVAL, .LEVEL, .MODE, .CAP, .SLIP, .WAIT]

/-- R128: a count rule as the line writes it. -/
def ruleFields : CountRule → List Fld
  | .hour12 => [.word .HOUR12]
  | .hour24 => [.word .HOUR24]
  | .fixed n => [.word .FIXED, .num n]

/-- R126: the word for a toll mode. -/
def modeWord : TollMode → Fld
  | .after => .word .AFTER
  | .cut => .word .CUT
  | .over => .word .OVER

/-- R128: a toll spec as the TOLL reply shows it. -/
def tollFields (spec : TollSpec) : List Fld :=
  .word .TOLL :: ruleFields spec.rule
    ++ [.word .BELL, .num spec.bell, .word .INTERVAL, .num spec.interval, .word .LEVEL, .num spec.level, .word .MODE,
      modeWord spec.mode]

/-- R128: the stored values a TOLL reply shows. -/
def shownToll (spec : TollSpec) (r : PlayRequest) : List Fld :=
  tollFields spec ++ [.word .CAP, .num r.cap, .word .SLIP, .num r.slip, .word .LATEST, .int r.latest]

/-- R127: the rule, the fitted bell and the options of TOLL; every numeric value of the line has at most 15 digits. -/
def State.readToll (s : State) (fields : List Text) : Option (TollSpec × Options) := do
  let (rule, rest) ← readRule 15 fields
  match rest with
  | [] => none
  | b :: options =>
    let b ← readWithin15 1 s.bellCount b
    let o ← readOptions 15 tollOptions options
    pure (o.tollSpec rule b, o)

/-- R127, R128: `tag TOLL rule b [option ...]`. -/
def tollRequest (tag : Text) (fields : List Text) (s : State) : State :=
  match s.readToll fields with
  | none => s.err tag .arg
  | some (spec, o) =>
    match o.waitOf 120 with
    | none => s.err tag .arg
    | some wait =>
      let r := s.makeRequest .line (.toll spec) (s.startOf o) wait o.capOf o.slipOf false
      s.offerLine tag o r (shownToll spec r)

/-- R127: TOLL. -/
def execToll (tag : Text) (fields : List Text) (s : State) : Outcome := request s (tollRequest tag fields)

/-! ## The TOLL lane (7.3, 7.4) -/

/-- R130, R131: the TOLL lane takes the first eligible toll. -/
def State.takeFirstToll (s : State) : State :=
  match s.firstToll with
  | none => s
  | some r =>
    match r.play with
    | .tune _ => s
    | .toll spec => s.takeToll r spec

/-- R130, R131: the take of the TOLL lane. -/
def execTollTake (s : State) : Outcome := event s.tollTakeDue s State.takeFirstToll

/-- R132, R133: the TOLL lane expands its next stroke. -/
def execExpandStroke (s : State) : Outcome := event s.strokeDue s (fun s => s.expandToll.settle)

/-! ## The cut order (7.5) -/

/-- R134: a queued CUT toll within its reach has yet to give its order to the TUNE lane, which is ARMED or PLAYING. -/
def State.cutDue (s : State) (id : Nat) : Bool :=
  !s.held && s.tuneRuns
    && s.playQueue.any (fun r => r.id == id && r.hasMode .cut && s.inReach r && !r.cutGiven)

/-- Mark the queued request with an id as having given its cut order (assumption 6). -/
def State.markCut (s : State) (id : Nat) : State :=
  { s with playQueue := s.playQueue.map (fun r => if r.id = id then { r with cutGiven := true } else r) }

/-- R134: the cut order of the CUT toll with an id. -/
def State.cutOrder (s : State) (id : Nat) : State :=
  let tuneId := (s.tune.map (·.request.id)).getD 0
  (((s.markCut id).post .play [.num id, .word .CUT, .num tuneId]).barStopTune .cut).settle

/-- R134: a cut order. -/
def execCutOrder (id : Nat) (s : State) : Outcome := event (s.cutDue id) s (fun s => s.cutOrder id)

end Sys2Proof.Machine
end

