-- ==== Sys2Proof/Machine/ScheduleRequests.lean ====
section
/-! DEFINITION. The requests of the schedule engine (sections 8.1, 8.2, 8.4): ENTRY, ENTRY?, HOLD, QUIET and QUIET?. -/

namespace Sys2Proof.Machine

/-! ## Reading an entry (R140) -/

/-- The time fields of an ENTRY line; `none` where not given yet. -/
structure TimeFields where
  hours : Option (List Nat) := none
  minutes : Option (List Nat) := none
  second : Option Nat := none
  days : Option (List Nat) := none
  months : Option (List Nat) := none
  dates : Option (DayMonth × DayMonth) := none
  expiry : Option Nat := none
  force : Bool := false
  deriving DecidableEq, Repr

/-- Write a time field that has not been given yet; a keyword that stands twice is refused. -/
def onceField {α : Type} (held : Option α) (value : Option α) (write : α → TimeFields) : Option TimeFields :=
  match held with
  | some _ => none
  | none => value.map write

/-- R140: the two day-and-month values of DATES, from the front of the fields. -/
def readDates (f : TimeFields) : List Text → Option (TimeFields × List Text)
  | first :: last :: rest =>
    match readDayMonth first, readDayMonth last with
    | some a, some b => (onceField f.dates (some (a, b)) (fun d => { f with dates := some d })).map (·, rest)
    | _, _ => none
  | _ => none

/-- R140: a time field of one value. -/
def readOneValue (f : TimeFields) (k : Kw) (v : Text) : Option TimeFields :=
  match k with
  | .HOURS => onceField f.hours (readSet 0 23 v) (fun x => { f with hours := some x })
  | .MINUTES => onceField f.minutes (readMinutes v) (fun x => { f with minutes := some x })
  | .SECOND => onceField f.second (readWithin6 0 59 v) (fun x => { f with second := some x })
  | .DAYS => onceField f.days (readDays v) (fun x => { f with days := some x })
  | .MONTHS => onceField f.months (readSet 1 12 v) (fun x => { f with months := some x })
  | .EXPIRY => onceField f.expiry (readNum 6 v) (fun x => { f with expiry := some x })
  | _ => none

/-- R140: the time field that begins with keyword `k`. -/
def readTimeField (f : TimeFields) (k : Kw) (rest : List Text) : Option (TimeFields × List Text) :=
  if k = .FORCE then if f.force then none else some ({ f with force := true }, rest)
  else if k = .DATES then readDates f rest
  else
    match rest with
    | [] => none
    | v :: rest => (readOneValue f k v).map (·, rest)

/-- R1: what the reply shows of a field a value was given for: the keyword and the stored value where the value was
clamped, nothing where it was stored as given. -/
def shownClamp (k : Kw) (given : Option Nat) (stored : Nat) : List Fld :=
  match given with
  | none => []
  | some n => if n = stored then [] else [.word k, .num stored]

/-- R1: the same of a signed field. -/
def shownClampInt (k : Kw) (given : Option Int) (stored : Int) : List Fld :=
  match given with
  | none => []
  | some x => if x = stored then [] else [.word k, .int stored]

/-- R1, R140: the clamped fields of an entry's action, each with its stored value, in the order ENTRY? writes them
(assumption 24). -/
def clampedFields (o : Options) : ScheduleAction → List Fld
  | .tune spec cap =>
    shownClamp .TEMPO o.tempo spec.tempo ++ shownClampInt .TRANSPOSE o.transpose spec.transpose
      ++ shownClamp .CAP o.cap cap
  | .toll spec => shownClamp .LEVEL o.level spec.level

/-- R140: the action of an entry, with its clamped fields: the keyword TUNE or TOLL has been read. -/
def readEntryAction (isToll : Bool) (rest : List Text) : Option (ScheduleAction × List Fld) :=
  if isToll then do
    let (rule, rest) ← readRule 6 rest
    match rest with
    | [] => none
    | b :: options =>
      let b ← readWithin6 1 64 b
      let o ← readOptions 6 [.INTERVAL, .LEVEL, .MODE] options
      let action := ScheduleAction.toll (o.tollSpec rule b)
      pure (action, clampedFields o action)
  else
    match rest with
    | [] => none
    | m :: options => do
      let m ← readWithin6 1 64 m
      let o ← readOptions 6 [.TEMPO, .TRANSPOSE, .CAP, .REPEAT] options
      let action := ScheduleAction.tune (o.tuneSpec m) o.capOf
      pure (action, clampedFields o action)

/-- R140: the time fields and then the action with its clamped fields; `fuel` bounds the number of time fields. -/
def readEntryFrom : Nat → TimeFields → List Text → Option (TimeFields × ScheduleAction × List Fld)
  | _, _, [] => none
  | 0, _, _ :: _ => none
  | fuel + 1, f, w :: rest =>
    match readKw w with
    | none => none
    | some .TUNE => (readEntryAction false rest).map (f, ·)
    | some .TOLL => (readEntryAction true rest).map (f, ·)
    | some k => (readTimeField f k rest).bind (fun (f, rest) => readEntryFrom fuel f rest)

/-- R140: the longest expiry an action allows, in seconds. -/
def ScheduleAction.longestExpiry : ScheduleAction → Nat
  | .tune _ _ => 300
  | .toll _ => 120

/-- R139, R140: the entry that the fields after the number spell, its defaults filled in, and the clamped fields that the
reply shows (R1). -/
def readEntry (ws : List Text) : Option (ScheduleEntry × List Fld) := do
  let (f, action, clamped) ← readEntryFrom ws.length {} ws
  let hours ← f.hours
  let minutes ← f.minutes
  let expiry ← within 0 action.longestExpiry (f.expiry.getD 120)
  pure
    ({ hours := hours, minutes := minutes, second := f.second.getD 0, days := f.days.getD (List.range 7)
       months := f.months.getD (List.range' 1 12), dates := f.dates, action := action, expiry := expiry
       force := f.force }, clamped)

/-! ## Writing an entry (R142) -/

/-- The pieces joined by commas. -/
def joinCommas : List Text → Text
  | [] => []
  | [w] => w
  | w :: ws => w ++ ',' :: joinCommas ws

/-- The runs of successive numbers of an ascending list, as first and last. -/
def runs : List Nat → List (Nat × Nat)
  | [] => []
  | x :: xs =>
    match runs xs with
    | [] => [(x, x)]
    | (a, b) :: rest => if x + 1 = a then (x, b) :: rest else (x, x) :: (a, b) :: rest

/-- A set of numbers as R142 writes it: `*` when full, otherwise an ascending list with ranges joined. -/
def setText (size : Nat) (xs : List Nat) : Text :=
  if xs.length = size then ['*']
  else joinCommas ((runs xs).map (fun (a, b) => if a = b then decimal a else decimal a ++ '-' :: decimal b))

/-- The name of a weekday. -/
def dayText (d : Nat) : Text :=
  ([Kw.MO, .TU, .WE, .TH, .FR, .SA, .SU].map Kw.text).getD d []

/-- A set of weekdays as the line writes it. R142 orders hours and months only; the model writes the days from MO to SU
whatever order they were given in, and * for all seven, in QUIET replies too (assumption 11). -/
def daysText (xs : List Nat) : Text := if xs.length = 7 then ['*'] else joinCommas (xs.map dayText)

/-- dd-mm. -/
def dayMonthText (d : DayMonth) : Text := padded 2 d.day ++ '-' :: padded 2 d.month

/-- A toll spec in the form of ENTRY and CUE. -/
def tollActionFields (spec : TollSpec) : List Fld :=
  .word .TOLL :: ruleFields spec.rule
    ++ [.num spec.bell, .word .INTERVAL, .num spec.interval, .word .LEVEL, .num spec.level, .word .MODE,
      modeWord spec.mode]

/-- A tune and its cap in the form of ENTRY and CUE. -/
def tuneActionFields (spec : TuneSpec) (cap : Nat) : List Fld :=
  [.word .TUNE, .num spec.melody, .word .TEMPO, .num spec.tempo, .word .TRANSPOSE, .int spec.transpose, .word .CAP,
    .num cap, .word .REPEAT, .num spec.repeats]

/-- R142: the fields of an entry in the form of ENTRY, every one written out. -/
def entryFields (e : ScheduleEntry) : List Fld :=
  [.word .HOURS, .text (setText 24 e.hours), .word .MINUTES, .text (joinCommas (e.minutes.map decimal)),
      .word .SECOND, .num e.second, .word .DAYS, .text (daysText e.days), .word .MONTHS, .text (setText 12 e.months)]
    ++ (match e.dates with
      | none => []
      | some (a, b) => [.word .DATES, .text (dayMonthText a), .text (dayMonthText b)])
    ++ [.word .EXPIRY, .num e.expiry]
    ++ (if e.force then [.word .FORCE] else [])
    ++ match e.action with
      | .tune spec cap => tuneActionFields spec cap
      | .toll spec => tollActionFields spec

/-! ## ENTRY and HOLD -/

/-- R141, R142: the entry number of ENTRY CLEAR and ENTRY?. -/
def readEntryNumber (t : Text) : Option Nat := readWithin 1 48 t

/-- Write pending entry `k`. -/
def State.setDraft (s : State) (k : Nat) (e : Option ScheduleEntry) : State := { s with draft := setSlot s.draft k e }

/-- R140, R141: the reply of ENTRY and ENTRY CLEAR. Where fields of the line were clamped, their stored values (R1)
follow the fields that R140 writes out (assumption 24). -/
def State.replyEntry (s : State) (tag : Text) (k : Nat) (clamped : List Fld) : State :=
  s.ok tag ([.num k, .word .PENDING, .word .CHANGED, .num s.changed] ++ clamped)

/-- R140: `tag ENTRY k field ... action`; every numeric value of the line has at most 6 digits. -/
def entryRequest (tag : Text) (fields : List Text) (s : State) : State :=
  match fields with
  | [] => s.err tag .arg
  | k :: rest =>
    match readWithin6 1 48 k, readEntry rest with
    | some k, some (e, clamped) => (s.setDraft k (some e)).replyEntry tag k clamped
    | _, _ => s.err tag .arg

/-- R141: `tag ENTRY k CLEAR`. -/
def entryClearRequest (tag number : Text) (more : List Text) (s : State) : State :=
  match readEntryNumber number with
  | none => s.err tag .arg
  | some k => if more.isEmpty then (s.setDraft k none).replyEntry tag k [] else s.err tag .arg

/-- R142: the stamp of a LIVE reply. -/
def stampFields : Option Nat → List Fld
  | none => [.word .STAMP, .word .NONE]
  | some t => [.word .STAMP, .wall t]

/-- An entry, or UNUSED. -/
def entryOrUnused : Option ScheduleEntry → List Fld
  | none => [.word .UNUSED]
  | some e => entryFields e

/-- R142: `tag ENTRY? k table`. -/
def entryReadRequest (tag : Text) (fields : List Text) (s : State) : State :=
  match fields with
  | [k, table] =>
    match readEntryNumber k, readKw table with
    | some k, some .LIVE =>
      s.ok tag (.num k :: .word .LIVE :: entryOrUnused (slot s.live k none) ++ stampFields (slot s.stamps k none))
    | some k, some .PENDING => s.ok tag (.num k :: .word .PENDING :: entryOrUnused (slot s.draft k none))
    | _, _ => s.err tag .arg
  | _ => s.err tag .arg

/-- R144: `tag HOLD ON` or `tag HOLD OFF`. -/
def holdRequest (on : Bool) (tag : Text) (more : List Text) (s : State) : State :=
  if more.isEmpty then
    { s with hold := on }.ok tag [.word .HOLD, onOff on, .word .CHANGED, .num s.changed]
  else s.err tag .arg

/-! ## QUIET (8.4) -/

/-- R150: the number of a quiet rule. -/
def readRuleNumber (t : Text) : Option Nat := readWithin 1 8 t

/-- The fields of a QUIET line; `none` where not given yet. -/
structure QuietFields where
  days : Option (List Nat) := none
  fromMin : Option Nat := none
  toMin : Option Nat := none
  tune : Option QuietTune := none
  tollCap : Option Nat := none
  deriving DecidableEq, Repr

/-- Write a quiet field that has not been given yet; a doubled keyword is refused. -/
def onceQuiet {α : Type} (held : Option α) (value : Option α) (write : α → QuietFields) : Option QuietFields :=
  match held with
  | some _ => none
  | none => value.map write

/-- R150: the tune action, from the front of the fields after TUNE. -/
def readQuietTune : List Text → Option (QuietTune × List Text)
  | [] => none
  | w :: rest =>
    match readKw w with
    | some .SILENCE => some (.silence, rest)
    | some .CAP =>
      match rest with
      | [] => none
      | level :: rest => (readNat level).map (fun n => (.cap (clampLevel n), rest))
    | _ => none

/-- R150: a quiet field of one value. -/
def readQuietValue (f : QuietFields) (k : Kw) (v : Text) : Option QuietFields :=
  match k with
  | .DAYS => onceQuiet f.days (readDays v) (fun x => { f with days := some x })
  | .FROM => onceQuiet f.fromMin (readClock v) (fun x => { f with fromMin := some x })
  | .TO => onceQuiet f.toMin (readClock v) (fun x => { f with toMin := some x })
  | .TOLL => onceQuiet f.tollCap ((readNat v).map clampLevel) (fun x => { f with tollCap := some x })
  | _ => none

/-- R150: the quiet fields that make up the rest of a line; `fuel` bounds their number. -/
def readQuietFrom : Nat → QuietFields → List Text → Option QuietFields
  | _, f, [] => some f
  | 0, _, _ :: _ => none
  | fuel + 1, f, w :: rest =>
    match readKw w with
    | none => none
    | some .TUNE =>
      match readQuietTune rest with
      | none => none
      | some (tune, rest) =>
        (onceQuiet f.tune (some tune) (fun x => { f with tune := some x })).bind (fun f => readQuietFrom fuel f rest)
    | some k =>
      match rest with
      | [] => none
      | v :: rest => (readQuietValue f k v).bind (fun f => readQuietFrom fuel f rest)

/-- R150: the rule a line spells; every keyword is required. -/
def readQuiet (ws : List Text) : Option QuietRule := do
  let f ← readQuietFrom ws.length {} ws
  let days ← f.days
  let fromMin ← f.fromMin
  let toMin ← f.toMin
  let tune ← f.tune
  let tollCap ← f.tollCap
  pure { days := days, fromMin := fromMin, toMin := toMin, tune := tune, tollCap := tollCap }

/-- hh:mm of a minute of the day. -/
def clockText (minute : Nat) : Text := padded 2 (minute / 60) ++ ':' :: padded 2 (minute % 60)

/-- R150: a rule in the form of QUIET, or UNUSED. -/
def quietFields : Option QuietRule → List Fld
  | none => [.word .UNUSED]
  | some q =>
    [.word .DAYS, .text (daysText q.days), .word .FROM, .text (clockText q.fromMin), .word .TO,
        .text (clockText q.toMin), .word .TUNE]
      ++ (match q.tune with
        | .silence => [.word .SILENCE]
        | .cap level => [.word .CAP, .num level])
      ++ [.word .TOLL, .num q.tollCap]

/-- R150: the reply of QUIET, QUIET CLEAR and QUIET?. -/
def State.replyQuiet (s : State) (tag : Text) (q : Nat) : State := s.ok tag (.num q :: quietFields (s.quietRule q))

/-- Write quiet rule `q`. -/
def State.setQuiet (s : State) (q : Nat) (r : Option QuietRule) : State := { s with quiet := setSlot s.quiet q r }

/-- R150: `tag QUIET q` and the rule. -/
def quietRequest (tag : Text) (fields : List Text) (s : State) : State :=
  match fields with
  | [] => s.err tag .arg
  | q :: rest =>
    match readRuleNumber q, readQuiet rest with
    | some q, some r => (s.setQuiet q (some r)).replyQuiet tag q
    | _, _ => s.err tag .arg

/-- R150: `tag QUIET q CLEAR`. -/
def quietClearRequest (tag number : Text) (more : List Text) (s : State) : State :=
  match readRuleNumber number with
  | none => s.err tag .arg
  | some q => if more.isEmpty then (s.setQuiet q none).replyQuiet tag q else s.err tag .arg

/-- R150: `tag QUIET? q`. -/
def quietReadRequest (tag : Text) (fields : List Text) (s : State) : State :=
  match fields with
  | [q] =>
    match readRuleNumber q with
    | none => s.err tag .arg
    | some q => s.replyQuiet tag q
  | _ => s.err tag .arg

/-! ## The commands -/

/-- R140: ENTRY. -/
def execEntry (tag : Text) (fields : List Text) (s : State) : Outcome := request s (entryRequest tag fields)

/-- R141: ENTRY CLEAR. -/
def execEntryClear (tag number : Text) (more : List Text) (s : State) : Outcome :=
  request s (entryClearRequest tag number more)

/-- R142: ENTRY?. -/
def execEntryRead (tag : Text) (fields : List Text) (s : State) : Outcome := request s (entryReadRequest tag fields)

/-- R144: HOLD ON. -/
def execHoldOn (tag : Text) (more : List Text) (s : State) : Outcome := request s (holdRequest true tag more)

/-- R144: HOLD OFF. -/
def execHoldOff (tag : Text) (more : List Text) (s : State) : Outcome := request s (holdRequest false tag more)

/-- R150: QUIET. -/
def execQuiet (tag : Text) (fields : List Text) (s : State) : Outcome := request s (quietRequest tag fields)

/-- R150: QUIET CLEAR. -/
def execQuietClear (tag number : Text) (more : List Text) (s : State) : Outcome :=
  request s (quietClearRequest tag number more)

/-- R150: QUIET?. -/
def execQuietRead (tag : Text) (fields : List Text) (s : State) : Outcome := request s (quietReadRequest tag fields)

end Sys2Proof.Machine
end

