-- ==== Sys2Proof/Machine/Cues.lean ====
section
/-! DEFINITION. The cue lines (sections 10.1 to 10.4): the debounce and its two events, and the CUE and CUE? requests. -/

namespace Sys2Proof.Machine

/-! ## Debounce (10.2) -/

/-- A number of the four cue lines. -/
def isCueNumber (c : Nat) : Bool := 1 ≤ c && c ≤ 4

/-- The level of cue line `c` becomes `high`. -/
def State.setCueLine (s : State) (c : Nat) (high : Bool) : State :=
  { s with pins := { s.pins with cue := setSlot s.pins.cue c high } }

/-- R176: a cue line is seen at the level `high`: back at the settled level its timer becomes idle; away from it an idle
timer starts, with the debounce held now. -/
def Cue.seen (r : Cue) (now : Nat) (high : Bool) : Cue :=
  if high = r.settled then { r with timer := none }
  else { r with timer := some (r.timer.getD { start := now, length := r.config.debounce }) }

/-- R176: the line of cue `c` changes level. While RESET is held only the level changes. Each of several in
one grain is taken (assumption 28). -/
def execCueLineChange (c : Nat) (s : State) : Outcome :=
  event (isCueNumber c) s fun s =>
    let high := !s.cueLevel c
    let s := s.setCueLine c high
    if s.held then s else s.setCue c ((s.cue c).seen s.now high)

/-- R176: the debounce timer of cue `c` has run its debounce with the line away from its settled level. -/
def State.debounceDue (s : State) (c : Nat) : Bool :=
  !s.held && isCueNumber c && s.cueLevel c != (s.cue c).settled &&
    match (s.cue c).timer with
    | none => false
    | some t => t.start + t.length ≤ s.now

/-- R176: an accepted change to `high` is a press. -/
def CueEdge.isPress (e : CueEdge) (high : Bool) : Bool :=
  match e with
  | .rise => high
  | .fall => !high
  | .both => true

/-- R176, R177: the change of cue `c` is accepted, and a press sets its latch. -/
def State.acceptChange (s : State) (c : Nat) : State :=
  let r := s.cue c
  let high := s.cueLevel c
  s.setCue c { r with settled := high, timer := none, latch := r.latch || r.config.edge.isPress high }

/-- R176 to R178: the debounce timer of cue `c` expires, and the cue acts if it can. -/
def execCueDebounceExpire (c : Nat) (s : State) : Outcome :=
  event (s.debounceDue c) s (fun s => (s.acceptChange c).settleCues 4)

/-! ## Reading the settings (10.4) -/

/-- R175: the cue the other requests name. -/
def readCue (t : Text) : Option Nat := readWithin 1 4 t

/-- The settings of a CUE line; `none` where not given. -/
structure CueSettings where
  edge : Option CueEdge := none
  debounce : Option Nat := none
  force : Option Bool := none
  action : Option CueAction := none
  deriving DecidableEq, Repr

/-- R179: RISE, FALL or BOTH. -/
def readEdge (t : Text) : Option CueEdge :=
  match readKw t with
  | some .RISE => some .rise
  | some .FALL => some .fall
  | some .BOTH => some .both
  | _ => none

/-- R179: a TUNE action, from the fields after TUNE. -/
def readCueTune : List Text → Option CueAction
  | [] => none
  | m :: options => do
    let m ← readWithin6 1 64 m
    let o ← readOptions 6 [.TEMPO, .TRANSPOSE, .CAP, .REPEAT, .SLIP, .WAIT] options
    let wait ← o.waitOf 300
    pure (.tune (o.tuneSpec m) o.capOf o.slipOf wait)

/-- R179: a TOLL action, from the fields after TOLL. -/
def readCueToll (fields : List Text) : Option CueAction := do
  let (rule, rest) ← readRule 6 fields
  match rest with
  | [] => none
  | b :: options =>
    let b ← readWithin6 1 64 b
    let o ← readOptions 6 [.INTERVAL, .LEVEL, .MODE, .CAP, .SLIP, .WAIT] options
    let wait ← o.waitOf 120
    pure (.toll (o.tollSpec rule b) o.capOf o.slipOf wait)

/-- R179: the action that follows ACTION and ends the line. -/
def readAction : List Text → Option CueAction
  | [] => none
  | w :: rest =>
    match readKw w with
    | some .TUNE => readCueTune rest
    | some .TOLL => readCueToll rest
    | some .STOP => if rest.isEmpty then some .stop else none
    | _ => none

/-- R179: a setting of one value; a keyword that stands twice is refused. -/
def readCueValue (f : CueSettings) (k : Kw) (v : Text) : Option CueSettings :=
  match k with
  | .EDGE => if f.edge.isSome then none else (readEdge v).map (fun x => { f with edge := some x })
  | .DEBOUNCE =>
    if f.debounce.isSome then none else (readNum 6 v).map (fun n => { f with debounce := some (clamp 200 5000 n) })
  | .FORCE => if f.force.isSome then none else (readOnOff v).map (fun x => { f with force := some x })
  | _ => none

/-- R179: the settings that make up the rest of a line, ACTION last; `fuel` bounds their number. -/
def readCueFrom : Nat → CueSettings → List Text → Option CueSettings
  | _, f, [] => some f
  | 0, _, _ :: _ => none
  | fuel + 1, f, w :: rest =>
    match readKw w with
    | none => none
    | some .ACTION => (readAction rest).map (fun a => { f with action := some a })
    | some k =>
      match rest with
      | [] => none
      | v :: rest => (readCueValue f k v).bind (fun f => readCueFrom fuel f rest)

/-- R179: the settings of a line; none given is refused. -/
def readCueSettings (ws : List Text) : Option CueSettings := if ws.isEmpty then none else readCueFrom ws.length {} ws

/-- R179: the settings given replace those held. -/
def CueConfig.apply (c : CueConfig) (f : CueSettings) : CueConfig :=
  { c with
    edge := f.edge.getD c.edge, debounce := f.debounce.getD c.debounce, force := f.force.getD c.force
    action := f.action.getD c.action }

/-! ## The requests (10.4) -/

/-- R180: an action in the form of CUE, or NONE. -/
def actionFields : CueAction → List Fld
  | .none => [.word .NONE]
  | .tune spec cap slip wait => tuneActionFields spec cap ++ [.word .SLIP, .num slip, .word .WAIT, .num wait]
  | .toll spec cap slip wait =>
    tollActionFields spec ++ [.word .CAP, .num cap, .word .SLIP, .num slip, .word .WAIT, .num wait]
  | .stop => [.word .STOP]

/-- R179: the word for an edge field. -/
def edgeWord : CueEdge → Fld
  | .rise => .word .RISE
  | .fall => .word .FALL
  | .both => .word .BOTH

/-- R180: the record of cue `c` as CUE? shows it. -/
def State.cueFields (s : State) (c : Nat) : List Fld :=
  let r := s.cue c
  [.num c, .word .EDGE, edgeWord r.config.edge, .word .DEBOUNCE, .num r.config.debounce, .word .FORCE,
      onOff r.config.force, .word .ENABLE, onOff r.config.enable, .word .LATCH,
      .word (if r.latch then .SET else .CLEAR), .word .LEVEL, .word (if r.settled then .HIGH else .LOW),
      .word .ACTIVE, numOrNone (s.activeOf c), .word .ACTION]
    ++ actionFields r.config.action

/-- Reply OK with the record of cue `c`. -/
def State.okCue (s : State) (tag : Text) (c : Nat) : State := s.ok tag (s.cueFields c)

/-- Change the configuration of cue `c`. -/
def State.modConfig (s : State) (c : Nat) (f : CueConfig → CueConfig) : State :=
  s.setCue c { s.cue c with config := f (s.cue c).config }

/-- R179: `tag CUE c setting [setting ...]`; every numeric value of the line has at most 6 digits. -/
def cueRequest (tag : Text) (fields : List Text) (s : State) : State :=
  match fields with
  | [] => s.err tag .arg
  | c :: settings =>
    match readWithin6 1 4 c, readCueSettings settings with
    | some c, some f => (s.modConfig c (·.apply f)).okCue tag c
    | _, _ => s.err tag .arg

/-- R180: the cue of a request that takes no further field. -/
def readCueAlone (c : Text) (more : List Text) : Option Nat := if more.isEmpty then readCue c else none

/-- R180: `tag CUE c ENABLE`; the cue may act after the reply. -/
def cueEnableRequest (tag c : Text) (more : List Text) (s : State) : State :=
  match readCueAlone c more with
  | none => s.err tag .arg
  | some c =>
    if (s.cue c).config.action = .none then s.err tag .notready
    else if (s.cue c).config.enable then s.okCue tag c
    else ((s.modConfig c (fun f => { f with enable := true })).okCue tag c).settleCues 4

/-- R180: `tag CUE c DISABLE`. -/
def cueDisableRequest (tag c : Text) (more : List Text) (s : State) : State :=
  match readCueAlone c more with
  | none => s.err tag .arg
  | some c => (s.modConfig c (fun f => { f with enable := false })).okCue tag c

/-- R180: `tag CUE c CLEAR`. -/
def cueClearRequest (tag c : Text) (more : List Text) (s : State) : State :=
  match readCueAlone c more with
  | none => s.err tag .arg
  | some c => (s.clearLatch c).okCue tag c

/-- R180: `tag CUE? c`. -/
def cueReadRequest (tag : Text) (fields : List Text) (s : State) : State :=
  match fields with
  | [c] =>
    match readCue c with
    | none => s.err tag .arg
    | some c => s.okCue tag c
  | _ => s.err tag .arg

/-- R179: CUE. -/
def execCue (tag : Text) (fields : List Text) (s : State) : Outcome := request s (cueRequest tag fields)

/-- R180: CUE ENABLE. -/
def execCueEnable (tag c : Text) (more : List Text) (s : State) : Outcome := request s (cueEnableRequest tag c more)

/-- R180: CUE DISABLE. -/
def execCueDisable (tag c : Text) (more : List Text) (s : State) : Outcome := request s (cueDisableRequest tag c more)

/-- R180: CUE CLEAR. -/
def execCueClear (tag c : Text) (more : List Text) (s : State) : Outcome := request s (cueClearRequest tag c more)

/-- R180: CUE?. -/
def execCueRead (tag : Text) (fields : List Text) (s : State) : Outcome := request s (cueReadRequest tag fields)

end Sys2Proof.Machine
end

