-- ==== Sys2Proof/Machine/SerialLine.lean ====
section
/-! DEFINITION. The serial line's own events (sections 11.1 to 11.3): characters and lines in arrival, and the
transmitter; and the REPORT and REPORT? requests. -/

namespace Sys2Proof.Machine

/-! ## Arrival (11.1) -/

/-- Change the serial line. -/
def State.modSerial (s : State) (f : Serial → Serial) : State := { s with serial := f s.serial }

/-- A printable character, space to "~" (R184). -/
def isPrintable (c : BitVec 8) : Bool := 32 ≤ c.toNat && c.toNat ≤ 126

/-- R184: the line in arrival is marked too long or bad. -/
def Serial.markBad (l : Serial) : Serial := { l with badLine := true }

/-- R184: a printable character is stored if there is room for it. -/
def Serial.store (l : Serial) (c : BitVec 8) : Serial :=
  if l.buffer.length < 120 then { l with buffer := l.buffer ++ [Char.ofNat c.toNat] } else l.markBad

/-- R184: the reply to a line that is too long or bad, or has no valid tag. -/
def badLineReply : Line := .error ['?', '?'] .badline

/-- R185, R186: a complete line is offered to the input queue: a line without a valid tag is refused, and so is a line
that finds 4 lines waiting. -/
def Serial.accept (l : Serial) (line : Text) : Serial :=
  match readTag line with
  | none => l.refuse badLineReply
  | some (tag, _) => if l.input.length < 4 then { l with input := l.input ++ [line] } else l.refuse (.error tag .busy)

/-- R184: a CR ends the line in the buffer; the buffer is then empty for the next line. -/
def Serial.endLine (l : Serial) : Serial :=
  let fresh := { l with buffer := [], badLine := false }
  if l.badLine then fresh.refuse badLineReply
  else if l.buffer.isEmpty then fresh
  else fresh.accept l.buffer

/-- R184: a character arrives, with its stop bit or without. Where the stop bit is missing the line is marked bad whatever
the character, an LF too, which the table's row for LF would ignore (assumption 8). -/
def Serial.receive (l : Serial) (c : BitVec 8) (stopBit : Bool) : Serial :=
  if !stopBit then l.markBad
  else if c = 10 then l
  else if c = 13 then l.endLine
  else if isPrintable c then l.store c
  else l.markBad

/-- R184: a character other than CR arrives. While RESET is held low the serial line takes none (R195). -/
def execCharacterReceived (c : BitVec 8) (stopBit : Bool) (s : State) : Outcome :=
  event (!s.held) s (fun s => s.modSerial (·.receive c stopBit))

/-- R184: a CR arrives and ends the line in the buffer. -/
def execLineReceived (s : State) : Outcome := event (!s.held) s (fun s => s.modSerial Serial.endLine)

/-! ## The transmitter (11.2, 11.3) -/

/-- The queue a waiting line stands in. -/
inductive Waiting where
  | executed | refusal | report
  deriving DecidableEq, Repr

/-- Of two waiting lines, the one made first. -/
def earlier (a b : Option (Waiting × MadeLine)) : Option (Waiting × MadeLine) :=
  match a, b with
  | some x, some y => if y.2.order < x.2.order then some y else some x
  | some x, none => some x
  | none, y => y

/-- R187: the waiting line that was made first, and where it stands. -/
def Serial.earliest (l : Serial) : Option (Waiting × MadeLine) :=
  earlier (earlier (l.executed.map (.executed, ·)) (l.refusals.head?.map (.refusal, ·)))
    (l.reports.head?.map (.report, ·))

/-- R188: a slot of the report queue has been freed: while the discard count is above 0, OVERRUN takes it. -/
def Serial.overrun (l : Serial) : Serial :=
  if l.discards = 0 then l
  else
    { l with
      reports := l.reports ++ [⟨l.made, .report .overrun [.num l.discards]⟩], made := l.made + 1, discards := 0 }

/-- R187, R188, R195: a line leaves its queue as its transmission begins, to end at `finish`. -/
def Serial.take (l : Serial) (from_ : Waiting) (finish : Nat) : Serial :=
  match from_ with
  | .executed =>
    { l with
      executed := none, resetWait := if l.resetWait = .replyMade then .replySending finish else l.resetWait }
  | .refusal => { l with refusals := l.refusals.drop 1 }
  | .report => { l with reports := l.reports.drop 1 }.overrun

/-- R187: the transmitter is idle. -/
def State.transmitterIdle (s : State) : Bool :=
  match s.serial.sending with
  | none => true
  | some sending => sending.finish ≤ s.now

/-- R195: the reply to RESET is the last line sent before the reset. -/
def ResetWait.isSending : ResetWait → Bool
  | .replySending _ => true
  | .replyMade => false
  | .none => false

/-- R187: the idle transmitter has a line to send. -/
def State.transmitDue (s : State) : Bool :=
  !s.held && s.transmitterIdle && !s.serial.resetWait.isSending && s.serial.earliest.isSome

/-- R187: the transmitter begins sending the earliest-made waiting line. -/
def State.transmit (s : State) : State :=
  match s.serial.earliest with
  | none => s
  | some (from_, made) =>
    let finish := s.now + sendGrains s.lineRate made.line
    s.modSerial (fun l => { l.take from_ finish with sending := some { line := made.line, finish := finish } })

/-- R187: TRANSMIT_LINE. -/
def execTransmitLine (s : State) : Outcome := event s.transmitDue s State.transmit

/-! ## The report mask (11.3) -/

/-- The maskable kind a field names. -/
def readKind (t : Text) : Option Kind := allKinds.find? (fun k => kindText k == t)

/-- R189: a kind of a REPORT pair: one kind, or ALL. -/
inductive MaskTarget where
  | one (kind : Kind) | all
  deriving DecidableEq, Repr

/-- R189: the kind of a pair. -/
def readTarget (t : Text) : Option MaskTarget :=
  if readKw t = some .ALL then some .all else (readKind t).map .one

/-- R189: the pairs of a line. -/
def readPairs : List Text → Option (List (MaskTarget × Bool))
  | [] => some []
  | [_] => none
  | k :: v :: rest => do
    let target ← readTarget k
    let on ← readOnOff v
    let more ← readPairs rest
    pure ((target, on) :: more)

/-- R189: one pair applied to the mask. -/
def applyPair (mask : Table Bool 12) (pair : MaskTarget × Bool) : Table Bool 12 :=
  match pair.1 with
  | .all => Vector.replicate 12 pair.2
  | .one kind => setSlot mask (kindNumber kind) pair.2

/-- Kinds in the order of R188, or NONE. -/
def kindList (kinds : List Kind) : List Fld := if kinds.isEmpty then [.word .NONE] else kinds.map .kind

/-- R189: the masked kinds. -/
def Serial.masked (l : Serial) : List Kind := allKinds.filter (fun k => !slot l.mask (kindNumber k) true)

/-- R189: the latched kinds. -/
def Serial.latchedKinds (l : Serial) : List Kind := allKinds.filter (fun k => slot l.latched (kindNumber k) false)

/-- R189: the reply of REPORT and REPORT?. -/
def State.replyMask (s : State) (tag : Text) : State :=
  s.ok tag (.word .REPORT :: .word .OFF :: kindList s.serial.masked)

/-- R189: `tag REPORT kind ON or OFF [kind ON or OFF ...]`. -/
def reportRequest (tag : Text) (fields : List Text) (s : State) : State :=
  match readPairs fields with
  | none => s.err tag .arg
  | some [] => s.err tag .arg
  | some (pair :: pairs) =>
    (s.modSerial (fun l => { l with mask := (pair :: pairs).foldl applyPair l.mask })).replyMask tag

/-- R189: `tag REPORT?`. -/
def reportReadRequest (tag : Text) (more : List Text) (s : State) : State :=
  if more.isEmpty then s.replyMask tag else s.err tag .arg

/-- R189: REPORT. -/
def execReport (tag : Text) (fields : List Text) (s : State) : Outcome := request s (reportRequest tag fields)

/-- R189: REPORT?. -/
def execReportRead (tag : Text) (more : List Text) (s : State) : Outcome := request s (reportReadRequest tag more)

end Sys2Proof.Machine
end

