-- ==== Sys2Proof/Machine/Time.lean ====
section
/-! DEFINITION. The timebase (section 9): steps and slews of the wall clock, the TIME and SYNC requests, the reference
pulse, and the events of the wall clock's ticks and range. -/

namespace Sys2Proof.Machine

/-! ## Corrections (9.2, 9.3) -/

/-- R160: a count of grains within the wall clock's range. -/
def wallInRange (x : Int) : Bool := 0 ≤ x && x < (wallEnd : Int) * 10000

/-- R162: a step of the wall clock by `d`, with the schedule's reaction. -/
def State.stepWall (s : State) (d : Int) : State :=
  let crossed := s.time.crossed
  let s := s.modTime (fun t => { t with offset := t.offset + d, slew := 0 })
  let s := s.post .step [.signed d, .wall s.wallSecond]
  if 0 < d then s.afterForwardStep crossed else s.modTime (fun t => { t with crossed := s.wallSecond })

/-- Set the pending slew, replacing any remainder (R161). -/
def State.setSlew (s : State) (d : Int) : State := s.modTime (fun t => { t with slew := d })

/-- R164: the slew still pending that the measure of a correction counts in. Whether it counts it is a free value
(assumption 27). A TIME never steps the wall clock out of its range (R162), so a slew that would is not counted. -/
def State.countedSlew (s : State) (instant : Nat) : Int :=
  if Config.slewCounted && s.time.slew ≤ (instant : Int) * 10000 then s.time.slew else 0

/-- R164: the correction a TIME applied now makes, in grains: the named instant less the wall clock at now, with the slew
still pending counted in or not (assumption 27). -/
def State.correction (s : State) (instant : Nat) : Int :=
  (instant : Int) * 10000 - (s.wall + s.countedSlew instant)

/-- R153, R164: the wall clock set from UNSET to an instant that begins now. -/
def State.setWall (s : State) (instant : Nat) : State :=
  s.modTime fun t =>
    { t with offset := (instant : Int) * 10000 - (t.now : Int), isSet := true, slew := 0, crossed := instant }

/-- R164: what a TIME applied now replies. -/
def State.timeFields (s : State) (instant : Nat) : List Fld :=
  if !s.time.isSet then [.word .SET, .wall instant]
  else if (s.correction instant).natAbs ≤ 1000 then [.word .SLEW, .signed (s.correction instant)]
  else [.word .STEP, .signed (s.correction instant)]

/-- R164: a TIME applied now. -/
def State.applyTime (s : State) (instant : Nat) : State :=
  if !s.time.isSet then (s.setWall instant).post .set [.wall instant]
  else if (s.correction instant).natAbs ≤ 1000 then s.setSlew (s.correction instant)
  else s.stepWall (s.correction instant)

/-- R165: a pending TIME, if there is one, is applied now and becomes absent. -/
def State.applyPending (s : State) : State :=
  match s.time.pendingTime with
  | none => s
  | some instant => (s.modTime (fun t => { t with pendingTime := none })).applyTime instant

/-- R163: `tag TIME date time`. -/
def timeRequest (tag : Text) (fields : List Text) (s : State) : State :=
  match fields with
  | [date, time] =>
    match readWall date time with
    | none => s.err tag .arg
    | some instant =>
      if s.time.sync = .locked then
        (s.modTime (fun t => { t with pendingTime := some instant })).ok tag [.word .PENDING, .wall instant]
      else (s.ok tag (s.timeFields instant)).applyTime instant
  | _ => s.err tag .arg

/-- R163: TIME. -/
def execTime (tag : Text) (fields : List Text) (s : State) : Outcome := request s (timeRequest tag fields)

/-! ## Slew and range -/

/-- R161: the tick of this strike-clock value is taken: one grain of the pending slew moves to the offset, none where the
pending slew is 0. -/
def State.slewOnce (s : State) : State :=
  let unit : Int := s.time.slew.sign
  s.modTime (fun t => { t with offset := t.offset + unit, slew := t.slew - unit, slewedAt := some t.now })

/-- R161: the slew tick of a multiple of 500, once. A slew set later at that value meets its first tick 500 grains on. -/
def execSlewTick (s : State) : Outcome := event s.tickDue s State.slewOnce

/-- R160: the SET wall clock has come to 2100-01-01 00:00:00.0000. -/
def State.rangeEndDue (s : State) : Bool :=
  !s.held && !s.slewDue && s.time.isSet && (wallEnd : Int) * 10000 ≤ s.wall

/-- R160: the end of the wall clock's range. -/
def State.endRange (s : State) : State :=
  (s.modTime (fun t => { t with isSet := false, slew := 0, pendingTime := none })).post .set [.word .UNSET]

/-- R160: WALL_CLOCK_RANGE_END. -/
def execWallClockRangeEnd (s : State) : Outcome := event s.rangeEndDue s State.endRange

/-! ## Sync (9.4) -/

/-- R171: the word for a sync state. -/
def syncWord : SyncState → Fld
  | .free => .word .FREE
  | .acquire => .word .ACQUIRE
  | .locked => .word .LOCKED
  | .holdover => .word .HOLDOVER

/-- The word for a sync source. -/
def sourceWord : SyncSource → Fld
  | .free => .word .FREE
  | .pulse => .word .PULSE

/-- R171: change the sync state. -/
def State.setSync (s : State) (state : SyncState) : State := s.modTime (fun t => { t with sync := state })

/-- R171: post the CLOCK report of the sync state. -/
def State.reportSync (s : State) : State := s.post .clock [syncWord s.time.sync]

/-- R166: the reply of a SYNC. -/
def State.replySync (s : State) (tag : Text) : State :=
  s.ok tag [.word .SYNC, sourceWord s.time.source, syncWord s.time.sync]

/-- R166: set the sync source afresh, its sync state given. -/
def State.restartSync (s : State) (source : SyncSource) (state : SyncState) : State :=
  s.modTime (fun t => { t with source := source, sync := state, qualified := 0, lastPulse := none })

/-- R166: `tag SYNC FREE`. -/
def syncFreeRequest (tag : Text) (more : List Text) (s : State) : State :=
  if !more.isEmpty then s.err tag .arg
  else if s.time.source = .free then s.replySync tag
  else (((s.restartSync .free .free).replySync tag).reportSync).applyPending

/-- R166: `tag SYNC PULSE`. -/
def syncPulseRequest (tag : Text) (more : List Text) (s : State) : State :=
  if !more.isEmpty then s.err tag .arg
  else if s.time.source = .pulse then s.replySync tag
  else ((s.restartSync .pulse .acquire).replySync tag).reportSync

/-- R166: SYNC FREE. -/
def execSyncFree (tag : Text) (more : List Text) (s : State) : Outcome := request s (syncFreeRequest tag more)

/-- R166: SYNC PULSE. -/
def execSyncPulse (tag : Text) (more : List Text) (s : State) : Outcome := request s (syncPulseRequest tag more)

/-! ## The reference pulse -/

/-- R167: an edge captured now has a good interval. -/
def State.goodInterval (s : State) : Bool :=
  match s.time.lastPulse with
  | none => false
  | some last => 9990 ≤ s.now - last && s.now - last ≤ 10010

/-- R169: the phase error of a pulse captured now. -/
def State.phaseError (s : State) : Int :=
  let f := s.wall % 10000
  if f < 5000 then f else f - 10000

/-- R168: the correction made on entering LOCKED. -/
def State.correctAtLock (s : State) (fromAcquire : Bool) : State :=
  let e := s.phaseError
  if !s.time.isSet then s
  else if fromAcquire && 1000 < e.natAbs && wallInRange (s.wall - e) then s.stepWall (-e)
  else s.setSlew (-e)

/-- R168: an edge taken in ACQUIRE or HOLDOVER. -/
def State.qualify (s : State) : State :=
  let count := if s.goodInterval then s.time.qualified + 1 else 0
  let fromAcquire := s.time.sync == .acquire
  let s := s.modTime (fun t => { t with qualified := count, lastPulse := some t.now })
  if 3 ≤ count then
    ((s.modTime (fun t => { t with sync := .locked, qualified := 0 })).reportSync).correctAtLock fromAcquire
  else s

/-- R169: a good pulse in LOCKED. -/
def State.goodPulse (s : State) : State :=
  let s := s.modTime (fun t => { t with lastPulse := some t.now })
  if s.time.pendingTime.isSome then s.applyPending
  else if s.time.isSet then s.setSlew (-s.phaseError)
  else s

/-- R167: an edge captured now acts by the sync state. -/
def State.takePulse (s : State) : State :=
  match s.time.sync with
  | .free => s
  | .acquire => s.qualify
  | .holdover => s.qualify
  | .locked => if s.goodInterval then s.goodPulse else s

/-- R167: SECPULSE is first seen high. -/
def execSecpulseEdge (s : State) : Outcome := event (!s.held) s State.takePulse

/-- R170: 15,000 grains have passed in LOCKED since the last good pulse. -/
def State.pulseLossDue (s : State) : Bool :=
  !s.held && s.time.sync == .locked &&
    match s.time.lastPulse with
    | none => false
    | some last => last + 15000 ≤ s.now

/-- R170: the pulse is lost. -/
def State.losePulse (s : State) : State :=
  ((s.modTime (fun t => { t with sync := .holdover, qualified := 0 })).reportSync).applyPending

/-- R170: PULSE_LOSS. -/
def execPulseLoss (s : State) : Outcome := event s.pulseLossDue s State.losePulse

end Sys2Proof.Machine
end

