-- ==== Sys2Proof/Machine/Readings.lean ====
section
/-! DEFINITION. The readings of section 11.4: ID, STATUS and QUEUE?. -/

namespace Sys2Proof.Machine

/-! ## ID (R190) -/

/-- The word for a store state. -/
def storeWord : StoreState → Fld
  | .good => .word .GOOD
  | .bad => .word .BAD
  | .empty => .word .EMPTY
  | .busy _ _ => .word .BUSY

/-- The word for a reset cause. -/
def causeWord : ResetCause → Fld
  | .power => .word .POWER
  | .line => .word .LINE
  | .command => .word .COMMAND

/-- R190: the fields of ID. -/
def State.idFields (s : State) : List Fld :=
  [.word .VELISCA, .word .TC56, .word .REV, .word .A, .word .N, .num s.bellCount, .word .C, .num s.coilBudget,
    .word .RATE, .num s.lineRate, .word .STORE, storeWord s.store, .word .RESET, causeWord s.cause]

/-- R190: `tag ID`. -/
def identityRequest (tag : Text) (more : List Text) (s : State) : State :=
  if more.isEmpty then s.ok tag s.idFields else s.err tag .arg

/-- R190: ID. -/
def execIdentity (tag : Text) (more : List Text) (s : State) : Outcome := request s (identityRequest tag more)

/-! ## STATUS (R191) -/

/-- R191: a lane's state, followed by its request id when not IDLE. -/
def laneFields : Option (Nat × LanePhase) → List Fld
  | none => [.word .IDLE]
  | some (id, .armed) => [.word .ARMED, .num id]
  | some (id, .playing) => [.word .PLAYING, .num id]
  | some (id, .draining _) => [.word .DRAINING, .num id]

/-- The word for a supply state. -/
def supplyWord : Supply → Fld
  | .good => .word .GOOD
  | .dip _ => .word .DIP
  | .lost => .word .LOST
  | .recovering _ => .word .RECOVERING

/-- R191: the wall clock to the second, or UNSET. -/
def State.wallField (s : State) : Fld := if s.time.isSet then .wall s.wallSecond else .word .UNSET

/-- R191, R192: the counts of the queues. -/
def State.countsFields (s : State) : List Fld :=
  [.word .PLAYQ, .num s.playQueue.length, .word .STRIKEQ, .num s.queue.length, .word .WAIT, .num s.waiting.length,
    .word .COILS, .num s.coils.length]

/-- R191: the fields of STATUS. -/
def State.statusFields (s : State) : List Fld :=
  [.word .SYNC, syncWord s.time.sync, .word .WALL, s.wallField, .word .TUNE]
    ++ laneFields (s.tune.map (fun l => (l.request.id, l.phase)))
    ++ .word .TOLL :: laneFields (s.toll.map (fun l => (l.request.id, l.phase)))
    ++ s.countsFields
    ++ [.word .REPORTQ, .num s.serial.reports.length, .word .SUPPLY, supplyWord s.supply, .word .HOLD, onOff s.hold,
      .word .STORE, storeWord s.store, .word .LATCHED]
    ++ kindList s.serial.latchedKinds

/-- R191: `tag STATUS`, which empties the latched-kinds set in the event of its reply. -/
def statusRequest (tag : Text) (more : List Text) (s : State) : State :=
  if more.isEmpty then
    (s.ok tag s.statusFields).modSerial (fun l => { l with latched := Vector.replicate 12 false })
  else s.err tag .arg

/-- R191: STATUS. -/
def execStatus (tag : Text) (more : List Text) (s : State) : Outcome := request s (statusRequest tag more)

/-! ## QUEUE? (R192) -/

/-- YES or NO. -/
def yesNo (b : Bool) : Fld := .word (if b then .YES else .NO)

/-- R192: a play request as QUEUE? shows it. -/
def playItemFields (r : PlayRequest) : List Fld :=
  .num r.id :: .word .SOURCE :: sourceFields r.source
    ++ [.word .CLASS, classWord r]
    ++ (match r.play with
      | .tune spec => [.word .MELODY, .num spec.melody]
      | .toll spec => tollFields spec)
    ++ [.word .START, match r.start with
          | none => .word .ASAP
          | some t => .int t,
        .word .EFFECTIVE, .int r.effective, .word .LATEST, .int r.latest, .word .CAP, .num r.cap, .word .SLIP,
        .num r.slip, .word .FORCE, yesNo r.force]

/-- The word for an origin. -/
def originWord : Origin → Fld
  | .tune => .word .TUNE
  | .toll => .word .TOLL
  | .strike => .word .STRIKE
  | .test => .word .TEST

/-- R192: a strike entry as QUEUE? shows it. -/
def strikeItemFields (e : Entry) : List Fld :=
  [.word .FIRE, .num e.fire, .word .ORIG, .num e.orig, .word .ONSET, .num e.onset, .word .BELL, .num e.bell,
    .word .LEVEL, .num e.level, .word .ORIGIN, originWord e.origin, .word .SLIP, .num e.slip, .word .SERIAL,
    numOrNone e.serial, .word .SLIPPED, yesNo e.slipped]

/-- R192: an entry of the coil-wait list, with its deadline. -/
def waitItemFields (e : Entry) : List Fld := strikeItemFields e ++ [.word .DEADLINE, .num e.deadline]

/-- R192: `tag QUEUE? queue i`: item `i` of a queue of at most `most` items, or NONE beyond those held. -/
def itemRequest {α : Type} (queue : Kw) (most : Nat) (items : List α) (shown : α → List Fld) (tag : Text)
    (fields : List Text) (s : State) : State :=
  match fields with
  | [i] =>
    match readWithin 1 most i with
    | none => s.err tag .arg
    | some i =>
      s.ok tag (.word queue :: .num i ::
        match items[i - 1]? with
        | none => [.word .NONE]
        | some x => shown x)
  | _ => s.err tag .arg

/-- R192: `tag QUEUE?`. -/
def queueSummaryRequest (tag : Text) (s : State) : State := s.ok tag (.word .NOW :: .num s.now :: s.countsFields)

/-- R192: `tag QUEUE? PLAY i`. -/
def queuePlayItemRequest (tag : Text) (fields : List Text) (s : State) : State :=
  itemRequest .PLAY 16 s.playQueue playItemFields tag fields s

/-- R192: `tag QUEUE? STRIKE i`. -/
def queueStrikeItemRequest (tag : Text) (fields : List Text) (s : State) : State :=
  itemRequest .STRIKE 64 s.queue strikeItemFields tag fields s

/-- R192: `tag QUEUE? WAIT i`. -/
def queueWaitItemRequest (tag : Text) (fields : List Text) (s : State) : State :=
  itemRequest .WAIT 64 s.waiting waitItemFields tag fields s

/-- R192: QUEUE?. -/
def execQueueSummary (tag : Text) (s : State) : Outcome := request s (queueSummaryRequest tag)

/-- R192: QUEUE? PLAY. -/
def execQueuePlayItem (tag : Text) (fields : List Text) (s : State) : Outcome :=
  request s (queuePlayItemRequest tag fields)

/-- R192: QUEUE? STRIKE. -/
def execQueueStrikeItem (tag : Text) (fields : List Text) (s : State) : Outcome :=
  request s (queueStrikeItemRequest tag fields)

/-- R192: QUEUE? WAIT. -/
def execQueueWaitItem (tag : Text) (fields : List Text) (s : State) : Outcome :=
  request s (queueWaitItemRequest tag fields)

end Sys2Proof.Machine
end

