-- ==== Sys2Proof/Machine/Store.lean ====
section
/-! DEFINITION. The store (section 11.5): what SAVE records, the SAVE request, and the two ways its write ends. -/

namespace Sys2Proof.Machine

/-! ## The snapshot (R95, R194) -/

/-- R95: a melody as the image records it: a READY one with its score, any other as EMPTY. -/
def State.savedMelody (s : State) (m : Nat) : Option SavedMelody :=
  let h := s.melody m
  if h.phase = .ready then some { name := h.name.getD [], beat := h.beat.getD 6000, records := s.score m } else none

/-- R194: the contents of the image, as they stand. -/
def State.snapshot (s : State) : StoreContents where
  bells := s.bells.map (fun r => (r.cal, r.disabledFlag))
  melodies := Vector.ofFn (fun i : Fin 64 => s.savedMelody (i.val + 1))
  schedule := s.live
  quiet := s.quiet
  cues := s.cues.map (·.config)
  source := s.time.source
  mask := s.serial.mask

/-- R194: the 16-bit sum of an image: the sum of every byte of the contents, modulo 65536. -/
def imageSum (contents : StoreContents) : BitVec 16 :=
  (Config.contentsBytes contents).foldl (fun sum byte => sum + byte.zeroExtend 16) 0

/-! ## SAVE (R193) -/

/-- R193: the store is BUSY: since when, and with what snapshot. -/
def StoreState.writing : StoreState → Option (Nat × StoreContents)
  | .busy since snapshot => some (since, snapshot)
  | .good => none
  | .bad => none
  | .empty => none

/-- R193: a SAVE is accepted. While it is written the image has its mark and no matching sum: the sum is written
last. -/
def State.beginSave (s : State) (tag : Text) : State :=
  { s with store := .busy s.now s.snapshot, image := .torn }.ok tag [.word .SAVE]

/-- R193: `tag SAVE`. -/
def saveRequest (tag : Text) (more : List Text) (s : State) : State :=
  if !more.isEmpty then s.err tag .arg
  else if s.store.writing.isSome then s.err tag .busy
  else s.beginSave tag

/-- R193: SAVE. -/
def execSave (tag : Text) (more : List Text) (s : State) : Outcome := request s (saveRequest tag more)

/-- R193, R194: the write ends with the contents and their sum in the image, or fails. -/
def State.endSave (s : State) (good : Option StoreContents) : State :=
  match good with
  | some contents => { s with store := .good, image := .written contents (imageSum contents) }.post .saved [.word .OK]
  | none => { s with store := .bad, image := .torn }.post .saved [.word .FAIL]

/-- R193: a write is under way that may still end within its 30,000 grains. -/
def State.saveRunning (s : State) : Bool :=
  !s.held &&
    match s.store.writing with
    | none => false
    | some (since, _) => s.now ≤ since + 30000

/-- R193: the nonvolatile memory ends its write, the sum read back matching or not. -/
def execSaveComplete (sumMatches : Bool) (s : State) : Outcome :=
  event s.saveRunning s fun s => s.endSave (if sumMatches then s.store.writing.map (·.2) else none)

/-- R193: 30,000 grains have passed since the acceptance. -/
def State.saveLate (s : State) : Bool :=
  !s.held &&
    match s.store.writing with
    | none => false
    | some (since, _) => since + 30000 ≤ s.now

/-- R193: the write has not ended in its time. -/
def execSaveTimeout (s : State) : Outcome := event s.saveLate s (fun s => s.endSave none)

end Sys2Proof.Machine
end

