-- ==== Sys2Proof/Machine/Resets.lean ====
section
/-! DEFINITION. Reset and start-up (section 11.6, and the reset rules of every chapter): what a warm reset clears, what
a power-on reset loads, how a reset ends, and the five rows of the table that take part in it. -/

namespace Sys2Proof.Machine

/-! ## The end of a reset -/

/-- R3: the bell count a strap code selects. -/
def bellCountOf (code : BitVec 3) : Nat := [23, 27, 32, 37, 42, 47, 53, 64].getD code.toNat 64

/-- R3: the coil budget a strap code selects. -/
def coilBudgetOf (code : BitVec 2) : Nat := [2, 3, 4, 6].getD code.toNat 6

/-- R184: the line rate a strap code selects. -/
def lineRateOf (code : BitVec 2) : Nat := [9600, 19200, 38400, 115200].getD code.toNat 115200

/-- R3, R184: the straps are latched, with the lines at `pins`. -/
def State.latchStraps (s : State) (pins : Pins) : State :=
  { s with
    pins := pins, bellCount := bellCountOf pins.nsel, coilBudget := coilBudgetOf pins.csel
    lineRate := lineRateOf pins.rate }

/-- R78, R79, R176: the sense and cue lines are sampled: the stuck timing of watched lines begins, and each cue line's
level becomes its settled level. -/
def State.sampleLines (s : State) : State :=
  { s with
    bells := Vector.ofFn (fun i : Fin 64 => { s.bells[i] with stuck := s.stuckFromNow (i.val + 1) })
    cues := Vector.ofFn (fun i : Fin 4 => { s.cues[i] with settled := s.pins.cue[i], timer := none }) }

/-- R183: the supply monitor starts by the level of SUPGOOD. -/
def State.startSupply (s : State) : State :=
  { s with supply := if s.pins.supgood then .recovering s.now else .dip s.now }

/-- R196: the START report. -/
def State.reportStart (s : State) : State :=
  s.modSerial fun l =>
    l.post .start
      [causeWord s.cause, storeWord s.store, syncWord s.time.sync, .word .N, .num s.bellCount, .word .C,
        .num s.coilBudget]

/-- R195, R196: a reset ends with the lines at `pins`. Second boundaries crossed before it are not evaluated, nor is
one that falls in its own grain and has not been taken yet: the manual gives no order for the two (R158, R174;
assumption 12). -/
def State.start (s : State) (pins : Pins) : State :=
  let s := ({ s with held := false }.latchStraps pins).sampleLines.startSupply
  (s.modTime (fun t => { t with crossed := s.wallSecond })).reportStart

/-! ## Warm reset -/

/-- R173, R174: a source of PULSE restarts in ACQUIRE, a source of FREE in FREE. -/
def SyncSource.startState : SyncSource → SyncState
  | .free => .free
  | .pulse => .acquire

/-- R174: the timebase at a warm reset. -/
def Timebase.warm (t : Timebase) : Timebase :=
  { t with
    slew := 0, pendingTime := none, sync := t.source.startState, qualified := 0, lastPulse := none }

/-- R193: a SAVE under way is cut short by a warm reset. -/
def StoreState.cut : StoreState → StoreState
  | .good => .good
  | .bad => .bad
  | .empty => .empty
  | .busy _ _ => .bad

/-- R63, R65, R79, R97, R125, R158, R174, R177, R195: what a warm reset does to the state of every block. -/
def State.warm (s : State) (cause : ResetCause) : State :=
  { s with
    cause := cause
    time := s.time.warm
    bells := s.bells.map (fun r => { r with window := none, stuck := .idle })
    queue := [], waiting := [], coils := []
    melodies := s.melodies.map (fun h => { h with held := false })
    playQueue := [], tune := none, toll := none
    cues := s.cues.map (fun c => { c with timer := none, latch := false })
    supply := .recovering s.now
    serial := { mask := s.serial.mask }
    store := s.store.cut }

/-- R195: the RESET line falls: the warm reset begins, and the blocks stand at their reset values until it rises. -/
def execResetLineFall (s : State) : Outcome := event (!s.held) s (fun s => { s.warm .line with held := true })

/-- R195: the RESET line rises: the warm reset ends. -/
def execResetLineRise (pins : Pins) (s : State) : Outcome := event s.held s (fun s => s.start pins)

/-- R195: the transmitter has finished sending the reply to RESET. -/
def State.warmResetDue (s : State) : Bool :=
  !s.held &&
    match s.serial.resetWait with
    | .replySending finish => finish ≤ s.now
    | .replyMade => false
    | .none => false

/-- R195: the warm reset a RESET request asked for. -/
def execWarmResetCommand (pins : Pins) (s : State) : Outcome :=
  event s.warmResetDue s (fun s => (s.warm .command).start pins)

/-- R195: `tag RESET`. -/
def resetRequest (tag : Text) (more : List Text) (s : State) : State :=
  if more.isEmpty then (s.ok tag [.word .RESET]).modSerial (fun l => { l with resetWait := .replyMade })
  else s.err tag .arg

/-- R195: RESET. -/
def execReset (tag : Text) (more : List Text) (s : State) : Outcome := request s (resetRequest tag more)

/-! ## Power-on reset -/

/-- R5, R11: every loaded value passes through the clamp. -/
def Calibration.clamped (c : Calibration) : Calibration :=
  { c with
    pulse := c.pulse.map (clamp 20 400), flight := c.flight.map (clamp 50 2000), rearm := clamp 300 5000 c.rearm
    heat := clamp 200 4000 c.heat, duty := clamp 5 50 c.duty }

/-- R96: melody `m` becomes READY with the score the image records, its blocks allocated as the records are placed. A
score that does not fit is left EMPTY: no image a SAVE wrote holds one. -/
def State.loadMelody (contents : StoreContents) (s : State) (m : Nat) : State :=
  match slot contents.melodies m none with
  | none => s
  | some saved =>
    match
      State.appendAll m (s.setMelody m { phase := .opened, name := some saved.name, beat := some saved.beat })
        saved.records with
    | none => s
    | some t => t.setMelody m { t.melody m with phase := .ready }

/-- R11, R96, R143, R150, R173, R175, R189: the tables as a good image gives them. -/
def State.loadContents (s : State) (contents : StoreContents) : State :=
  let s :=
    { s with
      bells := contents.bells.map (fun (cal, flag) => Bell.powerOn cal.clamped flag)
      live := contents.schedule, draft := contents.schedule, quiet := contents.quiet
      cues := contents.cues.map (fun c => { config := c, settled := true })
      time := { s.time with source := contents.source, sync := contents.source.startState }
      serial := { s.serial with mask := contents.mask }
      store := .good }
  (List.range' 1 64).foldl (State.loadMelody contents) s

/-- R194: the image is read before any block starts: its tables are loaded only if its sum is that of its contents. -/
def State.load (s : State) : State :=
  match s.image with
  | .unwritten => { s with store := .empty }
  | .torn => { s with store := .bad }
  | .written contents sum => if sum = imageSum contents then s.loadContents contents else { s with store := .bad }

/-- R195, R196: the power-on reset: every block at its power-on values, the image loaded, and the start. The queue of
waiting commands and the count of choices are the model's own and go on. -/
def State.powerOn (s : State) (pins : Pins) : State :=
  ({ State.blank with pending := s.pending, choices := s.choices, image := s.image }.load).start pins

/-- R195, R196: POWER_ON_RESET. -/
def execPowerOnReset (pins : Pins) (s : State) : Outcome := .next (s.powerOn pins)

end Sys2Proof.Machine
end

