-- ==== Sys2Proof/Machine/Strikes.lean ====
section
/-! DEFINITION. The STRIKE and TEST requests and the three events of the dispatcher (section 3): the dispatch of the
head entry, the release of a coil, and the deadline of a waiting entry. -/

namespace Sys2Proof.Machine

/-- R60: the entry a live strike of bell `b` at `level` makes now. -/
def State.liveEntry (s : State) (b level : Nat) (origin : Origin) : Entry where
  fire := s.now
  orig := s.now
  onset := s.now
  bell := b
  level := level
  origin := origin
  slip := 1000
  serial := none
  slipped := false

/-- R60, R61: `tag STRIKE b L` or `tag TEST b L`. -/
def liveRequest (origin : Origin) (tag : Text) (fields : List Text) (s : State) : State :=
  match fields with
  | [b, level] =>
    match s.readBell b, readNat level with
    | some b, some level =>
      if s.slotFree then
        (s.enqueue (s.liveEntry b (clampLevel level) origin)).ok tag [.num b, .num (clampLevel level)]
      else s.err tag .qfull
    | _, _ => s.err tag .arg
  | _ => s.err tag .arg

/-- R60: `tag STRIKE b L`. -/
def strikeRequest (tag : Text) (fields : List Text) (s : State) : State := liveRequest .strike tag fields s

/-- R61: `tag TEST b L`. -/
def testRequest (tag : Text) (fields : List Text) (s : State) : State := liveRequest .test tag fields s

/-- R60: STRIKE. -/
def execStrike (tag : Text) (fields : List Text) (s : State) : Outcome := request s (strikeRequest tag fields)

/-- R61: TEST. -/
def execTest (tag : Text) (fields : List Text) (s : State) : Outcome := request s (testRequest tag fields)

/-- R45 to R51: the dispatch of the due head entry, and what a freed slot or an ended play brings with it (R111, R113,
R178). -/
def execDispatch (s : State) : Outcome := event s.dispatchDue s (fun s => s.dispatchHead.settle)

/-- R52, R54, R55: the release of the coil of bell `b`, and the grant of the freed place. -/
def execCoilRelease (b : Nat) (s : State) : Outcome := event (s.coilDue b) s (fun s => (s.releaseCoil b).settle)

/-- R53: the deadline of the waiting entry at a place of the coil-wait list. -/
def execCoilWaitDeadline (place : Nat) (s : State) : Outcome :=
  event (s.deadlineDue place) s (fun s => (s.dropAtDeadline place).settle)

end Sys2Proof.Machine
end

