-- ==== Sys2Proof/Machine/Requests.lean ====
section
/-! DEFINITION. The execution of lines (R185, R186): what each request does once its line is executed, and the event in
which the first line of the input queue is executed. -/

namespace Sys2Proof.Machine

/-- What a request does at the block that owns the state it names, its reply made in the same event (R186). A command
that is no request is spelled by no line. -/
def runRequest (i : Instr) (s : State) : State :=
  match i with
  | .powerOnReset _ => s
  | .resetLineFall => s
  | .resetLineRise _ => s
  | .warmResetCommand _ => s
  | .lineReceived => s
  | .lineExecute => s
  | .transmitLine => s
  | .bell tag fields => bellRequest tag fields s
  | .bellDisable tag b more => bellDisableRequest tag b more s
  | .bellEnable tag b more => bellEnableRequest tag b more s
  | .bellClear tag b more => bellClearRequest tag b more s
  | .bellRead tag fields => bellReadRequest tag fields s
  | .countRead tag fields => countReadRequest tag fields s
  | .countClear tag b more => countClearRequest tag b more s
  | .strike tag fields => strikeRequest tag fields s
  | .test tag fields => testRequest tag fields s
  | .dispatch => s
  | .coilRelease _ => s
  | .coilWaitDeadline _ => s
  | .senseActiveEdge _ => s
  | .senseReleaseEdge _ => s
  | .windowEnd _ => s
  | .stuckTimeout _ => s
  | .melOpen tag m args => melOpenRequest tag m args s
  | .melAdd tag m args => melAddRequest tag m args s
  | .melClose tag m more => melCloseRequest tag m more s
  | .melDelete tag m more => melDeleteRequest tag m more s
  | .melRead tag fields => melReadRequest tag fields s
  | .play tag fields => playRequest tag fields s
  | .cancel tag fields => cancelRequest tag fields s
  | .expired _ => s
  | .tuneTake => s
  | .expandRecord => s
  | .adjust tag fields => adjustRequest tag fields s
  | .stopNow tag lane more => stopNowRequest tag lane more s
  | .stopBar tag lane more => stopBarRequest tag lane more s
  | .toll tag fields => tollRequest tag fields s
  | .tollTake => s
  | .expandStroke => s
  | .cutOrder _ => s
  | .entry tag fields => entryRequest tag fields s
  | .entryClear tag number more => entryClearRequest tag number more s
  | .entryRead tag fields => entryReadRequest tag fields s
  | .holdOn tag more => holdRequest true tag more s
  | .holdOff tag more => holdRequest false tag more s
  | .quiet tag fields => quietRequest tag fields s
  | .quietClear tag number more => quietClearRequest tag number more s
  | .quietRead tag fields => quietReadRequest tag fields s
  | .secondBoundary => s
  | .time tag fields => timeRequest tag fields s
  | .slewTick => s
  | .wallClockRangeEnd => s
  | .syncFree tag more => syncFreeRequest tag more s
  | .syncPulse tag more => syncPulseRequest tag more s
  | .secpulseEdge => s
  | .pulseLoss => s
  | .cueLineChange _ => s
  | .cueDebounceExpire _ => s
  | .cue tag fields => cueRequest tag fields s
  | .cueEnable tag c more => cueEnableRequest tag c more s
  | .cueDisable tag c more => cueDisableRequest tag c more s
  | .cueClear tag c more => cueClearRequest tag c more s
  | .cueRead tag fields => cueReadRequest tag fields s
  | .supgoodFall => s
  | .supgoodRise => s
  | .supplyLost => s
  | .supplyGood => s
  | .report tag fields => reportRequest tag fields s
  | .reportRead tag more => reportReadRequest tag more s
  | .identity tag more => identityRequest tag more s
  | .status tag more => statusRequest tag more s
  | .queueSummary tag => queueSummaryRequest tag s
  | .queuePlayItem tag fields => queuePlayItemRequest tag fields s
  | .queueStrikeItem tag fields => queueStrikeItemRequest tag fields s
  | .queueWaitItem tag fields => queueWaitItemRequest tag fields s
  | .save tag more => saveRequest tag more s
  | .saveComplete _ => s
  | .saveTimeout => s
  | .reset tag more => resetRequest tag more s
  | .characterReceived _ _ => s

/-- R185: a complete line is executed. No line without a valid tag is ever queued. -/
def State.runLine (s : State) (line : Text) : State :=
  match readRequest line with
  | .request i => runRequest i s
  | .badArg tag => s.err tag .arg
  | .unknown tag => s.err tag .unknown
  | .noTag => s.modSerial (·.refuse badLineReply)

/-- R186: the serial line can execute, and a line waits. -/
def State.lineDue (s : State) : Bool := s.canExecute && !s.serial.input.isEmpty

/-- R186: the first line leaves the input queue and is executed. -/
def State.executeLine (s : State) : State :=
  match s.serial.input with
  | [] => s
  | line :: rest => (s.modSerial (fun l => { l with input := rest })).runLine line

/-- R186: LINE_EXECUTE. -/
def execLineExecute (s : State) : Outcome := event s.lineDue s State.executeLine

end Sys2Proof.Machine
end

