-- ==== Sys2Proof/Machine/SupplyMonitor.lean ====
section
/-! DEFINITION. The coil-supply monitor (section 10.5): the two changes of SUPGOOD and the two expiries of its timer. -/

namespace Sys2Proof.Machine

/-- The level of SUPGOOD. -/
def State.setSupgood (s : State) (high : Bool) : State := { s with pins := { s.pins with supgood := high } }

/-- R71: every window open when the supply leaves GOOD becomes not supply clean. -/
def State.soilWindows (s : State) : State :=
  { s with bells := s.bells.map (fun r => { r with window := r.window.map (fun w => { w with clean := false }) }) }

/-- R181: the monitor meets a fall of SUPGOOD. -/
def State.supplyFalls (s : State) : State :=
  match s.supply with
  | .good => { s with supply := .dip s.now }.soilWindows.post .supply [.word .DIP]
  | .recovering _ => { s with supply := .dip s.now }
  | .dip start => { s with supply := .dip start }
  | .lost => s

/-- R181: the monitor meets a rise of SUPGOOD. -/
def State.supplyRises (s : State) : State :=
  match s.supply with
  | .dip _ => { s with supply := .recovering s.now }
  | .lost => { s with supply := .recovering s.now }
  | .good => s
  | .recovering start => { s with supply := .recovering start }

/-- R181: SUPGOOD falls. While RESET is held only the level changes. Each of several changes in one grain is taken
(assumption 28). -/
def execSupgoodFall (s : State) : Outcome :=
  event s.pins.supgood s fun s =>
    let s := s.setSupgood false
    if s.held then s else s.supplyFalls

/-- R181: SUPGOOD rises. Each of several changes in one grain is taken (assumption 28). -/
def execSupgoodRise (s : State) : Outcome :=
  event (!s.pins.supgood) s fun s =>
    let s := s.setSupgood true
    if s.held then s else s.supplyRises

/-- R181: SUPGOOD has been low for 20,000 grains. -/
def State.lossDue (s : State) : Bool :=
  !s.held &&
    match s.supply with
    | .dip start => start + 20000 ≤ s.now
    | _ => false

/-- R182: the entry into LOST: its report, and then both lanes stopped NOW with reason SUPPLY, the TUNE lane first. A slot
that the TUNE lane's removal frees is not offered to a lagging TOLL lane (R111) before the TOLL lane's own stop, whose
refused stroke is then discarded: the manual gives no order for the two (assumption 23). -/
def State.loseSupply (s : State) : State :=
  (((({ s with supply := .lost }.post .supply [.word .LOST]).stopTuneNow .supply).stopTollNow .supply)).settle

/-- R181, R182: SUPPLY_LOST. -/
def execSupplyLost (s : State) : Outcome := event s.lossDue s State.loseSupply

/-- R181: SUPGOOD has been high for 10,000 grains. -/
def State.recoveryDue (s : State) : Bool :=
  !s.held &&
    match s.supply with
    | .recovering start => start + 10000 ≤ s.now
    | _ => false

/-- R181: the supply is GOOD. -/
def State.regainSupply (s : State) : State := { s with supply := .good }.post .supply [.word .GOOD]

/-- R181: SUPPLY_GOOD. -/
def execSupplyGood (s : State) : Outcome := event s.recoveryDue s State.regainSupply

end Sys2Proof.Machine
end

