-- ==== Sys2Proof/Machine/Dispatch.lean ====
section
/-! DEFINITION. One arm per command of the table: the meaning of each. -/

namespace Sys2Proof.Machine

def exec (i : Instr) (s : State) : Host.Outcome State Fault Refusal :=
  match i with
  | .powerOnReset pins => Sys2Proof.Machine.execPowerOnReset pins s
  | .resetLineFall => Sys2Proof.Machine.execResetLineFall s
  | .resetLineRise pins => Sys2Proof.Machine.execResetLineRise pins s
  | .warmResetCommand pins => Sys2Proof.Machine.execWarmResetCommand pins s
  | .lineReceived => Sys2Proof.Machine.execLineReceived s
  | .lineExecute => Sys2Proof.Machine.execLineExecute s
  | .transmitLine => Sys2Proof.Machine.execTransmitLine s
  | .bell tag fields => Sys2Proof.Machine.execBell tag fields s
  | .bellDisable tag b more => Sys2Proof.Machine.execBellDisable tag b more s
  | .bellEnable tag b more => Sys2Proof.Machine.execBellEnable tag b more s
  | .bellClear tag b more => Sys2Proof.Machine.execBellClear tag b more s
  | .bellRead tag fields => Sys2Proof.Machine.execBellRead tag fields s
  | .countRead tag fields => Sys2Proof.Machine.execCountRead tag fields s
  | .countClear tag b more => Sys2Proof.Machine.execCountClear tag b more s
  | .strike tag fields => Sys2Proof.Machine.execStrike tag fields s
  | .test tag fields => Sys2Proof.Machine.execTest tag fields s
  | .dispatch => Sys2Proof.Machine.execDispatch s
  | .coilRelease b => Sys2Proof.Machine.execCoilRelease b s
  | .coilWaitDeadline place => Sys2Proof.Machine.execCoilWaitDeadline place s
  | .senseActiveEdge b => Sys2Proof.Machine.execSenseActiveEdge b s
  | .senseReleaseEdge b => Sys2Proof.Machine.execSenseReleaseEdge b s
  | .windowEnd b => Sys2Proof.Machine.execWindowEnd b s
  | .stuckTimeout b => Sys2Proof.Machine.execStuckTimeout b s
  | .melOpen tag m args => Sys2Proof.Machine.execMelOpen tag m args s
  | .melAdd tag m args => Sys2Proof.Machine.execMelAdd tag m args s
  | .melClose tag m more => Sys2Proof.Machine.execMelClose tag m more s
  | .melDelete tag m more => Sys2Proof.Machine.execMelDelete tag m more s
  | .melRead tag fields => Sys2Proof.Machine.execMelRead tag fields s
  | .play tag fields => Sys2Proof.Machine.execPlay tag fields s
  | .cancel tag fields => Sys2Proof.Machine.execCancel tag fields s
  | .expired id => Sys2Proof.Machine.execExpired id s
  | .tuneTake => Sys2Proof.Machine.execTuneTake s
  | .expandRecord => Sys2Proof.Machine.execExpandRecord s
  | .adjust tag fields => Sys2Proof.Machine.execAdjust tag fields s
  | .stopNow tag lane more => Sys2Proof.Machine.execStopNow tag lane more s
  | .stopBar tag lane more => Sys2Proof.Machine.execStopBar tag lane more s
  | .toll tag fields => Sys2Proof.Machine.execToll tag fields s
  | .tollTake => Sys2Proof.Machine.execTollTake s
  | .expandStroke => Sys2Proof.Machine.execExpandStroke s
  | .cutOrder id => Sys2Proof.Machine.execCutOrder id s
  | .entry tag fields => Sys2Proof.Machine.execEntry tag fields s
  | .entryClear tag number more => Sys2Proof.Machine.execEntryClear tag number more s
  | .entryRead tag fields => Sys2Proof.Machine.execEntryRead tag fields s
  | .holdOn tag more => Sys2Proof.Machine.execHoldOn tag more s
  | .holdOff tag more => Sys2Proof.Machine.execHoldOff tag more s
  | .quiet tag fields => Sys2Proof.Machine.execQuiet tag fields s
  | .quietClear tag number more => Sys2Proof.Machine.execQuietClear tag number more s
  | .quietRead tag fields => Sys2Proof.Machine.execQuietRead tag fields s
  | .secondBoundary => Sys2Proof.Machine.execSecondBoundary s
  | .time tag fields => Sys2Proof.Machine.execTime tag fields s
  | .slewTick => Sys2Proof.Machine.execSlewTick s
  | .wallClockRangeEnd => Sys2Proof.Machine.execWallClockRangeEnd s
  | .syncFree tag more => Sys2Proof.Machine.execSyncFree tag more s
  | .syncPulse tag more => Sys2Proof.Machine.execSyncPulse tag more s
  | .secpulseEdge => Sys2Proof.Machine.execSecpulseEdge s
  | .pulseLoss => Sys2Proof.Machine.execPulseLoss s
  | .cueLineChange c => Sys2Proof.Machine.execCueLineChange c s
  | .cueDebounceExpire c => Sys2Proof.Machine.execCueDebounceExpire c s
  | .cue tag fields => Sys2Proof.Machine.execCue tag fields s
  | .cueEnable tag c more => Sys2Proof.Machine.execCueEnable tag c more s
  | .cueDisable tag c more => Sys2Proof.Machine.execCueDisable tag c more s
  | .cueClear tag c more => Sys2Proof.Machine.execCueClear tag c more s
  | .cueRead tag fields => Sys2Proof.Machine.execCueRead tag fields s
  | .supgoodFall => Sys2Proof.Machine.execSupgoodFall s
  | .supgoodRise => Sys2Proof.Machine.execSupgoodRise s
  | .supplyLost => Sys2Proof.Machine.execSupplyLost s
  | .supplyGood => Sys2Proof.Machine.execSupplyGood s
  | .report tag fields => Sys2Proof.Machine.execReport tag fields s
  | .reportRead tag more => Sys2Proof.Machine.execReportRead tag more s
  | .identity tag more => Sys2Proof.Machine.execIdentity tag more s
  | .status tag more => Sys2Proof.Machine.execStatus tag more s
  | .queueSummary tag => Sys2Proof.Machine.execQueueSummary tag s
  | .queuePlayItem tag fields => Sys2Proof.Machine.execQueuePlayItem tag fields s
  | .queueStrikeItem tag fields => Sys2Proof.Machine.execQueueStrikeItem tag fields s
  | .queueWaitItem tag fields => Sys2Proof.Machine.execQueueWaitItem tag fields s
  | .save tag more => Sys2Proof.Machine.execSave tag more s
  | .saveComplete sumMatches => Sys2Proof.Machine.execSaveComplete sumMatches s
  | .saveTimeout => Sys2Proof.Machine.execSaveTimeout s
  | .reset tag more => Sys2Proof.Machine.execReset tag more s
  | .characterReceived char stopBit => Sys2Proof.Machine.execCharacterReceived char stopBit s

end Sys2Proof.Machine
end

