-- ==== Sys2Proof/Machine/Idle.lean ====
section
/-! DEFINITION. What the TC56 does of its own accord when no command waits (assumption 5): it takes a step that is due,
and when none is due the next grain begins. -/

namespace Sys2Proof.Machine

/-- `[i]` if the condition holds. -/
def when (condition : Bool) (i : Instr) : List Instr := if condition then [i] else []

/-- The steps that are due now: every row of the table that comes about by the clock or by the state alone (R45, R52,
R53, R69, R76, R103, R107, R109, R130, R132, R134, R145, R146, R160, R161, R170, R176, R181, R186, R187, R193, R195). -/
def State.due (s : State) : List Instr :=
  when s.dispatchDue .dispatch
    ++ (s.coils.map (·.bell)).filterMap (fun b => if s.coilDue b then some (.coilRelease b) else none)
    ++ (List.range s.waiting.length).filterMap (fun p => if s.deadlineDue p then some (.coilWaitDeadline p) else none)
    ++ (List.range' 1 64).filterMap (fun b => if s.windowDue b then some (.windowEnd b) else none)
    ++ (List.range' 1 64).filterMap (fun b => if s.stuckDue b then some (.stuckTimeout b) else none)
    ++ (s.playQueue.map (·.id)).filterMap (fun i => if s.expiryDue i then some (.expired i) else none)
    ++ (s.playQueue.map (·.id)).filterMap (fun i => if s.cutDue i then some (.cutOrder i) else none)
    ++ when s.tuneTakeDue .tuneTake
    ++ when s.recordDue .expandRecord
    ++ when s.tollTakeDue .tollTake
    ++ when s.strokeDue .expandStroke
    ++ when s.tickDue .slewTick
    ++ when s.boundaryDue .secondBoundary
    ++ when s.rangeEndDue .wallClockRangeEnd
    ++ when s.pulseLossDue .pulseLoss
    ++ (List.range' 1 4).filterMap (fun c => if s.debounceDue c then some (.cueDebounceExpire c) else none)
    ++ when s.lossDue .supplyLost
    ++ when s.recoveryDue .supplyGood
    ++ when s.lineDue .lineExecute
    ++ when s.transmitDue .transmitLine
    ++ when s.saveLate .saveTimeout
    ++ when s.warmResetDue (.warmResetCommand s.pins)

/-- R159: the next grain begins. The manual gives no behaviour for a count beyond 48 bits. -/
def State.passGrain (s : State) : Outcome :=
  if s.now + 1 < 2 ^ 48 then .next (s.modTime (fun t => { t with now := t.now + 1 }))
  else .fault .strikeClockExhausted

/-- With no command waiting: one of the steps that are due, in any order, or else a grain passes. -/
def State.idle (s : State) : Outcome :=
  match choose s s.due with
  | none => s.passGrain
  | some (i, s) => exec i s

end Sys2Proof.Machine
end

