-- ==== Sys2Proof/Machine/Step.lean ====
section
/-! DEFINITION. One step of the TC56: the command at the front of the queue, or, when none waits, what the part does of
its own accord (assumption 5). -/

namespace Sys2Proof.Machine

/-- Take the command at the front of the queue and run it; with none waiting, the part goes on by itself. -/
def step (s : State) : Host.Outcome State Fault Refusal :=
  match s.pending with
  | [] => s.idle
  | c :: rest => exec c { s with pending := rest }

/-- The state with the command a table word spells put at the front of its queue; no row of the table has bits, so no
word spells one (assumption 15). -/
def State.withFetchWord (s : State) (nbits w : Nat) : State :=
  match decodeTableWord nbits w with
  | none => s
  | some c => { s with pending := c :: s.pending }

end Sys2Proof.Machine
end

