-- ==== Sys2Proof/Grammar.lean ====
section
/-! DEFINITION. The forms of the requests' fields, as the tables of the manual give them: for each kind of field, which
text stands for which value. A text in none of the forms is refused. The statements hold the readers of the model
against these forms. -/

namespace Sys2Proof.Machine

/-! ## Numbers, times and sets -/

/-- A decimal number of any length (R185 and the Conventions of 00_scope.md). -/
def DecimalForm (t : Text) (n : Nat) : Prop :=
  t ≠ [] ∧ (∀ c ∈ t, 48 ≤ c.toNat ∧ c.toNat ≤ 57) ∧ n = Nat.ofDigits 10 (t.reverse.map (fun c => c.toNat - 48))

/-- A decimal number of 1 to `most` digits. -/
def NumberForm (most : Nat) (t : Text) (n : Nat) : Prop := DecimalForm t n ∧ t.length ≤ most

/-- A decimal number of 1 to `most` digits that is refused outside a range. -/
def WithinForm (most lo hi : Nat) (t : Text) (n : Nat) : Prop := NumberForm most t n ∧ lo ≤ n ∧ n ≤ hi

/-- A decimal number of 1 to `most` digits with an optional sign (R105). -/
def SignedForm (most : Nat) (t : Text) (x : Int) : Prop :=
  ∃ n : Nat, (NumberForm most t n ∧ x = n) ∨
    ∃ u, NumberForm most u n ∧ ((t = '+' :: u ∧ x = n) ∨ (t = '-' :: u ∧ x = -(n : Int)))

/-- A wall instant of the clock's range, written as its date and its time (R105, R163). -/
def WallForm (date time : Text) (instant : Nat) : Prop :=
  instant < wallEnd ∧ date = dateText instant ∧ time = timeText instant

/-- A time of day in minutes, written hh:mm (R150). -/
def ClockForm (t : Text) (minute : Nat) : Prop := minute < 1440 ∧ t = clockText minute

/-- A day and month, written dd-mm: a day the month has, 29-02 among them (R140). -/
def DayMonthForm (t : Text) (d : DayMonth) : Prop :=
  t = dayMonthText d ∧ 1 ≤ d.month ∧ d.month ≤ 12 ∧ 1 ≤ d.day ∧
    d.day ≤ [31, 29, 31, 30, 31, 30, 31, 31, 30, 31, 30, 31].getD (d.month - 1) 0

/-- A number, or a range that does not run backward (R140). -/
def SpanForm (lo hi : Nat) (t : Text) (span : Nat × Nat) : Prop :=
  (WithinForm 6 lo hi t span.1 ∧ span.2 = span.1) ∨
    ∃ u v, t = u ++ '-' :: v ∧ WithinForm 6 lo hi u span.1 ∧ WithinForm 6 lo hi v span.2 ∧ span.1 ≤ span.2

/-- A set of numbers: a comma-separated list of numbers and ranges, or `*` for all (R140). -/
def NumberSetForm (lo hi : Nat) (t : Text) (xs : List Nat) : Prop :=
  (t = ['*'] ∧ xs = List.range' lo (hi + 1 - lo)) ∨
    ∃ pieces spans, pieces ≠ [] ∧ t = joinCommas pieces ∧ List.Forall₂ (SpanForm lo hi) pieces spans ∧
      xs = (List.range' lo (hi + 1 - lo)).filter (fun x => spans.any (fun span => span.1 ≤ x && x ≤ span.2))

/-- A comma-separated list of 1 to 4 minutes, none of them twice (R140). -/
def MinutesForm (t : Text) (xs : List Nat) : Prop :=
  ∃ pieces ns, pieces ≠ [] ∧ pieces.length ≤ 4 ∧ t = joinCommas pieces ∧
    List.Forall₂ (WithinForm 6 0 59) pieces ns ∧ ns.Nodup ∧ xs = (List.range 60).filter (fun x => ns.contains x)

/-- A comma-separated list of weekdays, or `*` for all (R140, R150). -/
def DaysForm (t : Text) (xs : List Nat) : Prop :=
  (t = ['*'] ∧ xs = List.range 7) ∨
    ∃ ds : List Nat, ds ≠ [] ∧ (∀ d ∈ ds, d < 7) ∧ t = joinCommas (ds.map dayText) ∧
      xs = (List.range 7).filter (fun x => ds.contains x)

/-! ## Fields that follow one another -/

/-- The fields fall into pieces, one after another, each in the form of its value. -/
def Spells {α : Type} (form : List Text → α → Prop) (fields : List Text) (values : List α) : Prop :=
  ∃ pieces, fields = pieces.flatten ∧ List.Forall₂ form pieces values

/-! ## BELL (R6) -/

/-- A setting of a BELL line. -/
def SettingForm (piece : List Text) : Setting → Prop
  | .pulse level value =>
    ∃ l v, piece = [Kw.PULSE.text, l, v] ∧ DecimalForm l level ∧ 1 ≤ level ∧ level ≤ 7 ∧ NumberForm 6 v value
  | .flight level value =>
    ∃ l v, piece = [Kw.FLIGHT.text, l, v] ∧ DecimalForm l level ∧ 1 ≤ level ∧ level ≤ 7 ∧ NumberForm 6 v value
  | .rearm value => ∃ v, piece = [Kw.REARM.text, v] ∧ NumberForm 6 v value
  | .heat value => ∃ v, piece = [Kw.HEAT.text, v] ∧ NumberForm 6 v value
  | .duty value => ∃ v, piece = [Kw.DUTY.text, v] ∧ NumberForm 6 v value
  | .sense fitted => piece = [Kw.SENSE.text, if fitted then Kw.FITTED.text else Kw.ABSENT.text]
  | .pol polarity => piece = [Kw.POL.text, if polarity = .rise then Kw.RISE.text else Kw.FALL.text]
  | .learn on => piece = [Kw.LEARN.text, if on then Kw.ON.text else Kw.OFF.text]
  | .default => piece = [Kw.DEFAULT.text]

/-! ## MEL ADD (R83, R85) -/

/-- A score record field. -/
def RecordForm (t : Text) : ScoreRecord → Prop
  | .note delta bell level =>
    ∃ d b l, t = 'N' :: '/' :: d ++ '/' :: b ++ '/' :: l ∧ WithinForm 6 0 4095 d delta ∧ WithinForm 6 1 64 b bell ∧
      WithinForm 6 1 7 l level
  | .rest delta => ∃ d, t = 'R' :: '/' :: d ∧ WithinForm 6 0 4095 d delta
  | .bar delta => ∃ d, t = 'B' :: '/' :: d ∧ WithinForm 6 0 4095 d delta
  | .tempo delta beat =>
    ∃ d b, t = 'T' :: '/' :: d ++ '/' :: b ∧ WithinForm 6 0 4095 d delta ∧ WithinForm 6 2500 30000 b beat

/-! ## PLAY, TOLL and the actions of ENTRY and CUE (R105, R127, R140, R179) -/

/-- An option with its value. -/
inductive OptionValue where
  | atTime (instant : Nat) | clock (n : Nat) | tempo (n : Nat) | transpose (x : Int) | cap (n : Nat) | repeats (n : Nat)
  | slip (n : Nat) | wait (n : Nat) | interval (n : Nat) | level (n : Nat) | mode (m : TollMode)
  deriving DecidableEq, Repr

/-- The keyword of an option. -/
def OptionValue.key : OptionValue → Kw
  | .atTime _ => .AT
  | .clock _ => .CLOCK
  | .tempo _ => .TEMPO
  | .transpose _ => .TRANSPOSE
  | .cap _ => .CAP
  | .repeats _ => .REPEAT
  | .slip _ => .SLIP
  | .wait _ => .WAIT
  | .interval _ => .INTERVAL
  | .level _ => .LEVEL
  | .mode _ => .MODE

/-- The word of a toll mode. -/
def TollMode.word : TollMode → Kw
  | .after => .AFTER
  | .cut => .CUT
  | .over => .OVER

/-- An option as it stands on the line, numbers of at most `most` digits. -/
def OptionForm (most : Nat) (piece : List Text) : OptionValue → Prop
  | .atTime instant => ∃ date time, piece = [Kw.AT.text, date, time] ∧ WallForm date time instant
  | .clock n => ∃ v, piece = [Kw.CLOCK.text, v] ∧ NumberForm most v n
  | .tempo n => ∃ v, piece = [Kw.TEMPO.text, v] ∧ NumberForm most v n
  | .transpose x => ∃ v, piece = [Kw.TRANSPOSE.text, v] ∧ SignedForm most v x
  | .cap n => ∃ v, piece = [Kw.CAP.text, v] ∧ NumberForm most v n
  | .repeats n => ∃ v, piece = [Kw.REPEAT.text, v] ∧ WithinForm most 1 4 v n
  | .slip n => ∃ v, piece = [Kw.SLIP.text, v] ∧ NumberForm most v n
  | .wait n => ∃ v, piece = [Kw.WAIT.text, v] ∧ NumberForm most v n
  | .interval n => ∃ v, piece = [Kw.INTERVAL.text, v] ∧ WithinForm most 5000 50000 v n
  | .level n => ∃ v, piece = [Kw.LEVEL.text, v] ∧ NumberForm most v n
  | .mode m => piece = [Kw.MODE.text, m.word.text]

/-- Options with one more given. -/
def Options.put (o : Options) : OptionValue → Options
  | .atTime instant => { o with atTime := some instant }
  | .clock n => { o with clock := some n }
  | .tempo n => { o with tempo := some n }
  | .transpose x => { o with transpose := some x }
  | .cap n => { o with cap := some n }
  | .repeats n => { o with repeats := some n }
  | .slip n => { o with slip := some n }
  | .wait n => { o with wait := some n }
  | .interval n => { o with interval := some n }
  | .level n => { o with level := some n }
  | .mode m => { o with mode := some m }

/-- Options in any order, each one of those allowed, none of them twice, and not both AT and CLOCK. -/
def OptionsForm (most : Nat) (allowed : List Kw) (fields : List Text) (o : Options) : Prop :=
  ∃ values, Spells (OptionForm most) fields values ∧ (values.map OptionValue.key).Nodup ∧
    (∀ v ∈ values, v.key ∈ allowed) ∧ ¬ (Kw.AT ∈ values.map OptionValue.key ∧ Kw.CLOCK ∈ values.map OptionValue.key) ∧
      o = values.foldl Options.put {}

/-- The count rule of a toll. -/
def RuleForm (most : Nat) (piece : List Text) : CountRule → Prop
  | .hour12 => piece = [Kw.HOUR12.text]
  | .hour24 => piece = [Kw.HOUR24.text]
  | .fixed n => ∃ v, piece = [Kw.FIXED.text, v] ∧ WithinForm most 1 24 v n

/-- What a TUNE action is made of: a melody 1..64 and options. -/
def TuneActionForm (allowed : List Kw) (fields : List Text) (melody : Nat) (o : Options) : Prop :=
  ∃ m options, fields = Kw.TUNE.text :: m :: options ∧ WithinForm 6 1 64 m melody ∧ OptionsForm 6 allowed options o

/-- What a TOLL action is made of: a count rule, a bell 1..64 and options. -/
def TollActionForm (allowed : List Kw) (fields : List Text) (rule : CountRule) (bell : Nat) (o : Options) : Prop :=
  ∃ piece b options, fields = Kw.TOLL.text :: piece ++ b :: options ∧ RuleForm 6 piece rule ∧
    WithinForm 6 1 64 b bell ∧ OptionsForm 6 allowed options o

/-- The tune a request asks for, clamped and with its defaults (R98). -/
def tuneAsked (melody : Nat) (o : Options) : TuneSpec where
  melody := melody
  tempo := max 50 (min 200 (o.tempo.getD 100))
  transpose := max (-12) (min 12 (o.transpose.getD 0))
  repeats := o.repeats.getD 1

/-- The toll a request asks for, clamped and with its defaults (R126). -/
def tollAsked (rule : CountRule) (bell : Nat) (o : Options) : TollSpec where
  rule := rule
  bell := bell
  interval := o.interval.getD 20000
  level := max 1 (min 7 (o.level.getD 6))
  mode := o.mode.getD .after

/-! ## ENTRY (R139, R140) -/

/-- A time field with its value. -/
inductive TimeValue where
  | hours (xs : List Nat) | minutes (xs : List Nat) | second (n : Nat) | days (xs : List Nat) | months (xs : List Nat)
  | dates (first last : DayMonth) | expiry (n : Nat) | force
  deriving DecidableEq, Repr

/-- The keyword of a time field. -/
def TimeValue.key : TimeValue → Kw
  | .hours _ => .HOURS
  | .minutes _ => .MINUTES
  | .second _ => .SECOND
  | .days _ => .DAYS
  | .months _ => .MONTHS
  | .dates _ _ => .DATES
  | .expiry _ => .EXPIRY
  | .force => .FORCE

/-- A time field as it stands on the line. -/
def TimeFieldForm (piece : List Text) : TimeValue → Prop
  | .hours xs => ∃ v, piece = [Kw.HOURS.text, v] ∧ NumberSetForm 0 23 v xs
  | .minutes xs => ∃ v, piece = [Kw.MINUTES.text, v] ∧ MinutesForm v xs
  | .second n => ∃ v, piece = [Kw.SECOND.text, v] ∧ WithinForm 6 0 59 v n
  | .days xs => ∃ v, piece = [Kw.DAYS.text, v] ∧ DaysForm v xs
  | .months xs => ∃ v, piece = [Kw.MONTHS.text, v] ∧ NumberSetForm 1 12 v xs
  | .dates first last => ∃ u v, piece = [Kw.DATES.text, u, v] ∧ DayMonthForm u first ∧ DayMonthForm v last
  | .expiry n => ∃ v, piece = [Kw.EXPIRY.text, v] ∧ NumberForm 6 v n
  | .force => piece = [Kw.FORCE.text]

/-- Time fields with one more given. -/
def TimeFields.put (f : TimeFields) : TimeValue → TimeFields
  | .hours xs => { f with hours := some xs }
  | .minutes xs => { f with minutes := some xs }
  | .second n => { f with second := some n }
  | .days xs => { f with days := some xs }
  | .months xs => { f with months := some xs }
  | .dates first last => { f with dates := some (first, last) }
  | .expiry n => { f with expiry := some n }
  | .force => { f with force := true }

/-- What a reply shows of a field with a range: the end of the range where a value beyond it was given, nothing where
none was given or it lay within (R1). -/
def endShown (k : Kw) (lo hi : Nat) : Option Nat → List Fld
  | none => []
  | some n => if n < lo then [.word k, .num lo] else if hi < n then [.word k, .num hi] else []

/-- The same of a signed field. -/
def endShownInt (k : Kw) (lo hi : Int) : Option Int → List Fld
  | none => []
  | some x => if x < lo then [.word k, .int lo] else if hi < x then [.word k, .int hi] else []

/-- The action that ends an ENTRY line, and what the reply shows of its fields. -/
def EntryActionForm (fields : List Text) (action : ScheduleAction) (shown : List Fld) : Prop :=
  match action with
  | .tune spec cap => ∃ melody o, TuneActionForm [.TEMPO, .TRANSPOSE, .CAP, .REPEAT] fields melody o ∧
      spec = tuneAsked melody o ∧ cap = max 1 (min 7 (o.cap.getD 7)) ∧
      shown = endShown .TEMPO 50 200 o.tempo ++ endShownInt .TRANSPOSE (-12) 12 o.transpose ++ endShown .CAP 1 7 o.cap
  | .toll spec => ∃ rule bell o, TollActionForm [.INTERVAL, .LEVEL, .MODE] fields rule bell o ∧
      spec = tollAsked rule bell o ∧ shown = endShown .LEVEL 1 7 o.level

/-- An ENTRY line after its number: time fields in any order, none of them twice, HOURS and MINUTES among them, then one
action; the other fields at their defaults where they are left out; and what the reply shows of the fields clamped. -/
def EntryForm (fields : List Text) (e : ScheduleEntry) (shown : List Fld) : Prop :=
  ∃ time action values, fields = time ++ action ∧ Spells TimeFieldForm time values ∧
    (values.map TimeValue.key).Nodup ∧ EntryActionForm action e.action shown ∧
    let f : TimeFields := values.foldl TimeFields.put {}
    f.hours = some e.hours ∧ f.minutes = some e.minutes ∧ e.second = f.second.getD 0 ∧
      e.days = f.days.getD [0, 1, 2, 3, 4, 5, 6] ∧ e.months = f.months.getD [1, 2, 3, 4, 5, 6, 7, 8, 9, 10, 11, 12] ∧
      e.dates = f.dates ∧ e.force = f.force ∧ e.expiry = f.expiry.getD 120 ∧
      e.expiry ≤ (match e.action with
        | .tune _ _ => 300
        | .toll _ => 120)

/-! ## QUIET (R150) -/

/-- A field of a quiet rule with its value. -/
inductive QuietValue where
  | days (xs : List Nat) | fromMin (minute : Nat) | toMin (minute : Nat) | tune (action : QuietTune) | tollCap (level : Nat)
  deriving DecidableEq, Repr

/-- A field of a QUIET line, its level clamped to 1..7. -/
def QuietFieldForm (piece : List Text) : QuietValue → Prop
  | .days xs => ∃ v, piece = [Kw.DAYS.text, v] ∧ DaysForm v xs
  | .fromMin minute => ∃ v, piece = [Kw.FROM.text, v] ∧ ClockForm v minute
  | .toMin minute => ∃ v, piece = [Kw.TO.text, v] ∧ ClockForm v minute
  | .tune .silence => piece = [Kw.TUNE.text, Kw.SILENCE.text]
  | .tune (.cap level) => ∃ v n, piece = [Kw.TUNE.text, Kw.CAP.text, v] ∧ DecimalForm v n ∧ level = max 1 (min 7 n)
  | .tollCap level => ∃ v n, piece = [Kw.TOLL.text, v] ∧ DecimalForm v n ∧ level = max 1 (min 7 n)

/-- A QUIET line after its number: its five fields in any order, each once. -/
def QuietForm (fields : List Text) (q : QuietRule) : Prop :=
  ∃ values, Spells QuietFieldForm fields values ∧
    values.Perm [.days q.days, .fromMin q.fromMin, .toMin q.toMin, .tune q.tune, .tollCap q.tollCap]

/-! ## CUE (R179) -/

/-- A setting of a CUE line, less ACTION, with its value. -/
inductive CueValue where
  | edge (e : CueEdge) | debounce (n : Nat) | force (on : Bool)
  deriving DecidableEq, Repr

/-- The keyword of a setting. -/
def CueValue.key : CueValue → Kw
  | .edge _ => .EDGE
  | .debounce _ => .DEBOUNCE
  | .force _ => .FORCE

/-- A setting of a CUE line as it stands on the line, the debounce clamped to 200..5000. -/
def CueSettingForm (piece : List Text) : CueValue → Prop
  | .edge .rise => piece = [Kw.EDGE.text, Kw.RISE.text]
  | .edge .fall => piece = [Kw.EDGE.text, Kw.FALL.text]
  | .edge .both => piece = [Kw.EDGE.text, Kw.BOTH.text]
  | .debounce n => ∃ v d, piece = [Kw.DEBOUNCE.text, v] ∧ NumberForm 6 v d ∧ n = max 200 (min 5000 d)
  | .force on => piece = [Kw.FORCE.text, if on then Kw.ON.text else Kw.OFF.text]

/-- Settings with one more given. -/
def CueSettings.put (f : CueSettings) : CueValue → CueSettings
  | .edge e => { f with edge := some e }
  | .debounce n => { f with debounce := some n }
  | .force on => { f with force := some on }

/-- The action that follows ACTION, its wait within the range of its class. -/
def CueActionForm (fields : List Text) : CueAction → Prop
  | .none => False
  | .tune spec cap slip wait =>
    ∃ melody o, TuneActionForm [.TEMPO, .TRANSPOSE, .CAP, .REPEAT, .SLIP, .WAIT] fields melody o ∧
      spec = tuneAsked melody o ∧ cap = max 1 (min 7 (o.cap.getD 7)) ∧ slip = min 1000 (o.slip.getD 150) ∧
      wait = o.wait.getD 120 ∧ wait ≤ 300
  | .toll spec cap slip wait =>
    ∃ rule bell o, TollActionForm [.INTERVAL, .LEVEL, .MODE, .CAP, .SLIP, .WAIT] fields rule bell o ∧
      spec = tollAsked rule bell o ∧ cap = max 1 (min 7 (o.cap.getD 7)) ∧ slip = min 1000 (o.slip.getD 150) ∧
      wait = o.wait.getD 120 ∧ wait ≤ 120
  | .stop => fields = [Kw.STOP.text]

/-- A CUE line after its number: settings in any order, none of them twice, and then, if there is one, ACTION with its
action; at least one of them. -/
def CueSettingsForm (fields : List Text) (f : CueSettings) : Prop :=
  ∃ settings rest values, fields = settings ++ rest ∧ fields ≠ [] ∧ Spells CueSettingForm settings values ∧
    (values.map CueValue.key).Nodup ∧
    ((rest = [] ∧ f = values.foldl CueSettings.put {}) ∨
      ∃ fields action, rest = Kw.ACTION.text :: fields ∧ CueActionForm fields action ∧
        f = { values.foldl CueSettings.put {} with action := some action })

/-! ## REPORT (R189) -/

/-- A pair of a REPORT line: a maskable kind or ALL, and ON or OFF. -/
def PairForm (piece : List Text) (pair : MaskTarget × Bool) : Prop :=
  piece = [match pair.1 with
    | .all => Kw.ALL.text
    | .one kind => kindText kind, if pair.2 then Kw.ON.text else Kw.OFF.text]

end Sys2Proof.Machine
end

