-- ==== Sys2Proof/Safety.lean ====
section
/-! DEFINITION. What it is for a state of the TC56 to be sound: the bounds, the orders and the exclusions that the
manual says hold at all times, gathered by the part of the machine they speak of. -/

namespace Sys2Proof.Machine

/-- Every slot of a table has the property. -/
def AllSlots {α : Type} {n : Nat} (v : Table α n) (P : α → Prop) : Prop := ∀ x ∈ v.toList, P x

/-- Each element of a list that stands before another does not stand strictly after it. -/
def InOrder {α : Type} (before : α → α → Bool) (xs : List α) : Prop := xs.Pairwise (fun a b => before b a = false)

/-! ## Bells -/

/-- R5: the bounds of a calibration. -/
structure Calibration.InBounds (c : Calibration) : Prop where
  pulse : AllSlots c.pulse (fun x => 20 ≤ x ∧ x ≤ 400)
  flight : AllSlots c.flight (fun x => 50 ≤ x ∧ x ≤ 2000)
  rearm : 300 ≤ c.rearm ∧ c.rearm ≤ 5000
  heat : 200 ≤ c.heat ∧ c.heat ≤ 4000
  duty : 5 ≤ c.duty ∧ c.duty ≤ 50

/-- R17: the counters of a bell are 16-bit. -/
structure Counters.InBounds (c : Counters) : Prop where
  fired : c.fired ≤ 65535
  hit : c.hit ≤ 65535
  miss : c.miss ≤ 65535
  stray : c.stray ≤ 65535
  slip : c.slip ≤ 65535
  throttle : c.throttle ≤ 65535
  drop : c.drop ≤ 65535

/-- R5, R13, R14, R15, R17, R65: what holds of a bell record at all times. -/
structure Bell.Sound (r : Bell) : Prop where
  cal : r.cal.InBounds
  counters : r.counters.InBounds
  bucket : r.bucket ≤ r.cal.heat * 100
  misses : r.misses ≤ 3
  hits : r.hits ≤ 3
  /-- A bell in GOOD or DISABLED shows both counts as 0 (R15). -/
  settled : r.health = .good ∨ r.health = .disabled → r.misses = 0 ∧ r.hits = 0
  /-- The disabled flag is set exactly in DISABLED (R14). -/
  flag : r.disabledFlag = true ↔ r.health = .disabled
  /-- A window is open only where the line can be watched (R10, R20, R51). -/
  window : r.window.isSome = true → r.cal.fitted = true ∧ r.health ≠ .disabled

/-- Every bell record is sound. -/
def State.BellsSound (s : State) : Prop := AllSlots s.bells Bell.Sound

/-! ## The dispatcher -/

/-- R42, R43, R49, R53, R54: the slots, the bells the entries name, the orders of the two lists, and the coil
budget. -/
structure State.DispatcherSound (s : State) : Prop where
  slots : s.queue.length + s.waiting.length ≤ 64
  /-- Every entry names a bell within 1..N (R42). -/
  fitted : ∀ e ∈ s.queue ++ s.waiting, 1 ≤ e.bell ∧ e.bell ≤ s.bellCount
  queue : InOrder Entry.firesBefore s.queue
  waiting : InOrder Entry.grantedBefore s.waiting
  budget : s.coils.length ≤ s.coilBudget
  /-- No entry waits for a coil while a place is free (R54). -/
  full : s.waiting ≠ [] → s.coilBudget ≤ s.coils.length

/-! ## While RESET is held low -/

/-- R195: while RESET is held low the coils are released, the windows closed, the queues empty and the lanes IDLE. -/
structure State.AtRest (s : State) : Prop where
  coils : s.coils = []
  queue : s.queue = []
  waiting : s.waiting = []
  playQueue : s.playQueue = []
  tune : s.tune = none
  toll : s.toll = none
  windows : AllSlots s.bells (fun r => r.window = none ∧ r.stuck = .idle)
  input : s.serial.input = []

/-- R195: a held RESET keeps the blocks at rest. -/
def State.RestsWhileHeld (s : State) : Prop := s.held = true → s.AtRest

/-! ## The play queue and the lanes -/

/-- R99, R101, R102: the play queue holds at most 16 requests, in order, no two with the same source and start, and the
ids of the queue and the lanes are distinct and within 1..255. -/
structure State.PlaysSound (s : State) : Prop where
  room : s.playQueue.length ≤ 16
  order : InOrder PlayRequest.queuedBefore s.playQueue
  unmerged : s.playQueue.Pairwise (fun a b => a.mergesWith b = false)
  distinct : s.idsInUse.Nodup
  ids : ∀ id ∈ s.idsInUse, 1 ≤ id ∧ id ≤ 255
  last : s.lastId ≤ 255

/-- R92, R107, R130: the TOLL lane holds an AFTER or CUT toll only while the TUNE lane is IDLE, and a melody is held
exactly when the TUNE lane plays it. -/
structure State.LanesSound (s : State) : Prop where
  apart : ∀ l, s.toll = some l → l.spec.mode ≠ .over → s.tune = none
  held : ∀ m, (s.melody m).held = true → ∃ l, s.tune = some l ∧ l.spec.melody = m
  holds : ∀ l, s.tune = some l → (s.melody l.spec.melody).held = true

/-- R111, R113: no lane lags beside a free slot, and none drains with nothing left at the dispatcher. -/
structure State.LanesSettled (s : State) : Prop where
  /-- A lane lags only while every slot is in use (R111). -/
  lag : s.tuneLags = true ∨ s.tollLags = true → s.slotFree = false
  /-- A DRAINING lane has an entry or a coil left (R113). -/
  tuneDrains : ∀ l, s.tune = some l → l.phase.runs = false → s.laneDrained .tune = false
  tollDrains : ∀ l, s.toll = some l → l.phase.runs = false → s.laneDrained .toll = false

/-! ## The timebase -/

/-- R161, R165, R166, R168: what holds of the timebase at all times. -/
structure Timebase.Sound (t : Timebase) : Prop where
  free : t.source = .free ↔ t.sync = .free
  pending : t.pendingTime.isSome = true → t.sync = .locked
  qualified : t.qualified ≤ 2
  locked : t.sync = .locked → t.qualified = 0 ∧ t.lastPulse.isSome = true
  holdover : t.sync = .holdover → t.lastPulse.isSome = true
  past : ∀ p, t.lastPulse = some p → p ≤ t.now
  unset : t.isSet = false → t.slew = 0

/-! ## The serial line -/

/-- R187: waiting lines stand in the order in which they were made. -/
def MadeInOrder (xs : List MadeLine) (made : Nat) : Prop :=
  xs.Pairwise (fun a b => a.order < b.order) ∧ ∀ x ∈ xs, x.order < made

/-- R184, R186, R187, R188: the bounds of the serial line's buffer, queues and counts, and the order of its lines. -/
structure Serial.Sound (l : Serial) : Prop where
  buffer : l.buffer.length ≤ 120
  input : l.input.length ≤ 4
  refusals : l.refusals.length ≤ 4
  reports : l.reports.length ≤ 32
  discards : l.discards ≤ 65535
  executedMade : ∀ x, l.executed = some x → x.order < l.made
  refusalsMade : MadeInOrder l.refusals l.made
  reportsMade : MadeInOrder l.reports l.made

/-! ## The melody store -/

/-- R80, R81: the block pool. -/
structure State.PoolSound (s : State) : Prop where
  /-- Owned blocks are blocks of the pool. -/
  numbers : ∀ k ∈ s.ownedBlocks, 1 ≤ k ∧ k ≤ 384
  /-- No block stands twice in the lists of the melodies. -/
  owners : s.ownedBlocks.Nodup
  /-- A free block holds nothing. -/
  free : ∀ k, k ∉ s.ownedBlocks → slot s.pool k [] = []

/-- R80, R81, R86: a melody owns as many blocks as its records need, at most 64, and its counts are those of its
score. -/
structure State.MelodySound (s : State) (m : Nat) : Prop where
  limit : (s.melody m).blocks.length ≤ 64
  blocks : (s.melody m).blocks.length = ((s.melody m).records + 31) / 32
  /-- Every block but the last is full. -/
  filled : ∀ i b, (s.melody m).blocks[i]? = some b →
    (slot s.pool b []).length = min 32 ((s.melody m).records - 32 * i)
  records : (s.melody m).records = (s.score m).length
  notes : (s.melody m).notes = (s.score m).countP ScoreRecord.isNote
  bars : (s.melody m).bars = (s.score m).countP ScoreRecord.isBar
  /-- An EMPTY melody has no block, and any other has a name and a beat. -/
  empty : (s.melody m).phase = .empty → s.melody m = { held := (s.melody m).held }
  named : (s.melody m).phase ≠ .empty → (s.melody m).name.isSome = true ∧ (s.melody m).beat.isSome = true

/-- The melody store is sound. -/
def State.StoreSound (s : State) : Prop := s.PoolSound ∧ ∀ m, 1 ≤ m → m ≤ 64 → s.MelodySound m

end Sys2Proof.Machine
end

