-- ==== Sys2Proof/WellFormed.lean ====
section
/-! DEFINITION. Which commands are well formed: the number an event falls on lies within its range, and a request is
a line the serial line can carry (R184, R185) that the request of this name, and no other, is spelled by. -/

namespace Sys2Proof

/-- A character that may stand in a field: "!" to "~". -/
def fieldChar (c : Char) : Bool := 33 ≤ c.toNat && c.toNat ≤ 126

/-- A field of a line: not empty, and no space in it. -/
def fieldOk (t : Text) : Bool := !t.isEmpty && t.all fieldChar

/-- A tag: 1 to 4 digits (R185). -/
def tagOk (t : Text) : Bool := 1 ≤ t.length && t.length ≤ 4 && t.all isDigit

/-- The second field, if there is one, is none of the words given: those words make another request. -/
def secondIsNot (ws : List Kw) : List Text → Bool
  | _ :: w :: _ => ws.all (fun k => readKw w != some k)
  | _ => true

/-- A line of the request: tag and fields as they must be, and at most 120 characters (R184). -/
def lineOk (i : Instr) : Bool :=
  match i.fields, encode i with
  | some (tag, fields), some line => tagOk tag && fields.all fieldOk && line.length ≤ 120
  | _, _ => false

/-- Well-formed commands. -/
def Instr.wellFormed (i : Instr) : Bool :=
  match i with
  | .coilRelease b => 1 ≤ b && b ≤ 64
  | .coilWaitDeadline p => p < 64
  | .senseActiveEdge b => 1 ≤ b && b ≤ 64
  | .senseReleaseEdge b => 1 ≤ b && b ≤ 64
  | .windowEnd b => 1 ≤ b && b ≤ 64
  | .stuckTimeout b => 1 ≤ b && b ≤ 64
  | .expired r => 1 ≤ r && r ≤ 255
  | .cutOrder r => 1 ≤ r && r ≤ 255
  | .cueLineChange c => 1 ≤ c && c ≤ 4
  | .cueDebounceExpire c => 1 ≤ c && c ≤ 4
  | .characterReceived c stopBit => c.toNat != 13 || !stopBit
  | .powerOnReset _ => true
  | .resetLineFall => true
  | .resetLineRise _ => true
  | .warmResetCommand _ => true
  | .lineReceived => true
  | .lineExecute => true
  | .transmitLine => true
  | .dispatch => true
  | .tuneTake => true
  | .expandRecord => true
  | .tollTake => true
  | .expandStroke => true
  | .secondBoundary => true
  | .slewTick => true
  | .wallClockRangeEnd => true
  | .secpulseEdge => true
  | .pulseLoss => true
  | .supgoodFall => true
  | .supgoodRise => true
  | .supplyLost => true
  | .supplyGood => true
  | .saveComplete _ => true
  | .saveTimeout => true
  | .bell _ fields => lineOk i && secondIsNot [.DISABLE, .ENABLE, .CLEAR] fields
  | .countRead _ fields => lineOk i && secondIsNot [.CLEAR] fields
  | .entry _ fields => lineOk i && secondIsNot [.CLEAR] fields
  | .quiet _ fields => lineOk i && secondIsNot [.CLEAR] fields
  | .cue _ fields => lineOk i && secondIsNot [.ENABLE, .DISABLE, .CLEAR] fields
  | .bellDisable _ _ _ => lineOk i
  | .bellEnable _ _ _ => lineOk i
  | .bellClear _ _ _ => lineOk i
  | .bellRead _ _ => lineOk i
  | .countClear _ _ _ => lineOk i
  | .strike _ _ => lineOk i
  | .test _ _ => lineOk i
  | .melOpen _ _ _ => lineOk i
  | .melAdd _ _ _ => lineOk i
  | .melClose _ _ _ => lineOk i
  | .melDelete _ _ _ => lineOk i
  | .melRead _ _ => lineOk i
  | .play _ _ => lineOk i
  | .cancel _ _ => lineOk i
  | .adjust _ _ => lineOk i
  | .stopNow _ _ _ => lineOk i
  | .stopBar _ _ _ => lineOk i
  | .toll _ _ => lineOk i
  | .entryClear _ _ _ => lineOk i
  | .entryRead _ _ => lineOk i
  | .holdOn _ _ => lineOk i
  | .holdOff _ _ => lineOk i
  | .quietClear _ _ _ => lineOk i
  | .quietRead _ _ => lineOk i
  | .time _ _ => lineOk i
  | .syncFree _ _ => lineOk i
  | .syncPulse _ _ => lineOk i
  | .cueEnable _ _ _ => lineOk i
  | .cueDisable _ _ _ => lineOk i
  | .cueClear _ _ _ => lineOk i
  | .cueRead _ _ => lineOk i
  | .report _ _ => lineOk i
  | .reportRead _ _ => lineOk i
  | .identity _ _ => lineOk i
  | .status _ _ => lineOk i
  | .queueSummary _ => lineOk i
  | .queuePlayItem _ _ => lineOk i
  | .queueStrikeItem _ _ => lineOk i
  | .queueWaitItem _ _ => lineOk i
  | .save _ _ => lineOk i
  | .reset _ _ => lineOk i

end Sys2Proof
end

