-- ==== Sys2Proof/Certificates/Slice0/Obligations.lean ====
section
/-! DEFINITION. The statements for the provers, in the order of OBLIGATIONS.json. -/

open Sys2Proof Sys2Proof.Machine

/-! ## The step -/

/-- The command at the front of the queue is run with the rest of the queue. -/
def Obligations.StepRunsFrontCommand : Prop :=
  ∀ (c : Instr) (rest : List Instr) (s : State),
    step { s with pending := c :: rest } = exec c { s with pending := rest }

/-- With no command waiting: the one step that is due, one of several that are due, or the passing of a grain; the clock's
exhaustion faults. The model's choice (assumptions 3, 5, 14). Due is a row that comes about by the clock or by the
state alone, exactly when its condition holds; and none while RESET is held low (assumption 12). -/
def Obligations.IdleStepGoesOn : Prop :=
  (∀ (s : State) (i : Instr), i ∈ s.due ↔ s.held = false ∧
    match i with
    | .dispatch => ∃ e ∈ s.queue.head?, e.fire ≤ s.now
    | .coilRelease b => ∃ c ∈ s.coils, c.bell = b ∧ c.release ≤ s.now
    | .coilWaitDeadline place => ∃ e ∈ s.waiting[place]?, e.orig + e.slip ≤ s.now
    | .windowEnd b => 1 ≤ b ∧ b ≤ 64 ∧ ∃ w ∈ (s.bell b).window, w.closes ≤ s.now
    | .stuckTimeout b => 1 ≤ b ∧ b ≤ 64 ∧ ∃ start, (s.bell b).stuck = .running start ∧ start + 2000 ≤ s.now
    | .expired id => ∃ r ∈ s.playQueue, r.id = id ∧ r.latest < (s.now : Int)
    | .cutOrder id => s.cutDue id = true
    | .tuneTake => s.tuneTakeDue = true
    | .expandRecord => ∃ l ∈ s.tune, ∃ rec ∈ s.record l.spec.melody l.cursor, l.phase.runs = true ∧ l.lag = false ∧
        l.timing.onset (l.timing.division + rec.delta) ≤ s.now + 5000
    | .tollTake => s.tollTakeDue = true
    | .expandStroke => ∃ l ∈ s.toll, l.phase.runs = true ∧ l.lag = false ∧
        l.origin + l.next * l.spec.interval ≤ s.now + 5000
    | .slewTick => s.tickDue = true
    | .secondBoundary => s.boundaryDue = true
    | .wallClockRangeEnd => s.rangeEndDue = true
    | .pulseLoss => s.pulseLossDue = true
    | .cueDebounceExpire c => 1 ≤ c ∧ c ≤ 4 ∧ s.debounceDue c = true
    | .supplyLost => ∃ start, s.supply = .dip start ∧ start + 20000 ≤ s.now
    | .supplyGood => ∃ start, s.supply = .recovering start ∧ start + 10000 ≤ s.now
    | .lineExecute => s.canExecute = true ∧ s.serial.input ≠ []
    | .transmitLine => s.transmitterIdle = true ∧ (∀ finish, s.serial.resetWait ≠ .replySending finish) ∧
        (s.serial.executed ≠ none ∨ s.serial.refusals ≠ [] ∨ s.serial.reports ≠ [])
    | .saveTimeout => ∃ since contents, s.store = .busy since contents ∧ since + 30000 ≤ s.now
    | .warmResetCommand pins => pins = s.pins ∧ ∃ finish, s.serial.resetWait = .replySending finish ∧ finish ≤ s.now
    | _ => False) ∧
  ∀ s : State, s.pending = [] →
    (s.due = [] → s.now + 1 < 2 ^ 48 → step s = .next { s with time := { s.time with now := s.time.now + 1 } }) ∧
    (s.due = [] → 2 ^ 48 ≤ s.now + 1 → step s = .fault .strikeClockExhausted) ∧
    (∀ i, s.due = [i] → step s = exec i s) ∧
    (2 ≤ s.due.length → ∃ i ∈ s.due, step s = exec i { s with choices := s.choices + 1 })

/-- No command stops the machine; a request that comes while the serial line cannot execute one changes nothing
(assumption 7); and no command but a power-on reset touches the strike clock, none the queue of commands. -/
def Obligations.CommandsAnswerKeepClock : Prop :=
  ((∀ (i : Instr) (s : State), ∃ t, exec i s = .next t) ∧
    ∀ (i : Instr) (s : State), i.fields.isSome = true → s.canExecute = false → exec i s = .next s) ∧
  (∀ (i : Instr) (s t : State), exec i s = .next t →
    t.pending = s.pending ∧ ((∀ pins, i ≠ .powerOnReset pins) → t.now = s.now) ∧
      ((∃ pins, i = .powerOnReset pins) → t.now = 0))

/-! ## Resets -/

/-- The straps are latched as each kind of reset ends, by the tables of R3 and R184, and hold in between. That a reset row
carries the levels of the straps and lines is the model's choice (assumption 13). -/
def Obligations.StrapsLatchedAtResets : Prop :=
  (∀ (i : Instr) (s t : State), exec i s = .next t →
      (t.bellCount = s.bellCount ∧ t.coilBudget = s.coilBudget ∧ t.lineRate = s.lineRate) ∨
        ∃ pins, i ∈ [.powerOnReset pins, .resetLineRise pins, .warmResetCommand pins]) ∧
    (∀ (i : Instr) (s t : State), s.bellCount ≤ 64 → exec i s = .next t → t.bellCount ≤ 64) ∧
    (∀ (pins : Pins) (s t : State), exec (.powerOnReset pins) s = .next t ∨
        (s.held = true ∧ exec (.resetLineRise pins) s = .next t) ∨
        (s.warmResetDue = true ∧ exec (.warmResetCommand pins) s = .next t) →
      t.pins = pins ∧ t.held = false ∧
        t.bellCount = [23, 27, 32, 37, 42, 47, 53, 64].getD pins.nsel.toNat 0 ∧
        t.coilBudget = [2, 3, 4, 6].getD pins.csel.toNat 0 ∧
        t.lineRate = [9600, 19200, 38400, 115200].getD pins.rate.toNat 0)

/-- The state right after reset is what a power-on reset leaves with no image, every input line at rest and the straps
low, and it meets what the manual says holds at all times. The levels are the model's choice (assumption 1). A
power-on reset that finds no image, or one with a wrong sum: every block at its power-on values and defaults, the
straps latched, the lines sampled, START posted. What the image holds before the first SAVE is the model's choice
(assumption 2). -/
def Obligations.PowerOnResetValues : Prop :=
  (exec (.powerOnReset Pins.resting) State.blank = .next State.reset ∧
    State.reset.BellsSound ∧ State.reset.DispatcherSound ∧ State.reset.RestsWhileHeld ∧ State.reset.PlaysSound ∧
      State.reset.LanesSound ∧ State.reset.LanesSettled ∧ State.reset.serial.Sound ∧ State.reset.StoreSound ∧
        State.reset.time.Sound) ∧
  (∀ (pins : Pins) (s : State), (∀ contents, s.image ≠ .written contents (imageSum contents)) →
    exec (.powerOnReset pins) s = .next
      { State.blank with
        pending := s.pending, choices := s.choices, image := s.image, pins := pins
        store := if s.image = .unwritten then .empty else .bad
        bellCount := bellCountOf pins.nsel, coilBudget := coilBudgetOf pins.csel, lineRate := lineRateOf pins.rate
        bells := Vector.ofFn fun i : Fin 64 =>
          { Bell.powerOn Calibration.default false with
            stuck := if i.val < bellCountOf pins.nsel ∧ pins.sense[i] = false then .running 0 else .idle }
        cues := Vector.ofFn fun i : Fin 4 => { settled := pins.cue[i] }
        supply := if pins.supgood then .recovering 0 else .dip 0
        serial :=
          { made := 1
            reports := [⟨0, .report .start
              [.word .POWER, .word (if s.image = .unwritten then .EMPTY else .BAD), .word .FREE, .word .N,
                .num (bellCountOf pins.nsel), .word .C, .num (coilBudgetOf pins.csel)]⟩] } })

/-- What a SAVE recorded comes back at a power-on reset that finds it with its sum: the calibrations, the disabled flags,
the READY melodies with their scores and every other melody EMPTY, the live schedule and the pending one equal to it,
the quiet rules, the cue configuration, the sync source and the report mask. Every other field is at its power-on
value: each bucket full, its stamp and the ready times 0, the counts and counters 0, the last drop reasons and the
stamps absent, the hold OFF, the wall clock UNSET, the queues and lanes empty; the straps are latched, the lines
sampled, START posted with GOOD. How the bytes of the image stand for its contents is left free (assumption 10). -/
def Obligations.LoadRestoresSnapshot : Prop :=
  ∀ (pins : Pins) (s u : State), s.BellsSound → s.StoreSound → u.image = .written s.snapshot (imageSum s.snapshot) →
    ∃ t, exec (.powerOnReset pins) u = .next t ∧
      t = { State.blank with
        pending := u.pending, choices := u.choices, image := u.image, pins := pins, store := .good
        bellCount := bellCountOf pins.nsel, coilBudget := coilBudgetOf pins.csel, lineRate := lineRateOf pins.rate
        bells := t.bells, melodies := t.melodies, pool := t.pool
        live := s.live, draft := s.live, quiet := s.quiet
        cues := Vector.ofFn fun i : Fin 4 => { config := s.cues[i].config, settled := pins.cue[i] }
        supply := if pins.supgood then .recovering 0 else .dip 0
        time :=
          { State.blank.time with
            source := s.time.source, sync := if s.time.source = .pulse then .acquire else .free }
        serial :=
          { mask := s.serial.mask, made := 1
            reports := [⟨0, .report .start
              [.word .POWER, .word .GOOD, .word (if s.time.source = .pulse then .ACQUIRE else .FREE), .word .N,
                .num (bellCountOf pins.nsel), .word .C, .num (coilBudgetOf pins.csel)]⟩] } } ∧
      (t.queue = [] ∧ t.waiting = [] ∧ t.coils = [] ∧ t.playQueue = [] ∧ t.tune = none ∧ t.toll = none ∧
        t.lastId = 0 ∧ t.hold = false ∧ (∀ k, slot t.stamps k none = none) ∧ t.time.isSet = false ∧ t.time.now = 0 ∧
        t.time.offset = 0 ∧ t.time.slew = 0 ∧ t.time.pendingTime = none ∧ t.cause = .power) ∧
      (∀ b, 1 ≤ b → b ≤ 64 →
        let r := s.bell b
        t.bell b =
          { cal := r.cal, disabledFlag := r.disabledFlag
            health := if r.disabledFlag then .disabled else .good
            bucket := r.cal.heat * 100, stamp := 0, ready := 0, misses := 0, hits := 0, lastDrop := none
            counters := { fired := 0, hit := 0, miss := 0, stray := 0, slip := 0, throttle := 0, drop := 0 }
            window := none
            stuck :=
              if b ≤ bellCountOf pins.nsel ∧ r.cal.fitted = true ∧ r.disabledFlag = false ∧
                  t.senseLevel b = (r.cal.polarity == .rise) then .running 0
              else .idle }) ∧
      (∀ m, 1 ≤ m → m ≤ 64 → (s.melody m).phase = .ready →
        t.score m = s.score m ∧ (t.melody m).blocks.length = (s.melody m).blocks.length ∧
          t.melody m = { s.melody m with held := false, blocks := (t.melody m).blocks }) ∧
      (∀ m, 1 ≤ m → m ≤ 64 → (s.melody m).phase ≠ .ready → t.melody m = {}) ∧ t.StoreSound

/-- The RESET line: its fall takes the warm reset of every block and holds them there; its rise latches the straps,
samples the lines, starts the supply monitor and posts START. The level it already has is no event (assumption 7).
RESET: its reply, after which no line is executed; once the reply has been sent, the warm reset of every block with
cause COMMAND, which is that of the RESET line taken whole. The levels a rise carries are the model's choice
(assumption 13), and that nothing but the clock runs while RESET is low is its reading (assumption 12). -/
def Obligations.WarmResetsKeepAndClear : Prop :=
  ((∀ s : State, s.held = false →
    exec .resetLineFall s = .next
      { s with
        held := true, cause := .line
        time :=
          { s.time with
            slew := 0, pendingTime := none, qualified := 0, lastPulse := none
            sync := if s.time.source = .pulse then .acquire else .free }
        bells := s.bells.map (fun r => { r with window := none, stuck := .idle })
        queue := [], waiting := [], coils := [], playQueue := [], tune := none, toll := none
        melodies := s.melodies.map (fun h => { h with held := false })
        cues := s.cues.map (fun c => { c with timer := none, latch := false })
        supply := .recovering s.now
        serial := { mask := s.serial.mask }
        store := if s.store.writing.isSome then .bad else s.store }) ∧
  (∀ (pins : Pins) (s : State), s.held = true →
    exec (.resetLineRise pins) s = .next
      { s with
        held := false, pins := pins
        bellCount := bellCountOf pins.nsel, coilBudget := coilBudgetOf pins.csel, lineRate := lineRateOf pins.rate
        bells := Vector.ofFn fun i : Fin 64 =>
          { s.bells[i] with
            stuck :=
              if i.val < bellCountOf pins.nsel ∧ s.bells[i].cal.fitted = true ∧ s.bells[i].health ≠ .disabled ∧
                  pins.sense[i] = (s.bells[i].cal.polarity == .rise) then .running s.now
              else .idle }
        cues := Vector.ofFn fun i : Fin 4 => { s.cues[i] with settled := pins.cue[i], timer := none }
        supply := if pins.supgood then .recovering s.now else .dip s.now
        time := { s.time with crossed := s.wallSecond }
        serial := s.serial.post .start
          [causeWord s.cause, storeWord s.store, syncWord s.time.sync, .word .N, .num (bellCountOf pins.nsel),
            .word .C, .num (coilBudgetOf pins.csel)] }) ∧
  (∀ s : State, s.held = true → exec .resetLineFall s = .next s) ∧
  ∀ (pins : Pins) (s : State), s.held = false → exec (.resetLineRise pins) s = .next s) ∧
  ((∀ (s : State) (tag : Text), s.canExecute = true →
    exec (.reset tag []) s = .next
      { s with
        serial :=
          { s.serial with
            executed := some ⟨s.serial.made, .ok tag [.word .RESET]⟩, made := s.serial.made + 1
            resetWait := .replyMade } }) ∧
  (∀ (s : State) (tag f : Text) (more : List Text), s.canExecute = true →
    exec (.reset tag (f :: more)) s = .next (s.err tag .arg)) ∧
  (∀ s : State, s.serial.resetWait ≠ .none → s.canExecute = false) ∧
  (∀ (pins : Pins) (s : State) (finish : Nat), s.held = false → s.serial.resetWait = .replySending finish →
    finish ≤ s.now →
    let sync : SyncState := if s.time.source = .pulse then .acquire else .free
    let store : StoreState := if s.store.writing.isSome then .bad else s.store
    exec (.warmResetCommand pins) s = .next
      { s with
        cause := .command, pins := pins, store := store
        bellCount := bellCountOf pins.nsel, coilBudget := coilBudgetOf pins.csel, lineRate := lineRateOf pins.rate
        time :=
          { s.time with
            slew := 0, pendingTime := none, qualified := 0, lastPulse := none, sync := sync
            crossed := s.wallSecond }
        bells := Vector.ofFn fun i : Fin 64 =>
          { s.bells[i] with
            window := none
            stuck :=
              if i.val < bellCountOf pins.nsel ∧ s.bells[i].cal.fitted = true ∧ s.bells[i].health ≠ .disabled ∧
                  pins.sense[i] = (s.bells[i].cal.polarity == .rise) then .running s.now
              else .idle }
        queue := [], waiting := [], coils := [], playQueue := [], tune := none, toll := none
        melodies := s.melodies.map (fun h => { h with held := false })
        cues := Vector.ofFn fun i : Fin 4 =>
          { s.cues[i] with settled := pins.cue[i], timer := none, latch := false }
        supply := if pins.supgood then .recovering s.now else .dip s.now
        serial :=
          { mask := s.serial.mask, made := 1
            reports := [⟨0, .report .start
              [.word .COMMAND, storeWord store, syncWord sync, .word .N, .num (bellCountOf pins.nsel), .word .C,
                .num (coilBudgetOf pins.csel)]⟩] } }) ∧
  ∀ (pins : Pins) (s m : State) (finish : Nat), s.held = false → s.serial.resetWait = .replySending finish →
    (finish ≤ s.now → exec .resetLineFall s = .next m →
      ∃ t, exec (.warmResetCommand pins) s = .next t ∧ exec (.resetLineRise pins) { m with cause := .command } = .next t) ∧
    (s.now < finish → exec (.warmResetCommand pins) s = .next s))

/-! ## What holds at all times -/

/-- R5, R13, R14, R15, R17: every bell record stays sound. -/
def Obligations.BellsStaySound : Prop :=
  ∀ s t : State, s.BellsSound → step s = .next t → t.BellsSound

/-- R195: while RESET is held low, the blocks stay at rest. R42, R43, R49, R53, R54: the slots, the two orders and the
coil budget hold, and no entry waits beside a free place. -/
def Obligations.DispatcherStaysSound : Prop :=
  (∀ s t : State, s.RestsWhileHeld → step s = .next t → t.RestsWhileHeld) ∧
  (∀ s t : State, s.RestsWhileHeld → s.DispatcherSound → step s = .next t → t.DispatcherSound)

/-- R99, R101, R102: the play queue stays in order, within 16, with no two requests that merge and no id twice. -/
def Obligations.PlaysStaySound : Prop :=
  ∀ s t : State, s.PlaysSound → step s = .next t → t.PlaysSound

/-- R92, R107, R130: no AFTER or CUT toll beside a tune, and the held melody is the one the TUNE lane plays. R111, R113:
no lane lags beside a free slot, and none drains with nothing left. The order in which a freed slot and a drained lane
are taken is the model's reading (assumption 23). -/
def Obligations.LanesStaySound : Prop :=
  (∀ s t : State, s.LanesSound → step s = .next t → t.LanesSound) ∧
  (∀ s t : State, s.LanesSettled → step s = .next t → t.LanesSettled)

/-- R184, R186 to R188: the bounds of the serial line and the order of its lines hold. -/
def Obligations.SerialStaysSound : Prop :=
  ∀ s t : State, s.serial.Sound → step s = .next t → t.serial.Sound

/-- R80, R81, R86: the block pool and the headers stay as the scores need them. -/
def Obligations.StoreStaysSound : Prop :=
  ∀ s t : State, s.StoreSound → step s = .next t → t.StoreSound

/-- R161, R165, R166, R168: the timebase stays sound. -/
def Obligations.TimebaseStaysSound : Prop :=
  ∀ s t : State, s.time.Sound → step s = .next t → t.time.Sound

/-! ## The serial line -/

/-- What a character other than CR does as it arrives; while RESET is held low it does nothing (R195). What a CR does with
the line in the buffer: a bad line and a line with no valid tag are answered BADLINE, an empty one is ignored, a
complete one joins the input queue or, with 4 lines waiting, is answered BUSY. A refusal that finds 4 refusals waiting
is not queued. That a line of bad characters only is bad, and that a CR or LF whose stop bit is missing marks the
line, is the model's reading (assumption 8), and that characters are lost while RESET is low too (assumption 12). -/
def Obligations.LinesArrive : Prop :=
  (∀ (s : State) (c : BitVec 8),
    (s.held = true → ∀ stopBit, exec (.characterReceived c stopBit) s = .next s) ∧
    (s.held = false →
      (exec (.characterReceived c false) s = .next { s with serial := { s.serial with badLine := true } }) ∧
      (c = 10 → exec (.characterReceived c true) s = .next s) ∧
      (32 ≤ c.toNat → c.toNat ≤ 126 → s.serial.buffer.length < 120 →
        exec (.characterReceived c true) s =
          .next { s with serial := { s.serial with buffer := s.serial.buffer ++ [Char.ofNat c.toNat] } }) ∧
      (32 ≤ c.toNat → c.toNat ≤ 126 → 120 ≤ s.serial.buffer.length →
        exec (.characterReceived c true) s = .next { s with serial := { s.serial with badLine := true } }) ∧
      (c ≠ 10 → c ≠ 13 → (c.toNat < 32 ∨ 126 < c.toNat) →
        exec (.characterReceived c true) s = .next { s with serial := { s.serial with badLine := true } }))) ∧
  (∀ s : State,
    let fresh : Serial := { s.serial with buffer := [], badLine := false }
    let refused (line : Line) : Serial :=
      if fresh.refusals.length < 4 then
        { fresh with refusals := fresh.refusals ++ [⟨fresh.made, line⟩], made := fresh.made + 1 }
      else fresh
    (s.held = true → exec .lineReceived s = .next s) ∧
    (s.held = false →
      (s.serial.badLine = true →
        exec .lineReceived s = .next { s with serial := refused (.error ['?', '?'] .badline) }) ∧
      (s.serial.badLine = false → s.serial.buffer = [] → exec .lineReceived s = .next { s with serial := fresh }) ∧
      (s.serial.badLine = false → s.serial.buffer ≠ [] → readTag s.serial.buffer = none →
        exec .lineReceived s = .next { s with serial := refused (.error ['?', '?'] .badline) }) ∧
      ∀ tag rest, s.serial.badLine = false → readTag s.serial.buffer = some (tag, rest) →
        (s.serial.input.length < 4 →
          exec .lineReceived s =
            .next { s with serial := { fresh with input := s.serial.input ++ [s.serial.buffer] } }) ∧
        (4 ≤ s.serial.input.length → exec .lineReceived s = .next { s with serial := refused (.error tag .busy) })))

/-- A line is executed when the serial line is free to: the first of the input queue, which then does exactly what the
request it spells does; a line that spells none is answered UNKNOWN or ARG. Which lines that spell no request are
UNKNOWN and which ARG is the model's reading at the edge of the grammar (assumption 8). That a row whose condition
does not hold changes nothing is the model's choice (assumption 7). -/
def Obligations.LineExecutesItsRequest : Prop :=
  (∀ s : State, s.canExecute = true ↔ s.held = false ∧ s.serial.executed = none ∧ s.serial.resetWait = .none) ∧
  (∀ s : State, s.canExecute = false ∨ s.serial.input = [] → exec .lineExecute s = .next s) ∧
  ∀ (s : State) (line : Text) (rest : List Text), s.canExecute = true → s.serial.input = line :: rest →
    let u : State := { s with serial := { s.serial with input := rest } }
    (∀ i, readRequest line = .request i → ∃ t, exec i u = .next t ∧ exec .lineExecute s = .next t) ∧
    (∀ tag, readRequest line = .unknown tag → exec .lineExecute s = .next (u.err tag .unknown)) ∧
    (∀ tag, readRequest line = .badArg tag → exec .lineExecute s = .next (u.err tag .arg))

/-- An executed request makes exactly one reply, with its tag, before every report it posts; it takes nothing else out of
the queues of lines. A request answered with an error code changes nothing but its reply. -/
def Obligations.RequestsReplyOnce : Prop :=
  (∀ (i : Instr) (tag : Text) (fields : List Text) (s t : State), i.fields = some (tag, fields) →
    s.canExecute = true → exec i s = .next t →
      (∃ line, t.serial.executed = some ⟨s.serial.made, line⟩ ∧
        ((∃ shown, line = .ok tag shown) ∨ ∃ code, line = .error tag code)) ∧
      t.serial.input = s.serial.input ∧ t.serial.refusals = s.serial.refusals ∧ t.serial.buffer = s.serial.buffer ∧
      t.serial.sending = s.serial.sending ∧
      ∃ posted, t.serial.reports = s.serial.reports ++ posted ∧ ∀ x ∈ posted, s.serial.made < x.order) ∧
  (∀ (i : Instr) (tag : Text) (fields : List Text) (code : ErrCode) (s t : State), i.fields = some (tag, fields) →
    s.canExecute = true → exec i s = .next t → t.serial.executed = some ⟨s.serial.made, .error tag code⟩ →
      t = { s with
        serial :=
          { s.serial with executed := some ⟨s.serial.made, .error tag code⟩, made := s.serial.made + 1 } })

/-- The transmitter: not while RESET is held, while it is sending, or after the reply to RESET; the line made first is
sent, for 10 bits a character (assumption 9), and leaves its queue. That a row whose condition does not hold changes
nothing is the model's choice (assumption 7). -/
def Obligations.TransmitterSendsEarliest : Prop :=
  (∀ s : State, (s.held = true ∨ s.transmitterIdle = false ∨ (∃ f, s.serial.resetWait = .replySending f) ∨
      (s.serial.executed = none ∧ s.serial.refusals = [] ∧ s.serial.reports = [])) →
    exec .transmitLine s = .next s) ∧
  ∀ s : State, s.held = false → s.transmitterIdle = true → (∀ f, s.serial.resetWait ≠ .replySending f) →
    let l := s.serial
    let finish (x : MadeLine) : Nat := s.now + sendGrains s.lineRate x.line
    let sent (x : MadeLine) : Option Sending := some ⟨x.line, finish x⟩
    (∀ x, l.executed = some x → (∀ y ∈ l.refusals.head?, x.order ≤ y.order) →
        (∀ y ∈ l.reports.head?, x.order ≤ y.order) →
      exec .transmitLine s = .next
        { s with
          serial :=
            { l with
              executed := none, sending := sent x
              resetWait := if l.resetWait = .replyMade then .replySending (finish x) else l.resetWait } }) ∧
    (∀ x rest, l.refusals = x :: rest → (∀ y ∈ l.executed, x.order < y.order) →
        (∀ y ∈ l.reports.head?, x.order ≤ y.order) →
      exec .transmitLine s = .next { s with serial := { l with refusals := rest, sending := sent x } }) ∧
    (∀ x rest, l.reports = x :: rest → (∀ y ∈ l.executed, x.order < y.order) →
        (∀ y ∈ l.refusals.head?, x.order < y.order) →
      (l.discards = 0 →
        exec .transmitLine s = .next { s with serial := { l with reports := rest, sending := sent x } }) ∧
      (0 < l.discards →
        exec .transmitLine s = .next
          { s with
            serial :=
              { l with
                reports := rest ++ [⟨l.made, .report .overrun [.num l.discards]⟩], made := l.made + 1, discards := 0
                sending := sent x } }))

/-- A posted report: latched if its kind is masked, queued if fewer than 32 wait, and otherwise discarded and counted up
to 65535. REPORT applies its pairs, each a kind or ALL with ON or OFF, to the mask from left to right; REPORT? changes
nothing; both reply with the masked kinds. That REPORT? refuses a further field is the model's reading (assumption 8). -/
def Obligations.ReportsPostedAndMasked : Prop :=
  (∀ (s : State) (kind : Kind) (fields : List Fld),
    let l := s.serial
    (slot l.mask (kindNumber kind) true = false →
      s.post kind fields = { s with serial := { l with latched := setSlot l.latched (kindNumber kind) true } }) ∧
    (slot l.mask (kindNumber kind) true = true →
      (l.reports.length < 32 →
        s.post kind fields =
          { s with
            serial :=
              { l with
                reports := l.reports ++ [⟨l.made, .report (.maskable kind) fields⟩], made := l.made + 1 } }) ∧
      (32 ≤ l.reports.length →
        s.post kind fields = { s with serial := { l with discards := min (l.discards + 1) 65535 } }))) ∧
  ((∀ (fields : List Text) (pairs : List (MaskTarget × Bool)),
    readPairs fields = some pairs ↔ Spells PairForm fields pairs) ∧
  (∀ (s : State) (tag : Text) (fields : List Text) (pair : MaskTarget × Bool) (pairs : List (MaskTarget × Bool)),
    s.canExecute = true → readPairs fields = some (pair :: pairs) →
      let masked : Serial := { s.serial with mask := (pair :: pairs).foldl applyPair s.serial.mask }
      exec (.report tag fields) s =
        .next (State.ok { s with serial := masked } tag (.word .REPORT :: .word .OFF :: kindList masked.masked))) ∧
  (∀ (mask : Table Bool 12) (kind : Kind) (on : Bool) (other : Kind),
    slot (applyPair mask (.one kind, on)) (kindNumber other) true =
        (if other = kind then on else slot mask (kindNumber other) true) ∧
      slot (applyPair mask (.all, on)) (kindNumber other) true = on) ∧
  (∀ (s : State) (tag : Text) (fields : List Text), s.canExecute = true →
    (readPairs fields = none ∨ fields = []) → exec (.report tag fields) s = .next (s.err tag .arg)) ∧
  ∀ (s : State) (tag : Text), s.canExecute = true →
    exec (.reportRead tag []) s =
        .next (s.ok tag (.word .REPORT :: .word .OFF :: kindList s.serial.masked)) ∧
      ∀ f more, exec (.reportRead tag (f :: more)) s = .next (s.err tag .arg))

/-! ## The text of the line -/

/-- Every well-formed request is spelled by a line, and that line is read as that request. A line that is read as a
request begins with its tag, 1 to 4 digits followed by a space or by nothing, and has the fields of that request, its
verb first, and no other. Details of the grammar that rest on the model's reading: assumptions 8 and 19. -/
def Obligations.RequestLinesReadBack : Prop :=
  (∀ i : Instr, i.wellFormed = true → i.fields.isSome = true →
    ∃ line, encode i = some line ∧ line.length ≤ 120 ∧ readRequest line = .request i) ∧
  (∀ line tag rest : Text, readTag line = some (tag, rest) ↔
    1 ≤ tag.length ∧ tag.length ≤ 4 ∧ (∀ c ∈ tag, 48 ≤ c.toNat ∧ c.toNat ≤ 57) ∧
      (line = tag ++ ' ' :: rest ∨ (line = tag ∧ rest = []))) ∧
  (∀ line : Text, readRequest line = .noTag ↔ readTag line = none) ∧
  ∀ (line : Text) (i : Instr), readRequest line = .request i →
    ∃ tag rest, readTag line = some (tag, rest) ∧ i.fields = some (tag, words rest)

/-- A word is read from its own text and no other; a number from a run of digits, of at most so many where a rule limits
them, with one sign where a sign may stand; and numbers read back from the text the part writes for them. Every wall
instant of the range reads back from the date and time the part writes for it, and from no other text; the digits of a
year, and of each of the other fields, are as many as it writes (assumption 19). -/
def Obligations.TextReadsBack : Prop :=
  ((∀ (t : Text) (k : Kw), readKw t = some k ↔ t = k.text) ∧
  (∀ (t : Text) (k : Kind), readKind t = some k ↔ t = kindText k) ∧
  (∀ n : Nat, readNat (decimal n) = some n) ∧
  (∀ (t : Text) (n : Nat), readNat t = some n ↔ DecimalForm t n) ∧
  (∀ (most : Nat) (t : Text) (n : Nat), readNum most t = some n ↔ NumberForm most t n) ∧
  ∀ (most : Nat) (t : Text) (x : Int), readInt most t = some x ↔ SignedForm most t x) ∧
  (∀ (date time : Text) (instant : Nat), readWall date time = some instant ↔ WallForm date time instant)

/-! ## Readings and the store -/

/-- ID shows the bell count, the coil budget, the line rate, the store state and the cause of the last reset. -/
def Obligations.IdShowsPart : Prop :=
  ∀ (s : State) (tag : Text), s.canExecute = true →
    let store : Kw := match s.store with
      | .good => .GOOD
      | .bad => .BAD
      | .empty => .EMPTY
      | .busy _ _ => .BUSY
    let cause : Kw := match s.cause with
      | .power => .POWER
      | .line => .LINE
      | .command => .COMMAND
    exec (.identity tag []) s = .next (s.ok tag
      [.word .VELISCA, .word .TC56, .word .REV, .word .A, .word .N, .num s.bellCount, .word .C, .num s.coilBudget,
        .word .RATE, .num s.lineRate, .word .STORE, .word store, .word .RESET, .word cause]) ∧
    ∀ f more, exec (.identity tag (f :: more)) s = .next (s.err tag .arg)

/-- STATUS shows the state of the part in one line and empties the latched-kinds set; with a further field it clears
nothing. QUEUE? and its three item forms: the counts, the item at an index, NONE beyond the items held, and ARG for an
index outside its range or a further field. The fields of a play request and of a strike entry in the replies of
QUEUE?; the words for the store state, the lanes, the supply state, the sync state and source, a health and a reset
cause. BELL?, MEL?, ENTRY?, QUIET? and CUE? reply with the record they name, its fields in the order of their rule,
and change nothing else. Field orders that the manual shows by example only are the model's reading (assumption 11),
and so is that BELL?, QUIET? and CUE? refuse a further field (assumption 8). -/
def Obligations.ReadingsShowState : Prop :=
  (∀ (s : State) (tag : Text), s.canExecute = true →
    (∀ f more, exec (.status tag (f :: more)) s = .next (s.err tag .arg)) ∧
    exec (.status tag []) s = .next
      { s with
        serial :=
          { s.serial with
            made := s.serial.made + 1, latched := Vector.replicate 12 false
            executed := some ⟨s.serial.made, .ok tag
              ([.word .SYNC, syncWord s.time.sync, .word .WALL,
                  if s.time.isSet then .wall s.wallSecond else .word .UNSET]
                ++ .word .TUNE :: laneFields (s.tune.map (fun l => (l.request.id, l.phase)))
                ++ .word .TOLL :: laneFields (s.toll.map (fun l => (l.request.id, l.phase)))
                ++ [.word .PLAYQ, .num s.playQueue.length, .word .STRIKEQ, .num s.queue.length, .word .WAIT,
                  .num s.waiting.length, .word .COILS, .num s.coils.length, .word .REPORTQ,
                  .num s.serial.reports.length, .word .SUPPLY, supplyWord s.supply, .word .HOLD,
                  .word (if s.hold then .ON else .OFF), .word .STORE, storeWord s.store, .word .LATCHED]
                ++ kindList s.serial.latchedKinds)⟩ } }) ∧
  (∀ (s : State) (tag : Text), s.canExecute = true →
    exec (.queueSummary tag) s = .next (s.ok tag
      [.word .NOW, .num s.now, .word .PLAYQ, .num s.playQueue.length, .word .STRIKEQ, .num s.queue.length, .word .WAIT,
        .num s.waiting.length, .word .COILS, .num s.coils.length]) ∧
    (∀ f n, readNat f = some n →
      let none := [Fld.word .NONE]
      (1 ≤ n ∧ n ≤ 16 → exec (.queuePlayItem tag [f]) s =
        .next (s.ok tag (.word .PLAY :: .num n :: (s.playQueue[n - 1]?.map playItemFields).getD none))) ∧
      (1 ≤ n ∧ n ≤ 64 → exec (.queueStrikeItem tag [f]) s =
        .next (s.ok tag (.word .STRIKE :: .num n :: (s.queue[n - 1]?.map strikeItemFields).getD none))) ∧
      (1 ≤ n ∧ n ≤ 64 → exec (.queueWaitItem tag [f]) s =
        .next (s.ok tag (.word .WAIT :: .num n ::
          (s.waiting[n - 1]?.map (fun e => strikeItemFields e ++ [.word .DEADLINE, .num (e.orig + e.slip)])).getD
            none))) ∧
      (n = 0 ∨ 16 < n → exec (.queuePlayItem tag [f]) s = .next (s.err tag .arg)) ∧
      (n = 0 ∨ 64 < n →
        exec (.queueStrikeItem tag [f]) s = .next (s.err tag .arg) ∧
        exec (.queueWaitItem tag [f]) s = .next (s.err tag .arg))) ∧
    ∀ fields, (∀ f n, fields = [f] → readNat f ≠ some n) →
      exec (.queuePlayItem tag fields) s = .next (s.err tag .arg) ∧
      exec (.queueStrikeItem tag fields) s = .next (s.err tag .arg) ∧
      exec (.queueWaitItem tag fields) s = .next (s.err tag .arg)) ∧
  ((∀ r : PlayRequest,
    let source : List Fld := match r.source with
      | .schedule k => [.word .SCHEDULE, .num k]
      | .cue c => [.word .CUE, .num c]
      | .line => [.word .LINE]
    let rule (spec : TollSpec) : List Fld := match spec.rule with
      | .hour12 => [.word .HOUR12]
      | .hour24 => [.word .HOUR24]
      | .fixed n => [.word .FIXED, .num n]
    let play : List Fld := match r.play with
      | .tune spec => [.word .CLASS, .word .TUNE, .word .MELODY, .num spec.melody]
      | .toll spec => [.word .CLASS, .word .TOLL, .word .TOLL] ++ rule spec ++
        [.word .BELL, .num spec.bell, .word .INTERVAL, .num spec.interval, .word .LEVEL, .num spec.level,
          .word .MODE, .word spec.mode.word]
    let start : Fld := match r.start with
      | none => .word .ASAP
      | some t => .int t
    let effective : Int := match r.start with
      | none => (r.arrival : Int) + 2500
      | some t => t
    playItemFields r = [.num r.id, .word .SOURCE] ++ source ++ play ++
      [.word .START, start, .word .EFFECTIVE, .int effective, .word .LATEST, .int r.latest, .word .CAP, .num r.cap,
        .word .SLIP, .num r.slip, .word .FORCE, .word (if r.force = true then .YES else .NO)]) ∧
  (∀ e : Entry,
    let origin : Kw := match e.origin with
      | .tune => .TUNE
      | .toll => .TOLL
      | .strike => .STRIKE
      | .test => .TEST
    let serial : Fld := match e.serial with
      | none => .word .NONE
      | some n => .num n
    strikeItemFields e =
      [.word .FIRE, .num e.fire, .word .ORIG, .num e.orig, .word .ONSET, .num e.onset, .word .BELL, .num e.bell,
        .word .LEVEL, .num e.level, .word .ORIGIN, .word origin, .word .SLIP, .num e.slip, .word .SERIAL, serial,
        .word .SLIPPED, .word (if e.slipped = true then .YES else .NO)]) ∧
  (∀ (id : Nat) (reason : EndReason),
    laneFields none = [.word .IDLE] ∧ laneFields (some (id, .armed)) = [.word .ARMED, .num id] ∧
    laneFields (some (id, .playing)) = [.word .PLAYING, .num id] ∧
    laneFields (some (id, .draining reason)) = [.word .DRAINING, .num id]) ∧
  (∀ (since : Nat) (image : StoreContents),
    storeWord .good = .word .GOOD ∧ storeWord .bad = .word .BAD ∧ storeWord .empty = .word .EMPTY ∧
    storeWord (.busy since image) = .word .BUSY) ∧
  (∀ start : Nat,
    supplyWord .good = .word .GOOD ∧ supplyWord (.dip start) = .word .DIP ∧ supplyWord .lost = .word .LOST ∧
    supplyWord (.recovering start) = .word .RECOVERING) ∧
  (syncWord .free = .word .FREE ∧ syncWord .acquire = .word .ACQUIRE ∧ syncWord .locked = .word .LOCKED ∧
    syncWord .holdover = .word .HOLDOVER ∧ sourceWord .free = .word .FREE ∧ sourceWord .pulse = .word .PULSE) ∧
  (causeWord .power = .word .POWER ∧ causeWord .line = .word .LINE ∧ causeWord .command = .word .COMMAND) ∧
  healthFields .good = [.word .GOOD] ∧ healthFields .suspect = [.word .SUSPECT] ∧
  healthFields (.faulted .misses) = [.word .FAULTED, .word .MISSES] ∧
  healthFields (.faulted .stuck) = [.word .FAULTED, .word .STUCK] ∧ healthFields .disabled = [.word .DISABLED]) ∧
  ((∀ (s : State) (n : Nat),
    let r := s.bell n
    let h := s.melody n
    let q := s.cue n
    let melody (state : Kw) : List Fld :=
      [.num n, .word state, .text (h.name.getD []), .num (h.beat.getD 0), .word .RECORDS, .num h.records,
        .word .NOTES, .num h.notes, .word .BARS, .num h.bars, .word .BLOCKS, .num h.blocks.length,
        .word .HOLD, .word (if h.held then .TUNE else .NONE), .word .FREE, .num s.freeBlocks]
    let onOff (on : Bool) : Fld := .word (if on then .ON else .OFF)
    let health : List Fld := match r.health with
      | .good => [.word .GOOD]
      | .suspect => [.word .SUSPECT]
      | .faulted .misses => [.word .FAULTED, .word .MISSES]
      | .faulted .stuck => [.word .FAULTED, .word .STUCK]
      | .disabled => [.word .DISABLED]
    let last : Kw := match r.lastDrop with
      | none => .NONE
      | some .fault => .FAULT
      | some .supply => .SUPPLY
      | some .repeated => .REPEAT
      | some .power => .POWER
      | some .heat => .HEAT
      | some .stop => .STOP
    let pulses : List Fld := .word .PULSE :: r.cal.pulse.toList.map Fld.num
    let flights : List Fld := .word .FLIGHT :: r.cal.flight.toList.map Fld.num
    let calibration : List Fld :=
      [.word .REARM, .num r.cal.rearm, .word .HEAT, .num r.cal.heat, .word .DUTY, .num r.cal.duty,
        .word .SENSE, .word (if r.cal.fitted then .FITTED else .ABSENT),
        .word .POL, .word (if r.cal.polarity = .rise then .RISE else .FALL), .word .LEARN, onOff r.cal.learn]
    let runtime : List Fld :=
      [.word .READY, .num r.ready, .word .BUCKET, .num r.bucket, .word .STAMP, .num r.stamp,
        .word .MISSES, .num r.misses, .word .HITS, .num r.hits, .word .LAST, .word last]
    let edge : Kw := match q.config.edge with
      | .rise => .RISE
      | .fall => .FALL
      | .both => .BOTH
    let active : Fld := match s.activeOf n with
      | none => .word .NONE
      | some id => .num id
    let action : List Fld := match q.config.action with
      | .none => [.word .NONE]
      | .tune spec cap slip wait => tuneActionFields spec cap ++ [.word .SLIP, .num slip, .word .WAIT, .num wait]
      | .toll spec cap slip wait =>
        tollActionFields spec ++ [.word .CAP, .num cap, .word .SLIP, .num slip, .word .WAIT, .num wait]
      | .stop => [.word .STOP]
    let cue : List Fld :=
      [.num n, .word .EDGE, .word edge, .word .DEBOUNCE, .num q.config.debounce, .word .FORCE, onOff q.config.force,
        .word .ENABLE, onOff q.config.enable, .word .LATCH, .word (if q.latch then .SET else .CLEAR), .word .LEVEL,
        .word (if q.settled then .HIGH else .LOW), .word .ACTIVE, active, .word .ACTION]
    s.bellFields n = .num n :: (health ++ pulses ++ flights ++ calibration ++ runtime) ∧
    (h.phase = .empty → s.melodyFields n = [.num n, .word .EMPTY, .word .FREE, .num s.freeBlocks]) ∧
    (h.phase = .opened → s.melodyFields n = melody .OPEN) ∧ (h.phase = .ready → s.melodyFields n = melody .READY) ∧
    s.freeBlocks = 384 - (s.melodies.toList.flatMap (·.blocks)).length ∧ s.cueFields n = cue ++ action) ∧
  (∀ (spec : TuneSpec) (cap : Nat), tuneActionFields spec cap =
    [.word .TUNE, .num spec.melody, .word .TEMPO, .num spec.tempo, .word .TRANSPOSE, .int spec.transpose,
      .word .CAP, .num cap, .word .REPEAT, .num spec.repeats]) ∧
  (∀ spec : TollSpec,
    let rule : List Fld := match spec.rule with
      | .hour12 => [.word .HOUR12]
      | .hour24 => [.word .HOUR24]
      | .fixed n => [.word .FIXED, .num n]
    let rest : List Fld :=
      [.num spec.bell, .word .INTERVAL, .num spec.interval, .word .LEVEL, .num spec.level, .word .MODE,
        .word spec.mode.word]
    tollActionFields spec = .word .TOLL :: (rule ++ rest)) ∧
  (∀ e : ScheduleEntry,
    let times : List Fld :=
      [.word .HOURS, .text (setText 24 e.hours), .word .MINUTES, .text (joinCommas (e.minutes.map decimal)),
        .word .SECOND, .num e.second, .word .DAYS, .text (daysText e.days), .word .MONTHS, .text (setText 12 e.months)]
    let dates : List Fld := match e.dates with
      | none => []
      | some (a, b) => [.word .DATES, .text (dayMonthText a), .text (dayMonthText b)]
    let expiry : List Fld := [.word .EXPIRY, .num e.expiry]
    let force : List Fld := if e.force then [.word .FORCE] else []
    let action : List Fld := match e.action with
      | .tune spec cap => tuneActionFields spec cap
      | .toll spec => tollActionFields spec
    entryFields e = times ++ dates ++ expiry ++ force ++ action) ∧
  (∀ q : QuietRule,
    let times : List Fld :=
      [.word .DAYS, .text (daysText q.days), .word .FROM, .text (clockText q.fromMin), .word .TO,
        .text (clockText q.toMin)]
    let tune : List Fld := match q.tune with
      | .silence => [.word .TUNE, .word .SILENCE]
      | .cap level => [.word .TUNE, .word .CAP, .num level]
    let toll : List Fld := [.word .TOLL, .num q.tollCap]
    quietFields none = [.word .UNUSED] ∧ quietFields (some q) = times ++ tune ++ toll) ∧
  ∀ (s : State) (tag : Text), s.canExecute = true →
    (∀ f n, readNat f = some n →
      (1 ≤ n ∧ n ≤ s.bellCount → exec (.bellRead tag [f]) s = .next (s.ok tag (s.bellFields n))) ∧
      (1 ≤ n ∧ n ≤ 64 → exec (.melRead tag [f]) s = .next (s.ok tag (s.melodyFields n))) ∧
      (1 ≤ n ∧ n ≤ 48 →
        exec (.entryRead tag [f, Kw.LIVE.text]) s = .next (s.ok tag (.num n :: .word .LIVE ::
          entryOrUnused (slot s.live n none) ++ stampFields (slot s.stamps n none))) ∧
        exec (.entryRead tag [f, Kw.PENDING.text]) s =
          .next (s.ok tag (.num n :: .word .PENDING :: entryOrUnused (slot s.draft n none)))) ∧
      (1 ≤ n ∧ n ≤ 8 → exec (.quietRead tag [f]) s = .next (s.ok tag (.num n :: quietFields (slot s.quiet n none)))) ∧
      (1 ≤ n ∧ n ≤ 4 → exec (.cueRead tag [f]) s = .next (s.ok tag (s.cueFields n)))) ∧
    ∀ fields,
      ((∀ f n, fields = [f] → readNat f = some n → n = 0 ∨ s.bellCount < n) →
        exec (.bellRead tag fields) s = .next (s.err tag .arg)) ∧
      ((∀ f n, fields = [f] → readNat f = some n → n = 0 ∨ 64 < n) →
        exec (.melRead tag fields) s = .next (s.err tag .arg)) ∧
      ((∀ f g n, fields = [f, g] → readNat f = some n → (readKw g = some .LIVE ∨ readKw g = some .PENDING) →
          n = 0 ∨ 48 < n) →
        exec (.entryRead tag fields) s = .next (s.err tag .arg)) ∧
      ((∀ f n, fields = [f] → readNat f = some n → n = 0 ∨ 8 < n) →
        exec (.quietRead tag fields) s = .next (s.err tag .arg)) ∧
      ((∀ f n, fields = [f] → readNat f = some n → n = 0 ∨ 4 < n) →
        exec (.cueRead tag fields) s = .next (s.err tag .arg)))

/-- SAVE takes its snapshot at acceptance; its write ends GOOD with the image holding that snapshot, or BAD, and reports
which. The image has no matching sum while it is written; written whole it holds the sum of every byte of its
contents, modulo 65536, those bytes being left free. How the bytes of the image stand for its contents is left free
(assumption 10). That a row whose condition does not hold changes nothing is the model's choice (assumption 7). -/
def Obligations.SaveWritesSnapshot : Prop :=
  (∀ (s : State) (tag : Text), s.canExecute = true →
    (∀ f more, exec (.save tag (f :: more)) s = .next (s.err tag .arg)) ∧
    (∀ since contents, s.store = .busy since contents → exec (.save tag []) s = .next (s.err tag .busy)) ∧
    ((s.store = .good ∨ s.store = .bad ∨ s.store = .empty) →
      exec (.save tag []) s =
        .next (State.ok { s with store := .busy s.now s.snapshot, image := .torn } tag [.word .SAVE]))) ∧
  (∀ contents : StoreContents,
    (imageSum contents).toNat = ((Config.contentsBytes contents).map (·.toNat)).sum % 65536) ∧
  (∀ (s : State) (since : Nat) (contents : StoreContents), s.held = false → s.store = .busy since contents →
    (s.now ≤ since + 30000 →
      exec (.saveComplete true) s =
        .next (State.post { s with store := .good, image := .written contents (imageSum contents) } .saved
          [.word .OK]) ∧
      exec (.saveComplete false) s =
        .next (State.post { s with store := .bad, image := .torn } .saved [.word .FAIL])) ∧
    (since + 30000 ≤ s.now →
      exec .saveTimeout s = .next (State.post { s with store := .bad, image := .torn } .saved [.word .FAIL])) ∧
    (s.now < since + 30000 → exec .saveTimeout s = .next s) ∧
    (since + 30000 < s.now → ∀ ok, exec (.saveComplete ok) s = .next s)) ∧
  ∀ s : State, s.store = .good ∨ s.store = .bad ∨ s.store = .empty →
    (∀ ok, exec (.saveComplete ok) s = .next s) ∧ exec .saveTimeout s = .next s

/-! ## Bells -/

/-- The bell a request addresses is a number within 1..N; the melody, entry, rule or cue it names lies within 1..64,
1..48, 1..8 or 1..4; and anything else is refused by every request that begins with one, and by TOLL after its rule.
The number of digits is in part the model's reading (assumption 19). -/
def Obligations.NumbersChecked : Prop :=
  (∀ (s : State) (f : Text) (b : Nat), s.readBell f = some b ↔ readNat f = some b ∧ 1 ≤ b ∧ b ≤ s.bellCount) ∧
  (∀ (s : State) (tag f : Text) (more : List Text), s.canExecute = true → s.readBell f = none →
    ∀ i ∈ [Instr.bell tag (f :: more), .bellDisable tag f more, .bellEnable tag f more, .bellClear tag f more,
      .bellRead tag (f :: more), .countRead tag (f :: more), .countClear tag f more, .strike tag (f :: more),
      .test tag (f :: more)],
      exec i s = .next (s.err tag .arg)) ∧
  (∀ (s : State) (tag f : Text) (fields options : List Text) (rule : CountRule), s.canExecute = true →
    s.readBell f = none → readRule 15 fields = some (rule, f :: options) →
      exec (.toll tag fields) s = .next (s.err tag .arg)) ∧
  ∀ (s : State) (tag f : Text) (more : List Text) (most : Nat), s.canExecute = true →
    (∀ n, readNat f = some n → n = 0 ∨ most < n) →
      (most = 64 → ∀ i ∈ [Instr.melOpen tag f more, .melAdd tag f more, .melClose tag f more, .melDelete tag f more,
          .melRead tag (f :: more), .play tag (f :: more)], exec i s = .next (s.err tag .arg)) ∧
      (most = 48 → ∀ i ∈ [Instr.entry tag (f :: more), .entryClear tag f more, .entryRead tag (f :: more)],
          exec i s = .next (s.err tag .arg)) ∧
      (most = 8 → ∀ i ∈ [Instr.quiet tag (f :: more), .quietClear tag f more, .quietRead tag (f :: more)],
          exec i s = .next (s.err tag .arg)) ∧
      (most = 4 → ∀ i ∈ [Instr.cue tag (f :: more), .cueEnable tag f more, .cueDisable tag f more,
          .cueClear tag f more, .cueRead tag (f :: more)], exec i s = .next (s.err tag .arg))

/-- COUNT? shows the seven counters; COUNT? CLEAR gives the same reply, and then the counters are 0 and the last drop
reason absent; any further field is refused. -/
def Obligations.CountShowsAndClears : Prop :=
  ∀ (s : State) (tag f : Text) (b : Nat), s.canExecute = true → s.readBell f = some b →
    let c := (s.bell b).counters
    let shown : State := s.ok tag
      [.num b, .word .FIRED, .num c.fired, .word .HIT, .num c.hit, .word .MISS, .num c.miss, .word .STRAY, .num c.stray,
        .word .SLIP, .num c.slip, .word .THROTTLE, .num c.throttle, .word .DROP, .num c.drop]
    exec (.countRead tag [f]) s = .next shown ∧
    exec (.countClear tag f []) s =
      .next (shown.setBell b
        { s.bell b with
          lastDrop := none
          counters := { fired := 0, hit := 0, miss := 0, stray := 0, slip := 0, throttle := 0, drop := 0 } }) ∧
    ∀ g more, exec (.countRead tag (f :: g :: more)) s = .next (s.err tag .arg) ∧
      exec (.countClear tag f (g :: more)) s = .next (s.err tag .arg)

/-- BELL DISABLE: the flag set, the health DISABLED, the counts 0, the window closed without judgement, the stuck timing
stopped; the reply, then the HEALTH report. On a DISABLED bell, the reply alone. BELL ENABLE acts on a DISABLED bell
and BELL CLEAR on a SUSPECT or FAULTED one: the health moves to GOOD, the counts are 0, the stuck timing begins
afresh; the reply, then the HEALTH report. On any other bell, the reply alone. That DISABLE on a DISABLED bell replies
with its record is the model's reading (assumption 11), and so is that the three refuse a further field (assumption
8). -/
def Obligations.BellHealthRequests : Prop :=
  (∀ (s : State) (tag f : Text) (b : Nat), s.bellCount ≤ 64 → s.canExecute = true → s.readBell f = some b →
    ((s.bell b).health ≠ .disabled →
      exec (.bellDisable tag f []) s = .next
        (((s.setBell b
            { s.bell b with
              disabledFlag := true, health := .disabled, misses := 0, hits := 0, window := none
              stuck := .idle }).okBell tag b).post .health [.num b, .word .DISABLED])) ∧
    ((s.bell b).health = .disabled → exec (.bellDisable tag f []) s = .next (s.okBell tag b)) ∧
    ∀ g more, exec (.bellDisable tag f (g :: more)) s = .next (s.err tag .arg)) ∧
  (∀ (s : State) (tag f : Text) (b : Nat), s.canExecute = true → s.readBell f = some b →
    let restored : State :=
      s.setBell b
        { s.bell b with
          disabledFlag := false, health := .good, misses := 0, hits := 0
          stuck := if (s.bell b).cal.fitted = true ∧ s.lineActive b = true then .running s.now else .idle }
    let done : State := (restored.okBell tag b).post .health [.num b, .word .GOOD]
    ((s.bell b).health = .disabled → exec (.bellEnable tag f []) s = .next done) ∧
    ((s.bell b).health ≠ .disabled → exec (.bellEnable tag f []) s = .next (s.okBell tag b)) ∧
    (((s.bell b).health = .suspect ∨ ∃ cause, (s.bell b).health = .faulted cause) →
      exec (.bellClear tag f []) s = .next done) ∧
    (((s.bell b).health = .good ∨ (s.bell b).health = .disabled) →
      exec (.bellClear tag f []) s = .next (s.okBell tag b)) ∧
    ∀ g more, exec (.bellEnable tag f (g :: more)) s = .next (s.err tag .arg) ∧
      exec (.bellClear tag f (g :: more)) s = .next (s.err tag .arg))

/-- Each setting of a BELL line, what it writes into the record and at what clamp; HEAT and DUTY first bring the bucket up
to date, and HEAT lowers a bucket above the new capacity. DEFAULT, wherever it stands, writes every field to its
default with the effects of each, and keeps the disabled flag. A BELL line that passes its check: its settings applied
from left to right, DEFAULT standing for the defaults of R4, and the record as stored in reply. Nothing but the
calibration, the bucket and its stamp, the window and the stuck timer of that bell changes. A line whose fields do not
fall into settings, each in its form, is refused. That the level of PULSE and FLIGHT may have any number of digits is
the model's choice (assumption 19). -/
def Obligations.BellSettingsApplied : Prop :=
  (∀ (s : State) (b : Nat), 1 ≤ b → b ≤ 64 →
    let r := s.bell b
    let filled : Nat := min (r.cal.heat * 100) (r.bucket + (s.now - r.stamp) * r.cal.duty)
    let timed (cal : Calibration) : StuckTimer :=
      if b ≤ s.bellCount ∧ cal.fitted = true ∧ r.health ≠ .disabled ∧ s.senseLevel b = (cal.polarity == .rise) then
        .running s.now
      else .idle
    (∀ level v, s.applySetting b (.pulse level v) =
      s.setBell b { r with cal := { r.cal with pulse := setSlot r.cal.pulse level (max 20 (min 400 v)) } }) ∧
    (∀ level v, s.applySetting b (.flight level v) =
      s.setBell b
        { r with
          cal := { r.cal with flight := setSlot r.cal.flight level (max 50 (min 2000 v)) }
          window := r.window.map (fun w => if w.level = level then { w with blocked := true } else w) }) ∧
    (∀ v, s.applySetting b (.rearm v) = s.setBell b { r with cal := { r.cal with rearm := max 300 (min 5000 v) } }) ∧
    (∀ v, s.applySetting b (.heat v) =
      s.setBell b
        { r with
          cal := { r.cal with heat := max 200 (min 4000 v) }
          bucket := min filled (max 200 (min 4000 v) * 100), stamp := s.now }) ∧
    (∀ v, s.applySetting b (.duty v) =
      s.setBell b
        { r with cal := { r.cal with duty := max 5 (min 50 v) }, bucket := filled, stamp := s.now }) ∧
    (∀ on, s.applySetting b (.learn on) = s.setBell b { r with cal := { r.cal with learn := on } }) ∧
    (∀ fitted, r.cal.fitted = fitted → s.applySetting b (.sense fitted) = s) ∧
    (r.cal.fitted = true → s.applySetting b (.sense false) =
      s.setBell b { r with cal := { r.cal with fitted := false }, window := none, stuck := .idle }) ∧
    (r.cal.fitted = false → s.applySetting b (.sense true) =
      s.setBell b
        { r with cal := { r.cal with fitted := true }, stuck := timed { r.cal with fitted := true } }) ∧
    (∀ p, r.cal.polarity = p → s.applySetting b (.pol p) = s) ∧
    (∀ p, r.cal.polarity ≠ p → s.applySetting b (.pol p) =
      s.setBell b
        { r with cal := { r.cal with polarity := p }, stuck := timed { r.cal with polarity := p } }) ∧
    (Calibration.default =
      { pulse := #v[40, 55, 70, 85, 100, 120, 140], flight := #v[900, 820, 760, 700, 650, 600, 560], rearm := 800
        heat := 1200, duty := 20, fitted := true, polarity := .fall, learn := true }) ∧
    ∃ stuck, s.applySetting b .default =
        s.setBell b
          { r with
            cal := Calibration.default, bucket := min filled (Calibration.default.heat * 100), stamp := s.now
            window :=
              r.window.map (fun w => if 1 ≤ w.level ∧ w.level ≤ 7 then { w with blocked := true } else w)
            stuck := stuck } ∧
      (r.cal.fitted = true → r.cal.polarity = Calibration.default.polarity → stuck = r.stuck) ∧
      ((r.cal.fitted = false ∨ r.cal.polarity ≠ Calibration.default.polarity) → stuck = timed Calibration.default)) ∧
  (∀ (s : State) (tag f : Text) (b : Nat) (fields : List Text), s.bellCount ≤ 64 → s.canExecute = true →
    s.readBell f = some b →
    (∀ settings, readSettings fields = some settings ↔ fields ≠ [] ∧ Spells SettingForm fields settings) ∧
    (∀ settings, readSettings fields = some settings →
      ∃ r : Bell,
        settings.foldl (State.applySetting b) s = s.setBell b r ∧
        exec (.bell tag (f :: fields)) s = .next ((s.setBell b r).okBell tag b) ∧
        r.ready = (s.bell b).ready ∧ r.health = (s.bell b).health ∧ r.disabledFlag = (s.bell b).disabledFlag ∧
        r.misses = (s.bell b).misses ∧ r.hits = (s.bell b).hits ∧ r.counters = (s.bell b).counters ∧
        r.lastDrop = (s.bell b).lastDrop ∧
        (.default ∈ settings.getLast? → r.cal = Calibration.default)) ∧
    (readSettings fields = none → exec (.bell tag (f :: fields)) s = .next (s.err tag .arg)))

/-! ## Strike arithmetic -/

/-- The heat search goes down from the entry's level to the first level the bucket covers. Two refills taken back to back
give the bucket of one refill over their joined interval, and a bucket never goes beyond the capacity. -/
def Obligations.HeatLimitsLevel : Prop :=
  (∀ (r : Bell) (bucket level : Nat),
    (∀ l, r.affordable bucket level = some l ↔
      1 ≤ l ∧ l ≤ level ∧ slot r.cal.pulse l 0 * 100 ≤ bucket ∧
        ∀ k, l < k → k ≤ level → bucket < slot r.cal.pulse k 0 * 100) ∧
    (r.affordable bucket level = none ↔ ∀ k, 1 ≤ k → k ≤ level → bucket < slot r.cal.pulse k 0 * 100)) ∧
  (∀ (r : Bell) (t u : Nat), r.stamp ≤ t → t ≤ u →
    { r with bucket := r.refilled t, stamp := t }.refilled u = r.refilled u ∧
      r.refilled u = min (r.cal.heat * 100) (r.bucket + (u - r.stamp) * r.cal.duty))

/-- The flight a hit teaches: the held flight moved by floor((|difference| + 4) / 8) toward the measured one, within
50..2000; with the manual's table and its two examples at the ends of the range. -/
def Obligations.LearnedFlight : Prop :=
  (∀ held measured : Nat, 50 ≤ held → held ≤ 2000 →
    learnedFlight held measured =
      if held ≤ measured then min 2000 (held + (measured - held + 4) / 8)
      else max 50 (held - (held - measured + 4) / 8)) ∧
  ((([-12, -4, -3, 0, 3, 4, 11, 12, 19, 20] : List Int).map
      (fun d => (learnedFlight 700 (700 + d).toNat : Int) - 700)) = [-2, -1, 0, 0, 0, 1, 1, 2, 2, 3]) ∧
  learnedFlight 50 20 = 50 ∧ learnedFlight 2000 2500 = 2000

/-- The effective beat, with the manual's table; the onset of a division, with the manual's table; a run of 48 divisions
lands exactly one beat on; and the level of a note. -/
def Obligations.BeatAndOnset : Prop :=
  (∀ beat percent : Nat, effectiveBeat beat percent = max 2500 (min 30000 ((beat * 100 + percent / 2) / percent))) ∧
  ([(6000, 120), (6000, 100), (7200, 120), (6000, 70), (2500, 200), (30000, 50)].map
      (fun p => effectiveBeat p.1 p.2) = [5000, 6000, 6000, 8571, 2500, 30000]) ∧
  (∀ (t : Timing) (d : Nat), t.onset d = t.segOrigin + ((d - t.segDivision) * t.eff + 24) / 48) ∧
  (∀ (t : Timing) (n : Nat), t.onset (t.segDivision + 48 * n) = t.segOrigin + n * t.eff) ∧
  (∀ (t : Timing) (d e : Nat), d ≤ e → t.onset d ≤ t.onset e) ∧
  (∀ (t : Timing), ([(5000, 1), (5000, 36), (5000, 48), (2500, 6), (8571, 1)].map
      (fun p => { t with segOrigin := 0, segDivision := 0, eff := p.1 }.onset p.2)) = [104, 3750, 5000, 313, 179]) ∧
  ∀ (t : Timing) (level : Nat), t.levelOf level = min level (min t.requestCap t.liveCap)

/-! ## Live strikes and the dispatcher -/

/-- STRIKE and TEST: an entry due now for the bell at the level clamped to 1..7, or QFULL with all 64 slots in use. Only a
TEST passes the health check of a FAULTED bell. A STRIKE or TEST whose level is missing or no number, or with a
further field, is refused. The strike queue is kept by fire time, then origin rank, then bell, then age; a new entry
stands behind every entry that does not stand strictly after it, and nothing but the queue changes. That a late entry
stands by R43 alone, where the second sentence of R44 differs, is the model's choice (assumption 25). -/
def Obligations.LiveStrikesQueued : Prop :=
  (∀ (s : State) (tag f g : Text) (b n : Nat), s.canExecute = true → s.readBell f = some b → readNat g = some n →
    let level := max 1 (min 7 n)
    let entry (origin : Origin) : Entry :=
      { fire := s.now, orig := s.now, onset := s.now, bell := b, level := level, origin := origin, slip := 1000
        serial := none, slipped := false }
    (s.queue.length + s.waiting.length < 64 →
      exec (.strike tag [f, g]) s = .next ((s.enqueue (entry .strike)).ok tag [.num b, .num level]) ∧
      exec (.test tag [f, g]) s = .next ((s.enqueue (entry .test)).ok tag [.num b, .num level])) ∧
    (64 ≤ s.queue.length + s.waiting.length →
      exec (.strike tag [f, g]) s = .next (s.err tag .qfull) ∧
      exec (.test tag [f, g]) s = .next (s.err tag .qfull)) ∧
    (∀ cause, healthBars (.faulted cause) .test = false ∧ healthBars (.faulted cause) .strike = true) ∧
    ∀ o, healthBars .good o = false ∧ healthBars .suspect o = false ∧ healthBars .disabled o = true) ∧
  (∀ (s : State) (tag : Text) (fields : List Text), s.canExecute = true →
    (∀ f g b n, fields = [f, g] → s.readBell f = some b → readNat g ≠ some n) →
      exec (.strike tag fields) s = .next (s.err tag .arg) ∧ exec (.test tag fields) s = .next (s.err tag .arg)) ∧
  ((∀ a b : Entry, a.firesBefore b = true ↔
    a.fire < b.fire ∨ (a.fire = b.fire ∧
      (a.origin.rank < b.origin.rank ∨ (a.origin.rank = b.origin.rank ∧ a.bell < b.bell)))) ∧
  ([Origin.toll, .tune, .strike, .test].map Origin.rank = [0, 1, 2, 2]) ∧
  ∀ (s : State) (e : Entry), ∃ before after,
    s.queue = before ++ after ∧ s.enqueue e = { s with queue := before ++ e :: after } ∧
      (∀ x ∈ before, e.firesBefore x = false) ∧ (∀ x ∈ after.head?, e.firesBefore x = true))

/-- The dispatch of the head entry when its fire time has come, by the six steps: what its bell's health, the supply, the
ready time, the coil budget and the heat bucket make of it; and then what a freed slot or an ended play brings with
it. A window that an entry decided to fire finds open is first judged as its end would judge it, and the health that
leaves decides again (assumption 16). Before the fire time, or while RESET is held, nothing. What a firing makes of a
window still open is the model's reading (assumption 16). That a row whose condition does not hold changes nothing is
the model's choice (assumption 7), and so is what RESET held low leaves running (assumption 12). -/
def Obligations.DispatchDecides : Prop :=
  (∀ h o, healthBars h o = true ↔ h = .disabled ∨ ((∃ cause, h = .faulted cause) ∧ o ≠ .test)) ∧
  ∀ s : State,
    (s.held = true ∨ s.queue = [] → exec .dispatch s = .next s) ∧
    ∀ e rest, s.held = false → s.queue = e :: rest →
      (s.now < e.fire → exec .dispatch s = .next s) ∧
      (e.fire ≤ s.now →
        let q : State := { s with queue := rest }
        let r := s.bell e.bell
        exec .dispatch s = .next (State.settle (
          if healthBars r.health e.origin then q.drop e .fault
          else if s.supply ≠ .good then q.drop e .supply
          else if s.now < r.ready then
            if r.ready - e.orig ≤ e.slip then (q.countSlip e).enqueue { e with fire := r.ready, slipped := true }
            else q.drop e .repeated
          else if s.coilBudget ≤ s.coils.length then
            if s.now < e.orig + e.slip then (q.countSlip e).joinWaiting { e with slipped := true }
            else q.drop e .power
          else
            match r.affordable (r.refilled s.now) e.level with
            | none => (q.refill e.bell).drop e .heat
            | some level =>
              let judged : State := match r.window with
                | none => q
                | some w => q.miss e.bell w
              if healthBars (judged.bell e.bell).health e.origin then judged.drop e .fault
              else judged.fire e level)))

/-- A drop counts DROP on the bell, writes the last drop reason, and counts the reason in the summary of the play that
made the entry, each of the six reasons in its own count and no other; a slip counts once for an entry, on the bell
and in that summary. A firing: the coil is energised until the pulse of the fired level has run; the bucket pays the
cost, the ready time is set, a FITTED bell's window opens with the bounds of R39, and FIRED, THROTTLE and the play's
counts rise. -/
def Obligations.FiringsDropsSlipsRecorded : Prop :=
  ((∀ m : Summary,
    m.countDrop .fault = { m with fault := m.fault + 1 } ∧ m.countDrop .supply = { m with supply := m.supply + 1 } ∧
    m.countDrop .repeated = { m with repeated := m.repeated + 1 } ∧
    m.countDrop .power = { m with power := m.power + 1 } ∧ m.countDrop .heat = { m with heat := m.heat + 1 } ∧
    m.countDrop .stop = { m with stop := m.stop + 1 }) ∧
  ∀ (s : State) (e : Entry),
    let r := s.bell e.bell
    (∀ reason,
      let dropped : State :=
        s.setBell e.bell
          { r with counters := { r.counters with drop := min (r.counters.drop + 1) 65535 }, lastDrop := some reason }
      ((e.origin = .strike ∨ e.origin = .test) → s.drop e reason = dropped) ∧
      (e.origin = .tune → s.drop e reason =
        { dropped with tune := s.tune.map (fun l => { l with summary := l.summary.countDrop reason }) }) ∧
      (e.origin = .toll → s.drop e reason =
        { dropped with toll := s.toll.map (fun l => { l with summary := l.summary.countDrop reason }) })) ∧
    (e.slipped = true → s.countSlip e = s) ∧
    (e.slipped = false →
      let slipped : State :=
        s.setBell e.bell { r with counters := { r.counters with slip := min (r.counters.slip + 1) 65535 } }
      ((e.origin = .strike ∨ e.origin = .test) → s.countSlip e = slipped) ∧
      (e.origin = .tune → s.countSlip e =
        { slipped with
          tune := s.tune.map (fun l => { l with summary := { l.summary with slipped := l.summary.slipped + 1 } }) }) ∧
      (e.origin = .toll → s.countSlip e =
        { slipped with
          toll := s.toll.map (fun l => { l with summary := { l.summary with slipped := l.summary.slipped + 1 } }) }))) ∧
  (∀ (s : State) (e : Entry) (level : Nat),
    let r := s.bell e.bell
    let pulse := slot r.cal.pulse level 0
    let flight := slot r.cal.flight level 0
    let width := max 30 (flight / 4)
    let window : Window :=
      { firedAt := s.now, level := level, test := e.origin == .test, onset := s.now + flight, width := width
        bandStart := s.now + flight - width, closes := s.now + flight + width, clean := true, blocked := false }
    let counted (m : Summary) : Summary :=
      { m with fired := m.fired + 1, throttled := if level < e.level then m.throttled + 1 else m.throttled }
    let fired : State :=
      { s.setBell e.bell
          { r with
            bucket := r.refilled s.now - pulse * 100, stamp := s.now
            ready := s.now + max (pulse + r.cal.rearm) (flight + width)
            window := if r.cal.fitted then some window else r.window
            counters :=
              { r.counters with
                fired := min (r.counters.fired + 1) 65535
                throttle := if level < e.level then min (r.counters.throttle + 1) 65535 else r.counters.throttle } } with
        coils := s.coils ++ [⟨e.bell, s.now + pulse, e.origin⟩] }
    s.fire e level =
      match e.origin with
      | .tune => { fired with tune := fired.tune.map (fun l => { l with summary := counted l.summary }) }
      | .toll => { fired with toll := fired.toll.map (fun l => { l with summary := counted l.summary }) }
      | _ => fired)

/-- Every coil that a command energises is that of the head entry as it is dispatched or of a waiting entry granted a
freed place, with the supply GOOD, the bell not DISABLED and FAULTED only for a TEST, its ready time come, and a
bucket that covers the level fired; it is to be released when the pulse of that level has run. -/
def Obligations.CoilsOnlyFromSoundFirings : Prop :=
  ∀ (i : Instr) (s t : State), exec i s = .next t → ∀ c ∈ t.coils, c ∉ s.coils →
    ∃ e level,
      ((i = .dispatch ∧ s.queue.head? = some e ∧ e.fire ≤ s.now ∧ s.coils.length < s.coilBudget) ∨
        ((∃ b, i = .coilRelease b ∧ s.coilDue b = true) ∧ e ∈ s.waiting)) ∧
      s.held = false ∧ s.supply = .good ∧ c.bell = e.bell ∧ c.origin = e.origin ∧ 1 ≤ level ∧ level ≤ e.level ∧
      healthBars (s.bell e.bell).health e.origin = false ∧ (s.bell e.bell).ready ≤ s.now ∧
      (s.bell e.bell).cost level ≤ (s.bell e.bell).refilled s.now ∧
      c.release = s.now + (s.bell e.bell).pulse level

/-- The release of a coil at its release time, and the grant of the freed place: offered to the waiting entries in grant
order, each judged anew from step 1, until one fires or none is left. An open window that an entry decided to fire
finds is first judged as its end would judge it (assumption 16). A waiting entry whose deadline has come is dropped:
FAULT by its bell's health, SUPPLY when the supply is not GOOD, and otherwise POWER. That a row whose condition does
not hold changes nothing is the model's choice (assumption 7), and so is what RESET held low leaves running
(assumption 12). -/
def Obligations.CoilPlacesGranted : Prop :=
  ((∀ (s : State) (b : Nat), s.coilDue b = true →
    exec (.coilRelease b) s = .next (State.settle
      ({ s with coils := s.coils.eraseP (fun c => c.bell == b && c.release ≤ s.now) }.grantFrom s.waiting))) ∧
  (∀ (s : State) (b : Nat),
    s.coilDue b = true ↔ s.held = false ∧ ∃ c ∈ s.coils, c.bell = b ∧ c.release ≤ s.now) ∧
  (∀ (s : State) (b : Nat), s.coilDue b = false → exec (.coilRelease b) s = .next s) ∧
  (∀ s : State, s.grantFrom [] = s) ∧
  ∀ (s : State) (e : Entry) (rest : List Entry),
    let q : State := { s with waiting := rest }
    let r := s.bell e.bell
    s.grantFrom (e :: rest) =
      if healthBars r.health e.origin then (q.drop e .fault).grantFrom rest
      else if s.supply ≠ .good then (q.drop e .supply).grantFrom rest
      else if s.now < r.ready then
        if r.ready - e.orig ≤ e.slip then
          ((q.countSlip e).enqueue { e with fire := r.ready, slipped := true }).grantFrom rest
        else (q.drop e .repeated).grantFrom rest
      else
        match r.affordable (r.refilled s.now) e.level with
        | none => ((q.refill e.bell).drop e .heat).grantFrom rest
        | some level =>
          let judged : State := match r.window with
            | none => q
            | some w => q.miss e.bell w
          if healthBars (judged.bell e.bell).health e.origin then (judged.drop e .fault).grantFrom rest
          else judged.fire e level) ∧
  (∀ (s : State) (place : Nat),
    (s.held = true ∨ s.waiting[place]? = none → exec (.coilWaitDeadline place) s = .next s) ∧
    ∀ e, s.waiting[place]? = some e →
      (s.now < e.orig + e.slip → exec (.coilWaitDeadline place) s = .next s) ∧
      (s.held = false → e.orig + e.slip ≤ s.now →
        exec (.coilWaitDeadline place) s = .next (State.settle
          ({ s with waiting := s.waiting.eraseIdx place }.drop e
            (if healthBars (s.bell e.bell).health e.origin then .fault
              else if s.supply ≠ Supply.good then .supply else .power)))))

/-! ## Sensing and learning -/

/-- The health and the counts that a supply-clean hit or miss leaves, row by row of the manual's table, and in FAULTED.
Three clean misses in a row fault a GOOD bell; restored by a TEST hit it needs four more hits to be GOOD. -/
def Obligations.HealthMoves : Prop :=
  (∀ r : Bell,
    (r.health = .good → r.afterHit false = { r with misses := 0, hits := 0 } ∧
      r.afterHit true = { r with misses := 0, hits := 0 } ∧
      r.afterMiss = { r with misses := 1, hits := 0, health := .suspect }) ∧
    (r.health = .suspect →
      (∀ test, r.hits ≤ 2 → r.afterHit test = { r with misses := 0, hits := r.hits + 1 }) ∧
      (∀ test, r.hits = 3 → r.afterHit test = { r with misses := 0, hits := 0, health := .good }) ∧
      (r.misses ≤ 1 → r.afterMiss = { r with misses := r.misses + 1, hits := 0 }) ∧
      (r.misses = 2 → r.afterMiss = { r with misses := 3, hits := 0, health := .faulted .misses })) ∧
    (∀ cause, r.health = .faulted cause →
      r.afterHit true = { r with misses := 0, hits := 0, health := .suspect } ∧ r.afterHit false = r ∧
        r.afterMiss = r)) ∧
  (∀ r : Bell,
    (r.health = .good → ((r.afterMiss.afterMiss).afterMiss).health = .faulted .misses) ∧
    ∀ cause, r.health = .faulted cause → ∀ test,
      let restored := r.afterHit true
      restored.health = .suspect ∧ (((restored.afterHit test).afterHit test).afterHit test).health = .suspect ∧
        ((((restored.afterHit test).afterHit test).afterHit test).afterHit test).health = .good)

/-- An active edge of a watched line. Within the band of an open window it is a hit: HIT counts, the window closes,
learning writes the flight of the fired level when LEARN is ON and the window clean and not blocked, and a clean hit
moves the health. Before the band, or with no window open, it is a stray. An edge that meets a window whose end has
passed, or whose end is now while an entry of the bell may still fire at this instant, finds that window judged at its
end. Every active edge starts an idle stuck timer. When a firing of a bell may still come about at an instant: a coil
place is free or comes free, and an entry of the bell, due or waiting, passes every other check. A line that is not
watched captures no edge: only its level changes. A release edge of a watched line makes its stuck timer idle. An edge
to the level the line already has is no event (assumption 7). The levels of lines while RESET is low are the model's
reading (assumption 12), and so is an edge that meets the end of a window (assumption 16). That each of several edges
of one line in one grain is judged is its choice (assumption 28). -/
def Obligations.EdgesJudged : Prop :=
  (∀ (s : State) (b : Nat), 1 ≤ b → b ≤ 64 → s.held = false → s.lineActive b = false → s.watched b = true →
    let u : State := s.setSense b (!s.senseLevel b)
    let r := s.bell b
    let stuck := match r.stuck with
      | .idle => .running s.now
      | other => other
    let stray : Bell :=
      { r with counters := { r.counters with stray := min (r.counters.stray + 1) 65535 }, stuck := stuck }
    (r.window = none → exec (.senseActiveEdge b) s = .next (u.setBell b stray)) ∧
    ∀ w, r.window = some w →
      ((w.closes < s.now ∨ (w.closes = s.now ∧ s.mayFire b = true)) → ∃ v, exec (.windowEnd b) s = .next v ∧
        exec (.senseActiveEdge b) s = exec (.senseActiveEdge b) v) ∧
      (s.now < w.bandStart → s.now ≤ w.closes → (s.now = w.closes → s.mayFire b = false) →
        exec (.senseActiveEdge b) s = .next (u.setBell b stray)) ∧
      (w.bandStart ≤ s.now → s.now ≤ w.closes → (s.now = w.closes → s.mayFire b = false) →
        let counted : Bell :=
          { r with counters := { r.counters with hit := min (r.counters.hit + 1) 65535 }, window := none }
        let taught : Bell :=
          if r.cal.learn = true ∧ w.clean = true ∧ w.blocked = false then
            { counted with
              cal :=
                { r.cal with
                  flight :=
                    setSlot r.cal.flight w.level
                      (learnedFlight (slot r.cal.flight w.level 0) (s.now - w.firedAt)) } }
          else counted
        let moved : Bell := if w.clean then taught.afterHit w.test else taught
        let judged : State := u.setBell b { moved with stuck := stuck }
        exec (.senseActiveEdge b) s = .next
          (if moved.health = r.health then judged
            else judged.post .health (.num b :: healthFields moved.health)))) ∧
  (∀ (s : State) (b : Nat), s.mayFire b = true ↔
    (s.coils.length < s.coilBudget ∨ ∃ c ∈ s.coils, c.release ≤ s.now) ∧
      ∃ e, ((e ∈ s.queue ∧ e.fire ≤ s.now) ∨ e ∈ s.waiting) ∧ e.bell = b ∧
        healthBars (s.bell b).health e.origin = false ∧ s.supply = .good ∧ (s.bell b).ready ≤ s.now ∧
          ∃ level, 1 ≤ level ∧ level ≤ e.level ∧ (s.bell b).cost level ≤ (s.bell b).refilled s.now) ∧
  (∀ (s : State) (b : Nat), 1 ≤ b → b ≤ 64 →
    let u : State := s.setSense b (!s.senseLevel b)
    (s.lineActive b = true → exec (.senseActiveEdge b) s = .next s) ∧
    (s.lineActive b = false → exec (.senseReleaseEdge b) s = .next s) ∧
    (s.lineActive b = false → (s.held = true ∨ s.watched b = false) → exec (.senseActiveEdge b) s = .next u) ∧
    (s.lineActive b = true → (s.held = true ∨ s.watched b = false) → exec (.senseReleaseEdge b) s = .next u) ∧
    (s.lineActive b = true → s.held = false → s.watched b = true →
      exec (.senseReleaseEdge b) s = .next (u.setBell b { s.bell b with stuck := .idle })) ∧
    (s.watched b = true ↔ b ≤ s.bellCount ∧ (s.bell b).cal.fitted = true ∧ (s.bell b).health ≠ .disabled))

/-- At its end an open window is judged a miss: MISS counts, the window closes, and a clean miss moves the health. Before
it, nothing. A stuck timer that has run 2000 grains expires: a GOOD or SUSPECT bell becomes FAULTED STUCK with its hit
count 0 and its miss count kept, and it is reported; a FAULTED bell stays as it is. That a row whose condition does
not hold changes nothing is the model's choice (assumption 7), and so is what RESET held low leaves running
(assumption 12). -/
def Obligations.TimersJudge : Prop :=
  (∀ (s : State) (b : Nat), 1 ≤ b → b ≤ 64 →
    let r := s.bell b
    (s.held = true ∨ r.window = none → exec (.windowEnd b) s = .next s) ∧
    ∀ w, r.window = some w →
      (s.now < w.closes → exec (.windowEnd b) s = .next s) ∧
      (s.held = false → w.closes ≤ s.now →
        let counted : Bell :=
          { r with counters := { r.counters with miss := min (r.counters.miss + 1) 65535 }, window := none }
        let moved : Bell := if w.clean then counted.afterMiss else counted
        exec (.windowEnd b) s = .next
          (if moved.health = r.health then s.setBell b moved
            else (s.setBell b moved).post .health (.num b :: healthFields moved.health)))) ∧
  ((∀ (s : State) (b : Nat), (∀ start, (s.bell b).stuck ≠ .running start) → exec (.stuckTimeout b) s = .next s) ∧
  ∀ (s : State) (b start : Nat), 1 ≤ b → b ≤ 64 → (s.bell b).stuck = .running start →
    (s.held = true ∨ s.now < start + 2000 → exec (.stuckTimeout b) s = .next s) ∧
    (s.held = false → start + 2000 ≤ s.now →
      (((s.bell b).health = .good ∨ (s.bell b).health = .suspect) →
        exec (.stuckTimeout b) s = .next
          ((s.setBell b { s.bell b with stuck := .expired, hits := 0, health := .faulted .stuck }).post .health
            [.num b, .word .FAULTED, .word .STUCK])) ∧
      (∀ cause, (s.bell b).health = .faulted cause →
        exec (.stuckTimeout b) s = .next (s.setBell b { s.bell b with stuck := .expired }))))

/-! ## The melody store -/

/-- MEL OPEN, CLOSE and DELETE: what each checks, in its order, and what it does. Freed blocks are emptied. The name and
beat of MEL OPEN: a name of 1..16 characters "!" to "~", a beat of 2500..30000, 6000 where it is left out. -/
def Obligations.MelodiesOpenCloseDelete : Prop :=
  (∀ (s : State) (tag f : Text) (m : Nat), s.canExecute = true → readNat f = some m → 1 ≤ m → m ≤ 64 →
    let h := s.melody m
    let emptied : State := s.discardBlocks h.blocks
    (∀ args name beat, readOpen args = some (name, beat) →
      (h.held = true → exec (.melOpen tag f args) s = .next (s.err tag .locked)) ∧
      (h.held = false → exec (.melOpen tag f args) s = .next
        ((emptied.setMelody m
          { phase := .opened, name := some name, beat := some beat, records := 0, notes := 0, bars := 0, blocks := []
            held := false }).ok tag [.num m, .word .OPEN]))) ∧
    (∀ args, readOpen args = none → exec (.melOpen tag f args) s = .next (s.err tag .arg)) ∧
    (h.phase ≠ .opened → exec (.melClose tag f []) s = .next (s.err tag .notready)) ∧
    (h.phase = .opened → h.notes = 0 → exec (.melClose tag f []) s = .next (s.err tag .arg)) ∧
    (h.phase = .opened → 0 < h.notes →
      exec (.melClose tag f []) s = .next
        ((s.setMelody m { h with phase := .ready }).ok tag [.num m, .word .READY, .word .RECORDS, .num h.records])) ∧
    (h.held = true → exec (.melDelete tag f []) s = .next (s.err tag .locked)) ∧
    (h.held = false →
      exec (.melDelete tag f []) s = .next
        ((emptied.setMelody m {}).ok tag [.num m, .word .EMPTY, .word .FREE, .num (emptied.setMelody m {}).freeBlocks])) ∧
    (∀ g more, exec (.melClose tag f (g :: more)) s = .next (s.err tag .arg) ∧
      exec (.melDelete tag f (g :: more)) s = .next (s.err tag .arg)) ∧
    (emptied = { s with pool := emptied.pool } ∧
      ∀ k, 1 ≤ k → k ≤ 384 → slot emptied.pool k [] = if k ∈ h.blocks then [] else slot s.pool k [])) ∧
  (∀ (name beat : Text),
    let named := 1 ≤ name.length ∧ name.length ≤ 16 ∧ ∀ c ∈ name, 33 ≤ c.toNat ∧ c.toNat ≤ 126
    readOpen [] = none ∧ (named → readOpen [name] = some (name, 6000)) ∧ (¬ named → readOpen [name] = none) ∧
    (∀ n, named → readNat beat = some n → 2500 ≤ n → n ≤ 30000 → readOpen [name, beat] = some (name, n)) ∧
    (∀ n, readNat beat = some n → (n < 2500 ∨ 30000 < n) → readOpen [name, beat] = none) ∧
    (readNat beat = none ∨ ¬ named → readOpen [name, beat] = none) ∧
    ∀ x more, readOpen (name :: beat :: x :: more) = none)

/-- MEL ADD appends the whole line of 1 to 12 records or nothing: every record joins the end of the score and no other
melody or score changes; FULL leaves everything as it was; and FULL comes only where a block the line needs cannot be
had. The blocks taken are the lowest-numbered free ones, lowest first. -/
def Obligations.AddAppendsWholeLine : Prop :=
  (∀ (fields : List Text) (records : List ScoreRecord), readRecords fields = some records ↔
    1 ≤ fields.length ∧ fields.length ≤ 12 ∧ List.Forall₂ RecordForm fields records) ∧
  ∀ (s : State) (tag f : Text) (m : Nat) (args : List Text), s.StoreSound → s.canExecute = true →
    readNat f = some m → 1 ≤ m → m ≤ 64 →
    ((s.melody m).phase ≠ .opened → exec (.melAdd tag f args) s = .next (s.err tag .notready)) ∧
    ((s.melody m).phase = .opened → readRecords args = none →
      exec (.melAdd tag f args) s = .next (s.err tag .arg)) ∧
    ∀ records, (s.melody m).phase = .opened → readRecords args = some records →
      let blocks := ((s.melody m).records + records.length + 31) / 32
      let fits := blocks ≤ 64 ∧ blocks ≤ (s.melody m).blocks.length + s.freeBlocks
      (¬ fits → exec (.melAdd tag f args) s = .next (s.err tag .full)) ∧
      (fits → ∃ t, exec (.melAdd tag f args) s = .next t ∧
        t.score m = s.score m ++ records ∧
        t.melody m =
          { s.melody m with
            records := (s.melody m).records + records.length
            notes := (s.melody m).notes + records.countP ScoreRecord.isNote
            bars := (s.melody m).bars + records.countP ScoreRecord.isBar, blocks := (t.melody m).blocks } ∧
        (∃ taken : List Nat, (t.melody m).blocks = (s.melody m).blocks ++ taken ∧ taken.Pairwise (· < ·) ∧
          (∀ k ∈ taken, 1 ≤ k ∧ k ≤ 384 ∧ k ∉ s.ownedBlocks) ∧
          ∀ k, 1 ≤ k → k ≤ 384 → k ∉ s.ownedBlocks → k ∉ taken → ∀ j ∈ taken, j < k) ∧
        (t.melody m).blocks.length = blocks ∧
        (∀ k, k ≠ m → t.melody k = s.melody k ∧ t.score k = s.score k) ∧
        t.freeBlocks + blocks = s.freeBlocks + (s.melody m).blocks.length ∧
        t = State.ok { s with melodies := t.melodies, pool := t.pool } tag
          [.num m, .word .RECORDS, .num (t.melody m).records, .word .FREE, .num t.freeBlocks])

/-! ## The play queue -/

/-- What is offered to the play queue: merged with a queued request of the same source and start, refused with 16 queued,
and otherwise given the next free id after the last and placed by class, effective start and arrival; and the report
of each for a request of the schedule or of a cue, with its source. -/
def Obligations.OffersAdmitted : Prop :=
  (∀ a b : PlayRequest, a.mergesWith b = true ↔ a.source = b.source ∧
    ((∃ x, a.start = some x ∧ b.start = some x) ∨ (a.start = none ∧ b.start = none ∧ a.arrival = b.arrival))) ∧
  (∀ a b : PlayRequest, a.queuedBefore b = true ↔
    (a.isToll = true ∧ b.isToll = false) ∨ (a.isToll = b.isToll ∧
      (a.effective < b.effective ∨ (a.effective = b.effective ∧ a.arrival < b.arrival)))) ∧
  (∀ a : PlayRequest, a.effective = a.start.getD ((a.arrival : Int) + 2500)) ∧
  (∀ (s t : State) (r : PlayRequest),
    let source : List Fld := match r.source with
      | .schedule k => [.word .SCHEDULE, .num k]
      | .cue c => [.word .CUE, .num c]
      | .line => [.word .LINE]
    let kind : Fld := .word (if r.isToll then .TOLL else .TUNE)
    (∀ q, s.offer r = (t, .merged q) → s.offerReported r = t.post .play ([.num q.id, .word .MERGED] ++ source)) ∧
    (s.offer r = (t, .full) → s.offerReported r = t.post .dropped (source ++ [kind])) ∧
    ∀ id, s.offer r = (t, .admitted id) →
      s.offerReported r = t.post .play ([.num id, .word .QUEUED] ++ source ++ [kind])) ∧
  ∀ (s : State) (r : PlayRequest), s.PlaysSound →
    (∀ q, s.playQueue.find? (fun q => q.mergesWith r) = some q → s.offer r = (s, .merged q)) ∧
    ((∀ q ∈ s.playQueue, q.mergesWith r = false) →
      (s.playQueue.length = 16 → s.offer r = (s, .full)) ∧
      (s.playQueue.length < 16 → ∃ i before after,
        let id := (s.lastId + i) % 255 + 1
        i < 19 ∧ id ∉ s.idsInUse ∧ (∀ j, j < i → (s.lastId + j) % 255 + 1 ∈ s.idsInUse) ∧
          s.playQueue = before ++ after ∧
          s.offer r =
            ({ s with playQueue := before ++ { r with id := id } :: after, lastId := id }, .admitted id) ∧
          (∀ x ∈ before, r.queuedBefore x = false) ∧ (∀ x ∈ after, r.queuedBefore x = true)))

/-- PLAY and TOLL: the request their fields make, clamped and with its defaults, its start and its latest start; UNSET for
a wall time while the wall clock is UNSET, ARG for a latest start already past, and otherwise the offer with its
reply. The options stand in any order, each in its form and at most once, AT and CLOCK not together, every number of 1
to 15 digits; a line of any other form is refused. The order of the fields in a reply is in part the model's reading
(assumption 11), the number of digits too (assumption 19). -/
def Obligations.PlayAndTollOffered : Prop :=
  (∀ (most : Nat) (allowed : List Kw) (fields : List Text) (o : Options),
    readOptions most allowed fields = some o ↔ OptionsForm most allowed fields o) ∧
  (∀ (most : Nat) (fields rest : List Text) (rule : CountRule),
    readRule most fields = some (rule, rest) ↔ ∃ piece, fields = piece ++ rest ∧ RuleForm most piece rule) ∧
  playOptions = [.AT, .CLOCK, .TEMPO, .TRANSPOSE, .CAP, .REPEAT, .SLIP, .WAIT] ∧
  tollOptions = [.AT, .CLOCK, .INTERVAL, .LEVEL, .MODE, .CAP, .SLIP, .WAIT] ∧
  (∀ (s : State) (tag : Text) (fields : List Text), s.canExecute = true →
    ((∀ f options m o, fields = f :: options → readNum 15 f = some m → 1 ≤ m → m ≤ 64 →
        readOptions 15 playOptions options = some o → 300 < o.wait.getD 120) →
      exec (.play tag fields) s = .next (s.err tag .arg)) ∧
    ((∀ rule f options b o, readRule 15 fields = some (rule, f :: options) → readNum 15 f = some b →
        1 ≤ b → b ≤ s.bellCount →
        readOptions 15 tollOptions options = some o → 120 < o.wait.getD 120) →
      exec (.toll tag fields) s = .next (s.err tag .arg))) ∧
  ∀ (s : State) (tag : Text) (o : Options) (wait : Nat), s.canExecute = true →
    let start : Option Int := match o.atTime with
      | some instant => some ((instant : Int) * 10000 - s.time.offset)
      | none => o.clock.map (fun t => (t : Int))
    let made (play : Play) : PlayRequest :=
      { id := 0, source := .line, play := play, start := start, arrival := s.now
        latest := start.getD (s.now : Int) + (wait : Int) * 10000
        cap := max 1 (min 7 (o.cap.getD 7)), slip := max 0 (min 1000 (o.slip.getD 150)), force := false
        cutGiven := false }
    let answered (r : PlayRequest) (shown : List Fld) : State :=
      if o.atTime.isSome = true ∧ s.time.isSet = false then s.err tag .unset
      else if r.latest < (s.now : Int) then s.err tag .arg
      else
        match s.offer r with
        | (_, .merged q) => s.ok tag [.num q.id, .word .MERGED, .word (if q.isToll then .TOLL else .TUNE)]
        | (_, .full) => s.err tag .qfull
        | (t, .admitted id) => t.ok tag ([.num id, .word .QUEUED] ++ shown)
    (∀ f m options, readNum 15 f = some m → 1 ≤ m → m ≤ 64 → readOptions 15 playOptions options = some o →
      o.wait.getD 120 = wait → wait ≤ 300 →
      let spec : TuneSpec :=
        { melody := m, tempo := max 50 (min 200 (o.tempo.getD 100))
          transpose := max (-12) (min 12 (o.transpose.getD 0)), repeats := o.repeats.getD 1 }
      let r := made (.tune spec)
      exec (.play tag (f :: options)) s = .next (answered r
        [.word .TEMPO, .num spec.tempo, .word .TRANSPOSE, .int spec.transpose, .word .CAP, .num r.cap, .word .REPEAT,
          .num spec.repeats, .word .SLIP, .num r.slip, .word .LATEST, .int r.latest])) ∧
    (∀ fields rule f b options, readRule 15 fields = some (rule, f :: options) → readNum 15 f = some b →
      1 ≤ b → b ≤ s.bellCount →
      readOptions 15 tollOptions options = some o → o.wait.getD 120 = wait → wait ≤ 120 →
      let spec : TollSpec :=
        { rule := rule, bell := b, interval := o.interval.getD 20000, level := max 1 (min 7 (o.level.getD 6))
          mode := o.mode.getD .after }
      let r := made (.toll spec)
      exec (.toll tag fields) s = .next (answered r
        (.word .TOLL :: ruleFields rule ++
          [.word .BELL, .num b, .word .INTERVAL, .num spec.interval, .word .LEVEL, .num spec.level, .word .MODE,
            modeWord spec.mode, .word .CAP, .num r.cap, .word .SLIP, .num r.slip, .word .LATEST, .int r.latest])))

/-- CANCEL and expiry: a queued request is removed; a request a lane holds is BUSY to CANCEL; an unknown id is refused. A
request expires at the first grain after its latest start. That a row whose condition does not hold changes nothing is
the model's choice (assumption 7), and so is what RESET held low leaves running (assumption 12). -/
def Obligations.CancelAndExpiryRemove : Prop :=
  (∀ (s : State) (tag f : Text) (id : Nat), s.canExecute = true → readNat f = some id → 1 ≤ id → id ≤ 255 →
    ((∃ r ∈ s.playQueue, r.id = id) →
      exec (.cancel tag [f]) s = .next
        ((State.ok { s with playQueue := s.playQueue.filter (fun r => r.id != id) } tag
          [.num id, .word .CANCELLED]).settle)) ∧
    ((∀ r ∈ s.playQueue, r.id ≠ id) →
      (((∃ l, s.tune = some l ∧ l.request.id = id) ∨ ∃ l, s.toll = some l ∧ l.request.id = id) →
        exec (.cancel tag [f]) s = .next (s.err tag .busy)) ∧
      ((∀ l, s.tune = some l → l.request.id ≠ id) → (∀ l, s.toll = some l → l.request.id ≠ id) →
        exec (.cancel tag [f]) s = .next (s.err tag .arg)))) ∧
  (∀ (s : State) (tag : Text) (fields : List Text), s.canExecute = true →
    (∀ f id, fields = [f] → readNat f = some id → id = 0 ∨ 255 < id) →
      exec (.cancel tag fields) s = .next (s.err tag .arg)) ∧
  ∀ (s : State) (id : Nat),
    ((s.held = true ∨ ∀ r ∈ s.playQueue, r.id = id → (s.now : Int) ≤ r.latest) →
      exec (.expired id) s = .next s) ∧
    ∀ r, s.held = false → s.PlaysSound → r ∈ s.playQueue → r.id = id → r.latest < (s.now : Int) →
      exec (.expired id) s = .next
        ((State.post { s with playQueue := s.playQueue.filter (fun q => q.id != id) } .expired
          (.num id :: sourceFields r.source ++ [.word (if r.isToll then .TOLL else .TUNE)])).settle)

/-! ## The lanes -/

/-- The takes: when each lane takes a request and which, the origin, the lane's record and its report; a melody that is
not READY ends the request NOSCORE. A CUT toll within its reach bars the TUNE take; at the very instant it comes
within its reach, whether the take may come first is free (assumption 26), until the toll has given its cut order. The
stroke count of a toll: FIXED n, or the hour of the wall second nearest the origin, 12 or 24 for its 0, and 1 while
the wall clock is UNSET; with the manual's table of hours. That a row whose condition does not hold changes nothing is
the model's choice (assumption 7), and so is what RESET held low leaves running (assumption 12). -/
def Obligations.LanesTakeRequests : Prop :=
  ((∀ s : State, s.tuneTakeDue = true ↔
    s.held = false ∧ s.tune = none ∧ s.supply = .good ∧ (∀ l, s.toll = some l → l.spec.mode = .over) ∧
      (∀ q ∈ s.playQueue, ∀ spec, q.play = .toll spec → spec.mode = .cut → (s.now : Int) + 5000 < q.effective ∨
        (q.effective = (s.now : Int) + 5000 ∧ q.arrival < s.now ∧ q.cutGiven = false ∧
          Config.reachFirst s.now q.id = false)) ∧
      ∃ r, s.playQueue.find? (fun q => !q.isToll) = some r ∧ r.effective ≤ (s.now : Int) + 5000) ∧
  (∀ s : State, s.tuneTakeDue = false → exec .tuneTake s = .next s) ∧
  (∀ s : State, s.tollTakeDue = true ↔
    s.held = false ∧ s.toll = none ∧ s.supply = .good ∧
      ∃ r ∈ s.playQueue, ∃ spec, r.play = .toll spec ∧ r.effective ≤ (s.now : Int) + 5000 ∧
        (spec.mode = .over ∨ s.tune = none)) ∧
  (∀ s : State, s.tollTakeDue = false → exec .tollTake s = .next s) ∧
  ∀ (s : State) (r : PlayRequest),
    let q : State := { s with playQueue := s.playQueue.filter (fun p => p.id != r.id) }
    let origin := match r.start with
      | some start => if (s.now : Int) + 2500 ≤ start then start.toNat else s.now + 2500
      | none => s.now + 2500
    (∀ spec, s.tuneTakeDue = true → s.playQueue.find? (fun q => !q.isToll) = some r → r.play = .tune spec →
      let h := s.melody spec.melody
      (h.phase ≠ .ready → exec .tuneTake s =
        .next (q.post .ended ([.num r.id, .word .NOSCORE] ++ summaryFields {})).settle) ∧
      (h.phase = .ready → exec .tuneTake s = .next (State.settle (State.post
        { q.setMelody spec.melody { h with held := true } with
          tune := some
            { phase := .armed, request := r, spec := spec, origin := origin
              timing :=
                { beat := h.beat.getD 6000, percent := spec.tempo, eff := effectiveBeat (h.beat.getD 6000) spec.tempo
                  segOrigin := origin, segDivision := 0, division := 0, pass := 1, liveCap := 7, requestCap := r.cap
                  transpose := spec.transpose }
              cursor := 1, lastOnset := none, pendingTempo := none, pendingCap := none, barStop := none, lag := false
              serial := 0, summary := {} } }
        .play [.num r.id, .word .TAKEN, .word .TUNE, .num origin])))) ∧
    (∀ spec, s.tollTakeDue = true →
      s.playQueue.find? (fun q => q.isToll && s.inReach q && (q.hasMode .over || s.tune.isNone)) = some r →
      r.play = .toll spec →
      exec .tollTake s = .next (State.post
        { q with
          toll := some
            { phase := .armed, request := r, spec := spec, origin := origin, requestCap := r.cap
              strokes := q.strokeCount origin spec.rule, next := 0, lastOnset := none, lag := false, summary := {} } }
        .play [.num r.id, .word .TAKEN, .word .TOLL, .num origin]))) ∧
  (∀ (s : State) (origin : Nat),
    (∀ n, s.strokeCount origin (.fixed n) = n) ∧
    (s.time.isSet = false → s.strokeCount origin .hour12 = 1 ∧ s.strokeCount origin .hour24 = 1) ∧
    (∀ (second : Nat), s.time.isSet = true → (second : Int) * 10000 ≤ (origin : Int) + s.time.offset + 5000 →
      (origin : Int) + s.time.offset + 5000 < ((second : Int) + 1) * 10000 →
      let h := second / 3600 % 24
      s.strokeCount origin .hour12 = (if h % 12 = 0 then 12 else h % 12) ∧
        s.strokeCount origin .hour24 = (if h = 0 then 24 else h)))

/-- The expansion of a record by the TUNE lane when its onset comes within 5000 grains: a note becomes an entry, is
counted RANGE, or waits for a slot; a TEMPO begins a segment; a BAR makes pending values live and ends the lane with a
bar stop under way; the last record begins the next pass or ends the play. After each, a bar stop under way is tested:
with no BAR in the melody, or the next onset beyond its limit, it acts as a stop NOW, and otherwise as nothing. The
end of a pass: with a further pass, a segment begins at the last record's onset and the melody's own beat, and a
melody with no BAR takes its pending values there; after the last pass the lane drains with reason DONE, or that of
its bar stop. Before the last record, nothing. That a row whose condition does not hold changes nothing is the model's
choice (assumption 7), and so is what RESET held low leaves running (assumption 12). -/
def Obligations.RecordsAndPassesExpand : Prop :=
  ((∀ s : State, (∀ l, s.tune = some l → l.phase.runs = false ∨ l.barStop = none) → s.testBarStop = s) ∧
  (∀ (s : State) (l : TuneLane) (stop : BarStop), s.tune = some l → l.phase.runs = true → l.barStop = some stop →
    ((s.melody l.spec.melody).bars = 0 → s.testBarStop = s.stopTuneNow stop.reason) ∧
    (0 < (s.melody l.spec.melody).bars →
      (s.record l.spec.melody l.cursor = none → s.testBarStop = s) ∧
      ∀ rec, s.record l.spec.melody l.cursor = some rec →
        let onset := l.timing.onset (l.timing.division + rec.delta)
        (stop.limit < onset → s.testBarStop = s.stopTuneNow stop.reason) ∧
        (onset ≤ stop.limit → s.testBarStop = s))) ∧
  (∀ s : State, (s.held = true ∨ s.tune = none) → exec .expandRecord s = .next s) ∧
  ∀ (s : State) (l : TuneLane) (rec : ScoreRecord), s.tune = some l →
    (s.record l.spec.melody l.cursor = none → exec .expandRecord s = .next s) ∧
    (s.record l.spec.melody l.cursor = some rec →
    let division := l.timing.division + rec.delta
    let onset := l.timing.onset division
    ((l.phase.runs = false ∨ l.lag = true ∨ s.now + 5000 < onset) → exec .expandRecord s = .next s) ∧
    (s.held = false → l.phase.runs = true → l.lag = false → onset ≤ s.now + 5000 →
      let passed : TuneLane :=
        { l with
          timing := { l.timing with division := division }, lastOnset := some onset, cursor := l.cursor + 1
          lag := false }
      let done (u : State) : Host.Outcome State Fault Refusal := .next ((u.afterRecord onset).testBarStop.settle)
      (∀ delta bell level, rec = .note delta bell level →
        let target : Int := (bell : Int) + l.timing.transpose
        let played := min level (min l.timing.requestCap l.timing.liveCap)
        let fire := onset - slot (s.bell target.toNat).cal.flight played 0
        let entry : Entry :=
          { fire := fire, orig := fire, onset := onset, bell := target.toNat, level := played, origin := .tune
            slip := l.request.slip, serial := some (l.serial + 1), slipped := false }
        ((target < 1 ∨ (s.bellCount : Int) < target) →
          exec .expandRecord s = done { s with
            tune := some
              { passed with serial := l.serial + 1, summary := { l.summary with range := l.summary.range + 1 } } }) ∧
        (1 ≤ target → target ≤ (s.bellCount : Int) →
          (s.queue.length + s.waiting.length < 64 →
            exec .expandRecord s = done { s.enqueue entry with
              tune := some
                { passed with
                serial := l.serial + 1, phase := .playing
                summary := { l.summary with queued := l.summary.queued + 1 } } }) ∧
          (64 ≤ s.queue.length + s.waiting.length →
            exec .expandRecord s = .next (State.settle { s with tune := some { l with lag := true } })))) ∧
      (∀ delta, rec = .rest delta → exec .expandRecord s = done { s with tune := some passed }) ∧
      (∀ delta beat, rec = .tempo delta beat →
        exec .expandRecord s = done { s with
          tune := some
            { passed with
            timing :=
              { passed.timing with
                segOrigin := onset, segDivision := division, beat := beat
                eff := effectiveBeat beat l.timing.percent } } }) ∧
      (∀ delta, rec = .bar delta →
        let percent := l.pendingTempo.getD l.timing.percent
        let live : TuneLane :=
          if l.pendingTempo.isSome = true ∨ l.pendingCap.isSome = true then
            { passed with
              pendingTempo := none, pendingCap := none
              timing :=
                { passed.timing with
                  segOrigin := onset, segDivision := division, percent := percent
                  liveCap := l.pendingCap.getD l.timing.liveCap, eff := effectiveBeat l.timing.beat percent } }
          else passed
        exec .expandRecord s = done { s with
          tune := some
            (match l.barStop with
          | none => live
          | some stop => { live with phase := .draining stop.reason }) })))) ∧
  (∀ (s : State) (l : TuneLane) (onset : Nat), s.tune = some l →
    let h := s.melody l.spec.melody
    ((l.phase.runs = false ∨ l.cursor ≤ h.records) → s.afterRecord onset = s) ∧
    (l.phase.runs = true → h.records < l.cursor →
      (l.spec.repeats ≤ l.timing.pass → s.afterRecord onset =
        { s with tune := some { l with phase := .draining ((l.barStop.map (·.reason)).getD .done) } }) ∧
      (l.timing.pass < l.spec.repeats →
        let beat := h.beat.getD 6000
        let next (percent liveCap : Nat) : Timing :=
          { l.timing with
            segOrigin := onset, segDivision := l.timing.division, beat := beat, pass := l.timing.pass + 1
            percent := percent, liveCap := liveCap, eff := effectiveBeat beat percent }
        (h.bars = 0 → s.afterRecord onset =
          { s with
            tune := some
              { l with
              timing := next (l.pendingTempo.getD l.timing.percent) (l.pendingCap.getD l.timing.liveCap)
              pendingTempo := none, pendingCap := none, cursor := 1 } }) ∧
        (0 < h.bars → s.afterRecord onset =
          { s with tune := some { l with timing := next l.timing.percent l.timing.liveCap, cursor := 1 } }))))

/-- The expansion of a stroke by the TOLL lane when its onset comes within 5000 grains: an entry, RANGE for a bell outside
1..N, or a wait for a slot; after the last stroke the lane drains with reason DONE. That a row whose condition does
not hold changes nothing is the model's choice (assumption 7), and so is what RESET held low leaves running
(assumption 12). -/
def Obligations.StrokesExpand : Prop :=
  (∀ s : State, (s.held = true ∨ s.toll = none) → exec .expandStroke s = .next s) ∧
  ∀ (s : State) (l : TollLane), s.toll = some l →
    let onset := l.origin + l.next * l.spec.interval
    let level := min l.spec.level l.requestCap
    let fire := onset - slot (s.bell l.spec.bell).cal.flight level 0
    let entry : Entry :=
      { fire := fire, orig := fire, onset := onset, bell := l.spec.bell, level := level, origin := .toll
        slip := l.request.slip, serial := some (l.next + 1), slipped := false }
    let passed (phase : LanePhase) (summary : Summary) : TollLane :=
      { l with
        lastOnset := some onset, next := l.next + 1, lag := false, summary := summary
        phase := if l.strokes ≤ l.next + 1 then .draining .done else phase }
    ((l.phase.runs = false ∨ l.lag = true ∨ s.now + 5000 < onset) → exec .expandStroke s = .next s) ∧
    (s.held = false → l.phase.runs = true → l.lag = false → onset ≤ s.now + 5000 →
      ((l.spec.bell < 1 ∨ s.bellCount < l.spec.bell) →
        exec .expandStroke s = .next (State.settle
          { s with toll := some (passed l.phase { l.summary with range := l.summary.range + 1 }) })) ∧
      (1 ≤ l.spec.bell → l.spec.bell ≤ s.bellCount →
        (s.queue.length + s.waiting.length < 64 →
          exec .expandStroke s = .next (State.settle
            { s.enqueue entry with
              toll := some (passed .playing { l.summary with queued := l.summary.queued + 1 }) })) ∧
        (64 ≤ s.queue.length + s.waiting.length →
          exec .expandStroke s = .next (State.settle { s with toll := some { l with lag := true } }))))

/-- ADJUST names the lane TUNE and one of TEMPO and CAP or both, each once with a number (no longer than a line); anything
else is ARG. It sets the pending values it names, clamped, and leaves the other as it stood; NOTREADY while the lane
is IDLE or DRAINING. That the values of ADJUST may have any number of digits a line can carry is the model's reading
(assumption 19), and so is that a line with an unknown word is refused (assumption 8). -/
def Obligations.AdjustSetsPending : Prop :=
  (∀ (fields : List Text) (o : Options), readAdjust fields = some o ↔ ∃ lane rest,
    fields = lane :: rest ∧ readKw lane = some .TUNE ∧
      ((∃ k v p, rest = [k, v] ∧ readKw k = some .TEMPO ∧ readNum 120 v = some p ∧ o = { tempo := some p }) ∨
        (∃ k v c, rest = [k, v] ∧ readKw k = some .CAP ∧ readNum 120 v = some c ∧ o = { cap := some c }) ∨
        ∃ k v p k' v' c, (rest = [k, v, k', v'] ∨ rest = [k', v', k, v]) ∧ readKw k = some .TEMPO ∧
          readNum 120 v = some p ∧ readKw k' = some .CAP ∧ readNum 120 v' = some c ∧
            o = { tempo := some p, cap := some c })) ∧
  ∀ (s : State) (tag : Text) (fields : List Text), s.canExecute = true →
    (readAdjust fields = none → exec (.adjust tag fields) s = .next (s.err tag .arg)) ∧
    ∀ o, readAdjust fields = some o →
      (s.tune = none → exec (.adjust tag fields) s = .next (s.err tag .notready)) ∧
      ∀ l, s.tune = some l →
        (l.phase.runs = false → exec (.adjust tag fields) s = .next (s.err tag .notready)) ∧
        (l.phase.runs = true →
          let tempo := match o.tempo with
            | some p => some (max 50 (min 200 p))
            | none => l.pendingTempo
          let cap := match o.cap with
            | some level => some (max 1 (min 7 level))
            | none => l.pendingCap
          exec (.adjust tag fields) s = .next
            (State.ok { s with tune := some { l with pendingTempo := tempo, pendingCap := cap } } tag
              [.word .TUNE, .num l.request.id, .word .PENDING, .word .TEMPO, numOrNone tempo, .word .CAP, numOrNone cap]))

/-- STOP, by the lane it names, the state of that lane and a bar stop already under way, with the reply for the state
after it; the END of a lane with nothing left follows the reply. STOP TOLL BAR on a lane that drains is the model's
reading (assumption 21). -/
def Obligations.StopsActByState : Prop :=
  ∀ (s : State) (tag f : Text), s.canExecute = true →
    let tuneReply (u : State) : State :=
      (u.ok tag (match u.tune with
        | none => [.word .TUNE, .word .IDLE]
        | some l =>
          if l.phase.runs then [.word .TUNE, .num l.request.id, .word .STOPPING]
          else if u.laneDrained .tune then [.word .TUNE, .word .IDLE]
          else [.word .TUNE, .num l.request.id, .word .DRAINING])).settle
    let tollReply (u : State) : State :=
      (u.ok tag (match u.toll with
        | none => [.word .TOLL, .word .IDLE]
        | some l =>
          if u.laneDrained .toll then [.word .TOLL, .word .IDLE]
          else [.word .TOLL, .num l.request.id, .word .DRAINING])).settle
    (readKw f = some .TUNE →
      exec (.stopNow tag f []) s = .next (tuneReply (s.stopTuneNow .stop)) ∧
      exec (.stopBar tag f []) s = .next (tuneReply (s.barStopTune .stop))) ∧
    (readKw f = some .TOLL →
      exec (.stopNow tag f []) s = .next (tollReply (s.stopTollNow .stop)) ∧
      (s.tollRuns = true → exec (.stopBar tag f []) s = .next (tollReply (s.stopTollNow .stop))) ∧
      (s.tollRuns = false → exec (.stopBar tag f []) s = .next (tollReply s))) ∧
    (∀ more, (more ≠ [] ∨ (readKw f ≠ some .TUNE ∧ readKw f ≠ some .TOLL)) →
      exec (.stopNow tag f more) s = .next (s.err tag .arg) ∧ exec (.stopBar tag f more) s = .next (s.err tag .arg))

/-- A stop NOW removes the lane's entries, each a drop with reason STOP, and the lane drains with the stop's reason; the
other lane's entries, the live strikes and every coil stay. On the bell of each removed entry DROP rises by one, up to
65535, and the last drop reason is STOP; every other field and every other bell stay. A bar stop sets its search limit
80,000 grains after the last onset, keeps a limit already set, and acts as a stop NOW in a melody with no BAR or with
its next record beyond the limit. A queued CUT toll within its reach gives the tune that runs one order to stop at its
bar, with its report (assumption 6); while RESET is held low it waits (assumption 12). That a row whose condition does
not hold changes nothing is the model's choice (assumption 7). -/
def Obligations.StopsAndCutOrders : Prop :=
  (∀ (s : State) (reason : EndReason),
    let gone (o : Origin) (b : Nat) : Nat :=
      ((s.queue ++ s.waiting).filter (fun e => e.origin == o && e.bell == b)).length
    let dropped (o : Origin) (b : Nat) : Bell :=
      if gone o b = 0 then s.bell b
      else
        { s.bell b with
          counters := { (s.bell b).counters with drop := min ((s.bell b).counters.drop + gone o b) 65535 }
          lastDrop := some .stop }
    (s.tune = none → s.stopTuneNow reason = s ∧ s.barStopTune reason = s) ∧
    (s.toll = none → s.stopTollNow reason = s) ∧
    (∀ l, s.tune = some l →
      let u := s.stopTuneNow reason
      u.queue = s.queue.filter (fun e => e.origin != .tune) ∧
      u.waiting = s.waiting.filter (fun e => e.origin != .tune) ∧ u.coils = s.coils ∧ u.toll = s.toll ∧
      u.playQueue = s.playQueue ∧ u.serial = s.serial ∧
      u.tune = some
        { l with
          phase := .draining reason, lag := false, barStop := none
          summary := { l.summary with stop := l.summary.stop + s.entriesOf .tune } } ∧
      (∀ b, 1 ≤ b → b ≤ 64 → u.bell b = dropped .tune b) ∧
      u = { s with queue := u.queue, waiting := u.waiting, bells := u.bells, tune := u.tune } ∧
      (l.phase.runs = false → s.barStopTune reason = s) ∧
      (l.phase.runs = true →
        let stop : BarStop :=
          { reason := reason, limit := (l.barStop.map (·.limit)).getD (l.lastOnset.getD l.origin + 80000) }
        let v : State := { s with tune := some { l with barStop := some stop } }
        ((s.melody l.spec.melody).bars = 0 → s.barStopTune reason = v.stopTuneNow reason) ∧
        (0 < (s.melody l.spec.melody).bars → ∀ rec, s.record l.spec.melody l.cursor = some rec →
          let onset := l.timing.onset (l.timing.division + rec.delta)
          (stop.limit < onset → s.barStopTune reason = v.stopTuneNow reason) ∧
          (onset ≤ stop.limit → s.barStopTune reason = v)))) ∧
    ∀ l, s.toll = some l →
      let u := s.stopTollNow reason
      u.queue = s.queue.filter (fun e => e.origin != .toll) ∧
      u.waiting = s.waiting.filter (fun e => e.origin != .toll) ∧ u.coils = s.coils ∧ u.tune = s.tune ∧
      u.playQueue = s.playQueue ∧ u.serial = s.serial ∧
      u.toll = some
        { l with
          phase := .draining reason, lag := false
          summary := { l.summary with stop := l.summary.stop + s.entriesOf .toll } } ∧
      (∀ b, 1 ≤ b → b ≤ 64 → u.bell b = dropped .toll b) ∧
      u = { s with queue := u.queue, waiting := u.waiting, bells := u.bells, toll := u.toll }) ∧
  (∀ (s : State) (id : Nat),
    (s.cutDue id = true ↔ s.held = false ∧ (∃ l, s.tune = some l ∧ l.phase.runs = true) ∧
      ∃ r ∈ s.playQueue, r.id = id ∧ r.cutGiven = false ∧ r.effective ≤ (s.now : Int) + 5000 ∧
        ∃ spec, r.play = .toll spec ∧ spec.mode = .cut) ∧
    (s.cutDue id = false → exec (.cutOrder id) s = .next s) ∧
    ∀ l, s.cutDue id = true → s.tune = some l →
      exec (.cutOrder id) s = .next (((State.post
        { s with playQueue := s.playQueue.map (fun r => if r.id = id then { r with cutGiven := true } else r) }
        .play [.num id, .word .CUT, .num l.request.id]).barStopTune .cut).settle))

/-- What ends every event of the lanes: it touches the queues, the lanes, the hold of a melody, the play queue, the cue
latches, the drop counts of removed entries and the lines made, and nothing else; on a state with no lag, nothing
drained and no cue ready it does nothing; it leaves no lag beside a free slot and no lane drained; and a lane that
drains with nothing left becomes IDLE with its END report and its hold released. It is, in this order: the records
refused for want of a slot, the TUNE lane's end, the TOLL lane's end, and the cues. A lane whose last offer was
refused expands its record or stroke again when a slot is free: its lag becomes no and the record is expanded anew,
its fire time from the flight held now; with both lanes lagging either may be first. The expansion, whoever asks for
it: an entry (QUEUED, and ARMED becomes PLAYING), RANGE, or the lag again while no slot is free; then the end of a
pass and the test of the bar stop. The END report's words: the reason, then QUEUED, FIRED, SLIPPED, THROTTLED, RANGE,
REPEAT, POWER, HEAT, FAULT, SUPPLY and STOP, each with its count. The order of what ends an event is the model's
reading (assumptions 17, 23). -/
def Obligations.SettlingFrees : Prop :=
  ((∀ s : State, s.settleLanes = ((s.retryLags 2).drainTune).drainToll ∧ s.settle = s.settleLanes.settleCues 4) ∧
  (∀ (s : State) (fuel : Nat), (64 ≤ s.queue.length + s.waiting.length ∨ (s.tuneLags = false ∧ s.tollLags = false)) →
    s.retryLags fuel = s) ∧
  (∀ s : State,
    let t := s.settle
    t.LanesSettled ∧ t.pending = s.pending ∧ t.held = s.held ∧ t.pins = s.pins ∧ t.cause = s.cause ∧
    t.bellCount = s.bellCount ∧ t.coilBudget = s.coilBudget ∧ t.lineRate = s.lineRate ∧ t.time = s.time ∧
    t.waiting.Sublist s.waiting ∧ t.coils = s.coils ∧ t.pool = s.pool ∧ t.live = s.live ∧
    t.draft = s.draft ∧ t.stamps = s.stamps ∧ t.hold = s.hold ∧ t.quiet = s.quiet ∧ t.supply = s.supply ∧
    t.store = s.store ∧ t.image = s.image ∧ t.serial.executed = s.serial.executed ∧
    t.serial.input = s.serial.input ∧
    (∀ b, ∃ counters last, t.bell b = { s.bell b with counters := counters, lastDrop := last } ∧
      { counters with drop := 0 } = { (s.bell b).counters with drop := 0 }) ∧
    (∀ m, ∃ held, t.melody m = { s.melody m with held := held }) ∧
    ∀ c, ∃ latch, t.cue c = { s.cue c with latch := latch }) ∧
  (∀ s : State, s.tuneLags = false → s.tollLags = false → s.LanesSettled → (∀ c ∈ [1, 2, 3, 4], s.cueReady c = false) →
    s.settle = s) ∧
  (∀ (s : State) (l : TuneLane) (reason : EndReason), s.tune = some l → l.phase = .draining reason →
    (s.laneDrained .tune = false → s.drainTune = s) ∧
    (s.laneDrained .tune = true → s.drainTune =
      { (s.post .ended ([.num l.request.id, endWord reason] ++ summaryFields l.summary)).setMelody l.spec.melody
          { s.melody l.spec.melody with held := false } with tune := none })) ∧
  ∀ (s : State) (l : TollLane) (reason : EndReason), s.toll = some l → l.phase = .draining reason →
    (s.laneDrained .toll = false → s.drainToll = s) ∧
    (s.laneDrained .toll = true → s.drainToll =
      { s.post .ended ([.num l.request.id, endWord reason] ++ summaryFields l.summary) with toll := none })) ∧
  ((∀ (s : State) (fuel : Nat), s.retryLags 0 = s ∧
    (s.queue.length + s.waiting.length < 64 →
      (∀ l, s.tune = some l → l.lag = true → s.tollLags = false →
        s.retryLags (fuel + 1) = (State.expandTune { s with tune := some { l with lag := false } }).retryLags fuel) ∧
      (∀ l, s.toll = some l → l.lag = true → s.tuneLags = false →
        s.retryLags (fuel + 1) = (State.expandToll { s with toll := some { l with lag := false } }).retryLags fuel) ∧
      ∀ l m, s.tune = some l → s.toll = some m → l.lag = true → m.lag = true →
        let u : State := { s with choices := s.choices + 1 }
        s.retryLags (fuel + 1) = (State.expandTune { u with tune := some { l with lag := false } }).retryLags fuel ∨
        s.retryLags (fuel + 1) =
          (State.expandToll { u with toll := some { m with lag := false } }).retryLags fuel)) ∧
  (∀ s : State, (s.tuneLags = true ↔ ∃ l, s.tune = some l ∧ l.lag = true) ∧
    (s.tollLags = true ↔ ∃ l, s.toll = some l ∧ l.lag = true)) ∧
  (∀ (s : State) (l : TuneLane), s.tune = some l →
    ((l.phase.runs = false ∨ s.record l.spec.melody l.cursor = none) → s.expandTune = s) ∧
    ∀ delta bell level, l.phase.runs = true → s.record l.spec.melody l.cursor = some (.note delta bell level) →
      let division := l.timing.division + delta
      let onset := l.timing.onset division
      let target : Int := (bell : Int) + l.timing.transpose
      let played := min level (min l.timing.requestCap l.timing.liveCap)
      let fire := onset - slot (s.bell target.toNat).cal.flight played 0
      let entry : Entry :=
        { fire := fire, orig := fire, onset := onset, bell := target.toNat, level := played, origin := .tune
          slip := l.request.slip, serial := some (l.serial + 1), slipped := false }
      let passed : TuneLane :=
        { l with
          timing := { l.timing with division := division }, lastOnset := some onset, cursor := l.cursor + 1
          lag := false, serial := l.serial + 1 }
      let done (u : State) : State := (u.afterRecord onset).testBarStop
      ((target < 1 ∨ (s.bellCount : Int) < target) → s.expandTune =
        done { s with tune := some { passed with summary := { l.summary with range := l.summary.range + 1 } } }) ∧
      (1 ≤ target → target ≤ (s.bellCount : Int) →
        (s.queue.length + s.waiting.length < 64 → s.expandTune = done { s.enqueue entry with
          tune := some
            { passed with phase := .playing, summary := { l.summary with queued := l.summary.queued + 1 } } }) ∧
        (64 ≤ s.queue.length + s.waiting.length →
          s.expandTune = { s with tune := some { l with lag := true } }))) ∧
  ∀ (s : State) (l : TollLane), s.toll = some l →
    let onset := l.origin + l.next * l.spec.interval
    let level := min l.spec.level l.requestCap
    let fire := onset - slot (s.bell l.spec.bell).cal.flight level 0
    let entry : Entry :=
      { fire := fire, orig := fire, onset := onset, bell := l.spec.bell, level := level, origin := .toll
        slip := l.request.slip, serial := some (l.next + 1), slipped := false }
    let passed (phase : LanePhase) (summary : Summary) : TollLane :=
      { l with
        lastOnset := some onset, next := l.next + 1, lag := false, summary := summary
        phase := if l.strokes ≤ l.next + 1 then .draining .done else phase }
    (l.phase.runs = false → s.expandToll = s) ∧
    (l.phase.runs = true →
      ((l.spec.bell < 1 ∨ s.bellCount < l.spec.bell) → s.expandToll =
        { s with toll := some (passed l.phase { l.summary with range := l.summary.range + 1 }) }) ∧
      (1 ≤ l.spec.bell → l.spec.bell ≤ s.bellCount →
        (s.queue.length + s.waiting.length < 64 → s.expandToll = { s.enqueue entry with
          toll := some (passed .playing { l.summary with queued := l.summary.queued + 1 }) }) ∧
        (64 ≤ s.queue.length + s.waiting.length → s.expandToll = { s with toll := some { l with lag := true } })))) ∧
  ((∀ m : Summary, summaryFields m =
    [.word .QUEUED, .num m.queued, .word .FIRED, .num m.fired, .word .SLIPPED, .num m.slipped,
      .word .THROTTLED, .num m.throttled, .word .RANGE, .num m.range, .word .REPEAT, .num m.repeated,
      .word .POWER, .num m.power, .word .HEAT, .num m.heat, .word .FAULT, .num m.fault,
      .word .SUPPLY, .num m.supply, .word .STOP, .num m.stop]) ∧
  endWord .done = .word .DONE ∧ endWord .stop = .word .STOP ∧ endWord .cut = .word .CUT ∧
  endWord .supply = .word .SUPPLY)

/-! ## The calendar schedule -/

/-- ENTRY, ENTRY CLEAR, HOLD, QUIET and QUIET CLEAR: what each writes and replies, and what is refused. The count is the
number of entries whose pending contents differ from the live ones. An ENTRY line is its time fields, in any order and
none twice, HOURS and MINUTES among them, and then one action; a QUIET line its five fields, in any order, each once;
a line of any other form is refused. The number of digits of the entry's own number is the model's reading (assumption
19), and so is where the reply of ENTRY shows the stored values of its clamped fields (assumption 24). That QUIET
CLEAR refuses a further field is its reading too (assumption 8). -/
def Obligations.ScheduleEdited : Prop :=
  (∀ s : State, s.changed = ((List.range' 1 48).filter (fun k => slot s.draft k none != slot s.live k none)).length) ∧
  (∀ (fields : List Text) (e : ScheduleEntry) (shown : List Fld),
    readEntry fields = some (e, shown) ↔ EntryForm fields e shown) ∧
  (∀ (fields : List Text) (q : QuietRule), readQuiet fields = some q ↔ QuietForm fields q) ∧
  ∀ (s : State) (tag f : Text) (n : Nat), s.canExecute = true → readNat f = some n →
    let pending (k : Nat) (e : Option ScheduleEntry) (shown : List Fld) : State :=
      let u : State := { s with draft := setSlot s.draft k e }
      u.ok tag ([.num k, .word .PENDING, .word .CHANGED, .num u.changed] ++ shown)
    let ruled (q : Nat) (r : Option QuietRule) : State :=
      State.ok { s with quiet := setSlot s.quiet q r } tag (.num q :: quietFields r)
    (1 ≤ n → n ≤ 48 →
      (∀ rest e shown, f.length ≤ 6 → readEntry rest = some (e, shown) →
        exec (.entry tag (f :: rest)) s = .next (pending n (some e) shown)) ∧
      (∀ rest, (6 < f.length ∨ readEntry rest = none) → exec (.entry tag (f :: rest)) s = .next (s.err tag .arg)) ∧
      exec (.entryClear tag f []) s = .next (pending n none [])) ∧
    (1 ≤ n → n ≤ 8 →
      (∀ rest r, readQuiet rest = some r → exec (.quiet tag (f :: rest)) s = .next (ruled n (some r))) ∧
      (∀ rest, readQuiet rest = none → exec (.quiet tag (f :: rest)) s = .next (s.err tag .arg)) ∧
      exec (.quietClear tag f []) s = .next (ruled n none)) ∧
    (exec (.holdOn tag []) s =
      .next (State.ok { s with hold := true } tag [.word .HOLD, .word .ON, .word .CHANGED, .num s.changed])) ∧
    (exec (.holdOff tag []) s =
      .next (State.ok { s with hold := false } tag [.word .HOLD, .word .OFF, .word .CHANGED, .num s.changed])) ∧
    ∀ g more, exec (.entryClear tag f (g :: more)) s = .next (s.err tag .arg) ∧
      exec (.quietClear tag f (g :: more)) s = .next (s.err tag .arg) ∧
      exec (.holdOn tag (g :: more)) s = .next (s.err tag .arg) ∧
      exec (.holdOff tag (g :: more)) s = .next (s.err tag .arg)

/-- The crossing of a second: at a minute boundary a pending table that differs is applied unless it is held, a changed
entry's stamp made absent; then the instant two seconds on is evaluated, the entries in ascending number. An entry
that matches is stamped and makes its request; no entry matches one instant twice. When the crossing is due is the
model's reading (assumption 4). That a row whose condition does not hold changes nothing is the model's choice
(assumption 7), and so is what RESET held low leaves running (assumption 12). -/
def Obligations.BoundaryEvaluates : Prop :=
  (∀ s : State, s.boundaryDue = true ↔ s.held = false ∧ s.slewDue = false ∧ s.time.isSet = true ∧
    s.time.crossed < s.wallSecond ∧ s.time.crossed + 1 < wallEnd) ∧
  (∀ s : State, s.boundaryDue = false → exec .secondBoundary s = .next s) ∧
  (∀ s : State, s.boundaryDue = true →
    let t := s.time.crossed + 1
    let u : State := { s with time := { s.time with crossed := t } }
    let applied : State :=
      { u with
        live := s.draft
        stamps := Vector.ofFn fun i : Fin 48 => if s.draft[i] = s.live[i] then s.stamps[i] else none }
    exec .secondBoundary s = .next (State.evaluate (t + 2) .ordinary
      (if t % 60 = 0 ∧ s.hold = false ∧ s.draft ≠ s.live then applied else u, [])).1) ∧
  (∀ (s : State) (k instant : Nat) (missed : List (Nat × Nat)),
    let stamped : State := { s with stamps := setSlot s.stamps k (some instant) }
    (s.matchOf k instant = none → State.evaluateEntry instant .ordinary (s, missed) k = (s, missed)) ∧
    ∀ e, s.matchOf k instant = some e → State.evaluateEntry instant .ordinary (s, missed) k =
      (stamped.offerQuiet (s.scheduled k e ((instant : Int) * 10000 - s.time.offset)) instant, missed)) ∧
  (∀ (instant : Nat) (disposal : Disposal) (acc : State × List (Nat × Nat)),
    State.evaluate instant disposal acc = (List.range' 1 48).foldl (State.evaluateEntry instant disposal) acc) ∧
  (∀ (s : State) (k instant : Nat) (e : ScheduleEntry), s.matchOf k instant = some e ↔
    slot s.live k none = some e ∧ e.matchesAt instant = true ∧ ∀ t, slot s.stamps k none = some t → t < instant) ∧
  (∀ (s : State) (k : Nat) (e : ScheduleEntry) (start : Int),
    let made (play : Play) (cap : Nat) : PlayRequest :=
      { id := 0, source := .schedule k, play := play, start := some start, arrival := s.now
        latest := start + (e.expiry : Int) * 10000, cap := cap, slip := 150, force := e.force, cutGiven := false }
    (∀ spec cap, e.action = .tune spec cap → s.scheduled k e start = made (.tune spec) cap) ∧
      ∀ spec, e.action = .toll spec → s.scheduled k e start = made (.toll spec) 7) ∧
  ∀ (s : State) (instant k : Nat) (disposal : Disposal), 1 ≤ k → k ≤ 48 →
    ((State.evaluate instant disposal (s, [])).1).matchOf k instant = none

/-- The date, time and weekday of an instant: days counted from 2000-01-01, a Saturday, with every fourth year a leap
year, weekdays numbered from MO. When a schedule entry matches an instant, and a quiet rule covers one; and what the
quiet rules that apply do, taken in ascending number: the lowest-numbered SILENCE rule silences a tune, and otherwise
the level cap is lowered to the least; a request with force, or made while the wall clock is UNSET, is let be. -/
def Obligations.MatchingAndQuiet : Prop :=
  (∀ instant : Nat,
    let c := civil instant
    let years := c.year - 2000
    let lengths : List Nat := [31, if c.year % 4 = 0 then 29 else 28, 31, 30, 31, 30, 31, 31, 30, 31, 30, 31]
    c.hour = instant / 3600 % 24 ∧ c.minute = instant / 60 % 60 ∧ c.second = instant % 60 ∧
    (civil 0).weekday = 5 ∧ c.weekday < 7 ∧ (civil (instant + 86400)).weekday = (c.weekday + 1) % 7 ∧
    c.weekday = (civil (instant / 86400 * 86400)).weekday ∧
    (List.range 7).map dayText =
      [['M', 'O'], ['T', 'U'], ['W', 'E'], ['T', 'H'], ['F', 'R'], ['S', 'A'], ['S', 'U']] ∧
    (instant < wallEnd →
      2000 ≤ c.year ∧ c.year ≤ 2099 ∧ 1 ≤ c.month ∧ c.month ≤ 12 ∧ 1 ≤ c.day ∧ c.day ≤ lengths.getD (c.month - 1) 0 ∧
        instant / 86400 =
          365 * years + (years + 3) / 4 + (lengths.take (c.month - 1)).sum + (c.day - 1))) ∧
  (∀ (e : ScheduleEntry) (instant : Nat),
    let c := civil instant
    e.matchesAt instant = true ↔ instant < wallEnd ∧ c.hour ∈ e.hours ∧ c.minute ∈ e.minutes ∧ c.second = e.second ∧
      c.weekday ∈ e.days ∧ c.month ∈ e.months ∧
        ∀ a b, e.dates = some (a, b) →
          let upTo (x y : DayMonth) : Prop := x.month < y.month ∨ (x.month = y.month ∧ x.day ≤ y.day)
          (upTo a b ∧ upTo a ⟨c.day, c.month⟩ ∧ upTo ⟨c.day, c.month⟩ b) ∨
            (¬ upTo a b ∧ (upTo a ⟨c.day, c.month⟩ ∨ upTo ⟨c.day, c.month⟩ b))) ∧
  (∀ (q : QuietRule) (instant : Nat),
    let minute := instant / 60 % 1440
    let today := (civil instant).weekday
    let yesterday := (civil (instant + 6 * 86400)).weekday
    (q.fromMin < q.toMin → (q.covers instant = true ↔ today ∈ q.days ∧ q.fromMin ≤ minute ∧ minute < q.toMin)) ∧
    (q.toMin < q.fromMin → (q.covers instant = true ↔
      (today ∈ q.days ∧ q.fromMin ≤ minute) ∨ (yesterday ∈ q.days ∧ minute < q.toMin))) ∧
    (q.fromMin = q.toMin → (q.covers instant = true ↔ today ∈ q.days))) ∧
  (∀ (s : State) (instant q : Nat) (r : QuietRule), (q, r) ∈ s.quietAt instant ↔
    1 ≤ q ∧ q ≤ 8 ∧ slot s.quiet q none = some r ∧ r.covers instant = true) ∧
  (∀ (s : State) (instant : Nat), (s.quietAt instant).Pairwise (fun x y => x.1 < y.1)) ∧
  (∀ (rules : List (Nat × QuietRule)) (cap c : Nat), quietVerdict rules true cap = .capped c ↔
    c ≤ cap ∧ (∀ r ∈ rules, c ≤ r.2.tollCap) ∧ (c = cap ∨ ∃ r ∈ rules, c = r.2.tollCap)) ∧
  (∀ (rules : List (Nat × QuietRule)) (cap : Nat),
    ((∀ r ∈ rules, r.2.tune ≠ .silence) → ∀ c, quietVerdict rules false cap = .capped c ↔
      c ≤ cap ∧ (∀ r ∈ rules, ∀ level, r.2.tune = .cap level → c ≤ level) ∧
        (c = cap ∨ ∃ r ∈ rules, r.2.tune = .cap c)) ∧
    ∀ before q r after, rules = before ++ (q, r) :: after → (∀ x ∈ before, x.2.tune ≠ .silence) →
      r.tune = .silence → quietVerdict rules false cap = .silenced q) ∧
  ∀ (s : State) (r : PlayRequest) (instant : Nat),
    ((r.force = true ∨ s.time.isSet = false) → s.offerQuiet r instant = s.offerReported r) ∧
    (r.force = false → s.time.isSet = true →
      (∀ q, quietVerdict (s.quietAt instant) r.isToll r.cap = .silenced q →
        s.offerQuiet r instant = s.post .quiet (sourceFields r.source ++ [.num q])) ∧
      ∀ c, quietVerdict (s.quietAt instant) r.isToll r.cap = .capped c →
        s.offerQuiet r instant = s.offerReported { r with cap := c })

/-! ## Tower time -/

/-- TIME: held while LOCKED, and otherwise applied at once: the wall clock set from UNSET, a correction of at most 1000
grains slewed, a larger one stepped. A step posts STEP and, forward, is answered by the schedule: each skipped instant
is ordinary, a catch-up or missed, the missed ones reported once for each entry with their number and the latest of
them. The sign that the SLEW and STEP replies always write is the model's (assumption 11), and so is the second that
counts as crossed at a setting (assumption 4). Which boundaries a step takes is the model's reading (assumption 18).
Whether a correction counts in the slew still pending is free, save that it never takes the wall clock below its range
(assumption 27). -/
def Obligations.TimeSetsWallClock : Prop :=
  (∀ (s : State) (tag date time : Text) (instant : Nat), s.canExecute = true → readWall date time = some instant →
    let counted : Int :=
      if Config.slewCounted = true ∧ s.time.slew ≤ (instant : Int) * 10000 then s.time.slew else 0
    let d : Int := (instant : Int) * 10000 - ((s.now : Int) + s.time.offset + counted)
    (s.time.sync = .locked → exec (.time tag [date, time]) s = .next
      (State.ok { s with time := { s.time with pendingTime := some instant } } tag [.word .PENDING, .wall instant])) ∧
    (s.time.sync ≠ .locked →
      (s.time.isSet = false → exec (.time tag [date, time]) s = .next
        (State.post
          { s.ok tag [.word .SET, .wall instant] with
            time :=
              { s.time with
                offset := (instant : Int) * 10000 - (s.now : Int), isSet := true, slew := 0, crossed := instant } }
          .set [.wall instant])) ∧
      (s.time.isSet = true → -1000 ≤ d → d ≤ 1000 → exec (.time tag [date, time]) s = .next
        { s.ok tag [.word .SLEW, .signed d] with time := { s.time with slew := d } }) ∧
      (s.time.isSet = true → (d < -1000 ∨ 1000 < d) → exec (.time tag [date, time]) s = .next
        ((s.ok tag [.word .STEP, .signed d]).stepWall d)))) ∧
  (∀ (s : State) (instant : Nat),
    let counted : Int :=
      if Config.slewCounted = true ∧ s.time.slew ≤ (instant : Int) * 10000 then s.time.slew else 0
    let d : Int := (instant : Int) * 10000 - ((s.now : Int) + s.time.offset + counted)
    (s.time.isSet = false → s.applyTime instant = State.post
      { s with
        time :=
          { s.time with
            offset := (instant : Int) * 10000 - (s.now : Int), isSet := true, slew := 0, crossed := instant } }
      .set [.wall instant]) ∧
    (s.time.isSet = true → -1000 ≤ d → d ≤ 1000 → s.applyTime instant = { s with time := { s.time with slew := d } }) ∧
    (s.time.isSet = true → (d < -1000 ∨ 1000 < d) → s.applyTime instant = s.stepWall d)) ∧
  (∀ (s : State) (tag : Text) (fields : List Text), s.canExecute = true →
    (∀ date time, fields = [date, time] → readWall date time = none) →
      exec (.time tag fields) s = .next (s.err tag .arg)) ∧
  (∀ (s : State) (d : Int),
    let stepped : State := { s with time := { s.time with offset := s.time.offset + d, slew := 0 } }
    let reported : State := stepped.post .step [.signed d, .wall stepped.wallSecond]
    (d ≤ 0 → s.stepWall d =
      { reported with time := { reported.time with crossed := stepped.wallSecond } }) ∧
    (0 < d → s.stepWall d = reported.afterForwardStep s.time.crossed)) ∧
  (∀ (s : State) (crossed : Nat),
    let last := s.wallSecond
    let u : State := { s with time := { s.time with crossed := last } }
    let applied := if crossed / 60 < last / 60 then u.applyDraft else u
    let done := State.evaluateSpan (last - crossed) (crossed + 1) (applied, [])
    s.afterForwardStep crossed = (List.range' 1 48).foldl (State.reportMissed done.2) done.1) ∧
  (∀ (missed : List (Nat × Nat)) (s : State) (k : Nat),
    ((∀ x ∈ missed, x.1 ≠ k) → State.reportMissed missed s k = s) ∧
    ∀ before latest after, missed = before ++ (k, latest) :: after → (∀ x ∈ after, x.1 ≠ k) →
      State.reportMissed missed s k =
        s.post .missed [.num k, .num ((before.filter (fun x => x.1 == k)).length + 1), .wall latest]) ∧
  (∀ (s : State) (missed : List (Nat × Nat)) (count boundary : Nat),
    State.evaluateSpan 0 boundary (s, missed) = (s, missed) ∧
    State.evaluateSpan (count + 1) boundary (s, missed) =
      State.evaluateSpan count (boundary + 1)
        (State.evaluate (boundary + 2) (s.disposalOf (boundary + 2)) (s, missed))) ∧
  (∀ (s : State) (instant : Nat),
    let equivalent : Int := (instant : Int) * 10000 - s.time.offset
    ((s.now : Int) + 2500 ≤ equivalent → s.disposalOf instant = .ordinary) ∧
    (equivalent < (s.now : Int) + 2500 → s.wall - 600000 ≤ (instant : Int) * 10000 →
      s.disposalOf instant = .catchUp) ∧
    (equivalent < (s.now : Int) + 2500 → (instant : Int) * 10000 < s.wall - 600000 →
      s.disposalOf instant = .missed)) ∧
  ∀ (s : State) (k instant : Nat) (missed : List (Nat × Nat)) (e : ScheduleEntry), s.matchOf k instant = some e →
    let stamped : State := { s with stamps := setSlot s.stamps k (some instant) }
    State.evaluateEntry instant .missed (s, missed) k = (stamped, missed ++ [(k, instant)]) ∧
    State.evaluateEntry instant .catchUp (s, missed) k =
      (stamped.offerQuiet (s.scheduled k e ((s.now : Int) + 2500)) instant, missed)

/-- A slew tick at a multiple of 500, once: it moves one grain of the pending slew to the offset, and none where no slew
is pending. A slew set at that value before the tick is moved by it; one set after it waits for the next. The end of
the wall clock's range makes it UNSET, ends the slew, discards a pending TIME and reports it. That a tick is an event
taken once at its grain is the model's choice (assumption 4). That a row whose condition does not hold changes nothing
is the model's choice (assumption 7), and so is what RESET held low leaves running (assumption 12). -/
def Obligations.SlewAndRangeEnd : Prop :=
  (∀ s : State, s.tickDue = true ↔ s.held = false ∧ s.now % 500 = 0 ∧ s.time.slewedAt ≠ some s.now) ∧
  (∀ s : State, s.slewDue = true ↔ s.tickDue = true ∧ s.time.slew ≠ 0) ∧
  (∀ s : State, s.tickDue = false → exec .slewTick s = .next s) ∧
  (∀ s : State, s.tickDue = true →
    (s.time.slew = 0 → exec .slewTick s = .next { s with time := { s.time with slewedAt := some s.now } }) ∧
    (0 < s.time.slew → exec .slewTick s = .next
      { s with
        time :=
          { s.time with offset := s.time.offset + 1, slew := s.time.slew - 1, slewedAt := some s.now } }) ∧
    (s.time.slew < 0 → exec .slewTick s = .next
      { s with
        time :=
          { s.time with offset := s.time.offset - 1, slew := s.time.slew + 1, slewedAt := some s.now } })) ∧
  (∀ s t : State, s.tickDue = true → exec .slewTick s = .next t → t.tickDue = false ∧
    t.time.offset + t.time.slew = s.time.offset + s.time.slew ∧ t.time.slew.natAbs = s.time.slew.natAbs - 1) ∧
  (∀ (s t : State) (d : Int), s.tickDue = true → exec .slewTick s = .next t →
    let set (u : State) : State := { u with time := { u.time with slew := d } }
    (set s).tickDue = true ∧ exec .slewTick (set t) = .next (set t)) ∧
  (∀ s : State, s.rangeEndDue = true ↔ s.held = false ∧ s.slewDue = false ∧ s.time.isSet = true ∧
    (wallEnd : Int) * 10000 ≤ (s.now : Int) + s.time.offset) ∧
  (∀ s : State, s.rangeEndDue = false → exec .wallClockRangeEnd s = .next s) ∧
  ∀ s : State, s.rangeEndDue = true → exec .wallClockRangeEnd s = .next (State.post
    { s with time := { s.time with isSet := false, slew := 0, pendingTime := none } } .set [.word .UNSET])

/-- SYNC; the pulses in each sync state; and the loss of the pulse. Three good intervals in a row lock; entering LOCKED
from ACQUIRE a phase error above 1000 grains is stepped where the range allows it, and otherwise it is slewed; in
LOCKED a good pulse applies a pending TIME or slews the phase, and a bad one does nothing. That a row whose condition
does not hold changes nothing is the model's choice (assumption 7), and so is what RESET held low leaves running
(assumption 12). -/
def Obligations.SyncFollowsPulses : Prop :=
  (∀ (s : State) (tag : Text), s.canExecute = true →
    let freed : State :=
      { s with time := { s.time with source := .free, sync := .free, qualified := 0, lastPulse := none } }
    let acquiring : State :=
      { s with time := { s.time with source := .pulse, sync := .acquire, qualified := 0, lastPulse := none } }
    (s.time.source = .pulse → exec (.syncFree tag []) s = .next
      (((freed.ok tag [.word .SYNC, .word .FREE, .word .FREE]).post .clock [.word .FREE]).applyPending)) ∧
    (s.time.source = .free → exec (.syncPulse tag []) s = .next
      ((acquiring.ok tag [.word .SYNC, .word .PULSE, .word .ACQUIRE]).post .clock [.word .ACQUIRE])) ∧
    (s.time.source = .free → exec (.syncFree tag []) s =
      .next (s.ok tag [.word .SYNC, .word .FREE, syncWord s.time.sync])) ∧
    (s.time.source = .pulse → exec (.syncPulse tag []) s =
      .next (s.ok tag [.word .SYNC, .word .PULSE, syncWord s.time.sync])) ∧
    ∀ g more, exec (.syncFree tag (g :: more)) s = .next (s.err tag .arg) ∧
      exec (.syncPulse tag (g :: more)) s = .next (s.err tag .arg)) ∧
  (∀ s : State, (s.held = true ∨ s.time.sync = .free) → exec .secpulseEdge s = .next s) ∧
  (∀ s : State, s.goodInterval = true ↔ ∃ p, s.time.lastPulse = some p ∧ 9990 ≤ s.now - p ∧ s.now - p ≤ 10010) ∧
  (∀ s : State, s.phaseError ≤ 4999 ∧ -5000 ≤ s.phaseError ∧ ∃ n : Int, s.wall = 10000 * n + s.phaseError) ∧
  (∀ s : State, s.held = false → s.time.sync = .locked →
    let pulsed : State := { s with time := { s.time with lastPulse := some s.now } }
    (s.goodInterval = false → exec .secpulseEdge s = .next s) ∧
    (s.goodInterval = true →
      (∀ instant, s.time.pendingTime = some instant → exec .secpulseEdge s = .next
        (State.applyTime { pulsed with time := { pulsed.time with pendingTime := none } } instant)) ∧
      (s.time.pendingTime = none →
        (s.time.isSet = true → exec .secpulseEdge s = .next
          { pulsed with time := { pulsed.time with slew := -s.phaseError } }) ∧
        (s.time.isSet = false → exec .secpulseEdge s = .next pulsed)))) ∧
  (∀ s : State, s.held = false → (s.time.sync = .acquire ∨ s.time.sync = .holdover) →
    let count := if s.goodInterval then s.time.qualified + 1 else 0
    let pulsed : State := { s with time := { s.time with qualified := count, lastPulse := some s.now } }
    let locked : State :=
      State.post { pulsed with time := { pulsed.time with sync := .locked, qualified := 0 } } .clock [.word .LOCKED]
    (count < 3 → exec .secpulseEdge s = .next pulsed) ∧
    (3 ≤ count →
      (s.time.isSet = false → exec .secpulseEdge s = .next locked) ∧
      (s.time.isSet = true → s.time.sync = .acquire → 1000 < s.phaseError.natAbs →
        0 ≤ s.wall - s.phaseError → s.wall - s.phaseError < (wallEnd : Int) * 10000 →
          exec .secpulseEdge s = .next (locked.stepWall (-s.phaseError))) ∧
      (s.time.isSet = true →
        (s.time.sync = .holdover ∨ s.phaseError.natAbs ≤ 1000 ∨ s.wall - s.phaseError < 0 ∨
          (wallEnd : Int) * 10000 ≤ s.wall - s.phaseError) →
        exec .secpulseEdge s = .next { locked with time := { locked.time with slew := -s.phaseError } }))) ∧
  (∀ s : State, s.pulseLossDue = true ↔ s.held = false ∧ s.time.sync = .locked ∧
    ∃ p, s.time.lastPulse = some p ∧ p + 15000 ≤ s.now) ∧
  (∀ s : State, s.pulseLossDue = false → exec .pulseLoss s = .next s) ∧
  (∀ s : State, s.pulseLossDue = true → exec .pulseLoss s = .next
    ((State.post { s with time := { s.time with sync := .holdover, qualified := 0 } } .clock
      [.word .HOLDOVER]).applyPending)) ∧
  ∀ s : State, (s.time.pendingTime = none → s.applyPending = s) ∧
    ∀ instant, s.time.pendingTime = some instant →
      s.applyPending = State.applyTime { s with time := { s.time with pendingTime := none } } instant

/-! ## Cue lines and coil supply -/

/-- A cue line: away from its settled level its debounce timer runs, back at it the timer is idle; a full debounce is an
accepted change, and a press sets the latch whatever the enable. A cue that is enabled, latched and with no request
active acts: it clears its latch and makes its request, or stops the tune at its bar. When a cue acts is the model's
reading (assumption 17), and that each of several changes of a line in one grain is taken is its choice (assumption
28). That a row whose condition does not hold changes nothing is the model's choice (assumption 7), and so is what
RESET held low leaves running (assumption 12). -/
def Obligations.CueLinesLatchAndAct : Prop :=
  (∀ (s : State) (c : Nat), 1 ≤ c → c ≤ 4 →
    let high := !s.cueLevel c
    let u : State := { s with pins := { s.pins with cue := setSlot s.pins.cue c high } }
    let r := s.cue c
    (s.held = true → exec (.cueLineChange c) s = .next u) ∧
    (s.held = false → high = r.settled → exec (.cueLineChange c) s = .next (u.setCue c { r with timer := none })) ∧
    (s.held = false → high ≠ r.settled →
      (r.timer = none → exec (.cueLineChange c) s =
        .next (u.setCue c { r with timer := some ⟨s.now, r.config.debounce⟩ })) ∧
      (r.timer ≠ none → exec (.cueLineChange c) s = .next u)) ∧
    (s.debounceDue c = true ↔ s.held = false ∧ s.cueLevel c ≠ r.settled ∧
      ∃ t, r.timer = some t ∧ t.start + t.length ≤ s.now) ∧
    (s.debounceDue c = false → exec (.cueDebounceExpire c) s = .next s) ∧
    (s.debounceDue c = true →
      let press :=
        (s.cueLevel c = true ∧ (r.config.edge = .rise ∨ r.config.edge = .both)) ∨
          (s.cueLevel c = false ∧ (r.config.edge = .fall ∨ r.config.edge = .both))
      ∃ latch, (latch = true ↔ r.latch = true ∨ press) ∧
        exec (.cueDebounceExpire c) s = .next
          ((s.setCue c { r with settled := s.cueLevel c, timer := none, latch := latch }).settleCues 4)) ∧
    (s.cueReady c = true ↔ r.config.enable = true ∧ r.latch = true ∧ r.config.action ≠ .none ∧
      (∀ q ∈ s.playQueue, q.source ≠ .cue c) ∧ (∀ l, s.tune = some l → l.request.source ≠ .cue c) ∧
        ∀ l, s.toll = some l → l.request.source ≠ .cue c) ∧
    let cleared : State := s.setCue c { r with latch := false }
    let made (play : Play) (cap slip wait : Nat) : PlayRequest :=
      { id := 0, source := .cue c, play := play, start := none, arrival := s.now
        latest := (s.now : Int) + (wait : Int) * 10000, cap := cap, slip := slip, force := r.config.force
        cutGiven := false }
    (∀ spec cap slip wait, r.config.action = .tune spec cap slip wait →
      s.cueAct c = cleared.offerQuiet (made (.tune spec) cap slip wait) s.wallSecond) ∧
    (∀ spec cap slip wait, r.config.action = .toll spec cap slip wait →
      s.cueAct c = cleared.offerQuiet (made (.toll spec) cap slip wait) s.wallSecond) ∧
    (r.config.action = .stop → s.cueAct c = (cleared.barStopTune .stop).settleLanes)) ∧
  (∀ (s : State) (fuel : Nat), (∀ c ∈ [1, 2, 3, 4], s.cueReady c = false) → s.settleCues fuel = s) ∧
  ∀ (s : State) (c : Nat), c ∈ [1, 2, 3, 4] → s.cueReady c = true →
    (∀ d ∈ [1, 2, 3, 4], d ≠ c → s.cueReady d = false) →
      ∀ fuel, s.settleCues (fuel + 1) = (s.cueAct c).settleCues fuel

/-- CUE writes the settings given, in any order, none twice, ACTION with its action last, and keeps the rest; a line of
any other form is refused. ENABLE needs an action, and a latched press is acted on after the reply; DISABLE and CLEAR;
each replies with the record, and each refuses a further field. The number of digits of the cue's own number is the
model's reading (assumption 19). -/
def Obligations.CueRequestsConfigure : Prop :=
  (∀ (fields : List Text) (g : CueSettings), readCueSettings fields = some g ↔ CueSettingsForm fields g) ∧
  ∀ (s : State) (tag f : Text) (c : Nat), s.canExecute = true → readNat f = some c →
    (1 ≤ c → c ≤ 4 →
      let r := s.cue c
      let written (config : CueConfig) : State := s.setCue c { r with config := config }
      (∀ settings g, f.length ≤ 6 → readCueSettings settings = some g →
        exec (.cue tag (f :: settings)) s = .next
          ((written
            { r.config with
              edge := g.edge.getD r.config.edge, debounce := g.debounce.getD r.config.debounce
              force := g.force.getD r.config.force, action := g.action.getD r.config.action }).okCue tag c)) ∧
      (∀ settings, (6 < f.length ∨ readCueSettings settings = none) →
        exec (.cue tag (f :: settings)) s = .next (s.err tag .arg)) ∧
      (r.config.action = .none → exec (.cueEnable tag f []) s = .next (s.err tag .notready)) ∧
      (r.config.action ≠ .none → r.config.enable = true →
        exec (.cueEnable tag f []) s = .next (s.okCue tag c)) ∧
      (r.config.action ≠ .none → r.config.enable = false → exec (.cueEnable tag f []) s =
        .next (((written { r.config with enable := true }).okCue tag c).settleCues 4)) ∧
      (exec (.cueDisable tag f []) s = .next ((written { r.config with enable := false }).okCue tag c)) ∧
      (exec (.cueClear tag f []) s = .next ((s.setCue c { r with latch := false }).okCue tag c)) ∧
      ∀ g more, exec (.cueEnable tag f (g :: more)) s = .next (s.err tag .arg) ∧
        exec (.cueDisable tag f (g :: more)) s = .next (s.err tag .arg) ∧
        exec (.cueClear tag f (g :: more)) s = .next (s.err tag .arg))

/-- The coil-supply monitor, move by move: the changes of SUPGOOD, the loss after 20,000 grains with both lanes stopped
NOW, the TUNE lane first, and the recovery after 10,000; windows open when the supply leaves GOOD are no longer clean.
That a row whose condition does not hold changes nothing is the model's choice (assumption 7), and so is what RESET
held low leaves running (assumption 12). That a refused stroke of the TOLL lane is not offered a slot that the TUNE
lane's stop frees before the TOLL lane's own stop is the model's choice (assumption 23), and so is that each of
several changes of SUPGOOD in one grain is taken (assumption 28). -/
def Obligations.SupplyMonitorMoves : Prop :=
  ∀ s : State,
    let low : State := { s with pins := { s.pins with supgood := false } }
    let high : State := { s with pins := { s.pins with supgood := true } }
    let soiled : State :=
      { low with
        supply := .dip s.now
        bells := s.bells.map (fun r => { r with window := r.window.map (fun w => { w with clean := false }) }) }
    (s.pins.supgood = false → exec .supgoodFall s = .next s) ∧ (s.pins.supgood = true → exec .supgoodRise s = .next s) ∧
    (s.pins.supgood = true →
      (s.held = true → exec .supgoodFall s = .next low) ∧
      (s.held = false →
        (s.supply = .good → exec .supgoodFall s = .next (soiled.post .supply [.word .DIP])) ∧
        (∀ start, s.supply = .recovering start → exec .supgoodFall s = .next { low with supply := .dip s.now }) ∧
        ((s.supply = .lost ∨ ∃ start, s.supply = .dip start) → exec .supgoodFall s = .next low))) ∧
    (s.pins.supgood = false →
      (s.held = true → exec .supgoodRise s = .next high) ∧
      (s.held = false →
        ((s.supply = .lost ∨ ∃ start, s.supply = .dip start) →
          exec .supgoodRise s = .next { high with supply := .recovering s.now }) ∧
        ((s.supply = .good ∨ ∃ start, s.supply = .recovering start) → exec .supgoodRise s = .next high))) ∧
    ((s.held = true ∨ ∀ start, s.supply = .dip start → s.now < start + 20000) → exec .supplyLost s = .next s) ∧
    (∀ start, s.held = false → s.supply = .dip start → start + 20000 ≤ s.now → exec .supplyLost s =
      .next ((((State.post { s with supply := .lost } .supply [.word .LOST]).stopTuneNow .supply).stopTollNow
        .supply).settle)) ∧
    ((s.held = true ∨ ∀ start, s.supply = .recovering start → s.now < start + 10000) →
      exec .supplyGood s = .next s) ∧
    ∀ start, s.held = false → s.supply = .recovering start → start + 10000 ≤ s.now →
      exec .supplyGood s = .next (State.post { s with supply := .good } .supply [.word .GOOD])
end

