-- ==== Sys2Proof/Laws/State.lean ====
section
/-! SUPPORT. The updates of the state: for each, the value of the field it writes and the fields it leaves alone, so
that no later proof unfolds a record update. -/

namespace Sys2Proof.Machine

/-- It can change no field but bells. -/
@[simp] theorem State.setBell_frame (s : State) (b : Nat) (r : Bell) :
    (s.setBell b r).bells = setSlot s.bells b r ∧ (s.setBell b r).pending = s.pending
      ∧ (s.setBell b r).choices = s.choices ∧ (s.setBell b r).held = s.held ∧ (s.setBell b r).pins = s.pins
      ∧ (s.setBell b r).cause = s.cause ∧ (s.setBell b r).bellCount = s.bellCount
      ∧ (s.setBell b r).coilBudget = s.coilBudget ∧ (s.setBell b r).lineRate = s.lineRate
      ∧ (s.setBell b r).time = s.time ∧ (s.setBell b r).queue = s.queue ∧ (s.setBell b r).waiting = s.waiting
      ∧ (s.setBell b r).coils = s.coils ∧ (s.setBell b r).melodies = s.melodies ∧ (s.setBell b r).pool = s.pool
      ∧ (s.setBell b r).playQueue = s.playQueue ∧ (s.setBell b r).lastId = s.lastId
      ∧ (s.setBell b r).tune = s.tune ∧ (s.setBell b r).toll = s.toll ∧ (s.setBell b r).live = s.live
      ∧ (s.setBell b r).draft = s.draft ∧ (s.setBell b r).stamps = s.stamps ∧ (s.setBell b r).hold = s.hold
      ∧ (s.setBell b r).quiet = s.quiet ∧ (s.setBell b r).cues = s.cues ∧ (s.setBell b r).supply = s.supply
      ∧ (s.setBell b r).serial = s.serial ∧ (s.setBell b r).store = s.store ∧ (s.setBell b r).image = s.image := by
  and_intros <;> rfl

/-- It can change no field but bells. -/
@[simp] theorem State.modBell_frame (s : State) (b : Nat) (f : Bell → Bell) :
    (s.modBell b f).bells = setSlot s.bells b (f (s.bell b)) ∧ (s.modBell b f).pending = s.pending
      ∧ (s.modBell b f).choices = s.choices ∧ (s.modBell b f).held = s.held ∧ (s.modBell b f).pins = s.pins
      ∧ (s.modBell b f).cause = s.cause ∧ (s.modBell b f).bellCount = s.bellCount
      ∧ (s.modBell b f).coilBudget = s.coilBudget ∧ (s.modBell b f).lineRate = s.lineRate
      ∧ (s.modBell b f).time = s.time ∧ (s.modBell b f).queue = s.queue ∧ (s.modBell b f).waiting = s.waiting
      ∧ (s.modBell b f).coils = s.coils ∧ (s.modBell b f).melodies = s.melodies ∧ (s.modBell b f).pool = s.pool
      ∧ (s.modBell b f).playQueue = s.playQueue ∧ (s.modBell b f).lastId = s.lastId
      ∧ (s.modBell b f).tune = s.tune ∧ (s.modBell b f).toll = s.toll ∧ (s.modBell b f).live = s.live
      ∧ (s.modBell b f).draft = s.draft ∧ (s.modBell b f).stamps = s.stamps ∧ (s.modBell b f).hold = s.hold
      ∧ (s.modBell b f).quiet = s.quiet ∧ (s.modBell b f).cues = s.cues ∧ (s.modBell b f).supply = s.supply
      ∧ (s.modBell b f).serial = s.serial ∧ (s.modBell b f).store = s.store ∧ (s.modBell b f).image = s.image := by
  and_intros <;> rfl

/-- It can change no field but melodies. -/
@[simp] theorem State.setMelody_frame (s : State) (m : Nat) (h : Melody) :
    (s.setMelody m h).melodies = setSlot s.melodies m h ∧ (s.setMelody m h).pending = s.pending
      ∧ (s.setMelody m h).choices = s.choices ∧ (s.setMelody m h).held = s.held
      ∧ (s.setMelody m h).pins = s.pins ∧ (s.setMelody m h).cause = s.cause
      ∧ (s.setMelody m h).bellCount = s.bellCount ∧ (s.setMelody m h).coilBudget = s.coilBudget
      ∧ (s.setMelody m h).lineRate = s.lineRate ∧ (s.setMelody m h).time = s.time
      ∧ (s.setMelody m h).bells = s.bells ∧ (s.setMelody m h).queue = s.queue
      ∧ (s.setMelody m h).waiting = s.waiting ∧ (s.setMelody m h).coils = s.coils
      ∧ (s.setMelody m h).pool = s.pool ∧ (s.setMelody m h).playQueue = s.playQueue
      ∧ (s.setMelody m h).lastId = s.lastId ∧ (s.setMelody m h).tune = s.tune ∧ (s.setMelody m h).toll = s.toll
      ∧ (s.setMelody m h).live = s.live ∧ (s.setMelody m h).draft = s.draft
      ∧ (s.setMelody m h).stamps = s.stamps ∧ (s.setMelody m h).hold = s.hold
      ∧ (s.setMelody m h).quiet = s.quiet ∧ (s.setMelody m h).cues = s.cues
      ∧ (s.setMelody m h).supply = s.supply ∧ (s.setMelody m h).serial = s.serial
      ∧ (s.setMelody m h).store = s.store ∧ (s.setMelody m h).image = s.image := by
  and_intros <;> rfl

/-- It can change no field but cues. -/
@[simp] theorem State.setCue_frame (s : State) (c : Nat) (r : Cue) :
    (s.setCue c r).cues = setSlot s.cues c r ∧ (s.setCue c r).pending = s.pending
      ∧ (s.setCue c r).choices = s.choices ∧ (s.setCue c r).held = s.held ∧ (s.setCue c r).pins = s.pins
      ∧ (s.setCue c r).cause = s.cause ∧ (s.setCue c r).bellCount = s.bellCount
      ∧ (s.setCue c r).coilBudget = s.coilBudget ∧ (s.setCue c r).lineRate = s.lineRate
      ∧ (s.setCue c r).time = s.time ∧ (s.setCue c r).bells = s.bells ∧ (s.setCue c r).queue = s.queue
      ∧ (s.setCue c r).waiting = s.waiting ∧ (s.setCue c r).coils = s.coils
      ∧ (s.setCue c r).melodies = s.melodies ∧ (s.setCue c r).pool = s.pool
      ∧ (s.setCue c r).playQueue = s.playQueue ∧ (s.setCue c r).lastId = s.lastId ∧ (s.setCue c r).tune = s.tune
      ∧ (s.setCue c r).toll = s.toll ∧ (s.setCue c r).live = s.live ∧ (s.setCue c r).draft = s.draft
      ∧ (s.setCue c r).stamps = s.stamps ∧ (s.setCue c r).hold = s.hold ∧ (s.setCue c r).quiet = s.quiet
      ∧ (s.setCue c r).supply = s.supply ∧ (s.setCue c r).serial = s.serial ∧ (s.setCue c r).store = s.store
      ∧ (s.setCue c r).image = s.image := by
  and_intros <;> rfl

/-- It can change no field but time. -/
@[simp] theorem State.modTime_frame (s : State) (f : Timebase → Timebase) :
    (s.modTime f).time = f s.time ∧ (s.modTime f).pending = s.pending ∧ (s.modTime f).choices = s.choices
      ∧ (s.modTime f).held = s.held ∧ (s.modTime f).pins = s.pins ∧ (s.modTime f).cause = s.cause
      ∧ (s.modTime f).bellCount = s.bellCount ∧ (s.modTime f).coilBudget = s.coilBudget
      ∧ (s.modTime f).lineRate = s.lineRate ∧ (s.modTime f).bells = s.bells ∧ (s.modTime f).queue = s.queue
      ∧ (s.modTime f).waiting = s.waiting ∧ (s.modTime f).coils = s.coils ∧ (s.modTime f).melodies = s.melodies
      ∧ (s.modTime f).pool = s.pool ∧ (s.modTime f).playQueue = s.playQueue ∧ (s.modTime f).lastId = s.lastId
      ∧ (s.modTime f).tune = s.tune ∧ (s.modTime f).toll = s.toll ∧ (s.modTime f).live = s.live
      ∧ (s.modTime f).draft = s.draft ∧ (s.modTime f).stamps = s.stamps ∧ (s.modTime f).hold = s.hold
      ∧ (s.modTime f).quiet = s.quiet ∧ (s.modTime f).cues = s.cues ∧ (s.modTime f).supply = s.supply
      ∧ (s.modTime f).serial = s.serial ∧ (s.modTime f).store = s.store ∧ (s.modTime f).image = s.image := by
  and_intros <;> rfl

/-- It can change no field but tune. -/
@[simp] theorem State.modTune_frame (s : State) (f : TuneLane → TuneLane) :
    (s.modTune f).tune = s.tune.map f ∧ (s.modTune f).pending = s.pending ∧ (s.modTune f).choices = s.choices
      ∧ (s.modTune f).held = s.held ∧ (s.modTune f).pins = s.pins ∧ (s.modTune f).cause = s.cause
      ∧ (s.modTune f).bellCount = s.bellCount ∧ (s.modTune f).coilBudget = s.coilBudget
      ∧ (s.modTune f).lineRate = s.lineRate ∧ (s.modTune f).time = s.time ∧ (s.modTune f).bells = s.bells
      ∧ (s.modTune f).queue = s.queue ∧ (s.modTune f).waiting = s.waiting ∧ (s.modTune f).coils = s.coils
      ∧ (s.modTune f).melodies = s.melodies ∧ (s.modTune f).pool = s.pool
      ∧ (s.modTune f).playQueue = s.playQueue ∧ (s.modTune f).lastId = s.lastId ∧ (s.modTune f).toll = s.toll
      ∧ (s.modTune f).live = s.live ∧ (s.modTune f).draft = s.draft ∧ (s.modTune f).stamps = s.stamps
      ∧ (s.modTune f).hold = s.hold ∧ (s.modTune f).quiet = s.quiet ∧ (s.modTune f).cues = s.cues
      ∧ (s.modTune f).supply = s.supply ∧ (s.modTune f).serial = s.serial ∧ (s.modTune f).store = s.store
      ∧ (s.modTune f).image = s.image := by
  and_intros <;> rfl

/-- It can change no field but toll. -/
@[simp] theorem State.modToll_frame (s : State) (f : TollLane → TollLane) :
    (s.modToll f).toll = s.toll.map f ∧ (s.modToll f).pending = s.pending ∧ (s.modToll f).choices = s.choices
      ∧ (s.modToll f).held = s.held ∧ (s.modToll f).pins = s.pins ∧ (s.modToll f).cause = s.cause
      ∧ (s.modToll f).bellCount = s.bellCount ∧ (s.modToll f).coilBudget = s.coilBudget
      ∧ (s.modToll f).lineRate = s.lineRate ∧ (s.modToll f).time = s.time ∧ (s.modToll f).bells = s.bells
      ∧ (s.modToll f).queue = s.queue ∧ (s.modToll f).waiting = s.waiting ∧ (s.modToll f).coils = s.coils
      ∧ (s.modToll f).melodies = s.melodies ∧ (s.modToll f).pool = s.pool
      ∧ (s.modToll f).playQueue = s.playQueue ∧ (s.modToll f).lastId = s.lastId ∧ (s.modToll f).tune = s.tune
      ∧ (s.modToll f).live = s.live ∧ (s.modToll f).draft = s.draft ∧ (s.modToll f).stamps = s.stamps
      ∧ (s.modToll f).hold = s.hold ∧ (s.modToll f).quiet = s.quiet ∧ (s.modToll f).cues = s.cues
      ∧ (s.modToll f).supply = s.supply ∧ (s.modToll f).serial = s.serial ∧ (s.modToll f).store = s.store
      ∧ (s.modToll f).image = s.image := by
  and_intros <;> rfl

/-- It can change no field but serial. -/
@[simp] theorem State.post_frame (s : State) (k : Kind) (fields : List Fld) :
    (s.post k fields).serial = s.serial.post (.maskable k) fields ∧ (s.post k fields).pending = s.pending
      ∧ (s.post k fields).choices = s.choices ∧ (s.post k fields).held = s.held
      ∧ (s.post k fields).pins = s.pins ∧ (s.post k fields).cause = s.cause
      ∧ (s.post k fields).bellCount = s.bellCount ∧ (s.post k fields).coilBudget = s.coilBudget
      ∧ (s.post k fields).lineRate = s.lineRate ∧ (s.post k fields).time = s.time
      ∧ (s.post k fields).bells = s.bells ∧ (s.post k fields).queue = s.queue
      ∧ (s.post k fields).waiting = s.waiting ∧ (s.post k fields).coils = s.coils
      ∧ (s.post k fields).melodies = s.melodies ∧ (s.post k fields).pool = s.pool
      ∧ (s.post k fields).playQueue = s.playQueue ∧ (s.post k fields).lastId = s.lastId
      ∧ (s.post k fields).tune = s.tune ∧ (s.post k fields).toll = s.toll ∧ (s.post k fields).live = s.live
      ∧ (s.post k fields).draft = s.draft ∧ (s.post k fields).stamps = s.stamps
      ∧ (s.post k fields).hold = s.hold ∧ (s.post k fields).quiet = s.quiet ∧ (s.post k fields).cues = s.cues
      ∧ (s.post k fields).supply = s.supply ∧ (s.post k fields).store = s.store
      ∧ (s.post k fields).image = s.image := by
  and_intros <;> rfl

/-- It can change no field but serial. -/
@[simp] theorem State.ok_frame (s : State) (tag : Text) (fields : List Fld) :
    (s.ok tag fields).serial = s.serial.reply (.ok tag fields) ∧ (s.ok tag fields).pending = s.pending
      ∧ (s.ok tag fields).choices = s.choices ∧ (s.ok tag fields).held = s.held
      ∧ (s.ok tag fields).pins = s.pins ∧ (s.ok tag fields).cause = s.cause
      ∧ (s.ok tag fields).bellCount = s.bellCount ∧ (s.ok tag fields).coilBudget = s.coilBudget
      ∧ (s.ok tag fields).lineRate = s.lineRate ∧ (s.ok tag fields).time = s.time
      ∧ (s.ok tag fields).bells = s.bells ∧ (s.ok tag fields).queue = s.queue
      ∧ (s.ok tag fields).waiting = s.waiting ∧ (s.ok tag fields).coils = s.coils
      ∧ (s.ok tag fields).melodies = s.melodies ∧ (s.ok tag fields).pool = s.pool
      ∧ (s.ok tag fields).playQueue = s.playQueue ∧ (s.ok tag fields).lastId = s.lastId
      ∧ (s.ok tag fields).tune = s.tune ∧ (s.ok tag fields).toll = s.toll ∧ (s.ok tag fields).live = s.live
      ∧ (s.ok tag fields).draft = s.draft ∧ (s.ok tag fields).stamps = s.stamps
      ∧ (s.ok tag fields).hold = s.hold ∧ (s.ok tag fields).quiet = s.quiet ∧ (s.ok tag fields).cues = s.cues
      ∧ (s.ok tag fields).supply = s.supply ∧ (s.ok tag fields).store = s.store
      ∧ (s.ok tag fields).image = s.image := by
  and_intros <;> rfl

/-- It can change no field but serial. -/
@[simp] theorem State.err_frame (s : State) (tag : Text) (code : ErrCode) :
    (s.err tag code).serial = s.serial.reply (.error tag code) ∧ (s.err tag code).pending = s.pending
      ∧ (s.err tag code).choices = s.choices ∧ (s.err tag code).held = s.held ∧ (s.err tag code).pins = s.pins
      ∧ (s.err tag code).cause = s.cause ∧ (s.err tag code).bellCount = s.bellCount
      ∧ (s.err tag code).coilBudget = s.coilBudget ∧ (s.err tag code).lineRate = s.lineRate
      ∧ (s.err tag code).time = s.time ∧ (s.err tag code).bells = s.bells ∧ (s.err tag code).queue = s.queue
      ∧ (s.err tag code).waiting = s.waiting ∧ (s.err tag code).coils = s.coils
      ∧ (s.err tag code).melodies = s.melodies ∧ (s.err tag code).pool = s.pool
      ∧ (s.err tag code).playQueue = s.playQueue ∧ (s.err tag code).lastId = s.lastId
      ∧ (s.err tag code).tune = s.tune ∧ (s.err tag code).toll = s.toll ∧ (s.err tag code).live = s.live
      ∧ (s.err tag code).draft = s.draft ∧ (s.err tag code).stamps = s.stamps ∧ (s.err tag code).hold = s.hold
      ∧ (s.err tag code).quiet = s.quiet ∧ (s.err tag code).cues = s.cues ∧ (s.err tag code).supply = s.supply
      ∧ (s.err tag code).store = s.store ∧ (s.err tag code).image = s.image := by
  and_intros <;> rfl

/-- It can change no field but serial. -/
@[simp] theorem State.modSerial_frame (s : State) (f : Serial → Serial) :
    (s.modSerial f).serial = f s.serial ∧ (s.modSerial f).pending = s.pending
      ∧ (s.modSerial f).choices = s.choices ∧ (s.modSerial f).held = s.held ∧ (s.modSerial f).pins = s.pins
      ∧ (s.modSerial f).cause = s.cause ∧ (s.modSerial f).bellCount = s.bellCount
      ∧ (s.modSerial f).coilBudget = s.coilBudget ∧ (s.modSerial f).lineRate = s.lineRate
      ∧ (s.modSerial f).time = s.time ∧ (s.modSerial f).bells = s.bells ∧ (s.modSerial f).queue = s.queue
      ∧ (s.modSerial f).waiting = s.waiting ∧ (s.modSerial f).coils = s.coils
      ∧ (s.modSerial f).melodies = s.melodies ∧ (s.modSerial f).pool = s.pool
      ∧ (s.modSerial f).playQueue = s.playQueue ∧ (s.modSerial f).lastId = s.lastId
      ∧ (s.modSerial f).tune = s.tune ∧ (s.modSerial f).toll = s.toll ∧ (s.modSerial f).live = s.live
      ∧ (s.modSerial f).draft = s.draft ∧ (s.modSerial f).stamps = s.stamps ∧ (s.modSerial f).hold = s.hold
      ∧ (s.modSerial f).quiet = s.quiet ∧ (s.modSerial f).cues = s.cues ∧ (s.modSerial f).supply = s.supply
      ∧ (s.modSerial f).store = s.store ∧ (s.modSerial f).image = s.image := by
  and_intros <;> rfl

/-- It can change no field but queue. -/
@[simp] theorem State.enqueue_frame (s : State) (e : Entry) :
    (s.enqueue e).queue = insertBy Entry.firesBefore e s.queue ∧ (s.enqueue e).pending = s.pending
      ∧ (s.enqueue e).choices = s.choices ∧ (s.enqueue e).held = s.held ∧ (s.enqueue e).pins = s.pins
      ∧ (s.enqueue e).cause = s.cause ∧ (s.enqueue e).bellCount = s.bellCount
      ∧ (s.enqueue e).coilBudget = s.coilBudget ∧ (s.enqueue e).lineRate = s.lineRate
      ∧ (s.enqueue e).time = s.time ∧ (s.enqueue e).bells = s.bells ∧ (s.enqueue e).waiting = s.waiting
      ∧ (s.enqueue e).coils = s.coils ∧ (s.enqueue e).melodies = s.melodies ∧ (s.enqueue e).pool = s.pool
      ∧ (s.enqueue e).playQueue = s.playQueue ∧ (s.enqueue e).lastId = s.lastId ∧ (s.enqueue e).tune = s.tune
      ∧ (s.enqueue e).toll = s.toll ∧ (s.enqueue e).live = s.live ∧ (s.enqueue e).draft = s.draft
      ∧ (s.enqueue e).stamps = s.stamps ∧ (s.enqueue e).hold = s.hold ∧ (s.enqueue e).quiet = s.quiet
      ∧ (s.enqueue e).cues = s.cues ∧ (s.enqueue e).supply = s.supply ∧ (s.enqueue e).serial = s.serial
      ∧ (s.enqueue e).store = s.store ∧ (s.enqueue e).image = s.image := by
  and_intros <;> rfl

/-- It can change no field but waiting. -/
@[simp] theorem State.joinWaiting_frame (s : State) (e : Entry) :
    (s.joinWaiting e).waiting = insertBy Entry.grantedBefore e s.waiting ∧ (s.joinWaiting e).pending = s.pending
      ∧ (s.joinWaiting e).choices = s.choices ∧ (s.joinWaiting e).held = s.held
      ∧ (s.joinWaiting e).pins = s.pins ∧ (s.joinWaiting e).cause = s.cause
      ∧ (s.joinWaiting e).bellCount = s.bellCount ∧ (s.joinWaiting e).coilBudget = s.coilBudget
      ∧ (s.joinWaiting e).lineRate = s.lineRate ∧ (s.joinWaiting e).time = s.time
      ∧ (s.joinWaiting e).bells = s.bells ∧ (s.joinWaiting e).queue = s.queue
      ∧ (s.joinWaiting e).coils = s.coils ∧ (s.joinWaiting e).melodies = s.melodies
      ∧ (s.joinWaiting e).pool = s.pool ∧ (s.joinWaiting e).playQueue = s.playQueue
      ∧ (s.joinWaiting e).lastId = s.lastId ∧ (s.joinWaiting e).tune = s.tune ∧ (s.joinWaiting e).toll = s.toll
      ∧ (s.joinWaiting e).live = s.live ∧ (s.joinWaiting e).draft = s.draft
      ∧ (s.joinWaiting e).stamps = s.stamps ∧ (s.joinWaiting e).hold = s.hold
      ∧ (s.joinWaiting e).quiet = s.quiet ∧ (s.joinWaiting e).cues = s.cues
      ∧ (s.joinWaiting e).supply = s.supply ∧ (s.joinWaiting e).serial = s.serial
      ∧ (s.joinWaiting e).store = s.store ∧ (s.joinWaiting e).image = s.image := by
  and_intros <;> rfl

/-- It can change no field but bells. -/
@[simp] theorem State.refill_frame (s : State) (b : Nat) :
    (s.refill b).pending = s.pending ∧ (s.refill b).choices = s.choices ∧ (s.refill b).held = s.held
      ∧ (s.refill b).pins = s.pins ∧ (s.refill b).cause = s.cause ∧ (s.refill b).bellCount = s.bellCount
      ∧ (s.refill b).coilBudget = s.coilBudget ∧ (s.refill b).lineRate = s.lineRate ∧ (s.refill b).time = s.time
      ∧ (s.refill b).queue = s.queue ∧ (s.refill b).waiting = s.waiting ∧ (s.refill b).coils = s.coils
      ∧ (s.refill b).melodies = s.melodies ∧ (s.refill b).pool = s.pool ∧ (s.refill b).playQueue = s.playQueue
      ∧ (s.refill b).lastId = s.lastId ∧ (s.refill b).tune = s.tune ∧ (s.refill b).toll = s.toll
      ∧ (s.refill b).live = s.live ∧ (s.refill b).draft = s.draft ∧ (s.refill b).stamps = s.stamps
      ∧ (s.refill b).hold = s.hold ∧ (s.refill b).quiet = s.quiet ∧ (s.refill b).cues = s.cues
      ∧ (s.refill b).supply = s.supply ∧ (s.refill b).serial = s.serial ∧ (s.refill b).store = s.store
      ∧ (s.refill b).image = s.image := by
  and_intros <;> rfl

/-- It can change no field but bells. -/
@[simp] theorem State.stray_frame (s : State) (b : Nat) :
    (s.stray b).pending = s.pending ∧ (s.stray b).choices = s.choices ∧ (s.stray b).held = s.held
      ∧ (s.stray b).pins = s.pins ∧ (s.stray b).cause = s.cause ∧ (s.stray b).bellCount = s.bellCount
      ∧ (s.stray b).coilBudget = s.coilBudget ∧ (s.stray b).lineRate = s.lineRate ∧ (s.stray b).time = s.time
      ∧ (s.stray b).queue = s.queue ∧ (s.stray b).waiting = s.waiting ∧ (s.stray b).coils = s.coils
      ∧ (s.stray b).melodies = s.melodies ∧ (s.stray b).pool = s.pool ∧ (s.stray b).playQueue = s.playQueue
      ∧ (s.stray b).lastId = s.lastId ∧ (s.stray b).tune = s.tune ∧ (s.stray b).toll = s.toll
      ∧ (s.stray b).live = s.live ∧ (s.stray b).draft = s.draft ∧ (s.stray b).stamps = s.stamps
      ∧ (s.stray b).hold = s.hold ∧ (s.stray b).quiet = s.quiet ∧ (s.stray b).cues = s.cues
      ∧ (s.stray b).supply = s.supply ∧ (s.stray b).serial = s.serial ∧ (s.stray b).store = s.store
      ∧ (s.stray b).image = s.image := by
  and_intros <;> rfl

/-- It can change no field but pins. -/
@[simp] theorem State.setSense_frame (s : State) (b : Nat) (high : Bool) :
    (s.setSense b high).pending = s.pending ∧ (s.setSense b high).choices = s.choices
      ∧ (s.setSense b high).held = s.held ∧ (s.setSense b high).cause = s.cause
      ∧ (s.setSense b high).bellCount = s.bellCount ∧ (s.setSense b high).coilBudget = s.coilBudget
      ∧ (s.setSense b high).lineRate = s.lineRate ∧ (s.setSense b high).time = s.time
      ∧ (s.setSense b high).bells = s.bells ∧ (s.setSense b high).queue = s.queue
      ∧ (s.setSense b high).waiting = s.waiting ∧ (s.setSense b high).coils = s.coils
      ∧ (s.setSense b high).melodies = s.melodies ∧ (s.setSense b high).pool = s.pool
      ∧ (s.setSense b high).playQueue = s.playQueue ∧ (s.setSense b high).lastId = s.lastId
      ∧ (s.setSense b high).tune = s.tune ∧ (s.setSense b high).toll = s.toll
      ∧ (s.setSense b high).live = s.live ∧ (s.setSense b high).draft = s.draft
      ∧ (s.setSense b high).stamps = s.stamps ∧ (s.setSense b high).hold = s.hold
      ∧ (s.setSense b high).quiet = s.quiet ∧ (s.setSense b high).cues = s.cues
      ∧ (s.setSense b high).supply = s.supply ∧ (s.setSense b high).serial = s.serial
      ∧ (s.setSense b high).store = s.store ∧ (s.setSense b high).image = s.image := by
  and_intros <;> rfl

/-- It can change no field but bells. -/
@[simp] theorem State.modCal_frame (s : State) (b : Nat) (f : Calibration → Calibration) :
    (s.modCal b f).pending = s.pending ∧ (s.modCal b f).choices = s.choices ∧ (s.modCal b f).held = s.held
      ∧ (s.modCal b f).pins = s.pins ∧ (s.modCal b f).cause = s.cause ∧ (s.modCal b f).bellCount = s.bellCount
      ∧ (s.modCal b f).coilBudget = s.coilBudget ∧ (s.modCal b f).lineRate = s.lineRate
      ∧ (s.modCal b f).time = s.time ∧ (s.modCal b f).queue = s.queue ∧ (s.modCal b f).waiting = s.waiting
      ∧ (s.modCal b f).coils = s.coils ∧ (s.modCal b f).melodies = s.melodies ∧ (s.modCal b f).pool = s.pool
      ∧ (s.modCal b f).playQueue = s.playQueue ∧ (s.modCal b f).lastId = s.lastId ∧ (s.modCal b f).tune = s.tune
      ∧ (s.modCal b f).toll = s.toll ∧ (s.modCal b f).live = s.live ∧ (s.modCal b f).draft = s.draft
      ∧ (s.modCal b f).stamps = s.stamps ∧ (s.modCal b f).hold = s.hold ∧ (s.modCal b f).quiet = s.quiet
      ∧ (s.modCal b f).cues = s.cues ∧ (s.modCal b f).supply = s.supply ∧ (s.modCal b f).serial = s.serial
      ∧ (s.modCal b f).store = s.store ∧ (s.modCal b f).image = s.image := by
  and_intros <;> rfl

/-- It can change no field but bells. -/
@[simp] theorem State.restartStuck_frame (s : State) (b : Nat) :
    (s.restartStuck b).pending = s.pending ∧ (s.restartStuck b).choices = s.choices
      ∧ (s.restartStuck b).held = s.held ∧ (s.restartStuck b).pins = s.pins ∧ (s.restartStuck b).cause = s.cause
      ∧ (s.restartStuck b).bellCount = s.bellCount ∧ (s.restartStuck b).coilBudget = s.coilBudget
      ∧ (s.restartStuck b).lineRate = s.lineRate ∧ (s.restartStuck b).time = s.time
      ∧ (s.restartStuck b).queue = s.queue ∧ (s.restartStuck b).waiting = s.waiting
      ∧ (s.restartStuck b).coils = s.coils ∧ (s.restartStuck b).melodies = s.melodies
      ∧ (s.restartStuck b).pool = s.pool ∧ (s.restartStuck b).playQueue = s.playQueue
      ∧ (s.restartStuck b).lastId = s.lastId ∧ (s.restartStuck b).tune = s.tune
      ∧ (s.restartStuck b).toll = s.toll ∧ (s.restartStuck b).live = s.live ∧ (s.restartStuck b).draft = s.draft
      ∧ (s.restartStuck b).stamps = s.stamps ∧ (s.restartStuck b).hold = s.hold
      ∧ (s.restartStuck b).quiet = s.quiet ∧ (s.restartStuck b).cues = s.cues
      ∧ (s.restartStuck b).supply = s.supply ∧ (s.restartStuck b).serial = s.serial
      ∧ (s.restartStuck b).store = s.store ∧ (s.restartStuck b).image = s.image := by
  and_intros <;> rfl

/-- It can change no field but bells. -/
@[simp] theorem State.updateBucket_frame (s : State) (b : Nat) :
    (s.updateBucket b).pending = s.pending ∧ (s.updateBucket b).choices = s.choices
      ∧ (s.updateBucket b).held = s.held ∧ (s.updateBucket b).pins = s.pins ∧ (s.updateBucket b).cause = s.cause
      ∧ (s.updateBucket b).bellCount = s.bellCount ∧ (s.updateBucket b).coilBudget = s.coilBudget
      ∧ (s.updateBucket b).lineRate = s.lineRate ∧ (s.updateBucket b).time = s.time
      ∧ (s.updateBucket b).queue = s.queue ∧ (s.updateBucket b).waiting = s.waiting
      ∧ (s.updateBucket b).coils = s.coils ∧ (s.updateBucket b).melodies = s.melodies
      ∧ (s.updateBucket b).pool = s.pool ∧ (s.updateBucket b).playQueue = s.playQueue
      ∧ (s.updateBucket b).lastId = s.lastId ∧ (s.updateBucket b).tune = s.tune
      ∧ (s.updateBucket b).toll = s.toll ∧ (s.updateBucket b).live = s.live ∧ (s.updateBucket b).draft = s.draft
      ∧ (s.updateBucket b).stamps = s.stamps ∧ (s.updateBucket b).hold = s.hold
      ∧ (s.updateBucket b).quiet = s.quiet ∧ (s.updateBucket b).cues = s.cues
      ∧ (s.updateBucket b).supply = s.supply ∧ (s.updateBucket b).serial = s.serial
      ∧ (s.updateBucket b).store = s.store ∧ (s.updateBucket b).image = s.image := by
  and_intros <;> rfl

/-- It can change no field but bells. -/
@[simp] theorem State.restoreBell_frame (s : State) (b : Nat) :
    (s.restoreBell b).pending = s.pending ∧ (s.restoreBell b).choices = s.choices
      ∧ (s.restoreBell b).held = s.held ∧ (s.restoreBell b).pins = s.pins ∧ (s.restoreBell b).cause = s.cause
      ∧ (s.restoreBell b).bellCount = s.bellCount ∧ (s.restoreBell b).coilBudget = s.coilBudget
      ∧ (s.restoreBell b).lineRate = s.lineRate ∧ (s.restoreBell b).time = s.time
      ∧ (s.restoreBell b).queue = s.queue ∧ (s.restoreBell b).waiting = s.waiting
      ∧ (s.restoreBell b).coils = s.coils ∧ (s.restoreBell b).melodies = s.melodies
      ∧ (s.restoreBell b).pool = s.pool ∧ (s.restoreBell b).playQueue = s.playQueue
      ∧ (s.restoreBell b).lastId = s.lastId ∧ (s.restoreBell b).tune = s.tune ∧ (s.restoreBell b).toll = s.toll
      ∧ (s.restoreBell b).live = s.live ∧ (s.restoreBell b).draft = s.draft
      ∧ (s.restoreBell b).stamps = s.stamps ∧ (s.restoreBell b).hold = s.hold
      ∧ (s.restoreBell b).quiet = s.quiet ∧ (s.restoreBell b).cues = s.cues
      ∧ (s.restoreBell b).supply = s.supply ∧ (s.restoreBell b).serial = s.serial
      ∧ (s.restoreBell b).store = s.store ∧ (s.restoreBell b).image = s.image := by
  and_intros <;> rfl

/-- It can change no field but serial. -/
@[simp] theorem State.okBell_frame (s : State) (tag : Text) (b : Nat) :
    (s.okBell tag b).serial = s.serial.reply (.ok tag (s.bellFields b)) ∧ (s.okBell tag b).pending = s.pending
      ∧ (s.okBell tag b).choices = s.choices ∧ (s.okBell tag b).held = s.held ∧ (s.okBell tag b).pins = s.pins
      ∧ (s.okBell tag b).cause = s.cause ∧ (s.okBell tag b).bellCount = s.bellCount
      ∧ (s.okBell tag b).coilBudget = s.coilBudget ∧ (s.okBell tag b).lineRate = s.lineRate
      ∧ (s.okBell tag b).time = s.time ∧ (s.okBell tag b).bells = s.bells ∧ (s.okBell tag b).queue = s.queue
      ∧ (s.okBell tag b).waiting = s.waiting ∧ (s.okBell tag b).coils = s.coils
      ∧ (s.okBell tag b).melodies = s.melodies ∧ (s.okBell tag b).pool = s.pool
      ∧ (s.okBell tag b).playQueue = s.playQueue ∧ (s.okBell tag b).lastId = s.lastId
      ∧ (s.okBell tag b).tune = s.tune ∧ (s.okBell tag b).toll = s.toll ∧ (s.okBell tag b).live = s.live
      ∧ (s.okBell tag b).draft = s.draft ∧ (s.okBell tag b).stamps = s.stamps ∧ (s.okBell tag b).hold = s.hold
      ∧ (s.okBell tag b).quiet = s.quiet ∧ (s.okBell tag b).cues = s.cues ∧ (s.okBell tag b).supply = s.supply
      ∧ (s.okBell tag b).store = s.store ∧ (s.okBell tag b).image = s.image := by
  and_intros <;> rfl

/-- It can change no field but pins. -/
@[simp] theorem State.setCueLine_frame (s : State) (c : Nat) (high : Bool) :
    (s.setCueLine c high).pending = s.pending ∧ (s.setCueLine c high).choices = s.choices
      ∧ (s.setCueLine c high).held = s.held ∧ (s.setCueLine c high).cause = s.cause
      ∧ (s.setCueLine c high).bellCount = s.bellCount ∧ (s.setCueLine c high).coilBudget = s.coilBudget
      ∧ (s.setCueLine c high).lineRate = s.lineRate ∧ (s.setCueLine c high).time = s.time
      ∧ (s.setCueLine c high).bells = s.bells ∧ (s.setCueLine c high).queue = s.queue
      ∧ (s.setCueLine c high).waiting = s.waiting ∧ (s.setCueLine c high).coils = s.coils
      ∧ (s.setCueLine c high).melodies = s.melodies ∧ (s.setCueLine c high).pool = s.pool
      ∧ (s.setCueLine c high).playQueue = s.playQueue ∧ (s.setCueLine c high).lastId = s.lastId
      ∧ (s.setCueLine c high).tune = s.tune ∧ (s.setCueLine c high).toll = s.toll
      ∧ (s.setCueLine c high).live = s.live ∧ (s.setCueLine c high).draft = s.draft
      ∧ (s.setCueLine c high).stamps = s.stamps ∧ (s.setCueLine c high).hold = s.hold
      ∧ (s.setCueLine c high).quiet = s.quiet ∧ (s.setCueLine c high).cues = s.cues
      ∧ (s.setCueLine c high).supply = s.supply ∧ (s.setCueLine c high).serial = s.serial
      ∧ (s.setCueLine c high).store = s.store ∧ (s.setCueLine c high).image = s.image := by
  and_intros <;> rfl

/-- It can change no field but cues. -/
@[simp] theorem State.clearLatch_frame (s : State) (c : Nat) :
    (s.clearLatch c).pending = s.pending ∧ (s.clearLatch c).choices = s.choices ∧ (s.clearLatch c).held = s.held
      ∧ (s.clearLatch c).pins = s.pins ∧ (s.clearLatch c).cause = s.cause
      ∧ (s.clearLatch c).bellCount = s.bellCount ∧ (s.clearLatch c).coilBudget = s.coilBudget
      ∧ (s.clearLatch c).lineRate = s.lineRate ∧ (s.clearLatch c).time = s.time
      ∧ (s.clearLatch c).bells = s.bells ∧ (s.clearLatch c).queue = s.queue
      ∧ (s.clearLatch c).waiting = s.waiting ∧ (s.clearLatch c).coils = s.coils
      ∧ (s.clearLatch c).melodies = s.melodies ∧ (s.clearLatch c).pool = s.pool
      ∧ (s.clearLatch c).playQueue = s.playQueue ∧ (s.clearLatch c).lastId = s.lastId
      ∧ (s.clearLatch c).tune = s.tune ∧ (s.clearLatch c).toll = s.toll ∧ (s.clearLatch c).live = s.live
      ∧ (s.clearLatch c).draft = s.draft ∧ (s.clearLatch c).stamps = s.stamps ∧ (s.clearLatch c).hold = s.hold
      ∧ (s.clearLatch c).quiet = s.quiet ∧ (s.clearLatch c).supply = s.supply
      ∧ (s.clearLatch c).serial = s.serial ∧ (s.clearLatch c).store = s.store ∧ (s.clearLatch c).image = s.image := by
  and_intros <;> rfl

/-- It can change no field but cues. -/
@[simp] theorem State.modConfig_frame (s : State) (c : Nat) (f : CueConfig → CueConfig) :
    (s.modConfig c f).pending = s.pending ∧ (s.modConfig c f).choices = s.choices
      ∧ (s.modConfig c f).held = s.held ∧ (s.modConfig c f).pins = s.pins ∧ (s.modConfig c f).cause = s.cause
      ∧ (s.modConfig c f).bellCount = s.bellCount ∧ (s.modConfig c f).coilBudget = s.coilBudget
      ∧ (s.modConfig c f).lineRate = s.lineRate ∧ (s.modConfig c f).time = s.time
      ∧ (s.modConfig c f).bells = s.bells ∧ (s.modConfig c f).queue = s.queue
      ∧ (s.modConfig c f).waiting = s.waiting ∧ (s.modConfig c f).coils = s.coils
      ∧ (s.modConfig c f).melodies = s.melodies ∧ (s.modConfig c f).pool = s.pool
      ∧ (s.modConfig c f).playQueue = s.playQueue ∧ (s.modConfig c f).lastId = s.lastId
      ∧ (s.modConfig c f).tune = s.tune ∧ (s.modConfig c f).toll = s.toll ∧ (s.modConfig c f).live = s.live
      ∧ (s.modConfig c f).draft = s.draft ∧ (s.modConfig c f).stamps = s.stamps
      ∧ (s.modConfig c f).hold = s.hold ∧ (s.modConfig c f).quiet = s.quiet
      ∧ (s.modConfig c f).supply = s.supply ∧ (s.modConfig c f).serial = s.serial
      ∧ (s.modConfig c f).store = s.store ∧ (s.modConfig c f).image = s.image := by
  and_intros <;> rfl

/-- It can change no field but cues. -/
@[simp] theorem State.acceptChange_frame (s : State) (c : Nat) :
    (s.acceptChange c).pending = s.pending ∧ (s.acceptChange c).choices = s.choices
      ∧ (s.acceptChange c).held = s.held ∧ (s.acceptChange c).pins = s.pins ∧ (s.acceptChange c).cause = s.cause
      ∧ (s.acceptChange c).bellCount = s.bellCount ∧ (s.acceptChange c).coilBudget = s.coilBudget
      ∧ (s.acceptChange c).lineRate = s.lineRate ∧ (s.acceptChange c).time = s.time
      ∧ (s.acceptChange c).bells = s.bells ∧ (s.acceptChange c).queue = s.queue
      ∧ (s.acceptChange c).waiting = s.waiting ∧ (s.acceptChange c).coils = s.coils
      ∧ (s.acceptChange c).melodies = s.melodies ∧ (s.acceptChange c).pool = s.pool
      ∧ (s.acceptChange c).playQueue = s.playQueue ∧ (s.acceptChange c).lastId = s.lastId
      ∧ (s.acceptChange c).tune = s.tune ∧ (s.acceptChange c).toll = s.toll ∧ (s.acceptChange c).live = s.live
      ∧ (s.acceptChange c).draft = s.draft ∧ (s.acceptChange c).stamps = s.stamps
      ∧ (s.acceptChange c).hold = s.hold ∧ (s.acceptChange c).quiet = s.quiet
      ∧ (s.acceptChange c).supply = s.supply ∧ (s.acceptChange c).serial = s.serial
      ∧ (s.acceptChange c).store = s.store ∧ (s.acceptChange c).image = s.image := by
  and_intros <;> rfl

/-- It can change no field but serial. -/
@[simp] theorem State.okCue_frame (s : State) (tag : Text) (c : Nat) :
    (s.okCue tag c).serial = s.serial.reply (.ok tag (s.cueFields c)) ∧ (s.okCue tag c).pending = s.pending
      ∧ (s.okCue tag c).choices = s.choices ∧ (s.okCue tag c).held = s.held ∧ (s.okCue tag c).pins = s.pins
      ∧ (s.okCue tag c).cause = s.cause ∧ (s.okCue tag c).bellCount = s.bellCount
      ∧ (s.okCue tag c).coilBudget = s.coilBudget ∧ (s.okCue tag c).lineRate = s.lineRate
      ∧ (s.okCue tag c).time = s.time ∧ (s.okCue tag c).bells = s.bells ∧ (s.okCue tag c).queue = s.queue
      ∧ (s.okCue tag c).waiting = s.waiting ∧ (s.okCue tag c).coils = s.coils
      ∧ (s.okCue tag c).melodies = s.melodies ∧ (s.okCue tag c).pool = s.pool
      ∧ (s.okCue tag c).playQueue = s.playQueue ∧ (s.okCue tag c).lastId = s.lastId
      ∧ (s.okCue tag c).tune = s.tune ∧ (s.okCue tag c).toll = s.toll ∧ (s.okCue tag c).live = s.live
      ∧ (s.okCue tag c).draft = s.draft ∧ (s.okCue tag c).stamps = s.stamps ∧ (s.okCue tag c).hold = s.hold
      ∧ (s.okCue tag c).quiet = s.quiet ∧ (s.okCue tag c).cues = s.cues ∧ (s.okCue tag c).supply = s.supply
      ∧ (s.okCue tag c).store = s.store ∧ (s.okCue tag c).image = s.image := by
  and_intros <;> rfl

/-- It can change no field but melodies. -/
@[simp] theorem State.setHold_frame (s : State) (m : Nat) (held : Bool) :
    (s.setHold m held).pending = s.pending ∧ (s.setHold m held).choices = s.choices
      ∧ (s.setHold m held).held = s.held ∧ (s.setHold m held).pins = s.pins ∧ (s.setHold m held).cause = s.cause
      ∧ (s.setHold m held).bellCount = s.bellCount ∧ (s.setHold m held).coilBudget = s.coilBudget
      ∧ (s.setHold m held).lineRate = s.lineRate ∧ (s.setHold m held).time = s.time
      ∧ (s.setHold m held).bells = s.bells ∧ (s.setHold m held).queue = s.queue
      ∧ (s.setHold m held).waiting = s.waiting ∧ (s.setHold m held).coils = s.coils
      ∧ (s.setHold m held).pool = s.pool ∧ (s.setHold m held).playQueue = s.playQueue
      ∧ (s.setHold m held).lastId = s.lastId ∧ (s.setHold m held).tune = s.tune
      ∧ (s.setHold m held).toll = s.toll ∧ (s.setHold m held).live = s.live ∧ (s.setHold m held).draft = s.draft
      ∧ (s.setHold m held).stamps = s.stamps ∧ (s.setHold m held).hold = s.hold
      ∧ (s.setHold m held).quiet = s.quiet ∧ (s.setHold m held).cues = s.cues
      ∧ (s.setHold m held).supply = s.supply ∧ (s.setHold m held).serial = s.serial
      ∧ (s.setHold m held).store = s.store ∧ (s.setHold m held).image = s.image := by
  and_intros <;> rfl

/-- It can change no field but playQueue. -/
@[simp] theorem State.unqueue_frame (s : State) (id : Nat) :
    (s.unqueue id).playQueue = s.playQueue.filter (fun r => r.id != id) ∧ (s.unqueue id).pending = s.pending
      ∧ (s.unqueue id).choices = s.choices ∧ (s.unqueue id).held = s.held ∧ (s.unqueue id).pins = s.pins
      ∧ (s.unqueue id).cause = s.cause ∧ (s.unqueue id).bellCount = s.bellCount
      ∧ (s.unqueue id).coilBudget = s.coilBudget ∧ (s.unqueue id).lineRate = s.lineRate
      ∧ (s.unqueue id).time = s.time ∧ (s.unqueue id).bells = s.bells ∧ (s.unqueue id).queue = s.queue
      ∧ (s.unqueue id).waiting = s.waiting ∧ (s.unqueue id).coils = s.coils
      ∧ (s.unqueue id).melodies = s.melodies ∧ (s.unqueue id).pool = s.pool ∧ (s.unqueue id).lastId = s.lastId
      ∧ (s.unqueue id).tune = s.tune ∧ (s.unqueue id).toll = s.toll ∧ (s.unqueue id).live = s.live
      ∧ (s.unqueue id).draft = s.draft ∧ (s.unqueue id).stamps = s.stamps ∧ (s.unqueue id).hold = s.hold
      ∧ (s.unqueue id).quiet = s.quiet ∧ (s.unqueue id).cues = s.cues ∧ (s.unqueue id).supply = s.supply
      ∧ (s.unqueue id).serial = s.serial ∧ (s.unqueue id).store = s.store ∧ (s.unqueue id).image = s.image := by
  and_intros <;> rfl

/-- It can change no field but playQueue. -/
@[simp] theorem State.markCut_frame (s : State) (id : Nat) :
    (s.markCut id).pending = s.pending ∧ (s.markCut id).choices = s.choices ∧ (s.markCut id).held = s.held
      ∧ (s.markCut id).pins = s.pins ∧ (s.markCut id).cause = s.cause ∧ (s.markCut id).bellCount = s.bellCount
      ∧ (s.markCut id).coilBudget = s.coilBudget ∧ (s.markCut id).lineRate = s.lineRate
      ∧ (s.markCut id).time = s.time ∧ (s.markCut id).bells = s.bells ∧ (s.markCut id).queue = s.queue
      ∧ (s.markCut id).waiting = s.waiting ∧ (s.markCut id).coils = s.coils
      ∧ (s.markCut id).melodies = s.melodies ∧ (s.markCut id).pool = s.pool ∧ (s.markCut id).lastId = s.lastId
      ∧ (s.markCut id).tune = s.tune ∧ (s.markCut id).toll = s.toll ∧ (s.markCut id).live = s.live
      ∧ (s.markCut id).draft = s.draft ∧ (s.markCut id).stamps = s.stamps ∧ (s.markCut id).hold = s.hold
      ∧ (s.markCut id).quiet = s.quiet ∧ (s.markCut id).cues = s.cues ∧ (s.markCut id).supply = s.supply
      ∧ (s.markCut id).serial = s.serial ∧ (s.markCut id).store = s.store ∧ (s.markCut id).image = s.image := by
  and_intros <;> rfl

/-- It can change no field but stamps. -/
@[simp] theorem State.stamp_frame (s : State) (k : Nat) (t : Option Nat) :
    (s.stamp k t).stamps = setSlot s.stamps k t ∧ (s.stamp k t).pending = s.pending
      ∧ (s.stamp k t).choices = s.choices ∧ (s.stamp k t).held = s.held ∧ (s.stamp k t).pins = s.pins
      ∧ (s.stamp k t).cause = s.cause ∧ (s.stamp k t).bellCount = s.bellCount
      ∧ (s.stamp k t).coilBudget = s.coilBudget ∧ (s.stamp k t).lineRate = s.lineRate
      ∧ (s.stamp k t).time = s.time ∧ (s.stamp k t).bells = s.bells ∧ (s.stamp k t).queue = s.queue
      ∧ (s.stamp k t).waiting = s.waiting ∧ (s.stamp k t).coils = s.coils ∧ (s.stamp k t).melodies = s.melodies
      ∧ (s.stamp k t).pool = s.pool ∧ (s.stamp k t).playQueue = s.playQueue ∧ (s.stamp k t).lastId = s.lastId
      ∧ (s.stamp k t).tune = s.tune ∧ (s.stamp k t).toll = s.toll ∧ (s.stamp k t).live = s.live
      ∧ (s.stamp k t).draft = s.draft ∧ (s.stamp k t).hold = s.hold ∧ (s.stamp k t).quiet = s.quiet
      ∧ (s.stamp k t).cues = s.cues ∧ (s.stamp k t).supply = s.supply ∧ (s.stamp k t).serial = s.serial
      ∧ (s.stamp k t).store = s.store ∧ (s.stamp k t).image = s.image := by
  and_intros <;> rfl

/-- It can change no field but draft. -/
@[simp] theorem State.setDraft_frame (s : State) (k : Nat) (e : Option ScheduleEntry) :
    (s.setDraft k e).draft = setSlot s.draft k e ∧ (s.setDraft k e).pending = s.pending
      ∧ (s.setDraft k e).choices = s.choices ∧ (s.setDraft k e).held = s.held ∧ (s.setDraft k e).pins = s.pins
      ∧ (s.setDraft k e).cause = s.cause ∧ (s.setDraft k e).bellCount = s.bellCount
      ∧ (s.setDraft k e).coilBudget = s.coilBudget ∧ (s.setDraft k e).lineRate = s.lineRate
      ∧ (s.setDraft k e).time = s.time ∧ (s.setDraft k e).bells = s.bells ∧ (s.setDraft k e).queue = s.queue
      ∧ (s.setDraft k e).waiting = s.waiting ∧ (s.setDraft k e).coils = s.coils
      ∧ (s.setDraft k e).melodies = s.melodies ∧ (s.setDraft k e).pool = s.pool
      ∧ (s.setDraft k e).playQueue = s.playQueue ∧ (s.setDraft k e).lastId = s.lastId
      ∧ (s.setDraft k e).tune = s.tune ∧ (s.setDraft k e).toll = s.toll ∧ (s.setDraft k e).live = s.live
      ∧ (s.setDraft k e).stamps = s.stamps ∧ (s.setDraft k e).hold = s.hold ∧ (s.setDraft k e).quiet = s.quiet
      ∧ (s.setDraft k e).cues = s.cues ∧ (s.setDraft k e).supply = s.supply ∧ (s.setDraft k e).serial = s.serial
      ∧ (s.setDraft k e).store = s.store ∧ (s.setDraft k e).image = s.image := by
  and_intros <;> rfl

/-- It can change no field but quiet. -/
@[simp] theorem State.setQuiet_frame (s : State) (q : Nat) (r : Option QuietRule) :
    (s.setQuiet q r).quiet = setSlot s.quiet q r ∧ (s.setQuiet q r).pending = s.pending
      ∧ (s.setQuiet q r).choices = s.choices ∧ (s.setQuiet q r).held = s.held ∧ (s.setQuiet q r).pins = s.pins
      ∧ (s.setQuiet q r).cause = s.cause ∧ (s.setQuiet q r).bellCount = s.bellCount
      ∧ (s.setQuiet q r).coilBudget = s.coilBudget ∧ (s.setQuiet q r).lineRate = s.lineRate
      ∧ (s.setQuiet q r).time = s.time ∧ (s.setQuiet q r).bells = s.bells ∧ (s.setQuiet q r).queue = s.queue
      ∧ (s.setQuiet q r).waiting = s.waiting ∧ (s.setQuiet q r).coils = s.coils
      ∧ (s.setQuiet q r).melodies = s.melodies ∧ (s.setQuiet q r).pool = s.pool
      ∧ (s.setQuiet q r).playQueue = s.playQueue ∧ (s.setQuiet q r).lastId = s.lastId
      ∧ (s.setQuiet q r).tune = s.tune ∧ (s.setQuiet q r).toll = s.toll ∧ (s.setQuiet q r).live = s.live
      ∧ (s.setQuiet q r).draft = s.draft ∧ (s.setQuiet q r).stamps = s.stamps ∧ (s.setQuiet q r).hold = s.hold
      ∧ (s.setQuiet q r).cues = s.cues ∧ (s.setQuiet q r).supply = s.supply ∧ (s.setQuiet q r).serial = s.serial
      ∧ (s.setQuiet q r).store = s.store ∧ (s.setQuiet q r).image = s.image := by
  and_intros <;> rfl

/-- It can change no field but serial. -/
@[simp] theorem State.replyEntry_frame (s : State) (tag : Text) (k : Nat) (shown : List Fld) :
    (s.replyEntry tag k shown).pending = s.pending ∧ (s.replyEntry tag k shown).choices = s.choices
      ∧ (s.replyEntry tag k shown).held = s.held ∧ (s.replyEntry tag k shown).pins = s.pins
      ∧ (s.replyEntry tag k shown).cause = s.cause ∧ (s.replyEntry tag k shown).bellCount = s.bellCount
      ∧ (s.replyEntry tag k shown).coilBudget = s.coilBudget ∧ (s.replyEntry tag k shown).lineRate = s.lineRate
      ∧ (s.replyEntry tag k shown).time = s.time ∧ (s.replyEntry tag k shown).bells = s.bells
      ∧ (s.replyEntry tag k shown).queue = s.queue ∧ (s.replyEntry tag k shown).waiting = s.waiting
      ∧ (s.replyEntry tag k shown).coils = s.coils ∧ (s.replyEntry tag k shown).melodies = s.melodies
      ∧ (s.replyEntry tag k shown).pool = s.pool ∧ (s.replyEntry tag k shown).playQueue = s.playQueue
      ∧ (s.replyEntry tag k shown).lastId = s.lastId ∧ (s.replyEntry tag k shown).tune = s.tune
      ∧ (s.replyEntry tag k shown).toll = s.toll ∧ (s.replyEntry tag k shown).live = s.live
      ∧ (s.replyEntry tag k shown).draft = s.draft ∧ (s.replyEntry tag k shown).stamps = s.stamps
      ∧ (s.replyEntry tag k shown).hold = s.hold ∧ (s.replyEntry tag k shown).quiet = s.quiet
      ∧ (s.replyEntry tag k shown).cues = s.cues ∧ (s.replyEntry tag k shown).supply = s.supply
      ∧ (s.replyEntry tag k shown).store = s.store ∧ (s.replyEntry tag k shown).image = s.image := by
  and_intros <;> rfl

/-- It can change no field but serial. -/
@[simp] theorem State.replyQuiet_frame (s : State) (tag : Text) (q : Nat) :
    (s.replyQuiet tag q).pending = s.pending ∧ (s.replyQuiet tag q).choices = s.choices
      ∧ (s.replyQuiet tag q).held = s.held ∧ (s.replyQuiet tag q).pins = s.pins
      ∧ (s.replyQuiet tag q).cause = s.cause ∧ (s.replyQuiet tag q).bellCount = s.bellCount
      ∧ (s.replyQuiet tag q).coilBudget = s.coilBudget ∧ (s.replyQuiet tag q).lineRate = s.lineRate
      ∧ (s.replyQuiet tag q).time = s.time ∧ (s.replyQuiet tag q).bells = s.bells
      ∧ (s.replyQuiet tag q).queue = s.queue ∧ (s.replyQuiet tag q).waiting = s.waiting
      ∧ (s.replyQuiet tag q).coils = s.coils ∧ (s.replyQuiet tag q).melodies = s.melodies
      ∧ (s.replyQuiet tag q).pool = s.pool ∧ (s.replyQuiet tag q).playQueue = s.playQueue
      ∧ (s.replyQuiet tag q).lastId = s.lastId ∧ (s.replyQuiet tag q).tune = s.tune
      ∧ (s.replyQuiet tag q).toll = s.toll ∧ (s.replyQuiet tag q).live = s.live
      ∧ (s.replyQuiet tag q).draft = s.draft ∧ (s.replyQuiet tag q).stamps = s.stamps
      ∧ (s.replyQuiet tag q).hold = s.hold ∧ (s.replyQuiet tag q).quiet = s.quiet
      ∧ (s.replyQuiet tag q).cues = s.cues ∧ (s.replyQuiet tag q).supply = s.supply
      ∧ (s.replyQuiet tag q).store = s.store ∧ (s.replyQuiet tag q).image = s.image := by
  and_intros <;> rfl

/-- It can change no field but serial. -/
@[simp] theorem State.replyMask_frame (s : State) (tag : Text) :
    (s.replyMask tag).pending = s.pending ∧ (s.replyMask tag).choices = s.choices
      ∧ (s.replyMask tag).held = s.held ∧ (s.replyMask tag).pins = s.pins ∧ (s.replyMask tag).cause = s.cause
      ∧ (s.replyMask tag).bellCount = s.bellCount ∧ (s.replyMask tag).coilBudget = s.coilBudget
      ∧ (s.replyMask tag).lineRate = s.lineRate ∧ (s.replyMask tag).time = s.time
      ∧ (s.replyMask tag).bells = s.bells ∧ (s.replyMask tag).queue = s.queue
      ∧ (s.replyMask tag).waiting = s.waiting ∧ (s.replyMask tag).coils = s.coils
      ∧ (s.replyMask tag).melodies = s.melodies ∧ (s.replyMask tag).pool = s.pool
      ∧ (s.replyMask tag).playQueue = s.playQueue ∧ (s.replyMask tag).lastId = s.lastId
      ∧ (s.replyMask tag).tune = s.tune ∧ (s.replyMask tag).toll = s.toll ∧ (s.replyMask tag).live = s.live
      ∧ (s.replyMask tag).draft = s.draft ∧ (s.replyMask tag).stamps = s.stamps
      ∧ (s.replyMask tag).hold = s.hold ∧ (s.replyMask tag).quiet = s.quiet ∧ (s.replyMask tag).cues = s.cues
      ∧ (s.replyMask tag).supply = s.supply ∧ (s.replyMask tag).store = s.store
      ∧ (s.replyMask tag).image = s.image := by
  and_intros <;> rfl

/-- It can change no field but serial. -/
@[simp] theorem State.replySync_frame (s : State) (tag : Text) :
    (s.replySync tag).pending = s.pending ∧ (s.replySync tag).choices = s.choices
      ∧ (s.replySync tag).held = s.held ∧ (s.replySync tag).pins = s.pins ∧ (s.replySync tag).cause = s.cause
      ∧ (s.replySync tag).bellCount = s.bellCount ∧ (s.replySync tag).coilBudget = s.coilBudget
      ∧ (s.replySync tag).lineRate = s.lineRate ∧ (s.replySync tag).time = s.time
      ∧ (s.replySync tag).bells = s.bells ∧ (s.replySync tag).queue = s.queue
      ∧ (s.replySync tag).waiting = s.waiting ∧ (s.replySync tag).coils = s.coils
      ∧ (s.replySync tag).melodies = s.melodies ∧ (s.replySync tag).pool = s.pool
      ∧ (s.replySync tag).playQueue = s.playQueue ∧ (s.replySync tag).lastId = s.lastId
      ∧ (s.replySync tag).tune = s.tune ∧ (s.replySync tag).toll = s.toll ∧ (s.replySync tag).live = s.live
      ∧ (s.replySync tag).draft = s.draft ∧ (s.replySync tag).stamps = s.stamps
      ∧ (s.replySync tag).hold = s.hold ∧ (s.replySync tag).quiet = s.quiet ∧ (s.replySync tag).cues = s.cues
      ∧ (s.replySync tag).supply = s.supply ∧ (s.replySync tag).store = s.store
      ∧ (s.replySync tag).image = s.image := by
  and_intros <;> rfl

/-- It can change no field but time. -/
@[simp] theorem State.setSlew_frame (s : State) (d : Int) :
    (s.setSlew d).time = { s.time with slew := d } ∧ (s.setSlew d).pending = s.pending
      ∧ (s.setSlew d).choices = s.choices ∧ (s.setSlew d).held = s.held ∧ (s.setSlew d).pins = s.pins
      ∧ (s.setSlew d).cause = s.cause ∧ (s.setSlew d).bellCount = s.bellCount
      ∧ (s.setSlew d).coilBudget = s.coilBudget ∧ (s.setSlew d).lineRate = s.lineRate
      ∧ (s.setSlew d).bells = s.bells ∧ (s.setSlew d).queue = s.queue ∧ (s.setSlew d).waiting = s.waiting
      ∧ (s.setSlew d).coils = s.coils ∧ (s.setSlew d).melodies = s.melodies ∧ (s.setSlew d).pool = s.pool
      ∧ (s.setSlew d).playQueue = s.playQueue ∧ (s.setSlew d).lastId = s.lastId ∧ (s.setSlew d).tune = s.tune
      ∧ (s.setSlew d).toll = s.toll ∧ (s.setSlew d).live = s.live ∧ (s.setSlew d).draft = s.draft
      ∧ (s.setSlew d).stamps = s.stamps ∧ (s.setSlew d).hold = s.hold ∧ (s.setSlew d).quiet = s.quiet
      ∧ (s.setSlew d).cues = s.cues ∧ (s.setSlew d).supply = s.supply ∧ (s.setSlew d).serial = s.serial
      ∧ (s.setSlew d).store = s.store ∧ (s.setSlew d).image = s.image := by
  and_intros <;> rfl

/-- It can change no field but time. -/
@[simp] theorem State.setSync_frame (s : State) (x : SyncState) :
    (s.setSync x).time = { s.time with sync := x } ∧ (s.setSync x).pending = s.pending
      ∧ (s.setSync x).choices = s.choices ∧ (s.setSync x).held = s.held ∧ (s.setSync x).pins = s.pins
      ∧ (s.setSync x).cause = s.cause ∧ (s.setSync x).bellCount = s.bellCount
      ∧ (s.setSync x).coilBudget = s.coilBudget ∧ (s.setSync x).lineRate = s.lineRate
      ∧ (s.setSync x).bells = s.bells ∧ (s.setSync x).queue = s.queue ∧ (s.setSync x).waiting = s.waiting
      ∧ (s.setSync x).coils = s.coils ∧ (s.setSync x).melodies = s.melodies ∧ (s.setSync x).pool = s.pool
      ∧ (s.setSync x).playQueue = s.playQueue ∧ (s.setSync x).lastId = s.lastId ∧ (s.setSync x).tune = s.tune
      ∧ (s.setSync x).toll = s.toll ∧ (s.setSync x).live = s.live ∧ (s.setSync x).draft = s.draft
      ∧ (s.setSync x).stamps = s.stamps ∧ (s.setSync x).hold = s.hold ∧ (s.setSync x).quiet = s.quiet
      ∧ (s.setSync x).cues = s.cues ∧ (s.setSync x).supply = s.supply ∧ (s.setSync x).serial = s.serial
      ∧ (s.setSync x).store = s.store ∧ (s.setSync x).image = s.image := by
  and_intros <;> rfl

/-- It can change no field but time. -/
@[simp] theorem State.restartSync_frame (s : State) (source : SyncSource) (x : SyncState) :
    
      (s.restartSync source x).time = { s.time with source := source, sync := x, qualified := 0, lastPulse := none }
      ∧ (s.restartSync source x).pending = s.pending ∧ (s.restartSync source x).choices = s.choices
      ∧ (s.restartSync source x).held = s.held ∧ (s.restartSync source x).pins = s.pins
      ∧ (s.restartSync source x).cause = s.cause ∧ (s.restartSync source x).bellCount = s.bellCount
      ∧ (s.restartSync source x).coilBudget = s.coilBudget ∧ (s.restartSync source x).lineRate = s.lineRate
      ∧ (s.restartSync source x).bells = s.bells ∧ (s.restartSync source x).queue = s.queue
      ∧ (s.restartSync source x).waiting = s.waiting ∧ (s.restartSync source x).coils = s.coils
      ∧ (s.restartSync source x).melodies = s.melodies ∧ (s.restartSync source x).pool = s.pool
      ∧ (s.restartSync source x).playQueue = s.playQueue ∧ (s.restartSync source x).lastId = s.lastId
      ∧ (s.restartSync source x).tune = s.tune ∧ (s.restartSync source x).toll = s.toll
      ∧ (s.restartSync source x).live = s.live ∧ (s.restartSync source x).draft = s.draft
      ∧ (s.restartSync source x).stamps = s.stamps ∧ (s.restartSync source x).hold = s.hold
      ∧ (s.restartSync source x).quiet = s.quiet ∧ (s.restartSync source x).cues = s.cues
      ∧ (s.restartSync source x).supply = s.supply ∧ (s.restartSync source x).serial = s.serial
      ∧ (s.restartSync source x).store = s.store ∧ (s.restartSync source x).image = s.image := by
  and_intros <;> rfl

/-- It can change no field but time. -/
@[simp] theorem State.setWall_frame (s : State) (t : Nat) :
    (s.setWall t).pending = s.pending ∧ (s.setWall t).choices = s.choices ∧ (s.setWall t).held = s.held
      ∧ (s.setWall t).pins = s.pins ∧ (s.setWall t).cause = s.cause ∧ (s.setWall t).bellCount = s.bellCount
      ∧ (s.setWall t).coilBudget = s.coilBudget ∧ (s.setWall t).lineRate = s.lineRate
      ∧ (s.setWall t).bells = s.bells ∧ (s.setWall t).queue = s.queue ∧ (s.setWall t).waiting = s.waiting
      ∧ (s.setWall t).coils = s.coils ∧ (s.setWall t).melodies = s.melodies ∧ (s.setWall t).pool = s.pool
      ∧ (s.setWall t).playQueue = s.playQueue ∧ (s.setWall t).lastId = s.lastId ∧ (s.setWall t).tune = s.tune
      ∧ (s.setWall t).toll = s.toll ∧ (s.setWall t).live = s.live ∧ (s.setWall t).draft = s.draft
      ∧ (s.setWall t).stamps = s.stamps ∧ (s.setWall t).hold = s.hold ∧ (s.setWall t).quiet = s.quiet
      ∧ (s.setWall t).cues = s.cues ∧ (s.setWall t).supply = s.supply ∧ (s.setWall t).serial = s.serial
      ∧ (s.setWall t).store = s.store ∧ (s.setWall t).image = s.image := by
  and_intros <;> rfl

/-- It can change no field but time. -/
@[simp] theorem State.slewOnce_frame (s : State) :
    (s.slewOnce).pending = s.pending ∧ (s.slewOnce).choices = s.choices ∧ (s.slewOnce).held = s.held
      ∧ (s.slewOnce).pins = s.pins ∧ (s.slewOnce).cause = s.cause ∧ (s.slewOnce).bellCount = s.bellCount
      ∧ (s.slewOnce).coilBudget = s.coilBudget ∧ (s.slewOnce).lineRate = s.lineRate
      ∧ (s.slewOnce).bells = s.bells ∧ (s.slewOnce).queue = s.queue ∧ (s.slewOnce).waiting = s.waiting
      ∧ (s.slewOnce).coils = s.coils ∧ (s.slewOnce).melodies = s.melodies ∧ (s.slewOnce).pool = s.pool
      ∧ (s.slewOnce).playQueue = s.playQueue ∧ (s.slewOnce).lastId = s.lastId ∧ (s.slewOnce).tune = s.tune
      ∧ (s.slewOnce).toll = s.toll ∧ (s.slewOnce).live = s.live ∧ (s.slewOnce).draft = s.draft
      ∧ (s.slewOnce).stamps = s.stamps ∧ (s.slewOnce).hold = s.hold ∧ (s.slewOnce).quiet = s.quiet
      ∧ (s.slewOnce).cues = s.cues ∧ (s.slewOnce).supply = s.supply ∧ (s.slewOnce).serial = s.serial
      ∧ (s.slewOnce).store = s.store ∧ (s.slewOnce).image = s.image := by
  and_intros <;> rfl

/-- It can change no field but serial. -/
@[simp] theorem State.reportSync_frame (s : State) :
    (s.reportSync).pending = s.pending ∧ (s.reportSync).choices = s.choices ∧ (s.reportSync).held = s.held
      ∧ (s.reportSync).pins = s.pins ∧ (s.reportSync).cause = s.cause ∧ (s.reportSync).bellCount = s.bellCount
      ∧ (s.reportSync).coilBudget = s.coilBudget ∧ (s.reportSync).lineRate = s.lineRate
      ∧ (s.reportSync).time = s.time ∧ (s.reportSync).bells = s.bells ∧ (s.reportSync).queue = s.queue
      ∧ (s.reportSync).waiting = s.waiting ∧ (s.reportSync).coils = s.coils
      ∧ (s.reportSync).melodies = s.melodies ∧ (s.reportSync).pool = s.pool
      ∧ (s.reportSync).playQueue = s.playQueue ∧ (s.reportSync).lastId = s.lastId ∧ (s.reportSync).tune = s.tune
      ∧ (s.reportSync).toll = s.toll ∧ (s.reportSync).live = s.live ∧ (s.reportSync).draft = s.draft
      ∧ (s.reportSync).stamps = s.stamps ∧ (s.reportSync).hold = s.hold ∧ (s.reportSync).quiet = s.quiet
      ∧ (s.reportSync).cues = s.cues ∧ (s.reportSync).supply = s.supply ∧ (s.reportSync).store = s.store
      ∧ (s.reportSync).image = s.image := by
  and_intros <;> rfl

/-- It can change no field but pool. -/
@[simp] theorem State.discardBlocks_frame (s : State) (blocks : List Nat) :
    (s.discardBlocks blocks).pending = s.pending ∧ (s.discardBlocks blocks).choices = s.choices
      ∧ (s.discardBlocks blocks).held = s.held ∧ (s.discardBlocks blocks).pins = s.pins
      ∧ (s.discardBlocks blocks).cause = s.cause ∧ (s.discardBlocks blocks).bellCount = s.bellCount
      ∧ (s.discardBlocks blocks).coilBudget = s.coilBudget ∧ (s.discardBlocks blocks).lineRate = s.lineRate
      ∧ (s.discardBlocks blocks).time = s.time ∧ (s.discardBlocks blocks).bells = s.bells
      ∧ (s.discardBlocks blocks).queue = s.queue ∧ (s.discardBlocks blocks).waiting = s.waiting
      ∧ (s.discardBlocks blocks).coils = s.coils ∧ (s.discardBlocks blocks).melodies = s.melodies
      ∧ (s.discardBlocks blocks).playQueue = s.playQueue ∧ (s.discardBlocks blocks).lastId = s.lastId
      ∧ (s.discardBlocks blocks).tune = s.tune ∧ (s.discardBlocks blocks).toll = s.toll
      ∧ (s.discardBlocks blocks).live = s.live ∧ (s.discardBlocks blocks).draft = s.draft
      ∧ (s.discardBlocks blocks).stamps = s.stamps ∧ (s.discardBlocks blocks).hold = s.hold
      ∧ (s.discardBlocks blocks).quiet = s.quiet ∧ (s.discardBlocks blocks).cues = s.cues
      ∧ (s.discardBlocks blocks).supply = s.supply ∧ (s.discardBlocks blocks).serial = s.serial
      ∧ (s.discardBlocks blocks).store = s.store ∧ (s.discardBlocks blocks).image = s.image := by
  and_intros <;> rfl

/-- It can change no field but melodies, pool. -/
@[simp] theorem State.place_frame (s : State) (m : Nat) (r : ScoreRecord) :
    (s.place m r).pending = s.pending ∧ (s.place m r).choices = s.choices ∧ (s.place m r).held = s.held
      ∧ (s.place m r).pins = s.pins ∧ (s.place m r).cause = s.cause ∧ (s.place m r).bellCount = s.bellCount
      ∧ (s.place m r).coilBudget = s.coilBudget ∧ (s.place m r).lineRate = s.lineRate
      ∧ (s.place m r).time = s.time ∧ (s.place m r).bells = s.bells ∧ (s.place m r).queue = s.queue
      ∧ (s.place m r).waiting = s.waiting ∧ (s.place m r).coils = s.coils
      ∧ (s.place m r).playQueue = s.playQueue ∧ (s.place m r).lastId = s.lastId ∧ (s.place m r).tune = s.tune
      ∧ (s.place m r).toll = s.toll ∧ (s.place m r).live = s.live ∧ (s.place m r).draft = s.draft
      ∧ (s.place m r).stamps = s.stamps ∧ (s.place m r).hold = s.hold ∧ (s.place m r).quiet = s.quiet
      ∧ (s.place m r).cues = s.cues ∧ (s.place m r).supply = s.supply ∧ (s.place m r).serial = s.serial
      ∧ (s.place m r).store = s.store ∧ (s.place m r).image = s.image := by
  and_intros <;> rfl

/-- It can change no field but bells. -/
@[simp] theorem State.soilWindows_frame (s : State) :
    (s.soilWindows).pending = s.pending ∧ (s.soilWindows).choices = s.choices ∧ (s.soilWindows).held = s.held
      ∧ (s.soilWindows).pins = s.pins ∧ (s.soilWindows).cause = s.cause
      ∧ (s.soilWindows).bellCount = s.bellCount ∧ (s.soilWindows).coilBudget = s.coilBudget
      ∧ (s.soilWindows).lineRate = s.lineRate ∧ (s.soilWindows).time = s.time ∧ (s.soilWindows).queue = s.queue
      ∧ (s.soilWindows).waiting = s.waiting ∧ (s.soilWindows).coils = s.coils
      ∧ (s.soilWindows).melodies = s.melodies ∧ (s.soilWindows).pool = s.pool
      ∧ (s.soilWindows).playQueue = s.playQueue ∧ (s.soilWindows).lastId = s.lastId
      ∧ (s.soilWindows).tune = s.tune ∧ (s.soilWindows).toll = s.toll ∧ (s.soilWindows).live = s.live
      ∧ (s.soilWindows).draft = s.draft ∧ (s.soilWindows).stamps = s.stamps ∧ (s.soilWindows).hold = s.hold
      ∧ (s.soilWindows).quiet = s.quiet ∧ (s.soilWindows).cues = s.cues ∧ (s.soilWindows).supply = s.supply
      ∧ (s.soilWindows).serial = s.serial ∧ (s.soilWindows).store = s.store ∧ (s.soilWindows).image = s.image := by
  and_intros <;> rfl

/-- It can change no field but pins. -/
@[simp] theorem State.setSupgood_frame (s : State) (high : Bool) :
    (s.setSupgood high).pending = s.pending ∧ (s.setSupgood high).choices = s.choices
      ∧ (s.setSupgood high).held = s.held ∧ (s.setSupgood high).cause = s.cause
      ∧ (s.setSupgood high).bellCount = s.bellCount ∧ (s.setSupgood high).coilBudget = s.coilBudget
      ∧ (s.setSupgood high).lineRate = s.lineRate ∧ (s.setSupgood high).time = s.time
      ∧ (s.setSupgood high).bells = s.bells ∧ (s.setSupgood high).queue = s.queue
      ∧ (s.setSupgood high).waiting = s.waiting ∧ (s.setSupgood high).coils = s.coils
      ∧ (s.setSupgood high).melodies = s.melodies ∧ (s.setSupgood high).pool = s.pool
      ∧ (s.setSupgood high).playQueue = s.playQueue ∧ (s.setSupgood high).lastId = s.lastId
      ∧ (s.setSupgood high).tune = s.tune ∧ (s.setSupgood high).toll = s.toll
      ∧ (s.setSupgood high).live = s.live ∧ (s.setSupgood high).draft = s.draft
      ∧ (s.setSupgood high).stamps = s.stamps ∧ (s.setSupgood high).hold = s.hold
      ∧ (s.setSupgood high).quiet = s.quiet ∧ (s.setSupgood high).cues = s.cues
      ∧ (s.setSupgood high).supply = s.supply ∧ (s.setSupgood high).serial = s.serial
      ∧ (s.setSupgood high).store = s.store ∧ (s.setSupgood high).image = s.image := by
  and_intros <;> rfl

/-- It can change no field but supply, serial. -/
@[simp] theorem State.regainSupply_frame (s : State) :
    (s.regainSupply).pending = s.pending ∧ (s.regainSupply).choices = s.choices ∧ (s.regainSupply).held = s.held
      ∧ (s.regainSupply).pins = s.pins ∧ (s.regainSupply).cause = s.cause
      ∧ (s.regainSupply).bellCount = s.bellCount ∧ (s.regainSupply).coilBudget = s.coilBudget
      ∧ (s.regainSupply).lineRate = s.lineRate ∧ (s.regainSupply).time = s.time
      ∧ (s.regainSupply).bells = s.bells ∧ (s.regainSupply).queue = s.queue
      ∧ (s.regainSupply).waiting = s.waiting ∧ (s.regainSupply).coils = s.coils
      ∧ (s.regainSupply).melodies = s.melodies ∧ (s.regainSupply).pool = s.pool
      ∧ (s.regainSupply).playQueue = s.playQueue ∧ (s.regainSupply).lastId = s.lastId
      ∧ (s.regainSupply).tune = s.tune ∧ (s.regainSupply).toll = s.toll ∧ (s.regainSupply).live = s.live
      ∧ (s.regainSupply).draft = s.draft ∧ (s.regainSupply).stamps = s.stamps ∧ (s.regainSupply).hold = s.hold
      ∧ (s.regainSupply).quiet = s.quiet ∧ (s.regainSupply).cues = s.cues ∧ (s.regainSupply).store = s.store
      ∧ (s.regainSupply).image = s.image := by
  and_intros <;> rfl

/-- It can change no field but time, serial. -/
@[simp] theorem State.endRange_frame (s : State) :
    (s.endRange).pending = s.pending ∧ (s.endRange).choices = s.choices ∧ (s.endRange).held = s.held
      ∧ (s.endRange).pins = s.pins ∧ (s.endRange).cause = s.cause ∧ (s.endRange).bellCount = s.bellCount
      ∧ (s.endRange).coilBudget = s.coilBudget ∧ (s.endRange).lineRate = s.lineRate
      ∧ (s.endRange).bells = s.bells ∧ (s.endRange).queue = s.queue ∧ (s.endRange).waiting = s.waiting
      ∧ (s.endRange).coils = s.coils ∧ (s.endRange).melodies = s.melodies ∧ (s.endRange).pool = s.pool
      ∧ (s.endRange).playQueue = s.playQueue ∧ (s.endRange).lastId = s.lastId ∧ (s.endRange).tune = s.tune
      ∧ (s.endRange).toll = s.toll ∧ (s.endRange).live = s.live ∧ (s.endRange).draft = s.draft
      ∧ (s.endRange).stamps = s.stamps ∧ (s.endRange).hold = s.hold ∧ (s.endRange).quiet = s.quiet
      ∧ (s.endRange).cues = s.cues ∧ (s.endRange).supply = s.supply ∧ (s.endRange).store = s.store
      ∧ (s.endRange).image = s.image := by
  and_intros <;> rfl

/-- It can change no field but live, stamps. -/
@[simp] theorem State.copyDraft_frame (s : State) :
    (s.copyDraft).live = s.draft ∧ (s.copyDraft).pending = s.pending ∧ (s.copyDraft).choices = s.choices
      ∧ (s.copyDraft).held = s.held ∧ (s.copyDraft).pins = s.pins ∧ (s.copyDraft).cause = s.cause
      ∧ (s.copyDraft).bellCount = s.bellCount ∧ (s.copyDraft).coilBudget = s.coilBudget
      ∧ (s.copyDraft).lineRate = s.lineRate ∧ (s.copyDraft).time = s.time ∧ (s.copyDraft).bells = s.bells
      ∧ (s.copyDraft).queue = s.queue ∧ (s.copyDraft).waiting = s.waiting ∧ (s.copyDraft).coils = s.coils
      ∧ (s.copyDraft).melodies = s.melodies ∧ (s.copyDraft).pool = s.pool
      ∧ (s.copyDraft).playQueue = s.playQueue ∧ (s.copyDraft).lastId = s.lastId ∧ (s.copyDraft).tune = s.tune
      ∧ (s.copyDraft).toll = s.toll ∧ (s.copyDraft).draft = s.draft ∧ (s.copyDraft).hold = s.hold
      ∧ (s.copyDraft).quiet = s.quiet ∧ (s.copyDraft).cues = s.cues ∧ (s.copyDraft).supply = s.supply
      ∧ (s.copyDraft).serial = s.serial ∧ (s.copyDraft).store = s.store ∧ (s.copyDraft).image = s.image := by
  and_intros <;> rfl

end Sys2Proof.Machine
end

