-- ==== Sys2Proof/Laws/Frames.lean ====
section
/-! SUPPORT. What the shared operations leave alone: for each, the fields of the state that it cannot change. -/

namespace Sys2Proof.Machine

/-! ## Sensing -/

/-- It can change no field but serial. -/
@[simp] theorem State.reportHealth_frame (s : State) (b : Nat) (h : Health) :
    (s.reportHealth b h).pending = s.pending ∧ (s.reportHealth b h).choices = s.choices
      ∧ (s.reportHealth b h).held = s.held ∧ (s.reportHealth b h).pins = s.pins
      ∧ (s.reportHealth b h).cause = s.cause ∧ (s.reportHealth b h).bellCount = s.bellCount
      ∧ (s.reportHealth b h).coilBudget = s.coilBudget ∧ (s.reportHealth b h).lineRate = s.lineRate
      ∧ (s.reportHealth b h).time = s.time ∧ (s.reportHealth b h).bells = s.bells
      ∧ (s.reportHealth b h).queue = s.queue ∧ (s.reportHealth b h).waiting = s.waiting
      ∧ (s.reportHealth b h).coils = s.coils ∧ (s.reportHealth b h).melodies = s.melodies
      ∧ (s.reportHealth b h).pool = s.pool ∧ (s.reportHealth b h).playQueue = s.playQueue
      ∧ (s.reportHealth b h).lastId = s.lastId ∧ (s.reportHealth b h).tune = s.tune
      ∧ (s.reportHealth b h).toll = s.toll ∧ (s.reportHealth b h).live = s.live
      ∧ (s.reportHealth b h).draft = s.draft ∧ (s.reportHealth b h).stamps = s.stamps
      ∧ (s.reportHealth b h).hold = s.hold ∧ (s.reportHealth b h).quiet = s.quiet
      ∧ (s.reportHealth b h).cues = s.cues ∧ (s.reportHealth b h).supply = s.supply
      ∧ (s.reportHealth b h).store = s.store ∧ (s.reportHealth b h).image = s.image := by
  unfold State.reportHealth
  split <;> simp

/-- It can change no field but bells, serial. -/
@[simp] theorem State.moveBell_frame (s : State) (b : Nat) (r : Bell) :
    (s.moveBell b r).pending = s.pending ∧ (s.moveBell b r).choices = s.choices ∧ (s.moveBell b r).held = s.held
      ∧ (s.moveBell b r).pins = s.pins ∧ (s.moveBell b r).cause = s.cause
      ∧ (s.moveBell b r).bellCount = s.bellCount ∧ (s.moveBell b r).coilBudget = s.coilBudget
      ∧ (s.moveBell b r).lineRate = s.lineRate ∧ (s.moveBell b r).time = s.time
      ∧ (s.moveBell b r).queue = s.queue ∧ (s.moveBell b r).waiting = s.waiting
      ∧ (s.moveBell b r).coils = s.coils ∧ (s.moveBell b r).melodies = s.melodies
      ∧ (s.moveBell b r).pool = s.pool ∧ (s.moveBell b r).playQueue = s.playQueue
      ∧ (s.moveBell b r).lastId = s.lastId ∧ (s.moveBell b r).tune = s.tune ∧ (s.moveBell b r).toll = s.toll
      ∧ (s.moveBell b r).live = s.live ∧ (s.moveBell b r).draft = s.draft ∧ (s.moveBell b r).stamps = s.stamps
      ∧ (s.moveBell b r).hold = s.hold ∧ (s.moveBell b r).quiet = s.quiet ∧ (s.moveBell b r).cues = s.cues
      ∧ (s.moveBell b r).supply = s.supply ∧ (s.moveBell b r).store = s.store ∧ (s.moveBell b r).image = s.image := by
  unfold State.moveBell
  simp

/-- It can change no field but bells, serial. -/
@[simp] theorem State.hit_frame (s : State) (b : Nat) (w : Window) :
    (s.hit b w).pending = s.pending ∧ (s.hit b w).choices = s.choices ∧ (s.hit b w).held = s.held
      ∧ (s.hit b w).pins = s.pins ∧ (s.hit b w).cause = s.cause ∧ (s.hit b w).bellCount = s.bellCount
      ∧ (s.hit b w).coilBudget = s.coilBudget ∧ (s.hit b w).lineRate = s.lineRate ∧ (s.hit b w).time = s.time
      ∧ (s.hit b w).queue = s.queue ∧ (s.hit b w).waiting = s.waiting ∧ (s.hit b w).coils = s.coils
      ∧ (s.hit b w).melodies = s.melodies ∧ (s.hit b w).pool = s.pool ∧ (s.hit b w).playQueue = s.playQueue
      ∧ (s.hit b w).lastId = s.lastId ∧ (s.hit b w).tune = s.tune ∧ (s.hit b w).toll = s.toll
      ∧ (s.hit b w).live = s.live ∧ (s.hit b w).draft = s.draft ∧ (s.hit b w).stamps = s.stamps
      ∧ (s.hit b w).hold = s.hold ∧ (s.hit b w).quiet = s.quiet ∧ (s.hit b w).cues = s.cues
      ∧ (s.hit b w).supply = s.supply ∧ (s.hit b w).store = s.store ∧ (s.hit b w).image = s.image := by
  unfold State.hit
  simp

/-- It can change no field but bells, serial. -/
@[simp] theorem State.miss_frame (s : State) (b : Nat) (w : Window) :
    (s.miss b w).pending = s.pending ∧ (s.miss b w).choices = s.choices ∧ (s.miss b w).held = s.held
      ∧ (s.miss b w).pins = s.pins ∧ (s.miss b w).cause = s.cause ∧ (s.miss b w).bellCount = s.bellCount
      ∧ (s.miss b w).coilBudget = s.coilBudget ∧ (s.miss b w).lineRate = s.lineRate ∧ (s.miss b w).time = s.time
      ∧ (s.miss b w).queue = s.queue ∧ (s.miss b w).waiting = s.waiting ∧ (s.miss b w).coils = s.coils
      ∧ (s.miss b w).melodies = s.melodies ∧ (s.miss b w).pool = s.pool ∧ (s.miss b w).playQueue = s.playQueue
      ∧ (s.miss b w).lastId = s.lastId ∧ (s.miss b w).tune = s.tune ∧ (s.miss b w).toll = s.toll
      ∧ (s.miss b w).live = s.live ∧ (s.miss b w).draft = s.draft ∧ (s.miss b w).stamps = s.stamps
      ∧ (s.miss b w).hold = s.hold ∧ (s.miss b w).quiet = s.quiet ∧ (s.miss b w).cues = s.cues
      ∧ (s.miss b w).supply = s.supply ∧ (s.miss b w).store = s.store ∧ (s.miss b w).image = s.image := by
  unfold State.miss
  simp

/-- It can change no field but bells, serial. -/
@[simp] theorem State.judgeEdge_frame (s : State) (b : Nat) :
    (s.judgeEdge b).pending = s.pending ∧ (s.judgeEdge b).choices = s.choices ∧ (s.judgeEdge b).held = s.held
      ∧ (s.judgeEdge b).pins = s.pins ∧ (s.judgeEdge b).cause = s.cause
      ∧ (s.judgeEdge b).bellCount = s.bellCount ∧ (s.judgeEdge b).coilBudget = s.coilBudget
      ∧ (s.judgeEdge b).lineRate = s.lineRate ∧ (s.judgeEdge b).time = s.time ∧ (s.judgeEdge b).queue = s.queue
      ∧ (s.judgeEdge b).waiting = s.waiting ∧ (s.judgeEdge b).coils = s.coils
      ∧ (s.judgeEdge b).melodies = s.melodies ∧ (s.judgeEdge b).pool = s.pool
      ∧ (s.judgeEdge b).playQueue = s.playQueue ∧ (s.judgeEdge b).lastId = s.lastId
      ∧ (s.judgeEdge b).tune = s.tune ∧ (s.judgeEdge b).toll = s.toll ∧ (s.judgeEdge b).live = s.live
      ∧ (s.judgeEdge b).draft = s.draft ∧ (s.judgeEdge b).stamps = s.stamps ∧ (s.judgeEdge b).hold = s.hold
      ∧ (s.judgeEdge b).quiet = s.quiet ∧ (s.judgeEdge b).cues = s.cues ∧ (s.judgeEdge b).supply = s.supply
      ∧ (s.judgeEdge b).store = s.store ∧ (s.judgeEdge b).image = s.image := by
  unfold State.judgeEdge
  split
  · simp
  · split
    · simp
    · split <;> simp

/-! ## The dispatcher -/

/-- It can change no field but tune, toll. -/
@[simp] theorem State.tally_frame (s : State) (o : Origin) (f : Summary → Summary) :
    (s.tally o f).pending = s.pending ∧ (s.tally o f).choices = s.choices ∧ (s.tally o f).held = s.held
      ∧ (s.tally o f).pins = s.pins ∧ (s.tally o f).cause = s.cause ∧ (s.tally o f).bellCount = s.bellCount
      ∧ (s.tally o f).coilBudget = s.coilBudget ∧ (s.tally o f).lineRate = s.lineRate
      ∧ (s.tally o f).time = s.time ∧ (s.tally o f).bells = s.bells ∧ (s.tally o f).queue = s.queue
      ∧ (s.tally o f).waiting = s.waiting ∧ (s.tally o f).coils = s.coils ∧ (s.tally o f).melodies = s.melodies
      ∧ (s.tally o f).pool = s.pool ∧ (s.tally o f).playQueue = s.playQueue ∧ (s.tally o f).lastId = s.lastId
      ∧ (s.tally o f).live = s.live ∧ (s.tally o f).draft = s.draft ∧ (s.tally o f).stamps = s.stamps
      ∧ (s.tally o f).hold = s.hold ∧ (s.tally o f).quiet = s.quiet ∧ (s.tally o f).cues = s.cues
      ∧ (s.tally o f).supply = s.supply ∧ (s.tally o f).serial = s.serial ∧ (s.tally o f).store = s.store
      ∧ (s.tally o f).image = s.image := by
  unfold State.tally
  split <;> simp

/-- It can change no field but bells, tune, toll. -/
@[simp] theorem State.drop_frame (s : State) (e : Entry) (r : DropReason) :
    (s.drop e r).pending = s.pending ∧ (s.drop e r).choices = s.choices ∧ (s.drop e r).held = s.held
      ∧ (s.drop e r).pins = s.pins ∧ (s.drop e r).cause = s.cause ∧ (s.drop e r).bellCount = s.bellCount
      ∧ (s.drop e r).coilBudget = s.coilBudget ∧ (s.drop e r).lineRate = s.lineRate ∧ (s.drop e r).time = s.time
      ∧ (s.drop e r).queue = s.queue ∧ (s.drop e r).waiting = s.waiting ∧ (s.drop e r).coils = s.coils
      ∧ (s.drop e r).melodies = s.melodies ∧ (s.drop e r).pool = s.pool ∧ (s.drop e r).playQueue = s.playQueue
      ∧ (s.drop e r).lastId = s.lastId ∧ (s.drop e r).live = s.live ∧ (s.drop e r).draft = s.draft
      ∧ (s.drop e r).stamps = s.stamps ∧ (s.drop e r).hold = s.hold ∧ (s.drop e r).quiet = s.quiet
      ∧ (s.drop e r).cues = s.cues ∧ (s.drop e r).supply = s.supply ∧ (s.drop e r).serial = s.serial
      ∧ (s.drop e r).store = s.store ∧ (s.drop e r).image = s.image := by
  unfold State.drop
  simp

/-- It can change no field but bells, tune, toll. -/
@[simp] theorem State.countSlip_frame (s : State) (e : Entry) :
    (s.countSlip e).pending = s.pending ∧ (s.countSlip e).choices = s.choices ∧ (s.countSlip e).held = s.held
      ∧ (s.countSlip e).pins = s.pins ∧ (s.countSlip e).cause = s.cause
      ∧ (s.countSlip e).bellCount = s.bellCount ∧ (s.countSlip e).coilBudget = s.coilBudget
      ∧ (s.countSlip e).lineRate = s.lineRate ∧ (s.countSlip e).time = s.time ∧ (s.countSlip e).queue = s.queue
      ∧ (s.countSlip e).waiting = s.waiting ∧ (s.countSlip e).coils = s.coils
      ∧ (s.countSlip e).melodies = s.melodies ∧ (s.countSlip e).pool = s.pool
      ∧ (s.countSlip e).playQueue = s.playQueue ∧ (s.countSlip e).lastId = s.lastId
      ∧ (s.countSlip e).live = s.live ∧ (s.countSlip e).draft = s.draft ∧ (s.countSlip e).stamps = s.stamps
      ∧ (s.countSlip e).hold = s.hold ∧ (s.countSlip e).quiet = s.quiet ∧ (s.countSlip e).cues = s.cues
      ∧ (s.countSlip e).supply = s.supply ∧ (s.countSlip e).serial = s.serial ∧ (s.countSlip e).store = s.store
      ∧ (s.countSlip e).image = s.image := by
  unfold State.countSlip
  split <;> simp

/-- It can change no field but bells, serial. -/
@[simp] theorem State.closeOldWindow_frame (s : State) (b : Nat) :
    (s.closeOldWindow b).pending = s.pending ∧ (s.closeOldWindow b).choices = s.choices
      ∧ (s.closeOldWindow b).held = s.held ∧ (s.closeOldWindow b).pins = s.pins
      ∧ (s.closeOldWindow b).cause = s.cause ∧ (s.closeOldWindow b).bellCount = s.bellCount
      ∧ (s.closeOldWindow b).coilBudget = s.coilBudget ∧ (s.closeOldWindow b).lineRate = s.lineRate
      ∧ (s.closeOldWindow b).time = s.time ∧ (s.closeOldWindow b).queue = s.queue
      ∧ (s.closeOldWindow b).waiting = s.waiting ∧ (s.closeOldWindow b).coils = s.coils
      ∧ (s.closeOldWindow b).melodies = s.melodies ∧ (s.closeOldWindow b).pool = s.pool
      ∧ (s.closeOldWindow b).playQueue = s.playQueue ∧ (s.closeOldWindow b).lastId = s.lastId
      ∧ (s.closeOldWindow b).tune = s.tune ∧ (s.closeOldWindow b).toll = s.toll
      ∧ (s.closeOldWindow b).live = s.live ∧ (s.closeOldWindow b).draft = s.draft
      ∧ (s.closeOldWindow b).stamps = s.stamps ∧ (s.closeOldWindow b).hold = s.hold
      ∧ (s.closeOldWindow b).quiet = s.quiet ∧ (s.closeOldWindow b).cues = s.cues
      ∧ (s.closeOldWindow b).supply = s.supply ∧ (s.closeOldWindow b).store = s.store
      ∧ (s.closeOldWindow b).image = s.image := by
  unfold State.closeOldWindow
  split <;> simp

/-- It can change no field but bells, serial. -/
@[simp] theorem State.judgeFirst_frame (s : State) (e : Entry) (granted : Bool) :
    (s.judgeFirst e granted).pending = s.pending ∧ (s.judgeFirst e granted).choices = s.choices
      ∧ (s.judgeFirst e granted).held = s.held ∧ (s.judgeFirst e granted).pins = s.pins
      ∧ (s.judgeFirst e granted).cause = s.cause ∧ (s.judgeFirst e granted).bellCount = s.bellCount
      ∧ (s.judgeFirst e granted).coilBudget = s.coilBudget ∧ (s.judgeFirst e granted).lineRate = s.lineRate
      ∧ (s.judgeFirst e granted).time = s.time ∧ (s.judgeFirst e granted).queue = s.queue
      ∧ (s.judgeFirst e granted).waiting = s.waiting ∧ (s.judgeFirst e granted).coils = s.coils
      ∧ (s.judgeFirst e granted).melodies = s.melodies ∧ (s.judgeFirst e granted).pool = s.pool
      ∧ (s.judgeFirst e granted).playQueue = s.playQueue ∧ (s.judgeFirst e granted).lastId = s.lastId
      ∧ (s.judgeFirst e granted).tune = s.tune ∧ (s.judgeFirst e granted).toll = s.toll
      ∧ (s.judgeFirst e granted).live = s.live ∧ (s.judgeFirst e granted).draft = s.draft
      ∧ (s.judgeFirst e granted).stamps = s.stamps ∧ (s.judgeFirst e granted).hold = s.hold
      ∧ (s.judgeFirst e granted).quiet = s.quiet ∧ (s.judgeFirst e granted).cues = s.cues
      ∧ (s.judgeFirst e granted).supply = s.supply ∧ (s.judgeFirst e granted).store = s.store
      ∧ (s.judgeFirst e granted).image = s.image := by
  unfold State.judgeFirst
  split <;> simp

/-- It can change no field but bells, coils, tune, toll, serial. -/
@[simp] theorem State.fire_frame (s : State) (e : Entry) (level : Nat) :
    (s.fire e level).pending = s.pending ∧ (s.fire e level).choices = s.choices ∧ (s.fire e level).held = s.held
      ∧ (s.fire e level).pins = s.pins ∧ (s.fire e level).cause = s.cause
      ∧ (s.fire e level).bellCount = s.bellCount ∧ (s.fire e level).coilBudget = s.coilBudget
      ∧ (s.fire e level).lineRate = s.lineRate ∧ (s.fire e level).time = s.time
      ∧ (s.fire e level).queue = s.queue ∧ (s.fire e level).waiting = s.waiting
      ∧ (s.fire e level).melodies = s.melodies ∧ (s.fire e level).pool = s.pool
      ∧ (s.fire e level).playQueue = s.playQueue ∧ (s.fire e level).lastId = s.lastId
      ∧ (s.fire e level).live = s.live ∧ (s.fire e level).draft = s.draft ∧ (s.fire e level).stamps = s.stamps
      ∧ (s.fire e level).hold = s.hold ∧ (s.fire e level).quiet = s.quiet ∧ (s.fire e level).cues = s.cues
      ∧ (s.fire e level).supply = s.supply ∧ (s.fire e level).store = s.store ∧ (s.fire e level).image = s.image := by
  unfold State.fire
  simp

/-- It can change no field but bells, queue, waiting, coils, tune, toll, serial. -/
@[simp] theorem State.carryOut_frame (s : State) (e : Entry) (d : Decision) :
    (s.carryOut e d).pending = s.pending ∧ (s.carryOut e d).choices = s.choices ∧ (s.carryOut e d).held = s.held
      ∧ (s.carryOut e d).pins = s.pins ∧ (s.carryOut e d).cause = s.cause
      ∧ (s.carryOut e d).bellCount = s.bellCount ∧ (s.carryOut e d).coilBudget = s.coilBudget
      ∧ (s.carryOut e d).lineRate = s.lineRate ∧ (s.carryOut e d).time = s.time
      ∧ (s.carryOut e d).melodies = s.melodies ∧ (s.carryOut e d).pool = s.pool
      ∧ (s.carryOut e d).playQueue = s.playQueue ∧ (s.carryOut e d).lastId = s.lastId
      ∧ (s.carryOut e d).live = s.live ∧ (s.carryOut e d).draft = s.draft ∧ (s.carryOut e d).stamps = s.stamps
      ∧ (s.carryOut e d).hold = s.hold ∧ (s.carryOut e d).quiet = s.quiet ∧ (s.carryOut e d).cues = s.cues
      ∧ (s.carryOut e d).supply = s.supply ∧ (s.carryOut e d).store = s.store ∧ (s.carryOut e d).image = s.image := by
  unfold State.carryOut
  split <;> simp

/-- It can change no field but bells, queue, waiting, coils, tune, toll, serial. -/
@[simp] theorem State.dispatchHead_frame (s : State) :
    (s.dispatchHead).pending = s.pending ∧ (s.dispatchHead).choices = s.choices ∧ (s.dispatchHead).held = s.held
      ∧ (s.dispatchHead).pins = s.pins ∧ (s.dispatchHead).cause = s.cause
      ∧ (s.dispatchHead).bellCount = s.bellCount ∧ (s.dispatchHead).coilBudget = s.coilBudget
      ∧ (s.dispatchHead).lineRate = s.lineRate ∧ (s.dispatchHead).time = s.time
      ∧ (s.dispatchHead).melodies = s.melodies ∧ (s.dispatchHead).pool = s.pool
      ∧ (s.dispatchHead).playQueue = s.playQueue ∧ (s.dispatchHead).lastId = s.lastId
      ∧ (s.dispatchHead).live = s.live ∧ (s.dispatchHead).draft = s.draft ∧ (s.dispatchHead).stamps = s.stamps
      ∧ (s.dispatchHead).hold = s.hold ∧ (s.dispatchHead).quiet = s.quiet ∧ (s.dispatchHead).cues = s.cues
      ∧ (s.dispatchHead).supply = s.supply ∧ (s.dispatchHead).store = s.store ∧ (s.dispatchHead).image = s.image := by
  unfold State.dispatchHead
  split
  · simp
  · simp

/-- It can change no field but bells, queue, waiting, coils, tune, toll, serial. -/
@[simp] theorem State.grantFrom_frame (s : State) (l : List Entry) :
    (s.grantFrom l).pending = s.pending ∧ (s.grantFrom l).choices = s.choices ∧ (s.grantFrom l).held = s.held
      ∧ (s.grantFrom l).pins = s.pins ∧ (s.grantFrom l).cause = s.cause
      ∧ (s.grantFrom l).bellCount = s.bellCount ∧ (s.grantFrom l).coilBudget = s.coilBudget
      ∧ (s.grantFrom l).lineRate = s.lineRate ∧ (s.grantFrom l).time = s.time
      ∧ (s.grantFrom l).melodies = s.melodies ∧ (s.grantFrom l).pool = s.pool
      ∧ (s.grantFrom l).playQueue = s.playQueue ∧ (s.grantFrom l).lastId = s.lastId
      ∧ (s.grantFrom l).live = s.live ∧ (s.grantFrom l).draft = s.draft ∧ (s.grantFrom l).stamps = s.stamps
      ∧ (s.grantFrom l).hold = s.hold ∧ (s.grantFrom l).quiet = s.quiet ∧ (s.grantFrom l).cues = s.cues
      ∧ (s.grantFrom l).supply = s.supply ∧ (s.grantFrom l).store = s.store ∧ (s.grantFrom l).image = s.image := by
  induction l generalizing s with
  | nil => simp [State.grantFrom]
  | cons e rest ih =>
    unfold State.grantFrom
    dsimp only
    split
    · simp
    · simp [ih]

/-- It can change no field but bells, queue, waiting, coils, tune, toll, serial. -/
@[simp] theorem State.grant_frame (s : State) :
    (s.grant).pending = s.pending ∧ (s.grant).choices = s.choices ∧ (s.grant).held = s.held
      ∧ (s.grant).pins = s.pins ∧ (s.grant).cause = s.cause ∧ (s.grant).bellCount = s.bellCount
      ∧ (s.grant).coilBudget = s.coilBudget ∧ (s.grant).lineRate = s.lineRate ∧ (s.grant).time = s.time
      ∧ (s.grant).melodies = s.melodies ∧ (s.grant).pool = s.pool ∧ (s.grant).playQueue = s.playQueue
      ∧ (s.grant).lastId = s.lastId ∧ (s.grant).live = s.live ∧ (s.grant).draft = s.draft
      ∧ (s.grant).stamps = s.stamps ∧ (s.grant).hold = s.hold ∧ (s.grant).quiet = s.quiet
      ∧ (s.grant).cues = s.cues ∧ (s.grant).supply = s.supply ∧ (s.grant).store = s.store
      ∧ (s.grant).image = s.image := by
  unfold State.grant
  simp

/-- It can change no field but bells, queue, waiting, coils, tune, toll, serial. -/
@[simp] theorem State.releaseCoil_frame (s : State) (b : Nat) :
    (s.releaseCoil b).pending = s.pending ∧ (s.releaseCoil b).choices = s.choices
      ∧ (s.releaseCoil b).held = s.held ∧ (s.releaseCoil b).pins = s.pins ∧ (s.releaseCoil b).cause = s.cause
      ∧ (s.releaseCoil b).bellCount = s.bellCount ∧ (s.releaseCoil b).coilBudget = s.coilBudget
      ∧ (s.releaseCoil b).lineRate = s.lineRate ∧ (s.releaseCoil b).time = s.time
      ∧ (s.releaseCoil b).melodies = s.melodies ∧ (s.releaseCoil b).pool = s.pool
      ∧ (s.releaseCoil b).playQueue = s.playQueue ∧ (s.releaseCoil b).lastId = s.lastId
      ∧ (s.releaseCoil b).live = s.live ∧ (s.releaseCoil b).draft = s.draft
      ∧ (s.releaseCoil b).stamps = s.stamps ∧ (s.releaseCoil b).hold = s.hold
      ∧ (s.releaseCoil b).quiet = s.quiet ∧ (s.releaseCoil b).cues = s.cues
      ∧ (s.releaseCoil b).supply = s.supply ∧ (s.releaseCoil b).store = s.store
      ∧ (s.releaseCoil b).image = s.image := by
  unfold State.releaseCoil
  simp

/-- It can change no field but bells, waiting, tune, toll. -/
@[simp] theorem State.dropAtDeadline_frame (s : State) (place : Nat) :
    (s.dropAtDeadline place).pending = s.pending ∧ (s.dropAtDeadline place).choices = s.choices
      ∧ (s.dropAtDeadline place).held = s.held ∧ (s.dropAtDeadline place).pins = s.pins
      ∧ (s.dropAtDeadline place).cause = s.cause ∧ (s.dropAtDeadline place).bellCount = s.bellCount
      ∧ (s.dropAtDeadline place).coilBudget = s.coilBudget ∧ (s.dropAtDeadline place).lineRate = s.lineRate
      ∧ (s.dropAtDeadline place).time = s.time ∧ (s.dropAtDeadline place).queue = s.queue
      ∧ (s.dropAtDeadline place).coils = s.coils ∧ (s.dropAtDeadline place).melodies = s.melodies
      ∧ (s.dropAtDeadline place).pool = s.pool ∧ (s.dropAtDeadline place).playQueue = s.playQueue
      ∧ (s.dropAtDeadline place).lastId = s.lastId ∧ (s.dropAtDeadline place).live = s.live
      ∧ (s.dropAtDeadline place).draft = s.draft ∧ (s.dropAtDeadline place).stamps = s.stamps
      ∧ (s.dropAtDeadline place).hold = s.hold ∧ (s.dropAtDeadline place).quiet = s.quiet
      ∧ (s.dropAtDeadline place).cues = s.cues ∧ (s.dropAtDeadline place).supply = s.supply
      ∧ (s.dropAtDeadline place).serial = s.serial ∧ (s.dropAtDeadline place).store = s.store
      ∧ (s.dropAtDeadline place).image = s.image := by
  unfold State.dropAtDeadline
  split <;> simp

/-- The drops of a list of entries change no field but bells, tune and toll. -/
theorem dropAll_frame (gone : List Entry) (s : State) :
    gone.foldl (fun s e => s.drop e .stop) s =
      { s with
        bells := (gone.foldl (fun s e => s.drop e .stop) s).bells
        tune := (gone.foldl (fun s e => s.drop e .stop) s).tune
        toll := (gone.foldl (fun s e => s.drop e .stop) s).toll } := by
  induction gone generalizing s with
  | nil => rfl
  | cons e rest ih =>
    simp only [List.foldl_cons]
    rw [ih (s.drop e .stop)]
    simp

/-- It can change no field but bells, queue, waiting, tune, toll. -/
@[simp] theorem State.removeOrigin_frame (s : State) (o : Origin) :
    (s.removeOrigin o).pending = s.pending ∧ (s.removeOrigin o).choices = s.choices
      ∧ (s.removeOrigin o).held = s.held ∧ (s.removeOrigin o).pins = s.pins ∧ (s.removeOrigin o).cause = s.cause
      ∧ (s.removeOrigin o).bellCount = s.bellCount ∧ (s.removeOrigin o).coilBudget = s.coilBudget
      ∧ (s.removeOrigin o).lineRate = s.lineRate ∧ (s.removeOrigin o).time = s.time
      ∧ (s.removeOrigin o).coils = s.coils ∧ (s.removeOrigin o).melodies = s.melodies
      ∧ (s.removeOrigin o).pool = s.pool ∧ (s.removeOrigin o).playQueue = s.playQueue
      ∧ (s.removeOrigin o).lastId = s.lastId ∧ (s.removeOrigin o).live = s.live
      ∧ (s.removeOrigin o).draft = s.draft ∧ (s.removeOrigin o).stamps = s.stamps
      ∧ (s.removeOrigin o).hold = s.hold ∧ (s.removeOrigin o).quiet = s.quiet ∧ (s.removeOrigin o).cues = s.cues
      ∧ (s.removeOrigin o).supply = s.supply ∧ (s.removeOrigin o).serial = s.serial
      ∧ (s.removeOrigin o).store = s.store ∧ (s.removeOrigin o).image = s.image := by
  unfold State.removeOrigin
  dsimp only
  rw [dropAll_frame]
  simp

/-! ## The lanes -/

/-- It can change no field but bells, queue, waiting, tune, toll. -/
@[simp] theorem State.stopTuneNow_frame (s : State) (r : EndReason) :
    (s.stopTuneNow r).pending = s.pending ∧ (s.stopTuneNow r).choices = s.choices
      ∧ (s.stopTuneNow r).held = s.held ∧ (s.stopTuneNow r).pins = s.pins ∧ (s.stopTuneNow r).cause = s.cause
      ∧ (s.stopTuneNow r).bellCount = s.bellCount ∧ (s.stopTuneNow r).coilBudget = s.coilBudget
      ∧ (s.stopTuneNow r).lineRate = s.lineRate ∧ (s.stopTuneNow r).time = s.time
      ∧ (s.stopTuneNow r).coils = s.coils ∧ (s.stopTuneNow r).melodies = s.melodies
      ∧ (s.stopTuneNow r).pool = s.pool ∧ (s.stopTuneNow r).playQueue = s.playQueue
      ∧ (s.stopTuneNow r).lastId = s.lastId ∧ (s.stopTuneNow r).live = s.live
      ∧ (s.stopTuneNow r).draft = s.draft ∧ (s.stopTuneNow r).stamps = s.stamps
      ∧ (s.stopTuneNow r).hold = s.hold ∧ (s.stopTuneNow r).quiet = s.quiet ∧ (s.stopTuneNow r).cues = s.cues
      ∧ (s.stopTuneNow r).supply = s.supply ∧ (s.stopTuneNow r).serial = s.serial
      ∧ (s.stopTuneNow r).store = s.store ∧ (s.stopTuneNow r).image = s.image := by
  unfold State.stopTuneNow
  split <;> simp

/-- It can change no field but bells, queue, waiting, tune, toll. -/
@[simp] theorem State.stopTollNow_frame (s : State) (r : EndReason) :
    (s.stopTollNow r).pending = s.pending ∧ (s.stopTollNow r).choices = s.choices
      ∧ (s.stopTollNow r).held = s.held ∧ (s.stopTollNow r).pins = s.pins ∧ (s.stopTollNow r).cause = s.cause
      ∧ (s.stopTollNow r).bellCount = s.bellCount ∧ (s.stopTollNow r).coilBudget = s.coilBudget
      ∧ (s.stopTollNow r).lineRate = s.lineRate ∧ (s.stopTollNow r).time = s.time
      ∧ (s.stopTollNow r).coils = s.coils ∧ (s.stopTollNow r).melodies = s.melodies
      ∧ (s.stopTollNow r).pool = s.pool ∧ (s.stopTollNow r).playQueue = s.playQueue
      ∧ (s.stopTollNow r).lastId = s.lastId ∧ (s.stopTollNow r).live = s.live
      ∧ (s.stopTollNow r).draft = s.draft ∧ (s.stopTollNow r).stamps = s.stamps
      ∧ (s.stopTollNow r).hold = s.hold ∧ (s.stopTollNow r).quiet = s.quiet ∧ (s.stopTollNow r).cues = s.cues
      ∧ (s.stopTollNow r).supply = s.supply ∧ (s.stopTollNow r).serial = s.serial
      ∧ (s.stopTollNow r).store = s.store ∧ (s.stopTollNow r).image = s.image := by
  unfold State.stopTollNow
  split <;> simp

/-- It can change no field but bells, queue, waiting, tune, toll. -/
@[simp] theorem State.barStopToll_frame (s : State) (r : EndReason) :
    (s.barStopToll r).pending = s.pending ∧ (s.barStopToll r).choices = s.choices
      ∧ (s.barStopToll r).held = s.held ∧ (s.barStopToll r).pins = s.pins ∧ (s.barStopToll r).cause = s.cause
      ∧ (s.barStopToll r).bellCount = s.bellCount ∧ (s.barStopToll r).coilBudget = s.coilBudget
      ∧ (s.barStopToll r).lineRate = s.lineRate ∧ (s.barStopToll r).time = s.time
      ∧ (s.barStopToll r).coils = s.coils ∧ (s.barStopToll r).melodies = s.melodies
      ∧ (s.barStopToll r).pool = s.pool ∧ (s.barStopToll r).playQueue = s.playQueue
      ∧ (s.barStopToll r).lastId = s.lastId ∧ (s.barStopToll r).live = s.live
      ∧ (s.barStopToll r).draft = s.draft ∧ (s.barStopToll r).stamps = s.stamps
      ∧ (s.barStopToll r).hold = s.hold ∧ (s.barStopToll r).quiet = s.quiet ∧ (s.barStopToll r).cues = s.cues
      ∧ (s.barStopToll r).supply = s.supply ∧ (s.barStopToll r).serial = s.serial
      ∧ (s.barStopToll r).store = s.store ∧ (s.barStopToll r).image = s.image := by
  unfold State.barStopToll
  split <;> simp

/-- It can change no field but bells, queue, waiting, tune, toll. -/
@[simp] theorem State.testBarStop_frame (s : State) :
    (s.testBarStop).pending = s.pending ∧ (s.testBarStop).choices = s.choices ∧ (s.testBarStop).held = s.held
      ∧ (s.testBarStop).pins = s.pins ∧ (s.testBarStop).cause = s.cause
      ∧ (s.testBarStop).bellCount = s.bellCount ∧ (s.testBarStop).coilBudget = s.coilBudget
      ∧ (s.testBarStop).lineRate = s.lineRate ∧ (s.testBarStop).time = s.time ∧ (s.testBarStop).coils = s.coils
      ∧ (s.testBarStop).melodies = s.melodies ∧ (s.testBarStop).pool = s.pool
      ∧ (s.testBarStop).playQueue = s.playQueue ∧ (s.testBarStop).lastId = s.lastId
      ∧ (s.testBarStop).live = s.live ∧ (s.testBarStop).draft = s.draft ∧ (s.testBarStop).stamps = s.stamps
      ∧ (s.testBarStop).hold = s.hold ∧ (s.testBarStop).quiet = s.quiet ∧ (s.testBarStop).cues = s.cues
      ∧ (s.testBarStop).supply = s.supply ∧ (s.testBarStop).serial = s.serial ∧ (s.testBarStop).store = s.store
      ∧ (s.testBarStop).image = s.image := by
  unfold State.testBarStop
  split
  · simp
  · split
    · split
      · simp
      · split
        · simp
        · split <;> simp
    · simp

/-- It can change no field but bells, queue, waiting, tune, toll. -/
@[simp] theorem State.barStopTune_frame (s : State) (r : EndReason) :
    (s.barStopTune r).pending = s.pending ∧ (s.barStopTune r).choices = s.choices
      ∧ (s.barStopTune r).held = s.held ∧ (s.barStopTune r).pins = s.pins ∧ (s.barStopTune r).cause = s.cause
      ∧ (s.barStopTune r).bellCount = s.bellCount ∧ (s.barStopTune r).coilBudget = s.coilBudget
      ∧ (s.barStopTune r).lineRate = s.lineRate ∧ (s.barStopTune r).time = s.time
      ∧ (s.barStopTune r).coils = s.coils ∧ (s.barStopTune r).melodies = s.melodies
      ∧ (s.barStopTune r).pool = s.pool ∧ (s.barStopTune r).playQueue = s.playQueue
      ∧ (s.barStopTune r).lastId = s.lastId ∧ (s.barStopTune r).live = s.live
      ∧ (s.barStopTune r).draft = s.draft ∧ (s.barStopTune r).stamps = s.stamps
      ∧ (s.barStopTune r).hold = s.hold ∧ (s.barStopTune r).quiet = s.quiet ∧ (s.barStopTune r).cues = s.cues
      ∧ (s.barStopTune r).supply = s.supply ∧ (s.barStopTune r).serial = s.serial
      ∧ (s.barStopTune r).store = s.store ∧ (s.barStopTune r).image = s.image := by
  unfold State.barStopTune
  split
  · simp
  · split <;> simp

/-- It can change no field but tune. -/
@[simp] theorem State.expandPlain_frame (s : State) (onset division : Nat) (r : ScoreRecord) :
    (s.expandPlain onset division r).pending = s.pending ∧ (s.expandPlain onset division r).choices = s.choices
      ∧ (s.expandPlain onset division r).held = s.held ∧ (s.expandPlain onset division r).pins = s.pins
      ∧ (s.expandPlain onset division r).cause = s.cause
      ∧ (s.expandPlain onset division r).bellCount = s.bellCount
      ∧ (s.expandPlain onset division r).coilBudget = s.coilBudget
      ∧ (s.expandPlain onset division r).lineRate = s.lineRate ∧ (s.expandPlain onset division r).time = s.time
      ∧ (s.expandPlain onset division r).bells = s.bells ∧ (s.expandPlain onset division r).queue = s.queue
      ∧ (s.expandPlain onset division r).waiting = s.waiting ∧ (s.expandPlain onset division r).coils = s.coils
      ∧ (s.expandPlain onset division r).melodies = s.melodies ∧ (s.expandPlain onset division r).pool = s.pool
      ∧ (s.expandPlain onset division r).playQueue = s.playQueue
      ∧ (s.expandPlain onset division r).lastId = s.lastId ∧ (s.expandPlain onset division r).toll = s.toll
      ∧ (s.expandPlain onset division r).live = s.live ∧ (s.expandPlain onset division r).draft = s.draft
      ∧ (s.expandPlain onset division r).stamps = s.stamps ∧ (s.expandPlain onset division r).hold = s.hold
      ∧ (s.expandPlain onset division r).quiet = s.quiet ∧ (s.expandPlain onset division r).cues = s.cues
      ∧ (s.expandPlain onset division r).supply = s.supply ∧ (s.expandPlain onset division r).serial = s.serial
      ∧ (s.expandPlain onset division r).store = s.store ∧ (s.expandPlain onset division r).image = s.image := by
  unfold State.expandPlain
  simp

/-- It can change no field but queue, tune. -/
@[simp] theorem State.expandNote_frame (s : State) (l : TuneLane) (onset division bell level : Nat) :
    (s.expandNote l onset division bell level).pending = s.pending
      ∧ (s.expandNote l onset division bell level).choices = s.choices
      ∧ (s.expandNote l onset division bell level).held = s.held
      ∧ (s.expandNote l onset division bell level).pins = s.pins
      ∧ (s.expandNote l onset division bell level).cause = s.cause
      ∧ (s.expandNote l onset division bell level).bellCount = s.bellCount
      ∧ (s.expandNote l onset division bell level).coilBudget = s.coilBudget
      ∧ (s.expandNote l onset division bell level).lineRate = s.lineRate
      ∧ (s.expandNote l onset division bell level).time = s.time
      ∧ (s.expandNote l onset division bell level).bells = s.bells
      ∧ (s.expandNote l onset division bell level).waiting = s.waiting
      ∧ (s.expandNote l onset division bell level).coils = s.coils
      ∧ (s.expandNote l onset division bell level).melodies = s.melodies
      ∧ (s.expandNote l onset division bell level).pool = s.pool
      ∧ (s.expandNote l onset division bell level).playQueue = s.playQueue
      ∧ (s.expandNote l onset division bell level).lastId = s.lastId
      ∧ (s.expandNote l onset division bell level).toll = s.toll
      ∧ (s.expandNote l onset division bell level).live = s.live
      ∧ (s.expandNote l onset division bell level).draft = s.draft
      ∧ (s.expandNote l onset division bell level).stamps = s.stamps
      ∧ (s.expandNote l onset division bell level).hold = s.hold
      ∧ (s.expandNote l onset division bell level).quiet = s.quiet
      ∧ (s.expandNote l onset division bell level).cues = s.cues
      ∧ (s.expandNote l onset division bell level).supply = s.supply
      ∧ (s.expandNote l onset division bell level).serial = s.serial
      ∧ (s.expandNote l onset division bell level).store = s.store
      ∧ (s.expandNote l onset division bell level).image = s.image := by
  unfold State.expandNote
  dsimp only
  split
  · split <;> simp
  · simp

/-- It can change no field but tune. -/
@[simp] theorem State.afterRecord_frame (s : State) (onset : Nat) :
    (s.afterRecord onset).pending = s.pending ∧ (s.afterRecord onset).choices = s.choices
      ∧ (s.afterRecord onset).held = s.held ∧ (s.afterRecord onset).pins = s.pins
      ∧ (s.afterRecord onset).cause = s.cause ∧ (s.afterRecord onset).bellCount = s.bellCount
      ∧ (s.afterRecord onset).coilBudget = s.coilBudget ∧ (s.afterRecord onset).lineRate = s.lineRate
      ∧ (s.afterRecord onset).time = s.time ∧ (s.afterRecord onset).bells = s.bells
      ∧ (s.afterRecord onset).queue = s.queue ∧ (s.afterRecord onset).waiting = s.waiting
      ∧ (s.afterRecord onset).coils = s.coils ∧ (s.afterRecord onset).melodies = s.melodies
      ∧ (s.afterRecord onset).pool = s.pool ∧ (s.afterRecord onset).playQueue = s.playQueue
      ∧ (s.afterRecord onset).lastId = s.lastId ∧ (s.afterRecord onset).toll = s.toll
      ∧ (s.afterRecord onset).live = s.live ∧ (s.afterRecord onset).draft = s.draft
      ∧ (s.afterRecord onset).stamps = s.stamps ∧ (s.afterRecord onset).hold = s.hold
      ∧ (s.afterRecord onset).quiet = s.quiet ∧ (s.afterRecord onset).cues = s.cues
      ∧ (s.afterRecord onset).supply = s.supply ∧ (s.afterRecord onset).serial = s.serial
      ∧ (s.afterRecord onset).store = s.store ∧ (s.afterRecord onset).image = s.image := by
  unfold State.afterRecord
  simp

/-- It can change no field but bells, queue, waiting, tune, toll. -/
@[simp] theorem State.expandTune_frame (s : State) :
    (s.expandTune).pending = s.pending ∧ (s.expandTune).choices = s.choices ∧ (s.expandTune).held = s.held
      ∧ (s.expandTune).pins = s.pins ∧ (s.expandTune).cause = s.cause ∧ (s.expandTune).bellCount = s.bellCount
      ∧ (s.expandTune).coilBudget = s.coilBudget ∧ (s.expandTune).lineRate = s.lineRate
      ∧ (s.expandTune).time = s.time ∧ (s.expandTune).coils = s.coils ∧ (s.expandTune).melodies = s.melodies
      ∧ (s.expandTune).pool = s.pool ∧ (s.expandTune).playQueue = s.playQueue ∧ (s.expandTune).lastId = s.lastId
      ∧ (s.expandTune).live = s.live ∧ (s.expandTune).draft = s.draft ∧ (s.expandTune).stamps = s.stamps
      ∧ (s.expandTune).hold = s.hold ∧ (s.expandTune).quiet = s.quiet ∧ (s.expandTune).cues = s.cues
      ∧ (s.expandTune).supply = s.supply ∧ (s.expandTune).serial = s.serial ∧ (s.expandTune).store = s.store
      ∧ (s.expandTune).image = s.image := by
  unfold State.expandTune
  split
  · simp
  · split
    · simp
    · split
      · simp
      · dsimp only
        split <;> split <;> simp

/-- It can change no field but queue, toll. -/
@[simp] theorem State.expandToll_frame (s : State) :
    (s.expandToll).pending = s.pending ∧ (s.expandToll).choices = s.choices ∧ (s.expandToll).held = s.held
      ∧ (s.expandToll).pins = s.pins ∧ (s.expandToll).cause = s.cause ∧ (s.expandToll).bellCount = s.bellCount
      ∧ (s.expandToll).coilBudget = s.coilBudget ∧ (s.expandToll).lineRate = s.lineRate
      ∧ (s.expandToll).time = s.time ∧ (s.expandToll).bells = s.bells ∧ (s.expandToll).waiting = s.waiting
      ∧ (s.expandToll).coils = s.coils ∧ (s.expandToll).melodies = s.melodies ∧ (s.expandToll).pool = s.pool
      ∧ (s.expandToll).playQueue = s.playQueue ∧ (s.expandToll).lastId = s.lastId ∧ (s.expandToll).tune = s.tune
      ∧ (s.expandToll).live = s.live ∧ (s.expandToll).draft = s.draft ∧ (s.expandToll).stamps = s.stamps
      ∧ (s.expandToll).hold = s.hold ∧ (s.expandToll).quiet = s.quiet ∧ (s.expandToll).cues = s.cues
      ∧ (s.expandToll).supply = s.supply ∧ (s.expandToll).serial = s.serial ∧ (s.expandToll).store = s.store
      ∧ (s.expandToll).image = s.image := by
  unfold State.expandToll
  split
  · simp
  · split
    · simp
    · split
      · split <;> simp
      · simp

/-- A free choice changes no field but choices. -/
theorem choose_frame {α : Type} {s t : State} {xs : List α} {x : α} (h : choose s xs = some (x, t)) :
    x ∈ xs ∧ (t = s ∨ t = { s with choices := s.choices + 1 }) := by
  unfold choose at h
  split at h
  · cases h
  · simp only [Option.some.injEq, Prod.mk.injEq] at h
    exact ⟨by simp [h.1], .inl h.2.symm⟩
  · rename_i a b rest
    simp only [Option.some.injEq, Prod.mk.injEq] at h
    refine ⟨?_, .inr h.2.symm⟩
    rw [← h.1]
    have : Config.arbiter s.choices % (a :: b :: rest).length < (a :: b :: rest).length :=
      Nat.mod_lt _ (by simp)
    rw [List.getD_eq_getElem _ _ this]
    exact List.getElem_mem this

/-- It can change no field but choices, bells, queue, waiting, tune, toll. -/
@[simp] theorem State.retryLags_frame (s : State) (fuel : Nat) :
    (s.retryLags fuel).pending = s.pending ∧ (s.retryLags fuel).held = s.held ∧ (s.retryLags fuel).pins = s.pins
      ∧ (s.retryLags fuel).cause = s.cause ∧ (s.retryLags fuel).bellCount = s.bellCount
      ∧ (s.retryLags fuel).coilBudget = s.coilBudget ∧ (s.retryLags fuel).lineRate = s.lineRate
      ∧ (s.retryLags fuel).time = s.time ∧ (s.retryLags fuel).coils = s.coils
      ∧ (s.retryLags fuel).melodies = s.melodies ∧ (s.retryLags fuel).pool = s.pool
      ∧ (s.retryLags fuel).playQueue = s.playQueue ∧ (s.retryLags fuel).lastId = s.lastId
      ∧ (s.retryLags fuel).live = s.live ∧ (s.retryLags fuel).draft = s.draft
      ∧ (s.retryLags fuel).stamps = s.stamps ∧ (s.retryLags fuel).hold = s.hold
      ∧ (s.retryLags fuel).quiet = s.quiet ∧ (s.retryLags fuel).cues = s.cues
      ∧ (s.retryLags fuel).supply = s.supply ∧ (s.retryLags fuel).serial = s.serial
      ∧ (s.retryLags fuel).store = s.store ∧ (s.retryLags fuel).image = s.image := by
  induction fuel generalizing s with
  | zero => simp [State.retryLags]
  | succ fuel ih =>
    unfold State.retryLags
    split
    · simp
    · split
      · simp
      all_goals
        rename_i h
        obtain ⟨-, rfl | rfl⟩ := choose_frame h <;> simp [ih]

/-- It can change no field but melodies, tune, serial. -/
@[simp] theorem State.drainTune_frame (s : State) :
    (s.drainTune).pending = s.pending ∧ (s.drainTune).choices = s.choices ∧ (s.drainTune).held = s.held
      ∧ (s.drainTune).pins = s.pins ∧ (s.drainTune).cause = s.cause ∧ (s.drainTune).bellCount = s.bellCount
      ∧ (s.drainTune).coilBudget = s.coilBudget ∧ (s.drainTune).lineRate = s.lineRate
      ∧ (s.drainTune).time = s.time ∧ (s.drainTune).bells = s.bells ∧ (s.drainTune).queue = s.queue
      ∧ (s.drainTune).waiting = s.waiting ∧ (s.drainTune).coils = s.coils ∧ (s.drainTune).pool = s.pool
      ∧ (s.drainTune).playQueue = s.playQueue ∧ (s.drainTune).lastId = s.lastId ∧ (s.drainTune).toll = s.toll
      ∧ (s.drainTune).live = s.live ∧ (s.drainTune).draft = s.draft ∧ (s.drainTune).stamps = s.stamps
      ∧ (s.drainTune).hold = s.hold ∧ (s.drainTune).quiet = s.quiet ∧ (s.drainTune).cues = s.cues
      ∧ (s.drainTune).supply = s.supply ∧ (s.drainTune).store = s.store ∧ (s.drainTune).image = s.image := by
  unfold State.drainTune
  split
  · simp
  · split
    · split <;> simp
    · simp

/-- It can change no field but toll, serial. -/
@[simp] theorem State.drainToll_frame (s : State) :
    (s.drainToll).pending = s.pending ∧ (s.drainToll).choices = s.choices ∧ (s.drainToll).held = s.held
      ∧ (s.drainToll).pins = s.pins ∧ (s.drainToll).cause = s.cause ∧ (s.drainToll).bellCount = s.bellCount
      ∧ (s.drainToll).coilBudget = s.coilBudget ∧ (s.drainToll).lineRate = s.lineRate
      ∧ (s.drainToll).time = s.time ∧ (s.drainToll).bells = s.bells ∧ (s.drainToll).queue = s.queue
      ∧ (s.drainToll).waiting = s.waiting ∧ (s.drainToll).coils = s.coils ∧ (s.drainToll).melodies = s.melodies
      ∧ (s.drainToll).pool = s.pool ∧ (s.drainToll).playQueue = s.playQueue ∧ (s.drainToll).lastId = s.lastId
      ∧ (s.drainToll).tune = s.tune ∧ (s.drainToll).live = s.live ∧ (s.drainToll).draft = s.draft
      ∧ (s.drainToll).stamps = s.stamps ∧ (s.drainToll).hold = s.hold ∧ (s.drainToll).quiet = s.quiet
      ∧ (s.drainToll).cues = s.cues ∧ (s.drainToll).supply = s.supply ∧ (s.drainToll).store = s.store
      ∧ (s.drainToll).image = s.image := by
  unfold State.drainToll
  split
  · simp
  · split
    · split <;> simp
    · simp

/-- It can change no field but choices, bells, queue, waiting, melodies, tune, toll, serial. -/
@[simp] theorem State.settleLanes_frame (s : State) :
    (s.settleLanes).pending = s.pending ∧ (s.settleLanes).held = s.held ∧ (s.settleLanes).pins = s.pins
      ∧ (s.settleLanes).cause = s.cause ∧ (s.settleLanes).bellCount = s.bellCount
      ∧ (s.settleLanes).coilBudget = s.coilBudget ∧ (s.settleLanes).lineRate = s.lineRate
      ∧ (s.settleLanes).time = s.time ∧ (s.settleLanes).coils = s.coils ∧ (s.settleLanes).pool = s.pool
      ∧ (s.settleLanes).playQueue = s.playQueue ∧ (s.settleLanes).lastId = s.lastId
      ∧ (s.settleLanes).live = s.live ∧ (s.settleLanes).draft = s.draft ∧ (s.settleLanes).stamps = s.stamps
      ∧ (s.settleLanes).hold = s.hold ∧ (s.settleLanes).quiet = s.quiet ∧ (s.settleLanes).cues = s.cues
      ∧ (s.settleLanes).supply = s.supply ∧ (s.settleLanes).store = s.store ∧ (s.settleLanes).image = s.image := by
  unfold State.settleLanes
  simp

/-! ## The play queue -/

/-- It can change no field but playQueue, lastId. -/
@[simp] theorem State.offer_frame (s : State) (r : PlayRequest) :
    ((s.offer r).1).pending = s.pending ∧ ((s.offer r).1).choices = s.choices ∧ ((s.offer r).1).held = s.held
      ∧ ((s.offer r).1).pins = s.pins ∧ ((s.offer r).1).cause = s.cause
      ∧ ((s.offer r).1).bellCount = s.bellCount ∧ ((s.offer r).1).coilBudget = s.coilBudget
      ∧ ((s.offer r).1).lineRate = s.lineRate ∧ ((s.offer r).1).time = s.time ∧ ((s.offer r).1).bells = s.bells
      ∧ ((s.offer r).1).queue = s.queue ∧ ((s.offer r).1).waiting = s.waiting ∧ ((s.offer r).1).coils = s.coils
      ∧ ((s.offer r).1).melodies = s.melodies ∧ ((s.offer r).1).pool = s.pool ∧ ((s.offer r).1).tune = s.tune
      ∧ ((s.offer r).1).toll = s.toll ∧ ((s.offer r).1).live = s.live ∧ ((s.offer r).1).draft = s.draft
      ∧ ((s.offer r).1).stamps = s.stamps ∧ ((s.offer r).1).hold = s.hold ∧ ((s.offer r).1).quiet = s.quiet
      ∧ ((s.offer r).1).cues = s.cues ∧ ((s.offer r).1).supply = s.supply ∧ ((s.offer r).1).serial = s.serial
      ∧ ((s.offer r).1).store = s.store ∧ ((s.offer r).1).image = s.image := by
  unfold State.offer
  split
  · simp
  · split <;> simp

/-- It can change no field but serial. -/
@[simp] theorem State.reportOffer_frame (s : State) (r : PlayRequest) (a : Admission) :
    (s.reportOffer r a).pending = s.pending ∧ (s.reportOffer r a).choices = s.choices
      ∧ (s.reportOffer r a).held = s.held ∧ (s.reportOffer r a).pins = s.pins
      ∧ (s.reportOffer r a).cause = s.cause ∧ (s.reportOffer r a).bellCount = s.bellCount
      ∧ (s.reportOffer r a).coilBudget = s.coilBudget ∧ (s.reportOffer r a).lineRate = s.lineRate
      ∧ (s.reportOffer r a).time = s.time ∧ (s.reportOffer r a).bells = s.bells
      ∧ (s.reportOffer r a).queue = s.queue ∧ (s.reportOffer r a).waiting = s.waiting
      ∧ (s.reportOffer r a).coils = s.coils ∧ (s.reportOffer r a).melodies = s.melodies
      ∧ (s.reportOffer r a).pool = s.pool ∧ (s.reportOffer r a).playQueue = s.playQueue
      ∧ (s.reportOffer r a).lastId = s.lastId ∧ (s.reportOffer r a).tune = s.tune
      ∧ (s.reportOffer r a).toll = s.toll ∧ (s.reportOffer r a).live = s.live
      ∧ (s.reportOffer r a).draft = s.draft ∧ (s.reportOffer r a).stamps = s.stamps
      ∧ (s.reportOffer r a).hold = s.hold ∧ (s.reportOffer r a).quiet = s.quiet
      ∧ (s.reportOffer r a).cues = s.cues ∧ (s.reportOffer r a).supply = s.supply
      ∧ (s.reportOffer r a).store = s.store ∧ (s.reportOffer r a).image = s.image := by
  unfold State.reportOffer
  split <;> simp

/-- It can change no field but playQueue, lastId, serial. -/
@[simp] theorem State.offerReported_frame (s : State) (r : PlayRequest) :
    (s.offerReported r).pending = s.pending ∧ (s.offerReported r).choices = s.choices
      ∧ (s.offerReported r).held = s.held ∧ (s.offerReported r).pins = s.pins
      ∧ (s.offerReported r).cause = s.cause ∧ (s.offerReported r).bellCount = s.bellCount
      ∧ (s.offerReported r).coilBudget = s.coilBudget ∧ (s.offerReported r).lineRate = s.lineRate
      ∧ (s.offerReported r).time = s.time ∧ (s.offerReported r).bells = s.bells
      ∧ (s.offerReported r).queue = s.queue ∧ (s.offerReported r).waiting = s.waiting
      ∧ (s.offerReported r).coils = s.coils ∧ (s.offerReported r).melodies = s.melodies
      ∧ (s.offerReported r).pool = s.pool ∧ (s.offerReported r).tune = s.tune
      ∧ (s.offerReported r).toll = s.toll ∧ (s.offerReported r).live = s.live
      ∧ (s.offerReported r).draft = s.draft ∧ (s.offerReported r).stamps = s.stamps
      ∧ (s.offerReported r).hold = s.hold ∧ (s.offerReported r).quiet = s.quiet
      ∧ (s.offerReported r).cues = s.cues ∧ (s.offerReported r).supply = s.supply
      ∧ (s.offerReported r).store = s.store ∧ (s.offerReported r).image = s.image := by
  unfold State.offerReported
  simp

/-- It can change no field but playQueue, lastId, serial. -/
@[simp] theorem State.offerQuiet_frame (s : State) (r : PlayRequest) (instant : Nat) :
    (s.offerQuiet r instant).pending = s.pending ∧ (s.offerQuiet r instant).choices = s.choices
      ∧ (s.offerQuiet r instant).held = s.held ∧ (s.offerQuiet r instant).pins = s.pins
      ∧ (s.offerQuiet r instant).cause = s.cause ∧ (s.offerQuiet r instant).bellCount = s.bellCount
      ∧ (s.offerQuiet r instant).coilBudget = s.coilBudget ∧ (s.offerQuiet r instant).lineRate = s.lineRate
      ∧ (s.offerQuiet r instant).time = s.time ∧ (s.offerQuiet r instant).bells = s.bells
      ∧ (s.offerQuiet r instant).queue = s.queue ∧ (s.offerQuiet r instant).waiting = s.waiting
      ∧ (s.offerQuiet r instant).coils = s.coils ∧ (s.offerQuiet r instant).melodies = s.melodies
      ∧ (s.offerQuiet r instant).pool = s.pool ∧ (s.offerQuiet r instant).tune = s.tune
      ∧ (s.offerQuiet r instant).toll = s.toll ∧ (s.offerQuiet r instant).live = s.live
      ∧ (s.offerQuiet r instant).draft = s.draft ∧ (s.offerQuiet r instant).stamps = s.stamps
      ∧ (s.offerQuiet r instant).hold = s.hold ∧ (s.offerQuiet r instant).quiet = s.quiet
      ∧ (s.offerQuiet r instant).cues = s.cues ∧ (s.offerQuiet r instant).supply = s.supply
      ∧ (s.offerQuiet r instant).store = s.store ∧ (s.offerQuiet r instant).image = s.image := by
  unfold State.offerQuiet
  dsimp only
  split <;> simp

/-- It can change no field but serial. -/
@[simp] theorem State.replyOffer_frame (s : State) (tag : Text) (shown : List Fld) (a : Admission) :
    (s.replyOffer tag shown a).pending = s.pending ∧ (s.replyOffer tag shown a).choices = s.choices
      ∧ (s.replyOffer tag shown a).held = s.held ∧ (s.replyOffer tag shown a).pins = s.pins
      ∧ (s.replyOffer tag shown a).cause = s.cause ∧ (s.replyOffer tag shown a).bellCount = s.bellCount
      ∧ (s.replyOffer tag shown a).coilBudget = s.coilBudget ∧ (s.replyOffer tag shown a).lineRate = s.lineRate
      ∧ (s.replyOffer tag shown a).time = s.time ∧ (s.replyOffer tag shown a).bells = s.bells
      ∧ (s.replyOffer tag shown a).queue = s.queue ∧ (s.replyOffer tag shown a).waiting = s.waiting
      ∧ (s.replyOffer tag shown a).coils = s.coils ∧ (s.replyOffer tag shown a).melodies = s.melodies
      ∧ (s.replyOffer tag shown a).pool = s.pool ∧ (s.replyOffer tag shown a).playQueue = s.playQueue
      ∧ (s.replyOffer tag shown a).lastId = s.lastId ∧ (s.replyOffer tag shown a).tune = s.tune
      ∧ (s.replyOffer tag shown a).toll = s.toll ∧ (s.replyOffer tag shown a).live = s.live
      ∧ (s.replyOffer tag shown a).draft = s.draft ∧ (s.replyOffer tag shown a).stamps = s.stamps
      ∧ (s.replyOffer tag shown a).hold = s.hold ∧ (s.replyOffer tag shown a).quiet = s.quiet
      ∧ (s.replyOffer tag shown a).cues = s.cues ∧ (s.replyOffer tag shown a).supply = s.supply
      ∧ (s.replyOffer tag shown a).store = s.store ∧ (s.replyOffer tag shown a).image = s.image := by
  unfold State.replyOffer
  split <;> simp

/-- It can change no field but playQueue, lastId, serial. -/
@[simp] theorem State.offerLine_frame (s : State) (tag : Text) (o : Options) (r : PlayRequest) (shown : List Fld) :
    (s.offerLine tag o r shown).pending = s.pending ∧ (s.offerLine tag o r shown).choices = s.choices
      ∧ (s.offerLine tag o r shown).held = s.held ∧ (s.offerLine tag o r shown).pins = s.pins
      ∧ (s.offerLine tag o r shown).cause = s.cause ∧ (s.offerLine tag o r shown).bellCount = s.bellCount
      ∧ (s.offerLine tag o r shown).coilBudget = s.coilBudget
      ∧ (s.offerLine tag o r shown).lineRate = s.lineRate ∧ (s.offerLine tag o r shown).time = s.time
      ∧ (s.offerLine tag o r shown).bells = s.bells ∧ (s.offerLine tag o r shown).queue = s.queue
      ∧ (s.offerLine tag o r shown).waiting = s.waiting ∧ (s.offerLine tag o r shown).coils = s.coils
      ∧ (s.offerLine tag o r shown).melodies = s.melodies ∧ (s.offerLine tag o r shown).pool = s.pool
      ∧ (s.offerLine tag o r shown).tune = s.tune ∧ (s.offerLine tag o r shown).toll = s.toll
      ∧ (s.offerLine tag o r shown).live = s.live ∧ (s.offerLine tag o r shown).draft = s.draft
      ∧ (s.offerLine tag o r shown).stamps = s.stamps ∧ (s.offerLine tag o r shown).hold = s.hold
      ∧ (s.offerLine tag o r shown).quiet = s.quiet ∧ (s.offerLine tag o r shown).cues = s.cues
      ∧ (s.offerLine tag o r shown).supply = s.supply ∧ (s.offerLine tag o r shown).store = s.store
      ∧ (s.offerLine tag o r shown).image = s.image := by
  unfold State.offerLine
  split
  · simp
  · split <;> simp

/-- It can change no field but playQueue, melodies, tune, serial. -/
@[simp] theorem State.takeTune_frame (s : State) (r : PlayRequest) (spec : TuneSpec) :
    (s.takeTune r spec).pending = s.pending ∧ (s.takeTune r spec).choices = s.choices
      ∧ (s.takeTune r spec).held = s.held ∧ (s.takeTune r spec).pins = s.pins
      ∧ (s.takeTune r spec).cause = s.cause ∧ (s.takeTune r spec).bellCount = s.bellCount
      ∧ (s.takeTune r spec).coilBudget = s.coilBudget ∧ (s.takeTune r spec).lineRate = s.lineRate
      ∧ (s.takeTune r spec).time = s.time ∧ (s.takeTune r spec).bells = s.bells
      ∧ (s.takeTune r spec).queue = s.queue ∧ (s.takeTune r spec).waiting = s.waiting
      ∧ (s.takeTune r spec).coils = s.coils ∧ (s.takeTune r spec).pool = s.pool
      ∧ (s.takeTune r spec).lastId = s.lastId ∧ (s.takeTune r spec).toll = s.toll
      ∧ (s.takeTune r spec).live = s.live ∧ (s.takeTune r spec).draft = s.draft
      ∧ (s.takeTune r spec).stamps = s.stamps ∧ (s.takeTune r spec).hold = s.hold
      ∧ (s.takeTune r spec).quiet = s.quiet ∧ (s.takeTune r spec).cues = s.cues
      ∧ (s.takeTune r spec).supply = s.supply ∧ (s.takeTune r spec).store = s.store
      ∧ (s.takeTune r spec).image = s.image := by
  unfold State.takeTune
  dsimp only
  split <;> simp

/-- It can change no field but playQueue, toll, serial. -/
@[simp] theorem State.takeToll_frame (s : State) (r : PlayRequest) (spec : TollSpec) :
    (s.takeToll r spec).pending = s.pending ∧ (s.takeToll r spec).choices = s.choices
      ∧ (s.takeToll r spec).held = s.held ∧ (s.takeToll r spec).pins = s.pins
      ∧ (s.takeToll r spec).cause = s.cause ∧ (s.takeToll r spec).bellCount = s.bellCount
      ∧ (s.takeToll r spec).coilBudget = s.coilBudget ∧ (s.takeToll r spec).lineRate = s.lineRate
      ∧ (s.takeToll r spec).time = s.time ∧ (s.takeToll r spec).bells = s.bells
      ∧ (s.takeToll r spec).queue = s.queue ∧ (s.takeToll r spec).waiting = s.waiting
      ∧ (s.takeToll r spec).coils = s.coils ∧ (s.takeToll r spec).melodies = s.melodies
      ∧ (s.takeToll r spec).pool = s.pool ∧ (s.takeToll r spec).lastId = s.lastId
      ∧ (s.takeToll r spec).tune = s.tune ∧ (s.takeToll r spec).live = s.live
      ∧ (s.takeToll r spec).draft = s.draft ∧ (s.takeToll r spec).stamps = s.stamps
      ∧ (s.takeToll r spec).hold = s.hold ∧ (s.takeToll r spec).quiet = s.quiet
      ∧ (s.takeToll r spec).cues = s.cues ∧ (s.takeToll r spec).supply = s.supply
      ∧ (s.takeToll r spec).store = s.store ∧ (s.takeToll r spec).image = s.image := by
  unfold State.takeToll
  simp

/-! ## Cues -/

/-- It can change no field but playQueue, lastId, serial. -/
@[simp] theorem State.cueRequest_frame (s : State) (c : Nat) (play : Play) (cap slip wait : Nat) :
    (s.cueRequest c play cap slip wait).pending = s.pending
      ∧ (s.cueRequest c play cap slip wait).choices = s.choices
      ∧ (s.cueRequest c play cap slip wait).held = s.held ∧ (s.cueRequest c play cap slip wait).pins = s.pins
      ∧ (s.cueRequest c play cap slip wait).cause = s.cause
      ∧ (s.cueRequest c play cap slip wait).bellCount = s.bellCount
      ∧ (s.cueRequest c play cap slip wait).coilBudget = s.coilBudget
      ∧ (s.cueRequest c play cap slip wait).lineRate = s.lineRate
      ∧ (s.cueRequest c play cap slip wait).time = s.time ∧ (s.cueRequest c play cap slip wait).bells = s.bells
      ∧ (s.cueRequest c play cap slip wait).queue = s.queue
      ∧ (s.cueRequest c play cap slip wait).waiting = s.waiting
      ∧ (s.cueRequest c play cap slip wait).coils = s.coils
      ∧ (s.cueRequest c play cap slip wait).melodies = s.melodies
      ∧ (s.cueRequest c play cap slip wait).pool = s.pool ∧ (s.cueRequest c play cap slip wait).tune = s.tune
      ∧ (s.cueRequest c play cap slip wait).toll = s.toll ∧ (s.cueRequest c play cap slip wait).live = s.live
      ∧ (s.cueRequest c play cap slip wait).draft = s.draft
      ∧ (s.cueRequest c play cap slip wait).stamps = s.stamps
      ∧ (s.cueRequest c play cap slip wait).hold = s.hold ∧ (s.cueRequest c play cap slip wait).quiet = s.quiet
      ∧ (s.cueRequest c play cap slip wait).cues = s.cues
      ∧ (s.cueRequest c play cap slip wait).supply = s.supply
      ∧ (s.cueRequest c play cap slip wait).store = s.store
      ∧ (s.cueRequest c play cap slip wait).image = s.image := by
  unfold State.cueRequest
  simp

/-- It can change no field but choices, bells, queue, waiting, melodies, playQueue, lastId, tune, toll, cues, serial. -/
@[simp] theorem State.cueAct_frame (s : State) (c : Nat) :
    (s.cueAct c).pending = s.pending ∧ (s.cueAct c).held = s.held ∧ (s.cueAct c).pins = s.pins
      ∧ (s.cueAct c).cause = s.cause ∧ (s.cueAct c).bellCount = s.bellCount
      ∧ (s.cueAct c).coilBudget = s.coilBudget ∧ (s.cueAct c).lineRate = s.lineRate ∧ (s.cueAct c).time = s.time
      ∧ (s.cueAct c).coils = s.coils ∧ (s.cueAct c).pool = s.pool ∧ (s.cueAct c).live = s.live
      ∧ (s.cueAct c).draft = s.draft ∧ (s.cueAct c).stamps = s.stamps ∧ (s.cueAct c).hold = s.hold
      ∧ (s.cueAct c).quiet = s.quiet ∧ (s.cueAct c).supply = s.supply ∧ (s.cueAct c).store = s.store
      ∧ (s.cueAct c).image = s.image := by
  unfold State.cueAct
  dsimp only
  split <;> simp

/-- It can change no field but choices, bells, queue, waiting, melodies, playQueue, lastId, tune, toll, cues, serial. -/
@[simp] theorem State.settleCues_frame (s : State) (fuel : Nat) :
    (s.settleCues fuel).pending = s.pending ∧ (s.settleCues fuel).held = s.held
      ∧ (s.settleCues fuel).pins = s.pins ∧ (s.settleCues fuel).cause = s.cause
      ∧ (s.settleCues fuel).bellCount = s.bellCount ∧ (s.settleCues fuel).coilBudget = s.coilBudget
      ∧ (s.settleCues fuel).lineRate = s.lineRate ∧ (s.settleCues fuel).time = s.time
      ∧ (s.settleCues fuel).coils = s.coils ∧ (s.settleCues fuel).pool = s.pool
      ∧ (s.settleCues fuel).live = s.live ∧ (s.settleCues fuel).draft = s.draft
      ∧ (s.settleCues fuel).stamps = s.stamps ∧ (s.settleCues fuel).hold = s.hold
      ∧ (s.settleCues fuel).quiet = s.quiet ∧ (s.settleCues fuel).supply = s.supply
      ∧ (s.settleCues fuel).store = s.store ∧ (s.settleCues fuel).image = s.image := by
  induction fuel generalizing s with
  | zero => simp [State.settleCues]
  | succ fuel ih =>
    unfold State.settleCues
    split
    · simp
    · rename_i h
      obtain ⟨-, rfl | rfl⟩ := choose_frame h <;> simp [ih]

/-- It can change no field but choices, bells, queue, waiting, melodies, playQueue, lastId, tune, toll, cues, serial. -/
@[simp] theorem State.settle_frame (s : State) :
    (s.settle).pending = s.pending ∧ (s.settle).held = s.held ∧ (s.settle).pins = s.pins
      ∧ (s.settle).cause = s.cause ∧ (s.settle).bellCount = s.bellCount ∧ (s.settle).coilBudget = s.coilBudget
      ∧ (s.settle).lineRate = s.lineRate ∧ (s.settle).time = s.time ∧ (s.settle).coils = s.coils
      ∧ (s.settle).pool = s.pool ∧ (s.settle).live = s.live ∧ (s.settle).draft = s.draft
      ∧ (s.settle).stamps = s.stamps ∧ (s.settle).hold = s.hold ∧ (s.settle).quiet = s.quiet
      ∧ (s.settle).supply = s.supply ∧ (s.settle).store = s.store ∧ (s.settle).image = s.image := by
  unfold State.settle
  simp

/-- It can change no field but choices, bells, queue, waiting, melodies, playQueue, lastId, tune, toll, cues, serial. -/
@[simp] theorem State.replyTuneStop_frame (s : State) (tag : Text) :
    (s.replyTuneStop tag).pending = s.pending ∧ (s.replyTuneStop tag).held = s.held
      ∧ (s.replyTuneStop tag).pins = s.pins ∧ (s.replyTuneStop tag).cause = s.cause
      ∧ (s.replyTuneStop tag).bellCount = s.bellCount ∧ (s.replyTuneStop tag).coilBudget = s.coilBudget
      ∧ (s.replyTuneStop tag).lineRate = s.lineRate ∧ (s.replyTuneStop tag).time = s.time
      ∧ (s.replyTuneStop tag).coils = s.coils ∧ (s.replyTuneStop tag).pool = s.pool
      ∧ (s.replyTuneStop tag).live = s.live ∧ (s.replyTuneStop tag).draft = s.draft
      ∧ (s.replyTuneStop tag).stamps = s.stamps ∧ (s.replyTuneStop tag).hold = s.hold
      ∧ (s.replyTuneStop tag).quiet = s.quiet ∧ (s.replyTuneStop tag).supply = s.supply
      ∧ (s.replyTuneStop tag).store = s.store ∧ (s.replyTuneStop tag).image = s.image := by
  unfold State.replyTuneStop
  simp

/-- It can change no field but choices, bells, queue, waiting, melodies, playQueue, lastId, tune, toll, cues, serial. -/
@[simp] theorem State.replyTollStop_frame (s : State) (tag : Text) :
    (s.replyTollStop tag).pending = s.pending ∧ (s.replyTollStop tag).held = s.held
      ∧ (s.replyTollStop tag).pins = s.pins ∧ (s.replyTollStop tag).cause = s.cause
      ∧ (s.replyTollStop tag).bellCount = s.bellCount ∧ (s.replyTollStop tag).coilBudget = s.coilBudget
      ∧ (s.replyTollStop tag).lineRate = s.lineRate ∧ (s.replyTollStop tag).time = s.time
      ∧ (s.replyTollStop tag).coils = s.coils ∧ (s.replyTollStop tag).pool = s.pool
      ∧ (s.replyTollStop tag).live = s.live ∧ (s.replyTollStop tag).draft = s.draft
      ∧ (s.replyTollStop tag).stamps = s.stamps ∧ (s.replyTollStop tag).hold = s.hold
      ∧ (s.replyTollStop tag).quiet = s.quiet ∧ (s.replyTollStop tag).supply = s.supply
      ∧ (s.replyTollStop tag).store = s.store ∧ (s.replyTollStop tag).image = s.image := by
  unfold State.replyTollStop
  simp

/-- It can change no field but choices, bells, queue, waiting, melodies, playQueue, lastId, tune, toll, cues, serial. -/
@[simp] theorem State.expire_frame (s : State) (id : Nat) :
    (s.expire id).pending = s.pending ∧ (s.expire id).held = s.held ∧ (s.expire id).pins = s.pins
      ∧ (s.expire id).cause = s.cause ∧ (s.expire id).bellCount = s.bellCount
      ∧ (s.expire id).coilBudget = s.coilBudget ∧ (s.expire id).lineRate = s.lineRate
      ∧ (s.expire id).time = s.time ∧ (s.expire id).coils = s.coils ∧ (s.expire id).pool = s.pool
      ∧ (s.expire id).live = s.live ∧ (s.expire id).draft = s.draft ∧ (s.expire id).stamps = s.stamps
      ∧ (s.expire id).hold = s.hold ∧ (s.expire id).quiet = s.quiet ∧ (s.expire id).supply = s.supply
      ∧ (s.expire id).store = s.store ∧ (s.expire id).image = s.image := by
  unfold State.expire
  split <;> simp

/-- It can change no field but choices, bells, queue, waiting, melodies, playQueue, lastId, tune, toll, cues, serial. -/
@[simp] theorem State.takeFirstTune_frame (s : State) :
    (s.takeFirstTune).pending = s.pending ∧ (s.takeFirstTune).held = s.held ∧ (s.takeFirstTune).pins = s.pins
      ∧ (s.takeFirstTune).cause = s.cause ∧ (s.takeFirstTune).bellCount = s.bellCount
      ∧ (s.takeFirstTune).coilBudget = s.coilBudget ∧ (s.takeFirstTune).lineRate = s.lineRate
      ∧ (s.takeFirstTune).time = s.time ∧ (s.takeFirstTune).coils = s.coils ∧ (s.takeFirstTune).pool = s.pool
      ∧ (s.takeFirstTune).live = s.live ∧ (s.takeFirstTune).draft = s.draft
      ∧ (s.takeFirstTune).stamps = s.stamps ∧ (s.takeFirstTune).hold = s.hold
      ∧ (s.takeFirstTune).quiet = s.quiet ∧ (s.takeFirstTune).supply = s.supply
      ∧ (s.takeFirstTune).store = s.store ∧ (s.takeFirstTune).image = s.image := by
  unfold State.takeFirstTune
  split
  · simp
  · split <;> simp

/-- It can change no field but playQueue, toll, serial. -/
@[simp] theorem State.takeFirstToll_frame (s : State) :
    (s.takeFirstToll).pending = s.pending ∧ (s.takeFirstToll).choices = s.choices
      ∧ (s.takeFirstToll).held = s.held ∧ (s.takeFirstToll).pins = s.pins ∧ (s.takeFirstToll).cause = s.cause
      ∧ (s.takeFirstToll).bellCount = s.bellCount ∧ (s.takeFirstToll).coilBudget = s.coilBudget
      ∧ (s.takeFirstToll).lineRate = s.lineRate ∧ (s.takeFirstToll).time = s.time
      ∧ (s.takeFirstToll).bells = s.bells ∧ (s.takeFirstToll).queue = s.queue
      ∧ (s.takeFirstToll).waiting = s.waiting ∧ (s.takeFirstToll).coils = s.coils
      ∧ (s.takeFirstToll).melodies = s.melodies ∧ (s.takeFirstToll).pool = s.pool
      ∧ (s.takeFirstToll).lastId = s.lastId ∧ (s.takeFirstToll).tune = s.tune ∧ (s.takeFirstToll).live = s.live
      ∧ (s.takeFirstToll).draft = s.draft ∧ (s.takeFirstToll).stamps = s.stamps
      ∧ (s.takeFirstToll).hold = s.hold ∧ (s.takeFirstToll).quiet = s.quiet ∧ (s.takeFirstToll).cues = s.cues
      ∧ (s.takeFirstToll).supply = s.supply ∧ (s.takeFirstToll).store = s.store
      ∧ (s.takeFirstToll).image = s.image := by
  unfold State.takeFirstToll
  split
  · simp
  · split <;> simp

/-- It can change no field but choices, bells, queue, waiting, melodies, playQueue, lastId, tune, toll, cues, serial. -/
@[simp] theorem State.cutOrder_frame (s : State) (id : Nat) :
    (s.cutOrder id).pending = s.pending ∧ (s.cutOrder id).held = s.held ∧ (s.cutOrder id).pins = s.pins
      ∧ (s.cutOrder id).cause = s.cause ∧ (s.cutOrder id).bellCount = s.bellCount
      ∧ (s.cutOrder id).coilBudget = s.coilBudget ∧ (s.cutOrder id).lineRate = s.lineRate
      ∧ (s.cutOrder id).time = s.time ∧ (s.cutOrder id).coils = s.coils ∧ (s.cutOrder id).pool = s.pool
      ∧ (s.cutOrder id).live = s.live ∧ (s.cutOrder id).draft = s.draft ∧ (s.cutOrder id).stamps = s.stamps
      ∧ (s.cutOrder id).hold = s.hold ∧ (s.cutOrder id).quiet = s.quiet ∧ (s.cutOrder id).supply = s.supply
      ∧ (s.cutOrder id).store = s.store ∧ (s.cutOrder id).image = s.image := by
  unfold State.cutOrder
  simp

/-! ## The schedule -/

/-- It can change no field but live, stamps. -/
@[simp] theorem State.applyDraft_frame (s : State) :
    (s.applyDraft).pending = s.pending ∧ (s.applyDraft).choices = s.choices ∧ (s.applyDraft).held = s.held
      ∧ (s.applyDraft).pins = s.pins ∧ (s.applyDraft).cause = s.cause ∧ (s.applyDraft).bellCount = s.bellCount
      ∧ (s.applyDraft).coilBudget = s.coilBudget ∧ (s.applyDraft).lineRate = s.lineRate
      ∧ (s.applyDraft).time = s.time ∧ (s.applyDraft).bells = s.bells ∧ (s.applyDraft).queue = s.queue
      ∧ (s.applyDraft).waiting = s.waiting ∧ (s.applyDraft).coils = s.coils
      ∧ (s.applyDraft).melodies = s.melodies ∧ (s.applyDraft).pool = s.pool
      ∧ (s.applyDraft).playQueue = s.playQueue ∧ (s.applyDraft).lastId = s.lastId ∧ (s.applyDraft).tune = s.tune
      ∧ (s.applyDraft).toll = s.toll ∧ (s.applyDraft).draft = s.draft ∧ (s.applyDraft).hold = s.hold
      ∧ (s.applyDraft).quiet = s.quiet ∧ (s.applyDraft).cues = s.cues ∧ (s.applyDraft).supply = s.supply
      ∧ (s.applyDraft).serial = s.serial ∧ (s.applyDraft).store = s.store ∧ (s.applyDraft).image = s.image := by
  unfold State.applyDraft
  split <;> simp

/-- The evaluation of one entry changes no field but playQueue, lastId, stamps and serial. -/
@[simp] theorem State.evaluateEntry_frame (t : Nat) (d : Disposal) (acc : State × List (Nat × Nat)) (k : Nat) :
    ((State.evaluateEntry t d acc k).1).pending = acc.1.pending
      ∧ ((State.evaluateEntry t d acc k).1).choices = acc.1.choices
      ∧ ((State.evaluateEntry t d acc k).1).held = acc.1.held ∧ ((State.evaluateEntry t d acc k).1).pins = acc.1.pins
      ∧ ((State.evaluateEntry t d acc k).1).cause = acc.1.cause
      ∧ ((State.evaluateEntry t d acc k).1).bellCount = acc.1.bellCount
      ∧ ((State.evaluateEntry t d acc k).1).coilBudget = acc.1.coilBudget
      ∧ ((State.evaluateEntry t d acc k).1).lineRate = acc.1.lineRate
      ∧ ((State.evaluateEntry t d acc k).1).time = acc.1.time ∧ ((State.evaluateEntry t d acc k).1).bells = acc.1.bells
      ∧ ((State.evaluateEntry t d acc k).1).queue = acc.1.queue
      ∧ ((State.evaluateEntry t d acc k).1).waiting = acc.1.waiting
      ∧ ((State.evaluateEntry t d acc k).1).coils = acc.1.coils
      ∧ ((State.evaluateEntry t d acc k).1).melodies = acc.1.melodies
      ∧ ((State.evaluateEntry t d acc k).1).pool = acc.1.pool ∧ ((State.evaluateEntry t d acc k).1).tune = acc.1.tune
      ∧ ((State.evaluateEntry t d acc k).1).toll = acc.1.toll ∧ ((State.evaluateEntry t d acc k).1).live = acc.1.live
      ∧ ((State.evaluateEntry t d acc k).1).draft = acc.1.draft ∧ ((State.evaluateEntry t d acc k).1).hold = acc.1.hold
      ∧ ((State.evaluateEntry t d acc k).1).quiet = acc.1.quiet ∧ ((State.evaluateEntry t d acc k).1).cues = acc.1.cues
      ∧ ((State.evaluateEntry t d acc k).1).supply = acc.1.supply
      ∧ ((State.evaluateEntry t d acc k).1).store = acc.1.store
      ∧ ((State.evaluateEntry t d acc k).1).image = acc.1.image := by
  unfold State.evaluateEntry
  dsimp only
  split
  · simp
  · split <;> simp

/-- The evaluation of a list of entries changes no field but playQueue, lastId, stamps and serial. -/
theorem evaluateAll_frame (t : Nat) (d : Disposal) (ks : List Nat) (acc : State × List (Nat × Nat)) :
    (ks.foldl (State.evaluateEntry t d) acc).1 =
      { acc.1 with
        playQueue := (ks.foldl (State.evaluateEntry t d) acc).1.playQueue
        lastId := (ks.foldl (State.evaluateEntry t d) acc).1.lastId
        stamps := (ks.foldl (State.evaluateEntry t d) acc).1.stamps
        serial := (ks.foldl (State.evaluateEntry t d) acc).1.serial } := by
  induction ks generalizing acc with
  | nil => rfl
  | cons k rest ih =>
    simp only [List.foldl_cons]
    rw [ih]
    simp

/-- The evaluation of an instant changes no field but playQueue, lastId, stamps and serial. -/
@[simp] theorem State.evaluate_frame (t : Nat) (d : Disposal) (acc : State × List (Nat × Nat)) :
    ((State.evaluate t d acc).1).pending = acc.1.pending ∧ ((State.evaluate t d acc).1).choices = acc.1.choices
      ∧ ((State.evaluate t d acc).1).held = acc.1.held ∧ ((State.evaluate t d acc).1).pins = acc.1.pins
      ∧ ((State.evaluate t d acc).1).cause = acc.1.cause ∧ ((State.evaluate t d acc).1).bellCount = acc.1.bellCount
      ∧ ((State.evaluate t d acc).1).coilBudget = acc.1.coilBudget
      ∧ ((State.evaluate t d acc).1).lineRate = acc.1.lineRate ∧ ((State.evaluate t d acc).1).time = acc.1.time
      ∧ ((State.evaluate t d acc).1).bells = acc.1.bells ∧ ((State.evaluate t d acc).1).queue = acc.1.queue
      ∧ ((State.evaluate t d acc).1).waiting = acc.1.waiting ∧ ((State.evaluate t d acc).1).coils = acc.1.coils
      ∧ ((State.evaluate t d acc).1).melodies = acc.1.melodies ∧ ((State.evaluate t d acc).1).pool = acc.1.pool
      ∧ ((State.evaluate t d acc).1).tune = acc.1.tune ∧ ((State.evaluate t d acc).1).toll = acc.1.toll
      ∧ ((State.evaluate t d acc).1).live = acc.1.live ∧ ((State.evaluate t d acc).1).draft = acc.1.draft
      ∧ ((State.evaluate t d acc).1).hold = acc.1.hold ∧ ((State.evaluate t d acc).1).quiet = acc.1.quiet
      ∧ ((State.evaluate t d acc).1).cues = acc.1.cues ∧ ((State.evaluate t d acc).1).supply = acc.1.supply
      ∧ ((State.evaluate t d acc).1).store = acc.1.store ∧ ((State.evaluate t d acc).1).image = acc.1.image := by
  unfold State.evaluate
  rw [evaluateAll_frame]
  simp

/-- The evaluation of a span changes no field but playQueue, lastId, stamps and serial. -/
@[simp] theorem State.evaluateSpan_frame (n b : Nat) (acc : State × List (Nat × Nat)) :
    ((State.evaluateSpan n b acc).1).pending = acc.1.pending ∧ ((State.evaluateSpan n b acc).1).choices = acc.1.choices
      ∧ ((State.evaluateSpan n b acc).1).held = acc.1.held ∧ ((State.evaluateSpan n b acc).1).pins = acc.1.pins
      ∧ ((State.evaluateSpan n b acc).1).cause = acc.1.cause
      ∧ ((State.evaluateSpan n b acc).1).bellCount = acc.1.bellCount
      ∧ ((State.evaluateSpan n b acc).1).coilBudget = acc.1.coilBudget
      ∧ ((State.evaluateSpan n b acc).1).lineRate = acc.1.lineRate ∧ ((State.evaluateSpan n b acc).1).time = acc.1.time
      ∧ ((State.evaluateSpan n b acc).1).bells = acc.1.bells ∧ ((State.evaluateSpan n b acc).1).queue = acc.1.queue
      ∧ ((State.evaluateSpan n b acc).1).waiting = acc.1.waiting ∧ ((State.evaluateSpan n b acc).1).coils = acc.1.coils
      ∧ ((State.evaluateSpan n b acc).1).melodies = acc.1.melodies ∧ ((State.evaluateSpan n b acc).1).pool = acc.1.pool
      ∧ ((State.evaluateSpan n b acc).1).tune = acc.1.tune ∧ ((State.evaluateSpan n b acc).1).toll = acc.1.toll
      ∧ ((State.evaluateSpan n b acc).1).live = acc.1.live ∧ ((State.evaluateSpan n b acc).1).draft = acc.1.draft
      ∧ ((State.evaluateSpan n b acc).1).hold = acc.1.hold ∧ ((State.evaluateSpan n b acc).1).quiet = acc.1.quiet
      ∧ ((State.evaluateSpan n b acc).1).cues = acc.1.cues ∧ ((State.evaluateSpan n b acc).1).supply = acc.1.supply
      ∧ ((State.evaluateSpan n b acc).1).store = acc.1.store ∧ ((State.evaluateSpan n b acc).1).image = acc.1.image := by
  induction n generalizing b acc with
  | zero => simp [State.evaluateSpan]
  | succ n ih => simp [State.evaluateSpan, ih]

/-- It can change no field but serial. -/
@[simp] theorem State.reportMissed_frame (s : State) (missed : List (Nat × Nat)) (k : Nat) :
    (State.reportMissed missed s k).pending = s.pending ∧ (State.reportMissed missed s k).choices = s.choices
      ∧ (State.reportMissed missed s k).held = s.held ∧ (State.reportMissed missed s k).pins = s.pins
      ∧ (State.reportMissed missed s k).cause = s.cause
      ∧ (State.reportMissed missed s k).bellCount = s.bellCount
      ∧ (State.reportMissed missed s k).coilBudget = s.coilBudget
      ∧ (State.reportMissed missed s k).lineRate = s.lineRate ∧ (State.reportMissed missed s k).time = s.time
      ∧ (State.reportMissed missed s k).bells = s.bells ∧ (State.reportMissed missed s k).queue = s.queue
      ∧ (State.reportMissed missed s k).waiting = s.waiting ∧ (State.reportMissed missed s k).coils = s.coils
      ∧ (State.reportMissed missed s k).melodies = s.melodies ∧ (State.reportMissed missed s k).pool = s.pool
      ∧ (State.reportMissed missed s k).playQueue = s.playQueue
      ∧ (State.reportMissed missed s k).lastId = s.lastId ∧ (State.reportMissed missed s k).tune = s.tune
      ∧ (State.reportMissed missed s k).toll = s.toll ∧ (State.reportMissed missed s k).live = s.live
      ∧ (State.reportMissed missed s k).draft = s.draft ∧ (State.reportMissed missed s k).stamps = s.stamps
      ∧ (State.reportMissed missed s k).hold = s.hold ∧ (State.reportMissed missed s k).quiet = s.quiet
      ∧ (State.reportMissed missed s k).cues = s.cues ∧ (State.reportMissed missed s k).supply = s.supply
      ∧ (State.reportMissed missed s k).store = s.store ∧ (State.reportMissed missed s k).image = s.image := by
  unfold State.reportMissed
  dsimp only
  split <;> simp

/-- The MISSED reports of a list of entries change no field but serial. -/
theorem reportAllMissed_frame (missed : List (Nat × Nat)) (ks : List Nat) (s : State) :
    ks.foldl (State.reportMissed missed) s = { s with serial := (ks.foldl (State.reportMissed missed) s).serial } := by
  induction ks generalizing s with
  | nil => rfl
  | cons k rest ih =>
    simp only [List.foldl_cons]
    rw [ih]
    simp

/-- It can change no field but time, playQueue, lastId, live, stamps, serial. -/
@[simp] theorem State.afterForwardStep_frame (s : State) (crossed : Nat) :
    (s.afterForwardStep crossed).pending = s.pending ∧ (s.afterForwardStep crossed).choices = s.choices
      ∧ (s.afterForwardStep crossed).held = s.held ∧ (s.afterForwardStep crossed).pins = s.pins
      ∧ (s.afterForwardStep crossed).cause = s.cause ∧ (s.afterForwardStep crossed).bellCount = s.bellCount
      ∧ (s.afterForwardStep crossed).coilBudget = s.coilBudget
      ∧ (s.afterForwardStep crossed).lineRate = s.lineRate ∧ (s.afterForwardStep crossed).bells = s.bells
      ∧ (s.afterForwardStep crossed).queue = s.queue ∧ (s.afterForwardStep crossed).waiting = s.waiting
      ∧ (s.afterForwardStep crossed).coils = s.coils ∧ (s.afterForwardStep crossed).melodies = s.melodies
      ∧ (s.afterForwardStep crossed).pool = s.pool ∧ (s.afterForwardStep crossed).tune = s.tune
      ∧ (s.afterForwardStep crossed).toll = s.toll ∧ (s.afterForwardStep crossed).draft = s.draft
      ∧ (s.afterForwardStep crossed).hold = s.hold ∧ (s.afterForwardStep crossed).quiet = s.quiet
      ∧ (s.afterForwardStep crossed).cues = s.cues ∧ (s.afterForwardStep crossed).supply = s.supply
      ∧ (s.afterForwardStep crossed).store = s.store ∧ (s.afterForwardStep crossed).image = s.image := by
  unfold State.afterForwardStep
  dsimp only
  rw [reportAllMissed_frame]
  split <;> simp

/-- It can change no field but time, playQueue, lastId, live, stamps, serial. -/
@[simp] theorem State.crossBoundary_frame (s : State) :
    (s.crossBoundary).pending = s.pending ∧ (s.crossBoundary).choices = s.choices
      ∧ (s.crossBoundary).held = s.held ∧ (s.crossBoundary).pins = s.pins ∧ (s.crossBoundary).cause = s.cause
      ∧ (s.crossBoundary).bellCount = s.bellCount ∧ (s.crossBoundary).coilBudget = s.coilBudget
      ∧ (s.crossBoundary).lineRate = s.lineRate ∧ (s.crossBoundary).bells = s.bells
      ∧ (s.crossBoundary).queue = s.queue ∧ (s.crossBoundary).waiting = s.waiting
      ∧ (s.crossBoundary).coils = s.coils ∧ (s.crossBoundary).melodies = s.melodies
      ∧ (s.crossBoundary).pool = s.pool ∧ (s.crossBoundary).tune = s.tune ∧ (s.crossBoundary).toll = s.toll
      ∧ (s.crossBoundary).draft = s.draft ∧ (s.crossBoundary).hold = s.hold ∧ (s.crossBoundary).quiet = s.quiet
      ∧ (s.crossBoundary).cues = s.cues ∧ (s.crossBoundary).supply = s.supply
      ∧ (s.crossBoundary).store = s.store ∧ (s.crossBoundary).image = s.image := by
  unfold State.crossBoundary
  dsimp only
  split <;> simp

/-! ## The timebase -/

/-- It can change no field but time, playQueue, lastId, live, stamps, serial. -/
@[simp] theorem State.stepWall_frame (s : State) (d : Int) :
    (s.stepWall d).pending = s.pending ∧ (s.stepWall d).choices = s.choices ∧ (s.stepWall d).held = s.held
      ∧ (s.stepWall d).pins = s.pins ∧ (s.stepWall d).cause = s.cause ∧ (s.stepWall d).bellCount = s.bellCount
      ∧ (s.stepWall d).coilBudget = s.coilBudget ∧ (s.stepWall d).lineRate = s.lineRate
      ∧ (s.stepWall d).bells = s.bells ∧ (s.stepWall d).queue = s.queue ∧ (s.stepWall d).waiting = s.waiting
      ∧ (s.stepWall d).coils = s.coils ∧ (s.stepWall d).melodies = s.melodies ∧ (s.stepWall d).pool = s.pool
      ∧ (s.stepWall d).tune = s.tune ∧ (s.stepWall d).toll = s.toll ∧ (s.stepWall d).draft = s.draft
      ∧ (s.stepWall d).hold = s.hold ∧ (s.stepWall d).quiet = s.quiet ∧ (s.stepWall d).cues = s.cues
      ∧ (s.stepWall d).supply = s.supply ∧ (s.stepWall d).store = s.store ∧ (s.stepWall d).image = s.image := by
  unfold State.stepWall
  dsimp only
  split <;> simp

/-- It can change no field but time, playQueue, lastId, live, stamps, serial. -/
@[simp] theorem State.applyTime_frame (s : State) (t : Nat) :
    (s.applyTime t).pending = s.pending ∧ (s.applyTime t).choices = s.choices ∧ (s.applyTime t).held = s.held
      ∧ (s.applyTime t).pins = s.pins ∧ (s.applyTime t).cause = s.cause
      ∧ (s.applyTime t).bellCount = s.bellCount ∧ (s.applyTime t).coilBudget = s.coilBudget
      ∧ (s.applyTime t).lineRate = s.lineRate ∧ (s.applyTime t).bells = s.bells
      ∧ (s.applyTime t).queue = s.queue ∧ (s.applyTime t).waiting = s.waiting ∧ (s.applyTime t).coils = s.coils
      ∧ (s.applyTime t).melodies = s.melodies ∧ (s.applyTime t).pool = s.pool ∧ (s.applyTime t).tune = s.tune
      ∧ (s.applyTime t).toll = s.toll ∧ (s.applyTime t).draft = s.draft ∧ (s.applyTime t).hold = s.hold
      ∧ (s.applyTime t).quiet = s.quiet ∧ (s.applyTime t).cues = s.cues ∧ (s.applyTime t).supply = s.supply
      ∧ (s.applyTime t).store = s.store ∧ (s.applyTime t).image = s.image := by
  unfold State.applyTime
  split
  · simp
  · split <;> simp

/-- It can change no field but time, playQueue, lastId, live, stamps, serial. -/
@[simp] theorem State.applyPending_frame (s : State) :
    (s.applyPending).pending = s.pending ∧ (s.applyPending).choices = s.choices ∧ (s.applyPending).held = s.held
      ∧ (s.applyPending).pins = s.pins ∧ (s.applyPending).cause = s.cause
      ∧ (s.applyPending).bellCount = s.bellCount ∧ (s.applyPending).coilBudget = s.coilBudget
      ∧ (s.applyPending).lineRate = s.lineRate ∧ (s.applyPending).bells = s.bells
      ∧ (s.applyPending).queue = s.queue ∧ (s.applyPending).waiting = s.waiting
      ∧ (s.applyPending).coils = s.coils ∧ (s.applyPending).melodies = s.melodies
      ∧ (s.applyPending).pool = s.pool ∧ (s.applyPending).tune = s.tune ∧ (s.applyPending).toll = s.toll
      ∧ (s.applyPending).draft = s.draft ∧ (s.applyPending).hold = s.hold ∧ (s.applyPending).quiet = s.quiet
      ∧ (s.applyPending).cues = s.cues ∧ (s.applyPending).supply = s.supply ∧ (s.applyPending).store = s.store
      ∧ (s.applyPending).image = s.image := by
  unfold State.applyPending
  split <;> simp

/-- It can change no field but time, playQueue, lastId, live, stamps, serial. -/
@[simp] theorem State.correctAtLock_frame (s : State) (a : Bool) :
    (s.correctAtLock a).pending = s.pending ∧ (s.correctAtLock a).choices = s.choices
      ∧ (s.correctAtLock a).held = s.held ∧ (s.correctAtLock a).pins = s.pins
      ∧ (s.correctAtLock a).cause = s.cause ∧ (s.correctAtLock a).bellCount = s.bellCount
      ∧ (s.correctAtLock a).coilBudget = s.coilBudget ∧ (s.correctAtLock a).lineRate = s.lineRate
      ∧ (s.correctAtLock a).bells = s.bells ∧ (s.correctAtLock a).queue = s.queue
      ∧ (s.correctAtLock a).waiting = s.waiting ∧ (s.correctAtLock a).coils = s.coils
      ∧ (s.correctAtLock a).melodies = s.melodies ∧ (s.correctAtLock a).pool = s.pool
      ∧ (s.correctAtLock a).tune = s.tune ∧ (s.correctAtLock a).toll = s.toll
      ∧ (s.correctAtLock a).draft = s.draft ∧ (s.correctAtLock a).hold = s.hold
      ∧ (s.correctAtLock a).quiet = s.quiet ∧ (s.correctAtLock a).cues = s.cues
      ∧ (s.correctAtLock a).supply = s.supply ∧ (s.correctAtLock a).store = s.store
      ∧ (s.correctAtLock a).image = s.image := by
  unfold State.correctAtLock
  dsimp only
  split
  · simp
  · split <;> simp

/-- It can change no field but time, playQueue, lastId, live, stamps, serial. -/
@[simp] theorem State.qualify_frame (s : State) :
    (s.qualify).pending = s.pending ∧ (s.qualify).choices = s.choices ∧ (s.qualify).held = s.held
      ∧ (s.qualify).pins = s.pins ∧ (s.qualify).cause = s.cause ∧ (s.qualify).bellCount = s.bellCount
      ∧ (s.qualify).coilBudget = s.coilBudget ∧ (s.qualify).lineRate = s.lineRate ∧ (s.qualify).bells = s.bells
      ∧ (s.qualify).queue = s.queue ∧ (s.qualify).waiting = s.waiting ∧ (s.qualify).coils = s.coils
      ∧ (s.qualify).melodies = s.melodies ∧ (s.qualify).pool = s.pool ∧ (s.qualify).tune = s.tune
      ∧ (s.qualify).toll = s.toll ∧ (s.qualify).draft = s.draft ∧ (s.qualify).hold = s.hold
      ∧ (s.qualify).quiet = s.quiet ∧ (s.qualify).cues = s.cues ∧ (s.qualify).supply = s.supply
      ∧ (s.qualify).store = s.store ∧ (s.qualify).image = s.image := by
  unfold State.qualify
  dsimp only
  generalize (if s.goodInterval then s.time.qualified + 1 else 0) = n
  split <;> simp

/-- It can change no field but time, playQueue, lastId, live, stamps, serial. -/
@[simp] theorem State.goodPulse_frame (s : State) :
    (s.goodPulse).pending = s.pending ∧ (s.goodPulse).choices = s.choices ∧ (s.goodPulse).held = s.held
      ∧ (s.goodPulse).pins = s.pins ∧ (s.goodPulse).cause = s.cause ∧ (s.goodPulse).bellCount = s.bellCount
      ∧ (s.goodPulse).coilBudget = s.coilBudget ∧ (s.goodPulse).lineRate = s.lineRate
      ∧ (s.goodPulse).bells = s.bells ∧ (s.goodPulse).queue = s.queue ∧ (s.goodPulse).waiting = s.waiting
      ∧ (s.goodPulse).coils = s.coils ∧ (s.goodPulse).melodies = s.melodies ∧ (s.goodPulse).pool = s.pool
      ∧ (s.goodPulse).tune = s.tune ∧ (s.goodPulse).toll = s.toll ∧ (s.goodPulse).draft = s.draft
      ∧ (s.goodPulse).hold = s.hold ∧ (s.goodPulse).quiet = s.quiet ∧ (s.goodPulse).cues = s.cues
      ∧ (s.goodPulse).supply = s.supply ∧ (s.goodPulse).store = s.store ∧ (s.goodPulse).image = s.image := by
  unfold State.goodPulse
  dsimp only
  split
  · simp
  · split <;> simp

/-- It can change no field but time, playQueue, lastId, live, stamps, serial. -/
@[simp] theorem State.takePulse_frame (s : State) :
    (s.takePulse).pending = s.pending ∧ (s.takePulse).choices = s.choices ∧ (s.takePulse).held = s.held
      ∧ (s.takePulse).pins = s.pins ∧ (s.takePulse).cause = s.cause ∧ (s.takePulse).bellCount = s.bellCount
      ∧ (s.takePulse).coilBudget = s.coilBudget ∧ (s.takePulse).lineRate = s.lineRate
      ∧ (s.takePulse).bells = s.bells ∧ (s.takePulse).queue = s.queue ∧ (s.takePulse).waiting = s.waiting
      ∧ (s.takePulse).coils = s.coils ∧ (s.takePulse).melodies = s.melodies ∧ (s.takePulse).pool = s.pool
      ∧ (s.takePulse).tune = s.tune ∧ (s.takePulse).toll = s.toll ∧ (s.takePulse).draft = s.draft
      ∧ (s.takePulse).hold = s.hold ∧ (s.takePulse).quiet = s.quiet ∧ (s.takePulse).cues = s.cues
      ∧ (s.takePulse).supply = s.supply ∧ (s.takePulse).store = s.store ∧ (s.takePulse).image = s.image := by
  unfold State.takePulse
  split
  · simp
  · simp
  · simp
  · split <;> simp

/-- It can change no field but time, playQueue, lastId, live, stamps, serial. -/
@[simp] theorem State.losePulse_frame (s : State) :
    (s.losePulse).pending = s.pending ∧ (s.losePulse).choices = s.choices ∧ (s.losePulse).held = s.held
      ∧ (s.losePulse).pins = s.pins ∧ (s.losePulse).cause = s.cause ∧ (s.losePulse).bellCount = s.bellCount
      ∧ (s.losePulse).coilBudget = s.coilBudget ∧ (s.losePulse).lineRate = s.lineRate
      ∧ (s.losePulse).bells = s.bells ∧ (s.losePulse).queue = s.queue ∧ (s.losePulse).waiting = s.waiting
      ∧ (s.losePulse).coils = s.coils ∧ (s.losePulse).melodies = s.melodies ∧ (s.losePulse).pool = s.pool
      ∧ (s.losePulse).tune = s.tune ∧ (s.losePulse).toll = s.toll ∧ (s.losePulse).draft = s.draft
      ∧ (s.losePulse).hold = s.hold ∧ (s.losePulse).quiet = s.quiet ∧ (s.losePulse).cues = s.cues
      ∧ (s.losePulse).supply = s.supply ∧ (s.losePulse).store = s.store ∧ (s.losePulse).image = s.image := by
  unfold State.losePulse
  simp

/-! ## The supply, the transmitter and the store -/

/-- It can change no field but bells, supply, serial. -/
@[simp] theorem State.supplyFalls_frame (s : State) :
    (s.supplyFalls).pending = s.pending ∧ (s.supplyFalls).choices = s.choices ∧ (s.supplyFalls).held = s.held
      ∧ (s.supplyFalls).pins = s.pins ∧ (s.supplyFalls).cause = s.cause
      ∧ (s.supplyFalls).bellCount = s.bellCount ∧ (s.supplyFalls).coilBudget = s.coilBudget
      ∧ (s.supplyFalls).lineRate = s.lineRate ∧ (s.supplyFalls).time = s.time ∧ (s.supplyFalls).queue = s.queue
      ∧ (s.supplyFalls).waiting = s.waiting ∧ (s.supplyFalls).coils = s.coils
      ∧ (s.supplyFalls).melodies = s.melodies ∧ (s.supplyFalls).pool = s.pool
      ∧ (s.supplyFalls).playQueue = s.playQueue ∧ (s.supplyFalls).lastId = s.lastId
      ∧ (s.supplyFalls).tune = s.tune ∧ (s.supplyFalls).toll = s.toll ∧ (s.supplyFalls).live = s.live
      ∧ (s.supplyFalls).draft = s.draft ∧ (s.supplyFalls).stamps = s.stamps ∧ (s.supplyFalls).hold = s.hold
      ∧ (s.supplyFalls).quiet = s.quiet ∧ (s.supplyFalls).cues = s.cues ∧ (s.supplyFalls).store = s.store
      ∧ (s.supplyFalls).image = s.image := by
  unfold State.supplyFalls
  split <;> simp

/-- It can change no field but supply. -/
@[simp] theorem State.supplyRises_frame (s : State) :
    (s.supplyRises).pending = s.pending ∧ (s.supplyRises).choices = s.choices ∧ (s.supplyRises).held = s.held
      ∧ (s.supplyRises).pins = s.pins ∧ (s.supplyRises).cause = s.cause
      ∧ (s.supplyRises).bellCount = s.bellCount ∧ (s.supplyRises).coilBudget = s.coilBudget
      ∧ (s.supplyRises).lineRate = s.lineRate ∧ (s.supplyRises).time = s.time ∧ (s.supplyRises).bells = s.bells
      ∧ (s.supplyRises).queue = s.queue ∧ (s.supplyRises).waiting = s.waiting ∧ (s.supplyRises).coils = s.coils
      ∧ (s.supplyRises).melodies = s.melodies ∧ (s.supplyRises).pool = s.pool
      ∧ (s.supplyRises).playQueue = s.playQueue ∧ (s.supplyRises).lastId = s.lastId
      ∧ (s.supplyRises).tune = s.tune ∧ (s.supplyRises).toll = s.toll ∧ (s.supplyRises).live = s.live
      ∧ (s.supplyRises).draft = s.draft ∧ (s.supplyRises).stamps = s.stamps ∧ (s.supplyRises).hold = s.hold
      ∧ (s.supplyRises).quiet = s.quiet ∧ (s.supplyRises).cues = s.cues ∧ (s.supplyRises).serial = s.serial
      ∧ (s.supplyRises).store = s.store ∧ (s.supplyRises).image = s.image := by
  unfold State.supplyRises
  split <;> simp

/-- It can change no field but choices, bells, queue, waiting, melodies, playQueue, lastId, tune, toll, cues, serial, supply. -/
@[simp] theorem State.loseSupply_frame (s : State) :
    (s.loseSupply).pending = s.pending ∧ (s.loseSupply).held = s.held ∧ (s.loseSupply).pins = s.pins
      ∧ (s.loseSupply).cause = s.cause ∧ (s.loseSupply).bellCount = s.bellCount
      ∧ (s.loseSupply).coilBudget = s.coilBudget ∧ (s.loseSupply).lineRate = s.lineRate
      ∧ (s.loseSupply).time = s.time ∧ (s.loseSupply).coils = s.coils ∧ (s.loseSupply).pool = s.pool
      ∧ (s.loseSupply).live = s.live ∧ (s.loseSupply).draft = s.draft ∧ (s.loseSupply).stamps = s.stamps
      ∧ (s.loseSupply).hold = s.hold ∧ (s.loseSupply).quiet = s.quiet ∧ (s.loseSupply).store = s.store
      ∧ (s.loseSupply).image = s.image := by
  unfold State.loseSupply
  simp

/-- It can change no field but serial. -/
@[simp] theorem State.transmit_frame (s : State) :
    (s.transmit).pending = s.pending ∧ (s.transmit).choices = s.choices ∧ (s.transmit).held = s.held
      ∧ (s.transmit).pins = s.pins ∧ (s.transmit).cause = s.cause ∧ (s.transmit).bellCount = s.bellCount
      ∧ (s.transmit).coilBudget = s.coilBudget ∧ (s.transmit).lineRate = s.lineRate ∧ (s.transmit).time = s.time
      ∧ (s.transmit).bells = s.bells ∧ (s.transmit).queue = s.queue ∧ (s.transmit).waiting = s.waiting
      ∧ (s.transmit).coils = s.coils ∧ (s.transmit).melodies = s.melodies ∧ (s.transmit).pool = s.pool
      ∧ (s.transmit).playQueue = s.playQueue ∧ (s.transmit).lastId = s.lastId ∧ (s.transmit).tune = s.tune
      ∧ (s.transmit).toll = s.toll ∧ (s.transmit).live = s.live ∧ (s.transmit).draft = s.draft
      ∧ (s.transmit).stamps = s.stamps ∧ (s.transmit).hold = s.hold ∧ (s.transmit).quiet = s.quiet
      ∧ (s.transmit).cues = s.cues ∧ (s.transmit).supply = s.supply ∧ (s.transmit).store = s.store
      ∧ (s.transmit).image = s.image := by
  unfold State.transmit
  split
  · simp
  · simp

/-- It can change no field but serial, store, image. -/
@[simp] theorem State.beginSave_frame (s : State) (tag : Text) :
    (s.beginSave tag).pending = s.pending ∧ (s.beginSave tag).choices = s.choices
      ∧ (s.beginSave tag).held = s.held ∧ (s.beginSave tag).pins = s.pins ∧ (s.beginSave tag).cause = s.cause
      ∧ (s.beginSave tag).bellCount = s.bellCount ∧ (s.beginSave tag).coilBudget = s.coilBudget
      ∧ (s.beginSave tag).lineRate = s.lineRate ∧ (s.beginSave tag).time = s.time
      ∧ (s.beginSave tag).bells = s.bells ∧ (s.beginSave tag).queue = s.queue
      ∧ (s.beginSave tag).waiting = s.waiting ∧ (s.beginSave tag).coils = s.coils
      ∧ (s.beginSave tag).melodies = s.melodies ∧ (s.beginSave tag).pool = s.pool
      ∧ (s.beginSave tag).playQueue = s.playQueue ∧ (s.beginSave tag).lastId = s.lastId
      ∧ (s.beginSave tag).tune = s.tune ∧ (s.beginSave tag).toll = s.toll ∧ (s.beginSave tag).live = s.live
      ∧ (s.beginSave tag).draft = s.draft ∧ (s.beginSave tag).stamps = s.stamps
      ∧ (s.beginSave tag).hold = s.hold ∧ (s.beginSave tag).quiet = s.quiet ∧ (s.beginSave tag).cues = s.cues
      ∧ (s.beginSave tag).supply = s.supply := by
  unfold State.beginSave
  simp

/-- It can change no field but serial, store, image. -/
@[simp] theorem State.endSave_frame (s : State) (good : Option StoreContents) :
    (s.endSave good).pending = s.pending ∧ (s.endSave good).choices = s.choices ∧ (s.endSave good).held = s.held
      ∧ (s.endSave good).pins = s.pins ∧ (s.endSave good).cause = s.cause
      ∧ (s.endSave good).bellCount = s.bellCount ∧ (s.endSave good).coilBudget = s.coilBudget
      ∧ (s.endSave good).lineRate = s.lineRate ∧ (s.endSave good).time = s.time
      ∧ (s.endSave good).bells = s.bells ∧ (s.endSave good).queue = s.queue
      ∧ (s.endSave good).waiting = s.waiting ∧ (s.endSave good).coils = s.coils
      ∧ (s.endSave good).melodies = s.melodies ∧ (s.endSave good).pool = s.pool
      ∧ (s.endSave good).playQueue = s.playQueue ∧ (s.endSave good).lastId = s.lastId
      ∧ (s.endSave good).tune = s.tune ∧ (s.endSave good).toll = s.toll ∧ (s.endSave good).live = s.live
      ∧ (s.endSave good).draft = s.draft ∧ (s.endSave good).stamps = s.stamps ∧ (s.endSave good).hold = s.hold
      ∧ (s.endSave good).quiet = s.quiet ∧ (s.endSave good).cues = s.cues ∧ (s.endSave good).supply = s.supply := by
  unfold State.endSave
  split <;> simp

end Sys2Proof.Machine
end

