-- ==== Sys2Proof/Laws/Settle.lean ====
section
/-! SUPPORT. What the lanes, the cues, the schedule and the wall clock can do within one event, said once: every stop,
expansion, offer, lag retry, END, cue action, evaluation and step is a run of the small edits listed in `State.Edits`. An
invariant that each of these edits keeps is kept by all of them, and by the settling that ends an event. -/

namespace Sys2Proof.Machine

/-! ## The records of the lanes -/

@[simp] theorem TuneLane.passRecord_keeps (l : TuneLane) (onset division : Nat) :
    (l.passRecord onset division).request = l.request ∧ (l.passRecord onset division).spec = l.spec := ⟨rfl, rfl⟩

@[simp] theorem TuneLane.liveAtBar_keeps (l : TuneLane) (onset division : Nat) :
    (l.liveAtBar onset division).request = l.request ∧ (l.liveAtBar onset division).spec = l.spec := by
  unfold TuneLane.liveAtBar
  split <;> exact ⟨rfl, rfl⟩

@[simp] theorem TuneLane.stopAtBar_keeps (l : TuneLane) :
    l.stopAtBar.request = l.request ∧ l.stopAtBar.spec = l.spec := by
  unfold TuneLane.stopAtBar
  split <;> exact ⟨rfl, rfl⟩

@[simp] theorem TuneLane.endPass_keeps (l : TuneLane) (onset beat : Nat) (barless : Bool) :
    (l.endPass onset beat barless).request = l.request ∧ (l.endPass onset beat barless).spec = l.spec := by
  unfold TuneLane.endPass
  split <;> exact ⟨rfl, rfl⟩

/-! ## Edits -/

/-- The edits that the lanes, the play queue, the cues, the schedule and the wall clock make, in any number and order. -/
inductive State.Edits : State → State → Prop where
  | refl (s : State) : Edits s s
  | trans {s t u : State} : Edits s t → Edits t u → Edits s u
  /-- A free choice of order. -/
  | choice (s : State) : Edits s { s with choices := s.choices + 1 }
  /-- The TUNE lane keeps its request and what it asks for. -/
  | tune (s : State) (f : TuneLane → TuneLane) (h : ∀ l, (f l).request = l.request ∧ (f l).spec = l.spec) :
      Edits s (s.modTune f)
  /-- The TOLL lane keeps its request and what it asks for. -/
  | toll (s : State) (f : TollLane → TollLane) (h : ∀ l, (f l).request = l.request ∧ (f l).spec = l.spec) :
      Edits s (s.modToll f)
  /-- An entry is inserted only where a slot is free (R44), and names a fitted bell (R42). -/
  | enqueue (s : State) (e : Entry) (h : s.slotFree = true) (fitted : 1 ≤ e.bell ∧ e.bell ≤ s.bellCount) :
      Edits s (s.enqueue e)
  /-- The entries of an origin are removed (R59). -/
  | remove (s : State) (o : Origin) : Edits s (s.removeOrigin o)
  | endTune (s : State) : Edits s s.drainTune
  | endToll (s : State) : Edits s s.drainToll
  | post (s : State) (k : Kind) (fields : List Fld) : Edits s (s.post k fields)
  | latch (s : State) (c : Nat) : Edits s (s.clearLatch c)
  | offer (s : State) (r : PlayRequest) : Edits s (s.offer r).1
  | ok (s : State) (tag : Text) (fields : List Fld) : Edits s (s.ok tag fields)
  | err (s : State) (tag : Text) (code : ErrCode) : Edits s (s.err tag code)
  | stamp (s : State) (k : Nat) (t : Option Nat) : Edits s (s.stamp k t)
  | copyDraft (s : State) : Edits s s.copyDraft
  /-- The wall clock is corrected; the strike clock is not moved (R159). -/
  | time (s : State) (f : Timebase → Timebase) (h : ∀ t, (f t).now = t.now) : Edits s (s.modTime f)

namespace State.Edits

/-- A choice among candidates is an edit. -/
theorem choose {α : Type} {s t : State} {xs : List α} {x : α} (h : Machine.choose s xs = some (x, t)) : Edits s t := by
  obtain ⟨-, rfl | rfl⟩ := choose_frame h
  · exact .refl _
  · exact .choice _

theorem stopTuneNow (s : State) (r : EndReason) : Edits s (s.stopTuneNow r) := by
  unfold State.stopTuneNow
  split
  · exact .refl _
  · exact .trans (.remove s .tune) (.tune _ _ fun _ => ⟨rfl, rfl⟩)

theorem stopTollNow (s : State) (r : EndReason) : Edits s (s.stopTollNow r) := by
  unfold State.stopTollNow
  split
  · exact .refl _
  · exact .trans (.remove s .toll) (.toll _ _ fun _ => ⟨rfl, rfl⟩)

theorem testBarStop (s : State) : Edits s s.testBarStop := by
  unfold State.testBarStop
  split
  · exact .refl _
  · split
    · split
      · exact stopTuneNow ..
      · split
        · exact .refl _
        · split
          · exact stopTuneNow ..
          · exact .refl _
    · exact .refl _

theorem barStopTune (s : State) (r : EndReason) : Edits s (s.barStopTune r) := by
  unfold State.barStopTune
  split
  · exact .refl _
  · split
    · refine .trans (.tune s _ fun l => ?_) (testBarStop _)
      exact ⟨rfl, rfl⟩
    · exact .refl _

theorem barStopToll (s : State) (r : EndReason) : Edits s (s.barStopToll r) := by
  unfold State.barStopToll
  split
  · exact stopTollNow ..
  · exact .refl _

theorem expandPlain (s : State) (onset division : Nat) (r : ScoreRecord) : Edits s (s.expandPlain onset division r) := by
  refine .tune s _ fun l => ?_
  cases r <;> simp

theorem expandNote (s : State) (l : TuneLane) (onset division bell level : Nat) :
    Edits s (s.expandNote l onset division bell level) := by
  unfold State.expandNote
  dsimp only
  split
  · rename_i target
    split
    · rename_i h
      refine .trans (.enqueue s _ h ?_) (.tune _ _ fun _ => ⟨rfl, rfl⟩)
      dsimp only [State.makeEntry]
      omega
    · exact .tune _ _ fun _ => ⟨rfl, rfl⟩
  · exact .tune _ _ fun _ => ⟨rfl, rfl⟩

theorem afterRecord (s : State) (onset : Nat) : Edits s (s.afterRecord onset) := by
  refine .tune s _ fun l => ?_
  dsimp only
  split
  · simp
  · exact ⟨rfl, rfl⟩

theorem expandTune (s : State) : Edits s s.expandTune := by
  unfold State.expandTune
  split
  · exact .refl _
  · rename_i l _
    split
    · exact .refl _
    · split
      · exact .refl _
      · dsimp only
        split
        · split
          · exact expandNote ..
          · exact .trans (expandNote ..) (.trans (afterRecord ..) (testBarStop _))
        · split
          · exact expandPlain ..
          · exact .trans (expandPlain ..) (.trans (afterRecord ..) (testBarStop _))

theorem expandToll (s : State) : Edits s s.expandToll := by
  unfold State.expandToll
  split
  · exact .refl _
  · split
    · exact .refl _
    · split
      · rename_i fitted
        split
        · rename_i h
          exact .trans (.enqueue s _ h fitted) (.toll _ _ fun _ => ⟨rfl, rfl⟩)
        · exact .toll _ _ fun _ => ⟨rfl, rfl⟩
      · exact .toll _ _ fun _ => ⟨rfl, rfl⟩

theorem retryLags (fuel : Nat) (s : State) : Edits s (s.retryLags fuel) := by
  induction fuel generalizing s with
  | zero => exact .refl _
  | succ fuel ih =>
    unfold State.retryLags
    split
    · exact .refl _
    · split
      · exact .refl _
      · rename_i h
        refine .trans (choose h) (.trans ?_ (.trans (expandTune _) (ih _)))
        exact .tune _ _ fun _ => ⟨rfl, rfl⟩
      · rename_i h
        refine .trans (choose h) (.trans ?_ (.trans (expandToll _) (ih _)))
        exact .toll _ _ fun _ => ⟨rfl, rfl⟩

theorem settleLanes (s : State) : Edits s s.settleLanes :=
  .trans (retryLags 2 s) (.trans (.endTune _) (.endToll _))

theorem offerReported (s : State) (r : PlayRequest) : Edits s (s.offerReported r) := by
  unfold State.offerReported
  dsimp only
  refine .trans (.offer s r) ?_
  unfold State.reportOffer
  split <;> exact .post ..

theorem offerQuiet (s : State) (r : PlayRequest) (instant : Nat) : Edits s (s.offerQuiet r instant) := by
  unfold State.offerQuiet
  dsimp only
  split
  · exact .post ..
  · exact offerReported ..

theorem cueAct (s : State) (c : Nat) : Edits s (s.cueAct c) := by
  unfold State.cueAct
  refine .trans (.latch s c) ?_
  dsimp only
  split
  · exact .refl _
  · exact offerQuiet ..
  · exact offerQuiet ..
  · exact .trans (barStopTune ..) (settleLanes _)

theorem settleCues (fuel : Nat) (s : State) : Edits s (s.settleCues fuel) := by
  induction fuel generalizing s with
  | zero => exact .refl _
  | succ fuel ih =>
    unfold State.settleCues
    split
    · exact .refl _
    · rename_i h
      exact .trans (choose h) (.trans (cueAct ..) (ih _))

theorem settle (s : State) : Edits s s.settle := .trans (settleLanes s) (settleCues 4 _)

theorem replyTuneStop (s : State) (tag : Text) : Edits s (s.replyTuneStop tag) := .trans (.ok ..) (settle _)

theorem replyTollStop (s : State) (tag : Text) : Edits s (s.replyTollStop tag) := .trans (.ok ..) (settle _)

theorem offerLine (s : State) (tag : Text) (o : Options) (r : PlayRequest) (shown : List Fld) :
    Edits s (s.offerLine tag o r shown) := by
  unfold State.offerLine
  split
  · exact .err ..
  · split
    · exact .err ..
    · refine .trans (.offer s r) ?_
      unfold State.replyOffer
      split
      · exact .ok ..
      · exact .err ..
      · exact .ok ..

theorem applyDraft (s : State) : Edits s s.applyDraft := by
  unfold State.applyDraft
  split
  · exact .copyDraft _
  · exact .refl _

theorem evaluateEntry (t : Nat) (d : Disposal) (acc : State × List (Nat × Nat)) (k : Nat) :
    Edits acc.1 (State.evaluateEntry t d acc k).1 := by
  unfold State.evaluateEntry
  dsimp only
  split
  · exact .refl _
  · split
    · exact .trans (.stamp ..) (offerQuiet ..)
    · exact .trans (.stamp ..) (offerQuiet ..)
    · exact .stamp ..

theorem evaluate (t : Nat) (d : Disposal) (acc : State × List (Nat × Nat)) : Edits acc.1 (State.evaluate t d acc).1 := by
  unfold State.evaluate
  generalize List.range' 1 48 = ks
  induction ks generalizing acc with
  | nil => exact .refl _
  | cons k rest ih => exact .trans (evaluateEntry t d acc k) (ih _)

theorem evaluateSpan (n b : Nat) (acc : State × List (Nat × Nat)) : Edits acc.1 (State.evaluateSpan n b acc).1 := by
  induction n generalizing b acc with
  | zero => exact .refl _
  | succ n ih => exact .trans (evaluate ..) (ih ..)

theorem reportMissed (missed : List (Nat × Nat)) (s : State) (k : Nat) : Edits s (State.reportMissed missed s k) := by
  unfold State.reportMissed
  dsimp only
  split
  · exact .refl _
  · exact .post ..

theorem afterForwardStep (s : State) (crossed : Nat) : Edits s (s.afterForwardStep crossed) := by
  have missedAll : ∀ (missed : List (Nat × Nat)) (ks : List Nat) (s : State),
      Edits s (ks.foldl (State.reportMissed missed) s) := by
    intro missed ks
    induction ks with
    | nil => exact fun s => .refl s
    | cons k rest ih => exact fun s => .trans (reportMissed missed s k) (ih _)
  unfold State.afterForwardStep
  dsimp only
  have first : Edits s (s.modTime fun t => { t with crossed := s.wallSecond }) := .time s _ fun _ => rfl
  refine .trans first (.trans ?_ (.trans (evaluateSpan _ _ (_, [])) (missedAll ..)))
  split
  · exact applyDraft _
  · exact .refl _

theorem crossBoundary (s : State) : Edits s s.crossBoundary := by
  unfold State.crossBoundary
  dsimp only
  have first : Edits s (s.modTime fun t => { t with crossed := s.time.crossed + 1 }) := .time s _ fun _ => rfl
  refine .trans first (.trans ?_ (evaluate _ _ (_, [])))
  dsimp only
  split
  · exact applyDraft _
  · exact .refl _

theorem stepWall (s : State) (d : Int) : Edits s (s.stepWall d) := by
  unfold State.stepWall
  dsimp only
  have first : Edits s (s.modTime fun t => { t with offset := t.offset + d, slew := 0 }) := .time s _ fun _ => rfl
  refine .trans first ?_
  split
  · exact .trans (.post ..) (afterForwardStep ..)
  · refine .trans (.post ..) (.time _ _ ?_)
    exact fun _ => rfl

theorem applyTime (s : State) (instant : Nat) : Edits s (s.applyTime instant) := by
  unfold State.applyTime
  split
  · have first : Edits s (s.setWall instant) := .time s _ fun _ => rfl
    exact .trans first (.post ..)
  · split
    · exact .time s _ fun _ => rfl
    · exact stepWall ..

theorem applyPending (s : State) : Edits s s.applyPending := by
  unfold State.applyPending
  split
  · exact .refl _
  · refine .trans (.time s _ ?_) (applyTime ..)
    exact fun _ => rfl

theorem correctAtLock (s : State) (fromAcquire : Bool) : Edits s (s.correctAtLock fromAcquire) := by
  unfold State.correctAtLock
  dsimp only
  split
  · exact .refl _
  · split
    · exact stepWall ..
    · exact .time s _ fun _ => rfl

theorem qualify (s : State) : Edits s s.qualify := by
  unfold State.qualify
  dsimp only
  generalize (if s.goodInterval then s.time.qualified + 1 else 0) = n
  have first : Edits s (s.modTime fun t => { t with qualified := n, lastPulse := some t.now }) := .time s _ fun _ => rfl
  refine .trans first ?_
  split
  · refine .trans (.trans (.time _ _ ?_) (.post ..)) (correctAtLock ..)
    exact fun _ => rfl
  · exact .refl _

theorem goodPulse (s : State) : Edits s s.goodPulse := by
  unfold State.goodPulse
  dsimp only
  have first : Edits s (s.modTime fun t => { t with lastPulse := some t.now }) := .time s _ fun _ => rfl
  refine .trans first ?_
  split
  · exact applyPending _
  · split
    · exact .time _ _ fun _ => rfl
    · exact .refl _

theorem takePulse (s : State) : Edits s s.takePulse := by
  unfold State.takePulse
  split
  · exact .refl _
  · exact qualify _
  · exact qualify _
  · split
    · exact goodPulse _
    · exact .refl _

theorem losePulse (s : State) : Edits s s.losePulse := by
  refine .trans (.trans (.time s _ ?_) (.post ..)) (applyPending _)
  exact fun _ => rfl

/-- A property that every edit keeps is kept by a run of edits. -/
theorem keeps {P : State → Prop} {s t : State} (h : Edits s t)
    (choice : ∀ s : State, P s → P { s with choices := s.choices + 1 })
    (tune : ∀ (s : State) f, (∀ l, (f l).request = l.request ∧ (f l).spec = l.spec) → P s → P (s.modTune f))
    (toll : ∀ (s : State) f, (∀ l, (f l).request = l.request ∧ (f l).spec = l.spec) → P s → P (s.modToll f))
    (enqueue : ∀ (s : State) e, s.slotFree = true → 1 ≤ e.bell ∧ e.bell ≤ s.bellCount → P s → P (s.enqueue e))
    (remove : ∀ (s : State) o, P s → P (s.removeOrigin o))
    (endTune : ∀ s : State, P s → P s.drainTune)
    (endToll : ∀ s : State, P s → P s.drainToll)
    (post : ∀ (s : State) k fields, P s → P (s.post k fields))
    (latch : ∀ (s : State) c, P s → P (s.clearLatch c))
    (offer : ∀ (s : State) r, P s → P (s.offer r).1)
    (ok : ∀ (s : State) tag fields, P s → P (s.ok tag fields))
    (err : ∀ (s : State) tag code, P s → P (s.err tag code))
    (stamp : ∀ (s : State) k t, P s → P (s.stamp k t))
    (copyDraft : ∀ s : State, P s → P s.copyDraft)
    (time : ∀ (s : State) f, (∀ t, (f t).now = t.now) → P s → P (s.modTime f)) : P s → P t := by
  induction h with
  | refl => exact id
  | trans _ _ f g => exact g ∘ f
  | choice s => exact choice s
  | tune s f h => exact tune s f h
  | toll s f h => exact toll s f h
  | enqueue s e h fitted => exact enqueue s e h fitted
  | remove s o => exact remove s o
  | endTune s => exact endTune s
  | endToll s => exact endToll s
  | post s k fields => exact post s k fields
  | latch s c => exact latch s c
  | offer s r => exact offer s r
  | ok s tag fields => exact ok s tag fields
  | err s tag code => exact err s tag code
  | stamp s k t => exact stamp s k t
  | copyDraft s => exact copyDraft s
  | time s f h => exact time s f h

end State.Edits

end Sys2Proof.Machine
end

