-- ==== Sys2Proof/Laws/Requests.lean ====
section
/-! SUPPORT. What each request can change, and the two frames in which every command is taken: `exec` of a request is
`runRequest` where the serial line can execute a line, and an event takes its effect where its condition holds. -/

namespace Sys2Proof.Machine

/-! ## The frames of commands -/

/-- What an event answers. -/
theorem event_eq {c : Bool} {s t : State} {f : State → State} (h : event c s f = .next t) :
    (c = true ∧ t = f s) ∨ (c = false ∧ t = s) := by
  unfold event at h
  split at h <;> simp_all

/-- A property that the effect keeps where the condition holds is kept by the event. -/
theorem event_keeps {P : State → Prop} {c : Bool} {s t : State} {f : State → State} (h : event c s f = .next t)
    (hs : P s) (hf : c = true → P (f s)) : P t := by
  obtain ⟨hc, rfl⟩ | ⟨-, rfl⟩ := event_eq h
  · exact hf hc
  · exact hs

/-- An event whose condition holds takes its effect. -/
theorem event_taken {c : Bool} {s : State} {f : State → State} (h : c = true) : event c s f = .next (f s) := by
  simp [event, h]

/-- An event whose condition does not hold changes nothing. -/
theorem event_idle {c : Bool} {s : State} {f : State → State} (h : c = false) : event c s f = .next s := by
  simp [event, h]

/-- A request is `runRequest`, taken where the serial line can execute a line. -/
theorem exec_request {i : Instr} {p : Text × List Text} (h : i.fields = some p) (s : State) :
    exec i s = event s.canExecute s (runRequest i) := by
  cases i <;> first | rfl | cases h

/-- A command that is no request is spelled by no line. -/
theorem runRequest_event {i : Instr} (h : i.fields = none) (s : State) : runRequest i s = s := by
  cases i <;> first | rfl | cases h

/-! ## What the requests leave alone -/

/-- A run of settings changes no field but bells. -/
theorem settings_frame (b : Nat) (xs : List Setting) (s : State) :
    xs.foldl (State.applySetting b) s = { s with bells := (xs.foldl (State.applySetting b) s).bells } := by
  have one : ∀ (s : State) x, s.applyOne b x = { s with bells := (s.applyOne b x).bells } := by
    intro s x
    cases x <;> try rfl
    · simp only [State.applyOne]
      split
      · rfl
      · split <;> rfl
    · simp only [State.applyOne]
      split <;> rfl
  have many : ∀ (xs : List Setting) (s : State),
      xs.foldl (State.applyOne b) s = { s with bells := (xs.foldl (State.applyOne b) s).bells } := by
    intro xs
    induction xs with
    | nil => exact fun _ => rfl
    | cons x rest ih =>
      intro s
      rw [List.foldl_cons, ih, one]
  induction xs generalizing s with
  | nil => rfl
  | cons x rest ih =>
    have first : s.applySetting b x = { s with bells := (s.applySetting b x).bells } := by
      unfold State.applySetting
      split
      · exact many _ s
      · exact one s _
    rw [List.foldl_cons, ih, first]

/-- It can change no field but bells, serial. -/
@[simp] theorem bellRequest_frame (tag : Text) (fields : List Text) (s : State) :
    (bellRequest tag fields s).pending = s.pending ∧ (bellRequest tag fields s).choices = s.choices
      ∧ (bellRequest tag fields s).held = s.held ∧ (bellRequest tag fields s).pins = s.pins
      ∧ (bellRequest tag fields s).cause = s.cause ∧ (bellRequest tag fields s).bellCount = s.bellCount
      ∧ (bellRequest tag fields s).coilBudget = s.coilBudget ∧ (bellRequest tag fields s).lineRate = s.lineRate
      ∧ (bellRequest tag fields s).time = s.time ∧ (bellRequest tag fields s).queue = s.queue
      ∧ (bellRequest tag fields s).waiting = s.waiting ∧ (bellRequest tag fields s).coils = s.coils
      ∧ (bellRequest tag fields s).melodies = s.melodies ∧ (bellRequest tag fields s).pool = s.pool
      ∧ (bellRequest tag fields s).playQueue = s.playQueue ∧ (bellRequest tag fields s).lastId = s.lastId
      ∧ (bellRequest tag fields s).tune = s.tune ∧ (bellRequest tag fields s).toll = s.toll
      ∧ (bellRequest tag fields s).live = s.live ∧ (bellRequest tag fields s).draft = s.draft
      ∧ (bellRequest tag fields s).stamps = s.stamps ∧ (bellRequest tag fields s).hold = s.hold
      ∧ (bellRequest tag fields s).quiet = s.quiet ∧ (bellRequest tag fields s).cues = s.cues
      ∧ (bellRequest tag fields s).supply = s.supply ∧ (bellRequest tag fields s).store = s.store
      ∧ (bellRequest tag fields s).image = s.image := by
  unfold bellRequest
  split
  · simp
  · split
    · rw [settings_frame]
      simp
    · simp

/-- It can change no field but bells, serial. -/
@[simp] theorem bellDisableRequest_frame (tag : Text) (b : Text) (more : List Text) (s : State) :
    (bellDisableRequest tag b more s).pending = s.pending
      ∧ (bellDisableRequest tag b more s).choices = s.choices ∧ (bellDisableRequest tag b more s).held = s.held
      ∧ (bellDisableRequest tag b more s).pins = s.pins ∧ (bellDisableRequest tag b more s).cause = s.cause
      ∧ (bellDisableRequest tag b more s).bellCount = s.bellCount
      ∧ (bellDisableRequest tag b more s).coilBudget = s.coilBudget
      ∧ (bellDisableRequest tag b more s).lineRate = s.lineRate
      ∧ (bellDisableRequest tag b more s).time = s.time ∧ (bellDisableRequest tag b more s).queue = s.queue
      ∧ (bellDisableRequest tag b more s).waiting = s.waiting
      ∧ (bellDisableRequest tag b more s).coils = s.coils
      ∧ (bellDisableRequest tag b more s).melodies = s.melodies
      ∧ (bellDisableRequest tag b more s).pool = s.pool
      ∧ (bellDisableRequest tag b more s).playQueue = s.playQueue
      ∧ (bellDisableRequest tag b more s).lastId = s.lastId ∧ (bellDisableRequest tag b more s).tune = s.tune
      ∧ (bellDisableRequest tag b more s).toll = s.toll ∧ (bellDisableRequest tag b more s).live = s.live
      ∧ (bellDisableRequest tag b more s).draft = s.draft ∧ (bellDisableRequest tag b more s).stamps = s.stamps
      ∧ (bellDisableRequest tag b more s).hold = s.hold ∧ (bellDisableRequest tag b more s).quiet = s.quiet
      ∧ (bellDisableRequest tag b more s).cues = s.cues ∧ (bellDisableRequest tag b more s).supply = s.supply
      ∧ (bellDisableRequest tag b more s).store = s.store ∧ (bellDisableRequest tag b more s).image = s.image := by
  unfold bellDisableRequest
  repeat' split
  all_goals simp

/-- It can change no field but bells, serial. -/
@[simp] theorem bellEnableRequest_frame (tag : Text) (b : Text) (more : List Text) (s : State) :
    (bellEnableRequest tag b more s).pending = s.pending ∧ (bellEnableRequest tag b more s).choices = s.choices
      ∧ (bellEnableRequest tag b more s).held = s.held ∧ (bellEnableRequest tag b more s).pins = s.pins
      ∧ (bellEnableRequest tag b more s).cause = s.cause
      ∧ (bellEnableRequest tag b more s).bellCount = s.bellCount
      ∧ (bellEnableRequest tag b more s).coilBudget = s.coilBudget
      ∧ (bellEnableRequest tag b more s).lineRate = s.lineRate ∧ (bellEnableRequest tag b more s).time = s.time
      ∧ (bellEnableRequest tag b more s).queue = s.queue ∧ (bellEnableRequest tag b more s).waiting = s.waiting
      ∧ (bellEnableRequest tag b more s).coils = s.coils
      ∧ (bellEnableRequest tag b more s).melodies = s.melodies ∧ (bellEnableRequest tag b more s).pool = s.pool
      ∧ (bellEnableRequest tag b more s).playQueue = s.playQueue
      ∧ (bellEnableRequest tag b more s).lastId = s.lastId ∧ (bellEnableRequest tag b more s).tune = s.tune
      ∧ (bellEnableRequest tag b more s).toll = s.toll ∧ (bellEnableRequest tag b more s).live = s.live
      ∧ (bellEnableRequest tag b more s).draft = s.draft ∧ (bellEnableRequest tag b more s).stamps = s.stamps
      ∧ (bellEnableRequest tag b more s).hold = s.hold ∧ (bellEnableRequest tag b more s).quiet = s.quiet
      ∧ (bellEnableRequest tag b more s).cues = s.cues ∧ (bellEnableRequest tag b more s).supply = s.supply
      ∧ (bellEnableRequest tag b more s).store = s.store ∧ (bellEnableRequest tag b more s).image = s.image := by
  unfold bellEnableRequest
  repeat' split
  all_goals simp

/-- It can change no field but bells, serial. -/
@[simp] theorem bellClearRequest_frame (tag : Text) (b : Text) (more : List Text) (s : State) :
    (bellClearRequest tag b more s).pending = s.pending ∧ (bellClearRequest tag b more s).choices = s.choices
      ∧ (bellClearRequest tag b more s).held = s.held ∧ (bellClearRequest tag b more s).pins = s.pins
      ∧ (bellClearRequest tag b more s).cause = s.cause
      ∧ (bellClearRequest tag b more s).bellCount = s.bellCount
      ∧ (bellClearRequest tag b more s).coilBudget = s.coilBudget
      ∧ (bellClearRequest tag b more s).lineRate = s.lineRate ∧ (bellClearRequest tag b more s).time = s.time
      ∧ (bellClearRequest tag b more s).queue = s.queue ∧ (bellClearRequest tag b more s).waiting = s.waiting
      ∧ (bellClearRequest tag b more s).coils = s.coils ∧ (bellClearRequest tag b more s).melodies = s.melodies
      ∧ (bellClearRequest tag b more s).pool = s.pool ∧ (bellClearRequest tag b more s).playQueue = s.playQueue
      ∧ (bellClearRequest tag b more s).lastId = s.lastId ∧ (bellClearRequest tag b more s).tune = s.tune
      ∧ (bellClearRequest tag b more s).toll = s.toll ∧ (bellClearRequest tag b more s).live = s.live
      ∧ (bellClearRequest tag b more s).draft = s.draft ∧ (bellClearRequest tag b more s).stamps = s.stamps
      ∧ (bellClearRequest tag b more s).hold = s.hold ∧ (bellClearRequest tag b more s).quiet = s.quiet
      ∧ (bellClearRequest tag b more s).cues = s.cues ∧ (bellClearRequest tag b more s).supply = s.supply
      ∧ (bellClearRequest tag b more s).store = s.store ∧ (bellClearRequest tag b more s).image = s.image := by
  unfold bellClearRequest
  repeat' split
  all_goals simp

/-- It can change no field but bells, serial. -/
@[simp] theorem countClearRequest_frame (tag : Text) (b : Text) (more : List Text) (s : State) :
    (countClearRequest tag b more s).pending = s.pending ∧ (countClearRequest tag b more s).choices = s.choices
      ∧ (countClearRequest tag b more s).held = s.held ∧ (countClearRequest tag b more s).pins = s.pins
      ∧ (countClearRequest tag b more s).cause = s.cause
      ∧ (countClearRequest tag b more s).bellCount = s.bellCount
      ∧ (countClearRequest tag b more s).coilBudget = s.coilBudget
      ∧ (countClearRequest tag b more s).lineRate = s.lineRate ∧ (countClearRequest tag b more s).time = s.time
      ∧ (countClearRequest tag b more s).queue = s.queue ∧ (countClearRequest tag b more s).waiting = s.waiting
      ∧ (countClearRequest tag b more s).coils = s.coils
      ∧ (countClearRequest tag b more s).melodies = s.melodies ∧ (countClearRequest tag b more s).pool = s.pool
      ∧ (countClearRequest tag b more s).playQueue = s.playQueue
      ∧ (countClearRequest tag b more s).lastId = s.lastId ∧ (countClearRequest tag b more s).tune = s.tune
      ∧ (countClearRequest tag b more s).toll = s.toll ∧ (countClearRequest tag b more s).live = s.live
      ∧ (countClearRequest tag b more s).draft = s.draft ∧ (countClearRequest tag b more s).stamps = s.stamps
      ∧ (countClearRequest tag b more s).hold = s.hold ∧ (countClearRequest tag b more s).quiet = s.quiet
      ∧ (countClearRequest tag b more s).cues = s.cues ∧ (countClearRequest tag b more s).supply = s.supply
      ∧ (countClearRequest tag b more s).store = s.store ∧ (countClearRequest tag b more s).image = s.image := by
  unfold countClearRequest
  repeat' split
  all_goals simp

/-- It can change no field but serial. -/
@[simp] theorem bellReadRequest_frame (tag : Text) (fields : List Text) (s : State) :
    (bellReadRequest tag fields s).pending = s.pending ∧ (bellReadRequest tag fields s).choices = s.choices
      ∧ (bellReadRequest tag fields s).held = s.held ∧ (bellReadRequest tag fields s).pins = s.pins
      ∧ (bellReadRequest tag fields s).cause = s.cause ∧ (bellReadRequest tag fields s).bellCount = s.bellCount
      ∧ (bellReadRequest tag fields s).coilBudget = s.coilBudget
      ∧ (bellReadRequest tag fields s).lineRate = s.lineRate ∧ (bellReadRequest tag fields s).time = s.time
      ∧ (bellReadRequest tag fields s).bells = s.bells ∧ (bellReadRequest tag fields s).queue = s.queue
      ∧ (bellReadRequest tag fields s).waiting = s.waiting ∧ (bellReadRequest tag fields s).coils = s.coils
      ∧ (bellReadRequest tag fields s).melodies = s.melodies ∧ (bellReadRequest tag fields s).pool = s.pool
      ∧ (bellReadRequest tag fields s).playQueue = s.playQueue
      ∧ (bellReadRequest tag fields s).lastId = s.lastId ∧ (bellReadRequest tag fields s).tune = s.tune
      ∧ (bellReadRequest tag fields s).toll = s.toll ∧ (bellReadRequest tag fields s).live = s.live
      ∧ (bellReadRequest tag fields s).draft = s.draft ∧ (bellReadRequest tag fields s).stamps = s.stamps
      ∧ (bellReadRequest tag fields s).hold = s.hold ∧ (bellReadRequest tag fields s).quiet = s.quiet
      ∧ (bellReadRequest tag fields s).cues = s.cues ∧ (bellReadRequest tag fields s).supply = s.supply
      ∧ (bellReadRequest tag fields s).store = s.store ∧ (bellReadRequest tag fields s).image = s.image := by
  unfold bellReadRequest
  repeat' split
  all_goals simp

/-- It can change no field but serial. -/
@[simp] theorem countReadRequest_frame (tag : Text) (fields : List Text) (s : State) :
    (countReadRequest tag fields s).pending = s.pending ∧ (countReadRequest tag fields s).choices = s.choices
      ∧ (countReadRequest tag fields s).held = s.held ∧ (countReadRequest tag fields s).pins = s.pins
      ∧ (countReadRequest tag fields s).cause = s.cause
      ∧ (countReadRequest tag fields s).bellCount = s.bellCount
      ∧ (countReadRequest tag fields s).coilBudget = s.coilBudget
      ∧ (countReadRequest tag fields s).lineRate = s.lineRate ∧ (countReadRequest tag fields s).time = s.time
      ∧ (countReadRequest tag fields s).bells = s.bells ∧ (countReadRequest tag fields s).queue = s.queue
      ∧ (countReadRequest tag fields s).waiting = s.waiting ∧ (countReadRequest tag fields s).coils = s.coils
      ∧ (countReadRequest tag fields s).melodies = s.melodies ∧ (countReadRequest tag fields s).pool = s.pool
      ∧ (countReadRequest tag fields s).playQueue = s.playQueue
      ∧ (countReadRequest tag fields s).lastId = s.lastId ∧ (countReadRequest tag fields s).tune = s.tune
      ∧ (countReadRequest tag fields s).toll = s.toll ∧ (countReadRequest tag fields s).live = s.live
      ∧ (countReadRequest tag fields s).draft = s.draft ∧ (countReadRequest tag fields s).stamps = s.stamps
      ∧ (countReadRequest tag fields s).hold = s.hold ∧ (countReadRequest tag fields s).quiet = s.quiet
      ∧ (countReadRequest tag fields s).cues = s.cues ∧ (countReadRequest tag fields s).supply = s.supply
      ∧ (countReadRequest tag fields s).store = s.store ∧ (countReadRequest tag fields s).image = s.image := by
  unfold countReadRequest
  repeat' split
  all_goals simp

/-- It can change no field but serial. -/
@[simp] theorem melReadRequest_frame (tag : Text) (fields : List Text) (s : State) :
    (melReadRequest tag fields s).pending = s.pending ∧ (melReadRequest tag fields s).choices = s.choices
      ∧ (melReadRequest tag fields s).held = s.held ∧ (melReadRequest tag fields s).pins = s.pins
      ∧ (melReadRequest tag fields s).cause = s.cause ∧ (melReadRequest tag fields s).bellCount = s.bellCount
      ∧ (melReadRequest tag fields s).coilBudget = s.coilBudget
      ∧ (melReadRequest tag fields s).lineRate = s.lineRate ∧ (melReadRequest tag fields s).time = s.time
      ∧ (melReadRequest tag fields s).bells = s.bells ∧ (melReadRequest tag fields s).queue = s.queue
      ∧ (melReadRequest tag fields s).waiting = s.waiting ∧ (melReadRequest tag fields s).coils = s.coils
      ∧ (melReadRequest tag fields s).melodies = s.melodies ∧ (melReadRequest tag fields s).pool = s.pool
      ∧ (melReadRequest tag fields s).playQueue = s.playQueue ∧ (melReadRequest tag fields s).lastId = s.lastId
      ∧ (melReadRequest tag fields s).tune = s.tune ∧ (melReadRequest tag fields s).toll = s.toll
      ∧ (melReadRequest tag fields s).live = s.live ∧ (melReadRequest tag fields s).draft = s.draft
      ∧ (melReadRequest tag fields s).stamps = s.stamps ∧ (melReadRequest tag fields s).hold = s.hold
      ∧ (melReadRequest tag fields s).quiet = s.quiet ∧ (melReadRequest tag fields s).cues = s.cues
      ∧ (melReadRequest tag fields s).supply = s.supply ∧ (melReadRequest tag fields s).store = s.store
      ∧ (melReadRequest tag fields s).image = s.image := by
  unfold melReadRequest
  repeat' split
  all_goals simp

/-- It can change no field but serial. -/
@[simp] theorem entryReadRequest_frame (tag : Text) (fields : List Text) (s : State) :
    (entryReadRequest tag fields s).pending = s.pending ∧ (entryReadRequest tag fields s).choices = s.choices
      ∧ (entryReadRequest tag fields s).held = s.held ∧ (entryReadRequest tag fields s).pins = s.pins
      ∧ (entryReadRequest tag fields s).cause = s.cause
      ∧ (entryReadRequest tag fields s).bellCount = s.bellCount
      ∧ (entryReadRequest tag fields s).coilBudget = s.coilBudget
      ∧ (entryReadRequest tag fields s).lineRate = s.lineRate ∧ (entryReadRequest tag fields s).time = s.time
      ∧ (entryReadRequest tag fields s).bells = s.bells ∧ (entryReadRequest tag fields s).queue = s.queue
      ∧ (entryReadRequest tag fields s).waiting = s.waiting ∧ (entryReadRequest tag fields s).coils = s.coils
      ∧ (entryReadRequest tag fields s).melodies = s.melodies ∧ (entryReadRequest tag fields s).pool = s.pool
      ∧ (entryReadRequest tag fields s).playQueue = s.playQueue
      ∧ (entryReadRequest tag fields s).lastId = s.lastId ∧ (entryReadRequest tag fields s).tune = s.tune
      ∧ (entryReadRequest tag fields s).toll = s.toll ∧ (entryReadRequest tag fields s).live = s.live
      ∧ (entryReadRequest tag fields s).draft = s.draft ∧ (entryReadRequest tag fields s).stamps = s.stamps
      ∧ (entryReadRequest tag fields s).hold = s.hold ∧ (entryReadRequest tag fields s).quiet = s.quiet
      ∧ (entryReadRequest tag fields s).cues = s.cues ∧ (entryReadRequest tag fields s).supply = s.supply
      ∧ (entryReadRequest tag fields s).store = s.store ∧ (entryReadRequest tag fields s).image = s.image := by
  unfold entryReadRequest
  repeat' split
  all_goals simp

/-- It can change no field but serial. -/
@[simp] theorem quietReadRequest_frame (tag : Text) (fields : List Text) (s : State) :
    (quietReadRequest tag fields s).pending = s.pending ∧ (quietReadRequest tag fields s).choices = s.choices
      ∧ (quietReadRequest tag fields s).held = s.held ∧ (quietReadRequest tag fields s).pins = s.pins
      ∧ (quietReadRequest tag fields s).cause = s.cause
      ∧ (quietReadRequest tag fields s).bellCount = s.bellCount
      ∧ (quietReadRequest tag fields s).coilBudget = s.coilBudget
      ∧ (quietReadRequest tag fields s).lineRate = s.lineRate ∧ (quietReadRequest tag fields s).time = s.time
      ∧ (quietReadRequest tag fields s).bells = s.bells ∧ (quietReadRequest tag fields s).queue = s.queue
      ∧ (quietReadRequest tag fields s).waiting = s.waiting ∧ (quietReadRequest tag fields s).coils = s.coils
      ∧ (quietReadRequest tag fields s).melodies = s.melodies ∧ (quietReadRequest tag fields s).pool = s.pool
      ∧ (quietReadRequest tag fields s).playQueue = s.playQueue
      ∧ (quietReadRequest tag fields s).lastId = s.lastId ∧ (quietReadRequest tag fields s).tune = s.tune
      ∧ (quietReadRequest tag fields s).toll = s.toll ∧ (quietReadRequest tag fields s).live = s.live
      ∧ (quietReadRequest tag fields s).draft = s.draft ∧ (quietReadRequest tag fields s).stamps = s.stamps
      ∧ (quietReadRequest tag fields s).hold = s.hold ∧ (quietReadRequest tag fields s).quiet = s.quiet
      ∧ (quietReadRequest tag fields s).cues = s.cues ∧ (quietReadRequest tag fields s).supply = s.supply
      ∧ (quietReadRequest tag fields s).store = s.store ∧ (quietReadRequest tag fields s).image = s.image := by
  unfold quietReadRequest
  repeat' split
  all_goals simp

/-- It can change no field but serial. -/
@[simp] theorem cueReadRequest_frame (tag : Text) (fields : List Text) (s : State) :
    (cueReadRequest tag fields s).pending = s.pending ∧ (cueReadRequest tag fields s).choices = s.choices
      ∧ (cueReadRequest tag fields s).held = s.held ∧ (cueReadRequest tag fields s).pins = s.pins
      ∧ (cueReadRequest tag fields s).cause = s.cause ∧ (cueReadRequest tag fields s).bellCount = s.bellCount
      ∧ (cueReadRequest tag fields s).coilBudget = s.coilBudget
      ∧ (cueReadRequest tag fields s).lineRate = s.lineRate ∧ (cueReadRequest tag fields s).time = s.time
      ∧ (cueReadRequest tag fields s).bells = s.bells ∧ (cueReadRequest tag fields s).queue = s.queue
      ∧ (cueReadRequest tag fields s).waiting = s.waiting ∧ (cueReadRequest tag fields s).coils = s.coils
      ∧ (cueReadRequest tag fields s).melodies = s.melodies ∧ (cueReadRequest tag fields s).pool = s.pool
      ∧ (cueReadRequest tag fields s).playQueue = s.playQueue ∧ (cueReadRequest tag fields s).lastId = s.lastId
      ∧ (cueReadRequest tag fields s).tune = s.tune ∧ (cueReadRequest tag fields s).toll = s.toll
      ∧ (cueReadRequest tag fields s).live = s.live ∧ (cueReadRequest tag fields s).draft = s.draft
      ∧ (cueReadRequest tag fields s).stamps = s.stamps ∧ (cueReadRequest tag fields s).hold = s.hold
      ∧ (cueReadRequest tag fields s).quiet = s.quiet ∧ (cueReadRequest tag fields s).cues = s.cues
      ∧ (cueReadRequest tag fields s).supply = s.supply ∧ (cueReadRequest tag fields s).store = s.store
      ∧ (cueReadRequest tag fields s).image = s.image := by
  unfold cueReadRequest
  repeat' split
  all_goals simp

/-- It can change no field but queue, serial. -/
@[simp] theorem liveRequest_frame (o : Origin) (tag : Text) (fields : List Text) (s : State) :
    (liveRequest o tag fields s).pending = s.pending ∧ (liveRequest o tag fields s).choices = s.choices
      ∧ (liveRequest o tag fields s).held = s.held ∧ (liveRequest o tag fields s).pins = s.pins
      ∧ (liveRequest o tag fields s).cause = s.cause ∧ (liveRequest o tag fields s).bellCount = s.bellCount
      ∧ (liveRequest o tag fields s).coilBudget = s.coilBudget
      ∧ (liveRequest o tag fields s).lineRate = s.lineRate ∧ (liveRequest o tag fields s).time = s.time
      ∧ (liveRequest o tag fields s).bells = s.bells ∧ (liveRequest o tag fields s).waiting = s.waiting
      ∧ (liveRequest o tag fields s).coils = s.coils ∧ (liveRequest o tag fields s).melodies = s.melodies
      ∧ (liveRequest o tag fields s).pool = s.pool ∧ (liveRequest o tag fields s).playQueue = s.playQueue
      ∧ (liveRequest o tag fields s).lastId = s.lastId ∧ (liveRequest o tag fields s).tune = s.tune
      ∧ (liveRequest o tag fields s).toll = s.toll ∧ (liveRequest o tag fields s).live = s.live
      ∧ (liveRequest o tag fields s).draft = s.draft ∧ (liveRequest o tag fields s).stamps = s.stamps
      ∧ (liveRequest o tag fields s).hold = s.hold ∧ (liveRequest o tag fields s).quiet = s.quiet
      ∧ (liveRequest o tag fields s).cues = s.cues ∧ (liveRequest o tag fields s).supply = s.supply
      ∧ (liveRequest o tag fields s).store = s.store ∧ (liveRequest o tag fields s).image = s.image := by
  unfold liveRequest
  repeat' split
  all_goals simp

/-- It can change no field but queue, serial. -/
@[simp] theorem strikeRequest_frame (tag : Text) (fields : List Text) (s : State) :
    (strikeRequest tag fields s).pending = s.pending ∧ (strikeRequest tag fields s).choices = s.choices
      ∧ (strikeRequest tag fields s).held = s.held ∧ (strikeRequest tag fields s).pins = s.pins
      ∧ (strikeRequest tag fields s).cause = s.cause ∧ (strikeRequest tag fields s).bellCount = s.bellCount
      ∧ (strikeRequest tag fields s).coilBudget = s.coilBudget
      ∧ (strikeRequest tag fields s).lineRate = s.lineRate ∧ (strikeRequest tag fields s).time = s.time
      ∧ (strikeRequest tag fields s).bells = s.bells ∧ (strikeRequest tag fields s).waiting = s.waiting
      ∧ (strikeRequest tag fields s).coils = s.coils ∧ (strikeRequest tag fields s).melodies = s.melodies
      ∧ (strikeRequest tag fields s).pool = s.pool ∧ (strikeRequest tag fields s).playQueue = s.playQueue
      ∧ (strikeRequest tag fields s).lastId = s.lastId ∧ (strikeRequest tag fields s).tune = s.tune
      ∧ (strikeRequest tag fields s).toll = s.toll ∧ (strikeRequest tag fields s).live = s.live
      ∧ (strikeRequest tag fields s).draft = s.draft ∧ (strikeRequest tag fields s).stamps = s.stamps
      ∧ (strikeRequest tag fields s).hold = s.hold ∧ (strikeRequest tag fields s).quiet = s.quiet
      ∧ (strikeRequest tag fields s).cues = s.cues ∧ (strikeRequest tag fields s).supply = s.supply
      ∧ (strikeRequest tag fields s).store = s.store ∧ (strikeRequest tag fields s).image = s.image := by
  unfold strikeRequest
  simp

/-- It can change no field but queue, serial. -/
@[simp] theorem testRequest_frame (tag : Text) (fields : List Text) (s : State) :
    (testRequest tag fields s).pending = s.pending ∧ (testRequest tag fields s).choices = s.choices
      ∧ (testRequest tag fields s).held = s.held ∧ (testRequest tag fields s).pins = s.pins
      ∧ (testRequest tag fields s).cause = s.cause ∧ (testRequest tag fields s).bellCount = s.bellCount
      ∧ (testRequest tag fields s).coilBudget = s.coilBudget ∧ (testRequest tag fields s).lineRate = s.lineRate
      ∧ (testRequest tag fields s).time = s.time ∧ (testRequest tag fields s).bells = s.bells
      ∧ (testRequest tag fields s).waiting = s.waiting ∧ (testRequest tag fields s).coils = s.coils
      ∧ (testRequest tag fields s).melodies = s.melodies ∧ (testRequest tag fields s).pool = s.pool
      ∧ (testRequest tag fields s).playQueue = s.playQueue ∧ (testRequest tag fields s).lastId = s.lastId
      ∧ (testRequest tag fields s).tune = s.tune ∧ (testRequest tag fields s).toll = s.toll
      ∧ (testRequest tag fields s).live = s.live ∧ (testRequest tag fields s).draft = s.draft
      ∧ (testRequest tag fields s).stamps = s.stamps ∧ (testRequest tag fields s).hold = s.hold
      ∧ (testRequest tag fields s).quiet = s.quiet ∧ (testRequest tag fields s).cues = s.cues
      ∧ (testRequest tag fields s).supply = s.supply ∧ (testRequest tag fields s).store = s.store
      ∧ (testRequest tag fields s).image = s.image := by
  unfold testRequest
  simp

/-- Appending records changes no field but melodies and pool. -/
theorem appendAll_frame (m : Nat) (rs : List ScoreRecord) (s t : State) (h : State.appendAll m s rs = some t) :
    t = { s with melodies := t.melodies, pool := t.pool } := by
  induction rs generalizing s with
  | nil =>
    simp only [State.appendAll, Option.some.injEq] at h
    rw [h]
  | cons r rest ih =>
    simp only [State.appendAll, Option.bind_eq_some_iff] at h
    obtain ⟨u, hu, ht⟩ := h
    have first : u = { s with melodies := u.melodies, pool := u.pool } := by
      unfold State.appendRecord at hu
      split at hu
      · simp only [State.allocate] at hu
        split at hu
        · cases hu
        · simp only [Option.map_map, Option.map_eq_some_iff, Function.comp_apply] at hu
          obtain ⟨k, -, rfl⟩ := hu
          rfl
      · simp only [Option.some.injEq] at hu
        rw [← hu]
        rfl
    rw [ih u ht, first]

/-- It can change no field but melodies, pool, serial. -/
@[simp] theorem melOpenRequest_frame (tag : Text) (m : Text) (args : List Text) (s : State) :
    (melOpenRequest tag m args s).pending = s.pending ∧ (melOpenRequest tag m args s).choices = s.choices
      ∧ (melOpenRequest tag m args s).held = s.held ∧ (melOpenRequest tag m args s).pins = s.pins
      ∧ (melOpenRequest tag m args s).cause = s.cause ∧ (melOpenRequest tag m args s).bellCount = s.bellCount
      ∧ (melOpenRequest tag m args s).coilBudget = s.coilBudget
      ∧ (melOpenRequest tag m args s).lineRate = s.lineRate ∧ (melOpenRequest tag m args s).time = s.time
      ∧ (melOpenRequest tag m args s).bells = s.bells ∧ (melOpenRequest tag m args s).queue = s.queue
      ∧ (melOpenRequest tag m args s).waiting = s.waiting ∧ (melOpenRequest tag m args s).coils = s.coils
      ∧ (melOpenRequest tag m args s).playQueue = s.playQueue ∧ (melOpenRequest tag m args s).lastId = s.lastId
      ∧ (melOpenRequest tag m args s).tune = s.tune ∧ (melOpenRequest tag m args s).toll = s.toll
      ∧ (melOpenRequest tag m args s).live = s.live ∧ (melOpenRequest tag m args s).draft = s.draft
      ∧ (melOpenRequest tag m args s).stamps = s.stamps ∧ (melOpenRequest tag m args s).hold = s.hold
      ∧ (melOpenRequest tag m args s).quiet = s.quiet ∧ (melOpenRequest tag m args s).cues = s.cues
      ∧ (melOpenRequest tag m args s).supply = s.supply ∧ (melOpenRequest tag m args s).store = s.store
      ∧ (melOpenRequest tag m args s).image = s.image := by
  unfold melOpenRequest
  repeat' split
  all_goals simp

/-- It can change no field but melodies, serial. -/
@[simp] theorem melCloseRequest_frame (tag : Text) (m : Text) (more : List Text) (s : State) :
    (melCloseRequest tag m more s).pending = s.pending ∧ (melCloseRequest tag m more s).choices = s.choices
      ∧ (melCloseRequest tag m more s).held = s.held ∧ (melCloseRequest tag m more s).pins = s.pins
      ∧ (melCloseRequest tag m more s).cause = s.cause ∧ (melCloseRequest tag m more s).bellCount = s.bellCount
      ∧ (melCloseRequest tag m more s).coilBudget = s.coilBudget
      ∧ (melCloseRequest tag m more s).lineRate = s.lineRate ∧ (melCloseRequest tag m more s).time = s.time
      ∧ (melCloseRequest tag m more s).bells = s.bells ∧ (melCloseRequest tag m more s).queue = s.queue
      ∧ (melCloseRequest tag m more s).waiting = s.waiting ∧ (melCloseRequest tag m more s).coils = s.coils
      ∧ (melCloseRequest tag m more s).pool = s.pool ∧ (melCloseRequest tag m more s).playQueue = s.playQueue
      ∧ (melCloseRequest tag m more s).lastId = s.lastId ∧ (melCloseRequest tag m more s).tune = s.tune
      ∧ (melCloseRequest tag m more s).toll = s.toll ∧ (melCloseRequest tag m more s).live = s.live
      ∧ (melCloseRequest tag m more s).draft = s.draft ∧ (melCloseRequest tag m more s).stamps = s.stamps
      ∧ (melCloseRequest tag m more s).hold = s.hold ∧ (melCloseRequest tag m more s).quiet = s.quiet
      ∧ (melCloseRequest tag m more s).cues = s.cues ∧ (melCloseRequest tag m more s).supply = s.supply
      ∧ (melCloseRequest tag m more s).store = s.store ∧ (melCloseRequest tag m more s).image = s.image := by
  unfold melCloseRequest
  split
  · simp
  · dsimp only
    repeat' split
    all_goals simp

/-- It can change no field but melodies, pool, serial. -/
@[simp] theorem melDeleteRequest_frame (tag : Text) (m : Text) (more : List Text) (s : State) :
    (melDeleteRequest tag m more s).pending = s.pending ∧ (melDeleteRequest tag m more s).choices = s.choices
      ∧ (melDeleteRequest tag m more s).held = s.held ∧ (melDeleteRequest tag m more s).pins = s.pins
      ∧ (melDeleteRequest tag m more s).cause = s.cause
      ∧ (melDeleteRequest tag m more s).bellCount = s.bellCount
      ∧ (melDeleteRequest tag m more s).coilBudget = s.coilBudget
      ∧ (melDeleteRequest tag m more s).lineRate = s.lineRate ∧ (melDeleteRequest tag m more s).time = s.time
      ∧ (melDeleteRequest tag m more s).bells = s.bells ∧ (melDeleteRequest tag m more s).queue = s.queue
      ∧ (melDeleteRequest tag m more s).waiting = s.waiting ∧ (melDeleteRequest tag m more s).coils = s.coils
      ∧ (melDeleteRequest tag m more s).playQueue = s.playQueue
      ∧ (melDeleteRequest tag m more s).lastId = s.lastId ∧ (melDeleteRequest tag m more s).tune = s.tune
      ∧ (melDeleteRequest tag m more s).toll = s.toll ∧ (melDeleteRequest tag m more s).live = s.live
      ∧ (melDeleteRequest tag m more s).draft = s.draft ∧ (melDeleteRequest tag m more s).stamps = s.stamps
      ∧ (melDeleteRequest tag m more s).hold = s.hold ∧ (melDeleteRequest tag m more s).quiet = s.quiet
      ∧ (melDeleteRequest tag m more s).cues = s.cues ∧ (melDeleteRequest tag m more s).supply = s.supply
      ∧ (melDeleteRequest tag m more s).store = s.store ∧ (melDeleteRequest tag m more s).image = s.image := by
  unfold melDeleteRequest
  repeat' split
  all_goals simp

/-- It can change no field but melodies, pool, serial. -/
@[simp] theorem melAddRequest_frame (tag : Text) (m : Text) (args : List Text) (s : State) :
    (melAddRequest tag m args s).pending = s.pending ∧ (melAddRequest tag m args s).choices = s.choices
      ∧ (melAddRequest tag m args s).held = s.held ∧ (melAddRequest tag m args s).pins = s.pins
      ∧ (melAddRequest tag m args s).cause = s.cause ∧ (melAddRequest tag m args s).bellCount = s.bellCount
      ∧ (melAddRequest tag m args s).coilBudget = s.coilBudget
      ∧ (melAddRequest tag m args s).lineRate = s.lineRate ∧ (melAddRequest tag m args s).time = s.time
      ∧ (melAddRequest tag m args s).bells = s.bells ∧ (melAddRequest tag m args s).queue = s.queue
      ∧ (melAddRequest tag m args s).waiting = s.waiting ∧ (melAddRequest tag m args s).coils = s.coils
      ∧ (melAddRequest tag m args s).playQueue = s.playQueue ∧ (melAddRequest tag m args s).lastId = s.lastId
      ∧ (melAddRequest tag m args s).tune = s.tune ∧ (melAddRequest tag m args s).toll = s.toll
      ∧ (melAddRequest tag m args s).live = s.live ∧ (melAddRequest tag m args s).draft = s.draft
      ∧ (melAddRequest tag m args s).stamps = s.stamps ∧ (melAddRequest tag m args s).hold = s.hold
      ∧ (melAddRequest tag m args s).quiet = s.quiet ∧ (melAddRequest tag m args s).cues = s.cues
      ∧ (melAddRequest tag m args s).supply = s.supply ∧ (melAddRequest tag m args s).store = s.store
      ∧ (melAddRequest tag m args s).image = s.image := by
  unfold melAddRequest
  split
  · simp
  · split
    · simp
    · split
      · simp
      · split
        · simp
        · rename_i h
          rw [appendAll_frame _ _ _ _ h]
          simp

/-- It can change no field but playQueue, lastId, serial. -/
@[simp] theorem playRequest_frame (tag : Text) (fields : List Text) (s : State) :
    (playRequest tag fields s).pending = s.pending ∧ (playRequest tag fields s).choices = s.choices
      ∧ (playRequest tag fields s).held = s.held ∧ (playRequest tag fields s).pins = s.pins
      ∧ (playRequest tag fields s).cause = s.cause ∧ (playRequest tag fields s).bellCount = s.bellCount
      ∧ (playRequest tag fields s).coilBudget = s.coilBudget ∧ (playRequest tag fields s).lineRate = s.lineRate
      ∧ (playRequest tag fields s).time = s.time ∧ (playRequest tag fields s).bells = s.bells
      ∧ (playRequest tag fields s).queue = s.queue ∧ (playRequest tag fields s).waiting = s.waiting
      ∧ (playRequest tag fields s).coils = s.coils ∧ (playRequest tag fields s).melodies = s.melodies
      ∧ (playRequest tag fields s).pool = s.pool ∧ (playRequest tag fields s).tune = s.tune
      ∧ (playRequest tag fields s).toll = s.toll ∧ (playRequest tag fields s).live = s.live
      ∧ (playRequest tag fields s).draft = s.draft ∧ (playRequest tag fields s).stamps = s.stamps
      ∧ (playRequest tag fields s).hold = s.hold ∧ (playRequest tag fields s).quiet = s.quiet
      ∧ (playRequest tag fields s).cues = s.cues ∧ (playRequest tag fields s).supply = s.supply
      ∧ (playRequest tag fields s).store = s.store ∧ (playRequest tag fields s).image = s.image := by
  unfold playRequest
  repeat' split
  all_goals simp

/-- It can change no field but playQueue, lastId, serial. -/
@[simp] theorem tollRequest_frame (tag : Text) (fields : List Text) (s : State) :
    (tollRequest tag fields s).pending = s.pending ∧ (tollRequest tag fields s).choices = s.choices
      ∧ (tollRequest tag fields s).held = s.held ∧ (tollRequest tag fields s).pins = s.pins
      ∧ (tollRequest tag fields s).cause = s.cause ∧ (tollRequest tag fields s).bellCount = s.bellCount
      ∧ (tollRequest tag fields s).coilBudget = s.coilBudget ∧ (tollRequest tag fields s).lineRate = s.lineRate
      ∧ (tollRequest tag fields s).time = s.time ∧ (tollRequest tag fields s).bells = s.bells
      ∧ (tollRequest tag fields s).queue = s.queue ∧ (tollRequest tag fields s).waiting = s.waiting
      ∧ (tollRequest tag fields s).coils = s.coils ∧ (tollRequest tag fields s).melodies = s.melodies
      ∧ (tollRequest tag fields s).pool = s.pool ∧ (tollRequest tag fields s).tune = s.tune
      ∧ (tollRequest tag fields s).toll = s.toll ∧ (tollRequest tag fields s).live = s.live
      ∧ (tollRequest tag fields s).draft = s.draft ∧ (tollRequest tag fields s).stamps = s.stamps
      ∧ (tollRequest tag fields s).hold = s.hold ∧ (tollRequest tag fields s).quiet = s.quiet
      ∧ (tollRequest tag fields s).cues = s.cues ∧ (tollRequest tag fields s).supply = s.supply
      ∧ (tollRequest tag fields s).store = s.store ∧ (tollRequest tag fields s).image = s.image := by
  unfold tollRequest
  repeat' split
  all_goals simp

/-- It can change no field but choices, bells, queue, waiting, melodies, playQueue, lastId, tune, toll, cues, serial. -/
@[simp] theorem cancelRequest_frame (tag : Text) (fields : List Text) (s : State) :
    (cancelRequest tag fields s).pending = s.pending ∧ (cancelRequest tag fields s).held = s.held
      ∧ (cancelRequest tag fields s).pins = s.pins ∧ (cancelRequest tag fields s).cause = s.cause
      ∧ (cancelRequest tag fields s).bellCount = s.bellCount
      ∧ (cancelRequest tag fields s).coilBudget = s.coilBudget
      ∧ (cancelRequest tag fields s).lineRate = s.lineRate ∧ (cancelRequest tag fields s).time = s.time
      ∧ (cancelRequest tag fields s).coils = s.coils ∧ (cancelRequest tag fields s).pool = s.pool
      ∧ (cancelRequest tag fields s).live = s.live ∧ (cancelRequest tag fields s).draft = s.draft
      ∧ (cancelRequest tag fields s).stamps = s.stamps ∧ (cancelRequest tag fields s).hold = s.hold
      ∧ (cancelRequest tag fields s).quiet = s.quiet ∧ (cancelRequest tag fields s).supply = s.supply
      ∧ (cancelRequest tag fields s).store = s.store ∧ (cancelRequest tag fields s).image = s.image := by
  unfold cancelRequest
  repeat' split
  all_goals simp

/-- It can change no field but tune, serial. -/
@[simp] theorem adjustRequest_frame (tag : Text) (fields : List Text) (s : State) :
    (adjustRequest tag fields s).pending = s.pending ∧ (adjustRequest tag fields s).choices = s.choices
      ∧ (adjustRequest tag fields s).held = s.held ∧ (adjustRequest tag fields s).pins = s.pins
      ∧ (adjustRequest tag fields s).cause = s.cause ∧ (adjustRequest tag fields s).bellCount = s.bellCount
      ∧ (adjustRequest tag fields s).coilBudget = s.coilBudget
      ∧ (adjustRequest tag fields s).lineRate = s.lineRate ∧ (adjustRequest tag fields s).time = s.time
      ∧ (adjustRequest tag fields s).bells = s.bells ∧ (adjustRequest tag fields s).queue = s.queue
      ∧ (adjustRequest tag fields s).waiting = s.waiting ∧ (adjustRequest tag fields s).coils = s.coils
      ∧ (adjustRequest tag fields s).melodies = s.melodies ∧ (adjustRequest tag fields s).pool = s.pool
      ∧ (adjustRequest tag fields s).playQueue = s.playQueue ∧ (adjustRequest tag fields s).lastId = s.lastId
      ∧ (adjustRequest tag fields s).toll = s.toll ∧ (adjustRequest tag fields s).live = s.live
      ∧ (adjustRequest tag fields s).draft = s.draft ∧ (adjustRequest tag fields s).stamps = s.stamps
      ∧ (adjustRequest tag fields s).hold = s.hold ∧ (adjustRequest tag fields s).quiet = s.quiet
      ∧ (adjustRequest tag fields s).cues = s.cues ∧ (adjustRequest tag fields s).supply = s.supply
      ∧ (adjustRequest tag fields s).store = s.store ∧ (adjustRequest tag fields s).image = s.image := by
  unfold adjustRequest
  repeat' split
  all_goals simp

/-- It can change no field but choices, bells, queue, waiting, melodies, playQueue, lastId, tune, toll, cues, serial. -/
@[simp] theorem stopNowRequest_frame (tag : Text) (lane : Text) (more : List Text) (s : State) :
    (stopNowRequest tag lane more s).pending = s.pending ∧ (stopNowRequest tag lane more s).held = s.held
      ∧ (stopNowRequest tag lane more s).pins = s.pins ∧ (stopNowRequest tag lane more s).cause = s.cause
      ∧ (stopNowRequest tag lane more s).bellCount = s.bellCount
      ∧ (stopNowRequest tag lane more s).coilBudget = s.coilBudget
      ∧ (stopNowRequest tag lane more s).lineRate = s.lineRate ∧ (stopNowRequest tag lane more s).time = s.time
      ∧ (stopNowRequest tag lane more s).coils = s.coils ∧ (stopNowRequest tag lane more s).pool = s.pool
      ∧ (stopNowRequest tag lane more s).live = s.live ∧ (stopNowRequest tag lane more s).draft = s.draft
      ∧ (stopNowRequest tag lane more s).stamps = s.stamps ∧ (stopNowRequest tag lane more s).hold = s.hold
      ∧ (stopNowRequest tag lane more s).quiet = s.quiet ∧ (stopNowRequest tag lane more s).supply = s.supply
      ∧ (stopNowRequest tag lane more s).store = s.store ∧ (stopNowRequest tag lane more s).image = s.image := by
  unfold stopNowRequest
  repeat' split
  all_goals simp

/-- It can change no field but choices, bells, queue, waiting, melodies, playQueue, lastId, tune, toll, cues, serial. -/
@[simp] theorem stopBarRequest_frame (tag : Text) (lane : Text) (more : List Text) (s : State) :
    (stopBarRequest tag lane more s).pending = s.pending ∧ (stopBarRequest tag lane more s).held = s.held
      ∧ (stopBarRequest tag lane more s).pins = s.pins ∧ (stopBarRequest tag lane more s).cause = s.cause
      ∧ (stopBarRequest tag lane more s).bellCount = s.bellCount
      ∧ (stopBarRequest tag lane more s).coilBudget = s.coilBudget
      ∧ (stopBarRequest tag lane more s).lineRate = s.lineRate ∧ (stopBarRequest tag lane more s).time = s.time
      ∧ (stopBarRequest tag lane more s).coils = s.coils ∧ (stopBarRequest tag lane more s).pool = s.pool
      ∧ (stopBarRequest tag lane more s).live = s.live ∧ (stopBarRequest tag lane more s).draft = s.draft
      ∧ (stopBarRequest tag lane more s).stamps = s.stamps ∧ (stopBarRequest tag lane more s).hold = s.hold
      ∧ (stopBarRequest tag lane more s).quiet = s.quiet ∧ (stopBarRequest tag lane more s).supply = s.supply
      ∧ (stopBarRequest tag lane more s).store = s.store ∧ (stopBarRequest tag lane more s).image = s.image := by
  unfold stopBarRequest
  repeat' split
  all_goals simp

/-- It can change no field but draft, serial. -/
@[simp] theorem entryRequest_frame (tag : Text) (fields : List Text) (s : State) :
    (entryRequest tag fields s).pending = s.pending ∧ (entryRequest tag fields s).choices = s.choices
      ∧ (entryRequest tag fields s).held = s.held ∧ (entryRequest tag fields s).pins = s.pins
      ∧ (entryRequest tag fields s).cause = s.cause ∧ (entryRequest tag fields s).bellCount = s.bellCount
      ∧ (entryRequest tag fields s).coilBudget = s.coilBudget
      ∧ (entryRequest tag fields s).lineRate = s.lineRate ∧ (entryRequest tag fields s).time = s.time
      ∧ (entryRequest tag fields s).bells = s.bells ∧ (entryRequest tag fields s).queue = s.queue
      ∧ (entryRequest tag fields s).waiting = s.waiting ∧ (entryRequest tag fields s).coils = s.coils
      ∧ (entryRequest tag fields s).melodies = s.melodies ∧ (entryRequest tag fields s).pool = s.pool
      ∧ (entryRequest tag fields s).playQueue = s.playQueue ∧ (entryRequest tag fields s).lastId = s.lastId
      ∧ (entryRequest tag fields s).tune = s.tune ∧ (entryRequest tag fields s).toll = s.toll
      ∧ (entryRequest tag fields s).live = s.live ∧ (entryRequest tag fields s).stamps = s.stamps
      ∧ (entryRequest tag fields s).hold = s.hold ∧ (entryRequest tag fields s).quiet = s.quiet
      ∧ (entryRequest tag fields s).cues = s.cues ∧ (entryRequest tag fields s).supply = s.supply
      ∧ (entryRequest tag fields s).store = s.store ∧ (entryRequest tag fields s).image = s.image := by
  unfold entryRequest
  repeat' split
  all_goals simp

/-- It can change no field but draft, serial. -/
@[simp] theorem entryClearRequest_frame (tag : Text) (number : Text) (more : List Text) (s : State) :
    (entryClearRequest tag number more s).pending = s.pending
      ∧ (entryClearRequest tag number more s).choices = s.choices
      ∧ (entryClearRequest tag number more s).held = s.held
      ∧ (entryClearRequest tag number more s).pins = s.pins
      ∧ (entryClearRequest tag number more s).cause = s.cause
      ∧ (entryClearRequest tag number more s).bellCount = s.bellCount
      ∧ (entryClearRequest tag number more s).coilBudget = s.coilBudget
      ∧ (entryClearRequest tag number more s).lineRate = s.lineRate
      ∧ (entryClearRequest tag number more s).time = s.time
      ∧ (entryClearRequest tag number more s).bells = s.bells
      ∧ (entryClearRequest tag number more s).queue = s.queue
      ∧ (entryClearRequest tag number more s).waiting = s.waiting
      ∧ (entryClearRequest tag number more s).coils = s.coils
      ∧ (entryClearRequest tag number more s).melodies = s.melodies
      ∧ (entryClearRequest tag number more s).pool = s.pool
      ∧ (entryClearRequest tag number more s).playQueue = s.playQueue
      ∧ (entryClearRequest tag number more s).lastId = s.lastId
      ∧ (entryClearRequest tag number more s).tune = s.tune
      ∧ (entryClearRequest tag number more s).toll = s.toll
      ∧ (entryClearRequest tag number more s).live = s.live
      ∧ (entryClearRequest tag number more s).stamps = s.stamps
      ∧ (entryClearRequest tag number more s).hold = s.hold
      ∧ (entryClearRequest tag number more s).quiet = s.quiet
      ∧ (entryClearRequest tag number more s).cues = s.cues
      ∧ (entryClearRequest tag number more s).supply = s.supply
      ∧ (entryClearRequest tag number more s).store = s.store
      ∧ (entryClearRequest tag number more s).image = s.image := by
  unfold entryClearRequest
  repeat' split
  all_goals simp

/-- It can change no field but hold, serial. -/
@[simp] theorem holdRequest_frame (on : Bool) (tag : Text) (more : List Text) (s : State) :
    (holdRequest on tag more s).pending = s.pending ∧ (holdRequest on tag more s).choices = s.choices
      ∧ (holdRequest on tag more s).held = s.held ∧ (holdRequest on tag more s).pins = s.pins
      ∧ (holdRequest on tag more s).cause = s.cause ∧ (holdRequest on tag more s).bellCount = s.bellCount
      ∧ (holdRequest on tag more s).coilBudget = s.coilBudget
      ∧ (holdRequest on tag more s).lineRate = s.lineRate ∧ (holdRequest on tag more s).time = s.time
      ∧ (holdRequest on tag more s).bells = s.bells ∧ (holdRequest on tag more s).queue = s.queue
      ∧ (holdRequest on tag more s).waiting = s.waiting ∧ (holdRequest on tag more s).coils = s.coils
      ∧ (holdRequest on tag more s).melodies = s.melodies ∧ (holdRequest on tag more s).pool = s.pool
      ∧ (holdRequest on tag more s).playQueue = s.playQueue ∧ (holdRequest on tag more s).lastId = s.lastId
      ∧ (holdRequest on tag more s).tune = s.tune ∧ (holdRequest on tag more s).toll = s.toll
      ∧ (holdRequest on tag more s).live = s.live ∧ (holdRequest on tag more s).draft = s.draft
      ∧ (holdRequest on tag more s).stamps = s.stamps ∧ (holdRequest on tag more s).quiet = s.quiet
      ∧ (holdRequest on tag more s).cues = s.cues ∧ (holdRequest on tag more s).supply = s.supply
      ∧ (holdRequest on tag more s).store = s.store ∧ (holdRequest on tag more s).image = s.image := by
  unfold holdRequest
  repeat' split
  all_goals simp

/-- It can change no field but quiet, serial. -/
@[simp] theorem quietRequest_frame (tag : Text) (fields : List Text) (s : State) :
    (quietRequest tag fields s).pending = s.pending ∧ (quietRequest tag fields s).choices = s.choices
      ∧ (quietRequest tag fields s).held = s.held ∧ (quietRequest tag fields s).pins = s.pins
      ∧ (quietRequest tag fields s).cause = s.cause ∧ (quietRequest tag fields s).bellCount = s.bellCount
      ∧ (quietRequest tag fields s).coilBudget = s.coilBudget
      ∧ (quietRequest tag fields s).lineRate = s.lineRate ∧ (quietRequest tag fields s).time = s.time
      ∧ (quietRequest tag fields s).bells = s.bells ∧ (quietRequest tag fields s).queue = s.queue
      ∧ (quietRequest tag fields s).waiting = s.waiting ∧ (quietRequest tag fields s).coils = s.coils
      ∧ (quietRequest tag fields s).melodies = s.melodies ∧ (quietRequest tag fields s).pool = s.pool
      ∧ (quietRequest tag fields s).playQueue = s.playQueue ∧ (quietRequest tag fields s).lastId = s.lastId
      ∧ (quietRequest tag fields s).tune = s.tune ∧ (quietRequest tag fields s).toll = s.toll
      ∧ (quietRequest tag fields s).live = s.live ∧ (quietRequest tag fields s).draft = s.draft
      ∧ (quietRequest tag fields s).stamps = s.stamps ∧ (quietRequest tag fields s).hold = s.hold
      ∧ (quietRequest tag fields s).cues = s.cues ∧ (quietRequest tag fields s).supply = s.supply
      ∧ (quietRequest tag fields s).store = s.store ∧ (quietRequest tag fields s).image = s.image := by
  unfold quietRequest
  repeat' split
  all_goals simp

/-- It can change no field but quiet, serial. -/
@[simp] theorem quietClearRequest_frame (tag : Text) (number : Text) (more : List Text) (s : State) :
    (quietClearRequest tag number more s).pending = s.pending
      ∧ (quietClearRequest tag number more s).choices = s.choices
      ∧ (quietClearRequest tag number more s).held = s.held
      ∧ (quietClearRequest tag number more s).pins = s.pins
      ∧ (quietClearRequest tag number more s).cause = s.cause
      ∧ (quietClearRequest tag number more s).bellCount = s.bellCount
      ∧ (quietClearRequest tag number more s).coilBudget = s.coilBudget
      ∧ (quietClearRequest tag number more s).lineRate = s.lineRate
      ∧ (quietClearRequest tag number more s).time = s.time
      ∧ (quietClearRequest tag number more s).bells = s.bells
      ∧ (quietClearRequest tag number more s).queue = s.queue
      ∧ (quietClearRequest tag number more s).waiting = s.waiting
      ∧ (quietClearRequest tag number more s).coils = s.coils
      ∧ (quietClearRequest tag number more s).melodies = s.melodies
      ∧ (quietClearRequest tag number more s).pool = s.pool
      ∧ (quietClearRequest tag number more s).playQueue = s.playQueue
      ∧ (quietClearRequest tag number more s).lastId = s.lastId
      ∧ (quietClearRequest tag number more s).tune = s.tune
      ∧ (quietClearRequest tag number more s).toll = s.toll
      ∧ (quietClearRequest tag number more s).live = s.live
      ∧ (quietClearRequest tag number more s).draft = s.draft
      ∧ (quietClearRequest tag number more s).stamps = s.stamps
      ∧ (quietClearRequest tag number more s).hold = s.hold
      ∧ (quietClearRequest tag number more s).cues = s.cues
      ∧ (quietClearRequest tag number more s).supply = s.supply
      ∧ (quietClearRequest tag number more s).store = s.store
      ∧ (quietClearRequest tag number more s).image = s.image := by
  unfold quietClearRequest
  repeat' split
  all_goals simp

/-- It can change no field but time, playQueue, lastId, live, stamps, serial. -/
@[simp] theorem timeRequest_frame (tag : Text) (fields : List Text) (s : State) :
    (timeRequest tag fields s).pending = s.pending ∧ (timeRequest tag fields s).choices = s.choices
      ∧ (timeRequest tag fields s).held = s.held ∧ (timeRequest tag fields s).pins = s.pins
      ∧ (timeRequest tag fields s).cause = s.cause ∧ (timeRequest tag fields s).bellCount = s.bellCount
      ∧ (timeRequest tag fields s).coilBudget = s.coilBudget ∧ (timeRequest tag fields s).lineRate = s.lineRate
      ∧ (timeRequest tag fields s).bells = s.bells ∧ (timeRequest tag fields s).queue = s.queue
      ∧ (timeRequest tag fields s).waiting = s.waiting ∧ (timeRequest tag fields s).coils = s.coils
      ∧ (timeRequest tag fields s).melodies = s.melodies ∧ (timeRequest tag fields s).pool = s.pool
      ∧ (timeRequest tag fields s).tune = s.tune ∧ (timeRequest tag fields s).toll = s.toll
      ∧ (timeRequest tag fields s).draft = s.draft ∧ (timeRequest tag fields s).hold = s.hold
      ∧ (timeRequest tag fields s).quiet = s.quiet ∧ (timeRequest tag fields s).cues = s.cues
      ∧ (timeRequest tag fields s).supply = s.supply ∧ (timeRequest tag fields s).store = s.store
      ∧ (timeRequest tag fields s).image = s.image := by
  unfold timeRequest
  repeat' split
  all_goals simp

/-- It can change no field but time, playQueue, lastId, live, stamps, serial. -/
@[simp] theorem syncFreeRequest_frame (tag : Text) (more : List Text) (s : State) :
    (syncFreeRequest tag more s).pending = s.pending ∧ (syncFreeRequest tag more s).choices = s.choices
      ∧ (syncFreeRequest tag more s).held = s.held ∧ (syncFreeRequest tag more s).pins = s.pins
      ∧ (syncFreeRequest tag more s).cause = s.cause ∧ (syncFreeRequest tag more s).bellCount = s.bellCount
      ∧ (syncFreeRequest tag more s).coilBudget = s.coilBudget
      ∧ (syncFreeRequest tag more s).lineRate = s.lineRate ∧ (syncFreeRequest tag more s).bells = s.bells
      ∧ (syncFreeRequest tag more s).queue = s.queue ∧ (syncFreeRequest tag more s).waiting = s.waiting
      ∧ (syncFreeRequest tag more s).coils = s.coils ∧ (syncFreeRequest tag more s).melodies = s.melodies
      ∧ (syncFreeRequest tag more s).pool = s.pool ∧ (syncFreeRequest tag more s).tune = s.tune
      ∧ (syncFreeRequest tag more s).toll = s.toll ∧ (syncFreeRequest tag more s).draft = s.draft
      ∧ (syncFreeRequest tag more s).hold = s.hold ∧ (syncFreeRequest tag more s).quiet = s.quiet
      ∧ (syncFreeRequest tag more s).cues = s.cues ∧ (syncFreeRequest tag more s).supply = s.supply
      ∧ (syncFreeRequest tag more s).store = s.store ∧ (syncFreeRequest tag more s).image = s.image := by
  unfold syncFreeRequest
  repeat' split
  all_goals simp

/-- It can change no field but time, serial. -/
@[simp] theorem syncPulseRequest_frame (tag : Text) (more : List Text) (s : State) :
    (syncPulseRequest tag more s).pending = s.pending ∧ (syncPulseRequest tag more s).choices = s.choices
      ∧ (syncPulseRequest tag more s).held = s.held ∧ (syncPulseRequest tag more s).pins = s.pins
      ∧ (syncPulseRequest tag more s).cause = s.cause ∧ (syncPulseRequest tag more s).bellCount = s.bellCount
      ∧ (syncPulseRequest tag more s).coilBudget = s.coilBudget
      ∧ (syncPulseRequest tag more s).lineRate = s.lineRate ∧ (syncPulseRequest tag more s).bells = s.bells
      ∧ (syncPulseRequest tag more s).queue = s.queue ∧ (syncPulseRequest tag more s).waiting = s.waiting
      ∧ (syncPulseRequest tag more s).coils = s.coils ∧ (syncPulseRequest tag more s).melodies = s.melodies
      ∧ (syncPulseRequest tag more s).pool = s.pool ∧ (syncPulseRequest tag more s).playQueue = s.playQueue
      ∧ (syncPulseRequest tag more s).lastId = s.lastId ∧ (syncPulseRequest tag more s).tune = s.tune
      ∧ (syncPulseRequest tag more s).toll = s.toll ∧ (syncPulseRequest tag more s).live = s.live
      ∧ (syncPulseRequest tag more s).draft = s.draft ∧ (syncPulseRequest tag more s).stamps = s.stamps
      ∧ (syncPulseRequest tag more s).hold = s.hold ∧ (syncPulseRequest tag more s).quiet = s.quiet
      ∧ (syncPulseRequest tag more s).cues = s.cues ∧ (syncPulseRequest tag more s).supply = s.supply
      ∧ (syncPulseRequest tag more s).store = s.store ∧ (syncPulseRequest tag more s).image = s.image := by
  unfold syncPulseRequest
  repeat' split
  all_goals simp

/-- It can change no field but cues, serial. -/
@[simp] theorem cueRequest_frame (tag : Text) (fields : List Text) (s : State) :
    (cueRequest tag fields s).pending = s.pending ∧ (cueRequest tag fields s).choices = s.choices
      ∧ (cueRequest tag fields s).held = s.held ∧ (cueRequest tag fields s).pins = s.pins
      ∧ (cueRequest tag fields s).cause = s.cause ∧ (cueRequest tag fields s).bellCount = s.bellCount
      ∧ (cueRequest tag fields s).coilBudget = s.coilBudget ∧ (cueRequest tag fields s).lineRate = s.lineRate
      ∧ (cueRequest tag fields s).time = s.time ∧ (cueRequest tag fields s).bells = s.bells
      ∧ (cueRequest tag fields s).queue = s.queue ∧ (cueRequest tag fields s).waiting = s.waiting
      ∧ (cueRequest tag fields s).coils = s.coils ∧ (cueRequest tag fields s).melodies = s.melodies
      ∧ (cueRequest tag fields s).pool = s.pool ∧ (cueRequest tag fields s).playQueue = s.playQueue
      ∧ (cueRequest tag fields s).lastId = s.lastId ∧ (cueRequest tag fields s).tune = s.tune
      ∧ (cueRequest tag fields s).toll = s.toll ∧ (cueRequest tag fields s).live = s.live
      ∧ (cueRequest tag fields s).draft = s.draft ∧ (cueRequest tag fields s).stamps = s.stamps
      ∧ (cueRequest tag fields s).hold = s.hold ∧ (cueRequest tag fields s).quiet = s.quiet
      ∧ (cueRequest tag fields s).supply = s.supply ∧ (cueRequest tag fields s).store = s.store
      ∧ (cueRequest tag fields s).image = s.image := by
  unfold cueRequest
  repeat' split
  all_goals simp

/-- It can change no field but choices, bells, queue, waiting, melodies, playQueue, lastId, tune, toll, cues, serial. -/
@[simp] theorem cueEnableRequest_frame (tag : Text) (c : Text) (more : List Text) (s : State) :
    (cueEnableRequest tag c more s).pending = s.pending ∧ (cueEnableRequest tag c more s).held = s.held
      ∧ (cueEnableRequest tag c more s).pins = s.pins ∧ (cueEnableRequest tag c more s).cause = s.cause
      ∧ (cueEnableRequest tag c more s).bellCount = s.bellCount
      ∧ (cueEnableRequest tag c more s).coilBudget = s.coilBudget
      ∧ (cueEnableRequest tag c more s).lineRate = s.lineRate ∧ (cueEnableRequest tag c more s).time = s.time
      ∧ (cueEnableRequest tag c more s).coils = s.coils ∧ (cueEnableRequest tag c more s).pool = s.pool
      ∧ (cueEnableRequest tag c more s).live = s.live ∧ (cueEnableRequest tag c more s).draft = s.draft
      ∧ (cueEnableRequest tag c more s).stamps = s.stamps ∧ (cueEnableRequest tag c more s).hold = s.hold
      ∧ (cueEnableRequest tag c more s).quiet = s.quiet ∧ (cueEnableRequest tag c more s).supply = s.supply
      ∧ (cueEnableRequest tag c more s).store = s.store ∧ (cueEnableRequest tag c more s).image = s.image := by
  unfold cueEnableRequest
  repeat' split
  all_goals simp

/-- It can change no field but cues, serial. -/
@[simp] theorem cueDisableRequest_frame (tag : Text) (c : Text) (more : List Text) (s : State) :
    (cueDisableRequest tag c more s).pending = s.pending ∧ (cueDisableRequest tag c more s).choices = s.choices
      ∧ (cueDisableRequest tag c more s).held = s.held ∧ (cueDisableRequest tag c more s).pins = s.pins
      ∧ (cueDisableRequest tag c more s).cause = s.cause
      ∧ (cueDisableRequest tag c more s).bellCount = s.bellCount
      ∧ (cueDisableRequest tag c more s).coilBudget = s.coilBudget
      ∧ (cueDisableRequest tag c more s).lineRate = s.lineRate ∧ (cueDisableRequest tag c more s).time = s.time
      ∧ (cueDisableRequest tag c more s).bells = s.bells ∧ (cueDisableRequest tag c more s).queue = s.queue
      ∧ (cueDisableRequest tag c more s).waiting = s.waiting ∧ (cueDisableRequest tag c more s).coils = s.coils
      ∧ (cueDisableRequest tag c more s).melodies = s.melodies ∧ (cueDisableRequest tag c more s).pool = s.pool
      ∧ (cueDisableRequest tag c more s).playQueue = s.playQueue
      ∧ (cueDisableRequest tag c more s).lastId = s.lastId ∧ (cueDisableRequest tag c more s).tune = s.tune
      ∧ (cueDisableRequest tag c more s).toll = s.toll ∧ (cueDisableRequest tag c more s).live = s.live
      ∧ (cueDisableRequest tag c more s).draft = s.draft ∧ (cueDisableRequest tag c more s).stamps = s.stamps
      ∧ (cueDisableRequest tag c more s).hold = s.hold ∧ (cueDisableRequest tag c more s).quiet = s.quiet
      ∧ (cueDisableRequest tag c more s).supply = s.supply ∧ (cueDisableRequest tag c more s).store = s.store
      ∧ (cueDisableRequest tag c more s).image = s.image := by
  unfold cueDisableRequest
  repeat' split
  all_goals simp

/-- It can change no field but cues, serial. -/
@[simp] theorem cueClearRequest_frame (tag : Text) (c : Text) (more : List Text) (s : State) :
    (cueClearRequest tag c more s).pending = s.pending ∧ (cueClearRequest tag c more s).choices = s.choices
      ∧ (cueClearRequest tag c more s).held = s.held ∧ (cueClearRequest tag c more s).pins = s.pins
      ∧ (cueClearRequest tag c more s).cause = s.cause ∧ (cueClearRequest tag c more s).bellCount = s.bellCount
      ∧ (cueClearRequest tag c more s).coilBudget = s.coilBudget
      ∧ (cueClearRequest tag c more s).lineRate = s.lineRate ∧ (cueClearRequest tag c more s).time = s.time
      ∧ (cueClearRequest tag c more s).bells = s.bells ∧ (cueClearRequest tag c more s).queue = s.queue
      ∧ (cueClearRequest tag c more s).waiting = s.waiting ∧ (cueClearRequest tag c more s).coils = s.coils
      ∧ (cueClearRequest tag c more s).melodies = s.melodies ∧ (cueClearRequest tag c more s).pool = s.pool
      ∧ (cueClearRequest tag c more s).playQueue = s.playQueue
      ∧ (cueClearRequest tag c more s).lastId = s.lastId ∧ (cueClearRequest tag c more s).tune = s.tune
      ∧ (cueClearRequest tag c more s).toll = s.toll ∧ (cueClearRequest tag c more s).live = s.live
      ∧ (cueClearRequest tag c more s).draft = s.draft ∧ (cueClearRequest tag c more s).stamps = s.stamps
      ∧ (cueClearRequest tag c more s).hold = s.hold ∧ (cueClearRequest tag c more s).quiet = s.quiet
      ∧ (cueClearRequest tag c more s).supply = s.supply ∧ (cueClearRequest tag c more s).store = s.store
      ∧ (cueClearRequest tag c more s).image = s.image := by
  unfold cueClearRequest
  repeat' split
  all_goals simp

/-- It can change no field but serial. -/
@[simp] theorem reportRequest_frame (tag : Text) (fields : List Text) (s : State) :
    (reportRequest tag fields s).pending = s.pending ∧ (reportRequest tag fields s).choices = s.choices
      ∧ (reportRequest tag fields s).held = s.held ∧ (reportRequest tag fields s).pins = s.pins
      ∧ (reportRequest tag fields s).cause = s.cause ∧ (reportRequest tag fields s).bellCount = s.bellCount
      ∧ (reportRequest tag fields s).coilBudget = s.coilBudget
      ∧ (reportRequest tag fields s).lineRate = s.lineRate ∧ (reportRequest tag fields s).time = s.time
      ∧ (reportRequest tag fields s).bells = s.bells ∧ (reportRequest tag fields s).queue = s.queue
      ∧ (reportRequest tag fields s).waiting = s.waiting ∧ (reportRequest tag fields s).coils = s.coils
      ∧ (reportRequest tag fields s).melodies = s.melodies ∧ (reportRequest tag fields s).pool = s.pool
      ∧ (reportRequest tag fields s).playQueue = s.playQueue ∧ (reportRequest tag fields s).lastId = s.lastId
      ∧ (reportRequest tag fields s).tune = s.tune ∧ (reportRequest tag fields s).toll = s.toll
      ∧ (reportRequest tag fields s).live = s.live ∧ (reportRequest tag fields s).draft = s.draft
      ∧ (reportRequest tag fields s).stamps = s.stamps ∧ (reportRequest tag fields s).hold = s.hold
      ∧ (reportRequest tag fields s).quiet = s.quiet ∧ (reportRequest tag fields s).cues = s.cues
      ∧ (reportRequest tag fields s).supply = s.supply ∧ (reportRequest tag fields s).store = s.store
      ∧ (reportRequest tag fields s).image = s.image := by
  unfold reportRequest
  repeat' split
  all_goals simp

/-- It can change no field but serial. -/
@[simp] theorem reportReadRequest_frame (tag : Text) (more : List Text) (s : State) :
    (reportReadRequest tag more s).pending = s.pending ∧ (reportReadRequest tag more s).choices = s.choices
      ∧ (reportReadRequest tag more s).held = s.held ∧ (reportReadRequest tag more s).pins = s.pins
      ∧ (reportReadRequest tag more s).cause = s.cause ∧ (reportReadRequest tag more s).bellCount = s.bellCount
      ∧ (reportReadRequest tag more s).coilBudget = s.coilBudget
      ∧ (reportReadRequest tag more s).lineRate = s.lineRate ∧ (reportReadRequest tag more s).time = s.time
      ∧ (reportReadRequest tag more s).bells = s.bells ∧ (reportReadRequest tag more s).queue = s.queue
      ∧ (reportReadRequest tag more s).waiting = s.waiting ∧ (reportReadRequest tag more s).coils = s.coils
      ∧ (reportReadRequest tag more s).melodies = s.melodies ∧ (reportReadRequest tag more s).pool = s.pool
      ∧ (reportReadRequest tag more s).playQueue = s.playQueue
      ∧ (reportReadRequest tag more s).lastId = s.lastId ∧ (reportReadRequest tag more s).tune = s.tune
      ∧ (reportReadRequest tag more s).toll = s.toll ∧ (reportReadRequest tag more s).live = s.live
      ∧ (reportReadRequest tag more s).draft = s.draft ∧ (reportReadRequest tag more s).stamps = s.stamps
      ∧ (reportReadRequest tag more s).hold = s.hold ∧ (reportReadRequest tag more s).quiet = s.quiet
      ∧ (reportReadRequest tag more s).cues = s.cues ∧ (reportReadRequest tag more s).supply = s.supply
      ∧ (reportReadRequest tag more s).store = s.store ∧ (reportReadRequest tag more s).image = s.image := by
  unfold reportReadRequest
  repeat' split
  all_goals simp

/-- It can change no field but serial. -/
@[simp] theorem identityRequest_frame (tag : Text) (more : List Text) (s : State) :
    (identityRequest tag more s).pending = s.pending ∧ (identityRequest tag more s).choices = s.choices
      ∧ (identityRequest tag more s).held = s.held ∧ (identityRequest tag more s).pins = s.pins
      ∧ (identityRequest tag more s).cause = s.cause ∧ (identityRequest tag more s).bellCount = s.bellCount
      ∧ (identityRequest tag more s).coilBudget = s.coilBudget
      ∧ (identityRequest tag more s).lineRate = s.lineRate ∧ (identityRequest tag more s).time = s.time
      ∧ (identityRequest tag more s).bells = s.bells ∧ (identityRequest tag more s).queue = s.queue
      ∧ (identityRequest tag more s).waiting = s.waiting ∧ (identityRequest tag more s).coils = s.coils
      ∧ (identityRequest tag more s).melodies = s.melodies ∧ (identityRequest tag more s).pool = s.pool
      ∧ (identityRequest tag more s).playQueue = s.playQueue ∧ (identityRequest tag more s).lastId = s.lastId
      ∧ (identityRequest tag more s).tune = s.tune ∧ (identityRequest tag more s).toll = s.toll
      ∧ (identityRequest tag more s).live = s.live ∧ (identityRequest tag more s).draft = s.draft
      ∧ (identityRequest tag more s).stamps = s.stamps ∧ (identityRequest tag more s).hold = s.hold
      ∧ (identityRequest tag more s).quiet = s.quiet ∧ (identityRequest tag more s).cues = s.cues
      ∧ (identityRequest tag more s).supply = s.supply ∧ (identityRequest tag more s).store = s.store
      ∧ (identityRequest tag more s).image = s.image := by
  unfold identityRequest
  repeat' split
  all_goals simp

/-- It can change no field but serial. -/
@[simp] theorem statusRequest_frame (tag : Text) (more : List Text) (s : State) :
    (statusRequest tag more s).pending = s.pending ∧ (statusRequest tag more s).choices = s.choices
      ∧ (statusRequest tag more s).held = s.held ∧ (statusRequest tag more s).pins = s.pins
      ∧ (statusRequest tag more s).cause = s.cause ∧ (statusRequest tag more s).bellCount = s.bellCount
      ∧ (statusRequest tag more s).coilBudget = s.coilBudget ∧ (statusRequest tag more s).lineRate = s.lineRate
      ∧ (statusRequest tag more s).time = s.time ∧ (statusRequest tag more s).bells = s.bells
      ∧ (statusRequest tag more s).queue = s.queue ∧ (statusRequest tag more s).waiting = s.waiting
      ∧ (statusRequest tag more s).coils = s.coils ∧ (statusRequest tag more s).melodies = s.melodies
      ∧ (statusRequest tag more s).pool = s.pool ∧ (statusRequest tag more s).playQueue = s.playQueue
      ∧ (statusRequest tag more s).lastId = s.lastId ∧ (statusRequest tag more s).tune = s.tune
      ∧ (statusRequest tag more s).toll = s.toll ∧ (statusRequest tag more s).live = s.live
      ∧ (statusRequest tag more s).draft = s.draft ∧ (statusRequest tag more s).stamps = s.stamps
      ∧ (statusRequest tag more s).hold = s.hold ∧ (statusRequest tag more s).quiet = s.quiet
      ∧ (statusRequest tag more s).cues = s.cues ∧ (statusRequest tag more s).supply = s.supply
      ∧ (statusRequest tag more s).store = s.store ∧ (statusRequest tag more s).image = s.image := by
  unfold statusRequest
  repeat' split
  all_goals simp

/-- It can change no field but serial. -/
@[simp] theorem queueSummaryRequest_frame (tag : Text) (s : State) :
    (queueSummaryRequest tag s).pending = s.pending ∧ (queueSummaryRequest tag s).choices = s.choices
      ∧ (queueSummaryRequest tag s).held = s.held ∧ (queueSummaryRequest tag s).pins = s.pins
      ∧ (queueSummaryRequest tag s).cause = s.cause ∧ (queueSummaryRequest tag s).bellCount = s.bellCount
      ∧ (queueSummaryRequest tag s).coilBudget = s.coilBudget
      ∧ (queueSummaryRequest tag s).lineRate = s.lineRate ∧ (queueSummaryRequest tag s).time = s.time
      ∧ (queueSummaryRequest tag s).bells = s.bells ∧ (queueSummaryRequest tag s).queue = s.queue
      ∧ (queueSummaryRequest tag s).waiting = s.waiting ∧ (queueSummaryRequest tag s).coils = s.coils
      ∧ (queueSummaryRequest tag s).melodies = s.melodies ∧ (queueSummaryRequest tag s).pool = s.pool
      ∧ (queueSummaryRequest tag s).playQueue = s.playQueue ∧ (queueSummaryRequest tag s).lastId = s.lastId
      ∧ (queueSummaryRequest tag s).tune = s.tune ∧ (queueSummaryRequest tag s).toll = s.toll
      ∧ (queueSummaryRequest tag s).live = s.live ∧ (queueSummaryRequest tag s).draft = s.draft
      ∧ (queueSummaryRequest tag s).stamps = s.stamps ∧ (queueSummaryRequest tag s).hold = s.hold
      ∧ (queueSummaryRequest tag s).quiet = s.quiet ∧ (queueSummaryRequest tag s).cues = s.cues
      ∧ (queueSummaryRequest tag s).supply = s.supply ∧ (queueSummaryRequest tag s).store = s.store
      ∧ (queueSummaryRequest tag s).image = s.image := by
  unfold queueSummaryRequest
  simp

/-- It can change no field but serial. -/
@[simp] theorem itemRequest_frame {α : Type} (q : Kw) (most : Nat) (items : List α) (shown : α → List Fld) (tag : Text)
    (fields : List Text) (s : State) :
    (itemRequest q most items shown tag fields s).pending = s.pending
      ∧ (itemRequest q most items shown tag fields s).choices = s.choices
      ∧ (itemRequest q most items shown tag fields s).held = s.held
      ∧ (itemRequest q most items shown tag fields s).pins = s.pins
      ∧ (itemRequest q most items shown tag fields s).cause = s.cause
      ∧ (itemRequest q most items shown tag fields s).bellCount = s.bellCount
      ∧ (itemRequest q most items shown tag fields s).coilBudget = s.coilBudget
      ∧ (itemRequest q most items shown tag fields s).lineRate = s.lineRate
      ∧ (itemRequest q most items shown tag fields s).time = s.time
      ∧ (itemRequest q most items shown tag fields s).bells = s.bells
      ∧ (itemRequest q most items shown tag fields s).queue = s.queue
      ∧ (itemRequest q most items shown tag fields s).waiting = s.waiting
      ∧ (itemRequest q most items shown tag fields s).coils = s.coils
      ∧ (itemRequest q most items shown tag fields s).melodies = s.melodies
      ∧ (itemRequest q most items shown tag fields s).pool = s.pool
      ∧ (itemRequest q most items shown tag fields s).playQueue = s.playQueue
      ∧ (itemRequest q most items shown tag fields s).lastId = s.lastId
      ∧ (itemRequest q most items shown tag fields s).tune = s.tune
      ∧ (itemRequest q most items shown tag fields s).toll = s.toll
      ∧ (itemRequest q most items shown tag fields s).live = s.live
      ∧ (itemRequest q most items shown tag fields s).draft = s.draft
      ∧ (itemRequest q most items shown tag fields s).stamps = s.stamps
      ∧ (itemRequest q most items shown tag fields s).hold = s.hold
      ∧ (itemRequest q most items shown tag fields s).quiet = s.quiet
      ∧ (itemRequest q most items shown tag fields s).cues = s.cues
      ∧ (itemRequest q most items shown tag fields s).supply = s.supply
      ∧ (itemRequest q most items shown tag fields s).store = s.store
      ∧ (itemRequest q most items shown tag fields s).image = s.image := by
  unfold itemRequest
  repeat' split
  all_goals simp

/-- It can change no field but serial. -/
@[simp] theorem queuePlayItemRequest_frame (tag : Text) (fields : List Text) (s : State) :
    (queuePlayItemRequest tag fields s).pending = s.pending
      ∧ (queuePlayItemRequest tag fields s).choices = s.choices
      ∧ (queuePlayItemRequest tag fields s).held = s.held ∧ (queuePlayItemRequest tag fields s).pins = s.pins
      ∧ (queuePlayItemRequest tag fields s).cause = s.cause
      ∧ (queuePlayItemRequest tag fields s).bellCount = s.bellCount
      ∧ (queuePlayItemRequest tag fields s).coilBudget = s.coilBudget
      ∧ (queuePlayItemRequest tag fields s).lineRate = s.lineRate
      ∧ (queuePlayItemRequest tag fields s).time = s.time ∧ (queuePlayItemRequest tag fields s).bells = s.bells
      ∧ (queuePlayItemRequest tag fields s).queue = s.queue
      ∧ (queuePlayItemRequest tag fields s).waiting = s.waiting
      ∧ (queuePlayItemRequest tag fields s).coils = s.coils
      ∧ (queuePlayItemRequest tag fields s).melodies = s.melodies
      ∧ (queuePlayItemRequest tag fields s).pool = s.pool
      ∧ (queuePlayItemRequest tag fields s).playQueue = s.playQueue
      ∧ (queuePlayItemRequest tag fields s).lastId = s.lastId
      ∧ (queuePlayItemRequest tag fields s).tune = s.tune ∧ (queuePlayItemRequest tag fields s).toll = s.toll
      ∧ (queuePlayItemRequest tag fields s).live = s.live ∧ (queuePlayItemRequest tag fields s).draft = s.draft
      ∧ (queuePlayItemRequest tag fields s).stamps = s.stamps
      ∧ (queuePlayItemRequest tag fields s).hold = s.hold ∧ (queuePlayItemRequest tag fields s).quiet = s.quiet
      ∧ (queuePlayItemRequest tag fields s).cues = s.cues
      ∧ (queuePlayItemRequest tag fields s).supply = s.supply
      ∧ (queuePlayItemRequest tag fields s).store = s.store
      ∧ (queuePlayItemRequest tag fields s).image = s.image := by
  unfold queuePlayItemRequest
  simp

/-- It can change no field but serial. -/
@[simp] theorem queueStrikeItemRequest_frame (tag : Text) (fields : List Text) (s : State) :
    (queueStrikeItemRequest tag fields s).pending = s.pending
      ∧ (queueStrikeItemRequest tag fields s).choices = s.choices
      ∧ (queueStrikeItemRequest tag fields s).held = s.held
      ∧ (queueStrikeItemRequest tag fields s).pins = s.pins
      ∧ (queueStrikeItemRequest tag fields s).cause = s.cause
      ∧ (queueStrikeItemRequest tag fields s).bellCount = s.bellCount
      ∧ (queueStrikeItemRequest tag fields s).coilBudget = s.coilBudget
      ∧ (queueStrikeItemRequest tag fields s).lineRate = s.lineRate
      ∧ (queueStrikeItemRequest tag fields s).time = s.time
      ∧ (queueStrikeItemRequest tag fields s).bells = s.bells
      ∧ (queueStrikeItemRequest tag fields s).queue = s.queue
      ∧ (queueStrikeItemRequest tag fields s).waiting = s.waiting
      ∧ (queueStrikeItemRequest tag fields s).coils = s.coils
      ∧ (queueStrikeItemRequest tag fields s).melodies = s.melodies
      ∧ (queueStrikeItemRequest tag fields s).pool = s.pool
      ∧ (queueStrikeItemRequest tag fields s).playQueue = s.playQueue
      ∧ (queueStrikeItemRequest tag fields s).lastId = s.lastId
      ∧ (queueStrikeItemRequest tag fields s).tune = s.tune
      ∧ (queueStrikeItemRequest tag fields s).toll = s.toll
      ∧ (queueStrikeItemRequest tag fields s).live = s.live
      ∧ (queueStrikeItemRequest tag fields s).draft = s.draft
      ∧ (queueStrikeItemRequest tag fields s).stamps = s.stamps
      ∧ (queueStrikeItemRequest tag fields s).hold = s.hold
      ∧ (queueStrikeItemRequest tag fields s).quiet = s.quiet
      ∧ (queueStrikeItemRequest tag fields s).cues = s.cues
      ∧ (queueStrikeItemRequest tag fields s).supply = s.supply
      ∧ (queueStrikeItemRequest tag fields s).store = s.store
      ∧ (queueStrikeItemRequest tag fields s).image = s.image := by
  unfold queueStrikeItemRequest
  simp

/-- It can change no field but serial. -/
@[simp] theorem queueWaitItemRequest_frame (tag : Text) (fields : List Text) (s : State) :
    (queueWaitItemRequest tag fields s).pending = s.pending
      ∧ (queueWaitItemRequest tag fields s).choices = s.choices
      ∧ (queueWaitItemRequest tag fields s).held = s.held ∧ (queueWaitItemRequest tag fields s).pins = s.pins
      ∧ (queueWaitItemRequest tag fields s).cause = s.cause
      ∧ (queueWaitItemRequest tag fields s).bellCount = s.bellCount
      ∧ (queueWaitItemRequest tag fields s).coilBudget = s.coilBudget
      ∧ (queueWaitItemRequest tag fields s).lineRate = s.lineRate
      ∧ (queueWaitItemRequest tag fields s).time = s.time ∧ (queueWaitItemRequest tag fields s).bells = s.bells
      ∧ (queueWaitItemRequest tag fields s).queue = s.queue
      ∧ (queueWaitItemRequest tag fields s).waiting = s.waiting
      ∧ (queueWaitItemRequest tag fields s).coils = s.coils
      ∧ (queueWaitItemRequest tag fields s).melodies = s.melodies
      ∧ (queueWaitItemRequest tag fields s).pool = s.pool
      ∧ (queueWaitItemRequest tag fields s).playQueue = s.playQueue
      ∧ (queueWaitItemRequest tag fields s).lastId = s.lastId
      ∧ (queueWaitItemRequest tag fields s).tune = s.tune ∧ (queueWaitItemRequest tag fields s).toll = s.toll
      ∧ (queueWaitItemRequest tag fields s).live = s.live ∧ (queueWaitItemRequest tag fields s).draft = s.draft
      ∧ (queueWaitItemRequest tag fields s).stamps = s.stamps
      ∧ (queueWaitItemRequest tag fields s).hold = s.hold ∧ (queueWaitItemRequest tag fields s).quiet = s.quiet
      ∧ (queueWaitItemRequest tag fields s).cues = s.cues
      ∧ (queueWaitItemRequest tag fields s).supply = s.supply
      ∧ (queueWaitItemRequest tag fields s).store = s.store
      ∧ (queueWaitItemRequest tag fields s).image = s.image := by
  unfold queueWaitItemRequest
  simp

/-- It can change no field but serial, store, image. -/
@[simp] theorem saveRequest_frame (tag : Text) (more : List Text) (s : State) :
    (saveRequest tag more s).pending = s.pending ∧ (saveRequest tag more s).choices = s.choices
      ∧ (saveRequest tag more s).held = s.held ∧ (saveRequest tag more s).pins = s.pins
      ∧ (saveRequest tag more s).cause = s.cause ∧ (saveRequest tag more s).bellCount = s.bellCount
      ∧ (saveRequest tag more s).coilBudget = s.coilBudget ∧ (saveRequest tag more s).lineRate = s.lineRate
      ∧ (saveRequest tag more s).time = s.time ∧ (saveRequest tag more s).bells = s.bells
      ∧ (saveRequest tag more s).queue = s.queue ∧ (saveRequest tag more s).waiting = s.waiting
      ∧ (saveRequest tag more s).coils = s.coils ∧ (saveRequest tag more s).melodies = s.melodies
      ∧ (saveRequest tag more s).pool = s.pool ∧ (saveRequest tag more s).playQueue = s.playQueue
      ∧ (saveRequest tag more s).lastId = s.lastId ∧ (saveRequest tag more s).tune = s.tune
      ∧ (saveRequest tag more s).toll = s.toll ∧ (saveRequest tag more s).live = s.live
      ∧ (saveRequest tag more s).draft = s.draft ∧ (saveRequest tag more s).stamps = s.stamps
      ∧ (saveRequest tag more s).hold = s.hold ∧ (saveRequest tag more s).quiet = s.quiet
      ∧ (saveRequest tag more s).cues = s.cues ∧ (saveRequest tag more s).supply = s.supply := by
  unfold saveRequest
  repeat' split
  all_goals simp

/-- It can change no field but serial. -/
@[simp] theorem resetRequest_frame (tag : Text) (more : List Text) (s : State) :
    (resetRequest tag more s).pending = s.pending ∧ (resetRequest tag more s).choices = s.choices
      ∧ (resetRequest tag more s).held = s.held ∧ (resetRequest tag more s).pins = s.pins
      ∧ (resetRequest tag more s).cause = s.cause ∧ (resetRequest tag more s).bellCount = s.bellCount
      ∧ (resetRequest tag more s).coilBudget = s.coilBudget ∧ (resetRequest tag more s).lineRate = s.lineRate
      ∧ (resetRequest tag more s).time = s.time ∧ (resetRequest tag more s).bells = s.bells
      ∧ (resetRequest tag more s).queue = s.queue ∧ (resetRequest tag more s).waiting = s.waiting
      ∧ (resetRequest tag more s).coils = s.coils ∧ (resetRequest tag more s).melodies = s.melodies
      ∧ (resetRequest tag more s).pool = s.pool ∧ (resetRequest tag more s).playQueue = s.playQueue
      ∧ (resetRequest tag more s).lastId = s.lastId ∧ (resetRequest tag more s).tune = s.tune
      ∧ (resetRequest tag more s).toll = s.toll ∧ (resetRequest tag more s).live = s.live
      ∧ (resetRequest tag more s).draft = s.draft ∧ (resetRequest tag more s).stamps = s.stamps
      ∧ (resetRequest tag more s).hold = s.hold ∧ (resetRequest tag more s).quiet = s.quiet
      ∧ (resetRequest tag more s).cues = s.cues ∧ (resetRequest tag more s).supply = s.supply
      ∧ (resetRequest tag more s).store = s.store ∧ (resetRequest tag more s).image = s.image := by
  unfold resetRequest
  repeat' split
  all_goals simp

/-! ## Every command at once -/

/-- The condition on which a command is taken. -/
def conditionOf (i : Instr) (s : State) : Bool :=
  match i with
  | .powerOnReset _ => true
  | .resetLineFall => !s.held
  | .resetLineRise _ => s.held
  | .warmResetCommand _ => s.warmResetDue
  | .lineReceived => !s.held
  | .lineExecute => s.lineDue
  | .transmitLine => s.transmitDue
  | .dispatch => s.dispatchDue
  | .coilRelease b => s.coilDue b
  | .coilWaitDeadline p => s.deadlineDue p
  | .senseActiveEdge b => isBellNumber b && !s.lineActive b
  | .senseReleaseEdge b => isBellNumber b && s.lineActive b
  | .windowEnd b => s.windowDue b
  | .stuckTimeout b => s.stuckDue b
  | .expired id => s.expiryDue id
  | .tuneTake => s.tuneTakeDue
  | .expandRecord => s.recordDue
  | .tollTake => s.tollTakeDue
  | .expandStroke => s.strokeDue
  | .cutOrder id => s.cutDue id
  | .secondBoundary => s.boundaryDue
  | .slewTick => s.tickDue
  | .wallClockRangeEnd => s.rangeEndDue
  | .secpulseEdge => !s.held
  | .pulseLoss => s.pulseLossDue
  | .cueLineChange c => isCueNumber c
  | .cueDebounceExpire c => s.debounceDue c
  | .supgoodFall => s.pins.supgood
  | .supgoodRise => !s.pins.supgood
  | .supplyLost => s.lossDue
  | .supplyGood => s.recoveryDue
  | .saveComplete _ => s.saveRunning
  | .saveTimeout => s.saveLate
  | .characterReceived _ _ => !s.held
  | _ => s.canExecute

/-- R66, R67, R75: what an active edge does. -/
def State.activeEdge (s : State) (b : Nat) : State :=
  let s := s.setSense b (!s.senseLevel b)
  if !s.held && s.watched b then (s.judgeEdge b).modBell b (fun r => { r with stuck := r.stuck.onActive s.now }) else s

/-- R66, R75: what a release edge does. -/
def State.releaseEdge (s : State) (b : Nat) : State :=
  let s := s.setSense b (!s.senseLevel b)
  if !s.held && s.watched b then s.modBell b (fun r => { r with stuck := .idle }) else s

/-- R69: what the end of the open window of bell `b` does. -/
def State.endWindow (s : State) (b : Nat) : State :=
  match (s.bell b).window with
  | none => s
  | some w => s.miss b w

/-- R176: what a change of the level of cue line `c` does. -/
def State.changeCueLine (s : State) (c : Nat) : State :=
  let high := !s.cueLevel c
  let s := s.setCueLine c high
  if s.held then s else s.setCue c ((s.cue c).seen s.now high)

/-- What a command does where its condition holds. -/
def effectOf (i : Instr) (s : State) : State :=
  match i with
  | .powerOnReset pins => s.powerOn pins
  | .resetLineFall => { s.warm .line with held := true }
  | .resetLineRise pins => s.start pins
  | .warmResetCommand pins => (s.warm .command).start pins
  | .lineReceived => s.modSerial Serial.endLine
  | .lineExecute => s.executeLine
  | .transmitLine => s.transmit
  | .dispatch => s.dispatchHead.settle
  | .coilRelease b => (s.releaseCoil b).settle
  | .coilWaitDeadline p => (s.dropAtDeadline p).settle
  | .senseActiveEdge b => s.activeEdge b
  | .senseReleaseEdge b => s.releaseEdge b
  | .windowEnd b => s.endWindow b
  | .stuckTimeout b => s.moveBell b (s.bell b).afterStuck
  | .expired id => s.expire id
  | .tuneTake => s.takeFirstTune
  | .expandRecord => s.expandTune.settle
  | .tollTake => s.takeFirstToll
  | .expandStroke => s.expandToll.settle
  | .cutOrder id => s.cutOrder id
  | .secondBoundary => s.crossBoundary
  | .slewTick => s.slewOnce
  | .wallClockRangeEnd => s.endRange
  | .secpulseEdge => s.takePulse
  | .pulseLoss => s.losePulse
  | .cueLineChange c => s.changeCueLine c
  | .cueDebounceExpire c => (s.acceptChange c).settleCues 4
  | .supgoodFall => if s.held then s.setSupgood false else (s.setSupgood false).supplyFalls
  | .supgoodRise => if s.held then s.setSupgood true else (s.setSupgood true).supplyRises
  | .supplyLost => s.loseSupply
  | .supplyGood => s.regainSupply
  | .saveComplete sumMatches => s.endSave (if sumMatches then s.store.writing.map (·.2) else none)
  | .saveTimeout => s.endSave none
  | .characterReceived c stopBit => s.modSerial (·.receive c stopBit)
  | i => runRequest i s

/-- Every command is an event: it takes its effect where its condition holds, and changes nothing where it does not. -/
theorem exec_event (i : Instr) (s : State) : exec i s = event (conditionOf i s) s (effectOf i) := by
  cases i <;> rfl

/-- What a command answers: its effect, or the state as it was. -/
theorem exec_inv {i : Instr} {s t : State} (h : exec i s = .next t) :
    (conditionOf i s = true ∧ t = effectOf i s) ∨ (conditionOf i s = false ∧ t = s) := event_eq (exec_event i s ▸ h)

/-- A property that the effect keeps where the condition holds is kept by the command. -/
theorem exec_keeps {P : State → Prop} {i : Instr} {s t : State} (h : exec i s = .next t) (hs : P s)
    (hf : conditionOf i s = true → P (effectOf i s)) : P t := event_keeps (exec_event i s ▸ h) hs hf

/-- A request is taken where the serial line can execute a line, and its effect is `runRequest`. -/
theorem request_parts {i : Instr} {p : Text × List Text} (h : i.fields = some p) (s : State) :
    conditionOf i s = s.canExecute ∧ effectOf i s = runRequest i s := by
  cases i <;> simp only [Instr.fields, reduceCtorEq] at h <;> exact ⟨rfl, rfl⟩

/-- What a step answers: a grain passes, or a command is taken, at the front of the queue or of the part's own accord. -/
theorem step_inv {s t : State} (h : step s = .next t) :
    (s.pending = [] ∧ s.due = [] ∧ s.now + 1 < 2 ^ 48 ∧ t = s.modTime fun x => { x with now := x.now + 1 })
      ∨ (s.pending = [] ∧ ∃ i ∈ s.due, exec i s = .next t ∨ exec i { s with choices := s.choices + 1 } = .next t)
      ∨ ∃ c rest, s.pending = c :: rest ∧ exec c { s with pending := rest } = .next t := by
  unfold step at h
  split at h
  · rename_i hp
    unfold State.idle at h
    split at h
    · rename_i hc
      have hd : s.due = [] := by
        revert hc
        unfold choose
        split <;> simp_all
      unfold State.passGrain at h
      split at h
      · simp only [Host.Outcome.next.injEq] at h
        exact .inl ⟨hp, hd, ‹_›, h.symm⟩
      · cases h
    · rename_i i s' hch
      obtain ⟨hi, rfl | rfl⟩ := choose_frame hch
      · exact .inr (.inl ⟨hp, i, hi, .inl h⟩)
      · exact .inr (.inl ⟨hp, i, hi, .inr h⟩)
  · rename_i c rest hp
    exact .inr (.inr ⟨c, rest, hp, h⟩)

/-- A property that every command keeps, that the passing of a grain keeps, and that neither the queue of commands nor
the count of choices is part of, is kept by every step. -/
theorem step_keeps {P : State → Prop} {s t : State} (h : step s = .next t) (hs : P s)
    (exec : ∀ (i : Instr) (s t : State), P s → Machine.exec i s = .next t → P t)
    (grain : ∀ s : State, P s → P (s.modTime fun x => { x with now := x.now + 1 }))
    (queue : ∀ (s : State) (cs : List Instr), P s → P { s with pending := cs })
    (choice : ∀ s : State, P s → P { s with choices := s.choices + 1 }) : P t := by
  obtain ⟨-, -, -, rfl⟩ | ⟨-, i, -, hi | hi⟩ | ⟨c, rest, -, hc⟩ := step_inv h
  · exact grain s hs
  · exact exec i _ _ hs hi
  · exact exec i _ _ (choice s hs) hi
  · exact exec c _ _ (queue s rest hs) hc

end Sys2Proof.Machine
end

