-- ==== Sys2Proof/Laws/Tables.lean ====
section
/-! SUPPORT. Reading and writing the tables numbered from 1: what a slot reads after a write, and how a property of
every slot survives one. -/

namespace Sys2Proof.Machine

variable {α : Type} {n : Nat}

/-- A number outside 1..n reads the default. -/
theorem slot_outside (v : Table α n) (k : Nat) (d : α) (h : k = 0 ∨ n < k) : slot v k d = d := by
  unfold slot
  split
  · rfl
  · have : n ≤ k - 1 := by omega
    simp [this]

/-- A number within 1..n reads the element at its index. -/
theorem slot_inside (v : Table α n) (k : Nat) (d : α) (h0 : 1 ≤ k) (hn : k ≤ n) :
    slot v k d = v[k - 1]'(by omega) := by
  unfold slot
  rw [if_neg (by omega), Vector.getElem?_eq_getElem (by omega)]
  rfl

/-- A write outside 1..n changes nothing. -/
theorem setSlot_outside (v : Table α n) (k : Nat) (x : α) (h : k = 0 ∨ n < k) : setSlot v k x = v := by
  unfold setSlot
  split
  · rfl
  · rw [Vector.setIfInBounds_eq_of_size_le (by omega)]

/-- What a slot reads after a write. -/
theorem slot_setSlot (v : Table α n) (k j : Nat) (x d : α) :
    slot (setSlot v k x) j d = if j = k ∧ 1 ≤ k ∧ k ≤ n then x else slot v j d := by
  by_cases hk : 1 ≤ k ∧ k ≤ n
  · by_cases hj : 1 ≤ j ∧ j ≤ n
    · rw [slot_inside _ j d hj.1 hj.2, slot_inside v j d hj.1 hj.2]
      simp only [setSlot, if_neg (show ¬k = 0 by omega), Vector.getElem_setIfInBounds]
      by_cases e : j = k
      · simp [e, hk]
      · rw [if_neg (by omega), if_neg (by simp [e])]
    · rw [slot_outside _ j d (by omega), slot_outside v j d (by omega), if_neg (by omega)]
  · rw [setSlot_outside v k x (by omega), if_neg (by omega)]

/-- The slot written reads what was written. -/
@[simp] theorem slot_setSlot_same (v : Table α n) (k : Nat) (x d : α) (h0 : 1 ≤ k) (hn : k ≤ n) :
    slot (setSlot v k x) k d = x := by
  rw [slot_setSlot, if_pos ⟨rfl, h0, hn⟩]

/-- Every other slot reads as before. -/
@[simp] theorem slot_setSlot_other (v : Table α n) (k j : Nat) (x d : α) (h : j ≠ k) :
    slot (setSlot v k x) j d = slot v j d := by
  rw [slot_setSlot, if_neg (fun c => h c.1)]

/-- A table of one value reads it in every slot. -/
theorem slot_replicate (n : Nat) (x d : α) (k : Nat) :
    slot (Vector.replicate n x) k d = if 1 ≤ k ∧ k ≤ n then x else d := by
  by_cases h : 1 ≤ k ∧ k ≤ n
  · rw [slot_inside _ k d h.1 h.2, if_pos h, Vector.getElem_replicate]
  · rw [slot_outside _ k d (by omega), if_neg h]

/-- A slot of a table mapped by `f`. -/
theorem slot_map {β : Type} (v : Table α n) (f : α → β) (k : Nat) (d : α) (h0 : 1 ≤ k) (hn : k ≤ n) (e : β) :
    slot (v.map f) k e = f (slot v k d) := by
  rw [slot_inside _ k e h0 hn, slot_inside v k d h0 hn, Vector.getElem_map]

/-- Every slot within 1..n has the property. -/
theorem AllSlots.slot {v : Table α n} {P : α → Prop} (h : AllSlots v P) (k : Nat) (d : α) (h0 : 1 ≤ k) (hn : k ≤ n) :
    P (slot v k d) := by
  rw [slot_inside v k d h0 hn]
  exact h _ (by simp)

/-- Every slot has the property, if the default has it. -/
theorem AllSlots.slot_or {v : Table α n} {P : α → Prop} (h : AllSlots v P) (k : Nat) (d : α) (hd : P d) :
    P (Machine.slot v k d) := by
  by_cases hk : 1 ≤ k ∧ k ≤ n
  · exact h.slot k d hk.1 hk.2
  · rw [slot_outside v k d (by omega)]
    exact hd

/-- The property from that of every number within 1..n. -/
theorem AllSlots.of_slot {v : Table α n} {P : α → Prop} (d : α)
    (h : ∀ k, 1 ≤ k → k ≤ n → P (Machine.slot v k d)) : AllSlots v P := by
  intro x hx
  obtain ⟨i, hi, rfl⟩ := List.getElem_of_mem hx
  have hi' : i < n := by simpa using hi
  have := h (i + 1) (by omega) (by omega)
  rw [slot_inside v (i + 1) d (by omega) (by omega)] at this
  simpa using this

/-- A write of a value with the property keeps it. -/
theorem AllSlots.setSlot {v : Table α n} {P : α → Prop} (h : AllSlots v P) (k : Nat) (x : α) (hx : P x) :
    AllSlots (setSlot v k x) P := by
  refine .of_slot x fun j h0 hn => ?_
  rw [slot_setSlot]
  split
  · exact hx
  · exact h.slot j x h0 hn

/-- A table of one value with the property. -/
theorem AllSlots.replicate {P : α → Prop} (n : Nat) (x : α) (h : P x) : AllSlots (Vector.replicate n x) P := by
  intro y hy
  simp only [Vector.toList_replicate, List.mem_replicate] at hy
  simpa [hy.2] using h

/-- A table mapped by `f`. -/
theorem AllSlots.map {β : Type} {v : Table α n} {P : α → Prop} {Q : β → Prop} (f : α → β) (h : AllSlots v P)
    (hf : ∀ x, P x → Q (f x)) : AllSlots (v.map f) Q := by
  intro y hy
  simp only [Vector.toList_map, List.mem_map] at hy
  obtain ⟨x, hx, rfl⟩ := hy
  exact hf x (h x hx)

/-! ## The named tables of the state -/

/-- The bell record after a write. -/
theorem State.bell_setBell (s : State) (b a : Nat) (r : Bell) :
    (s.setBell b r).bell a = if a = b ∧ 1 ≤ b ∧ b ≤ 64 then r else s.bell a := slot_setSlot ..

/-- The bell record after a change. -/
theorem State.bell_modBell (s : State) (b a : Nat) (f : Bell → Bell) :
    (s.modBell b f).bell a = if a = b ∧ 1 ≤ b ∧ b ≤ 64 then f (s.bell b) else s.bell a := slot_setSlot ..

/-- Two writes of a slot are the second. -/
@[simp] theorem setSlot_setSlot {α : Type} {n : Nat} (v : Table α n) (k : Nat) (x y : α) :
    setSlot (setSlot v k x) k y = setSlot v k y := by
  unfold setSlot
  split
  · rfl
  · apply Vector.ext
    intro i hi
    simp only [Vector.getElem_setIfInBounds]
    split <;> rfl

/-- Writing what a slot reads changes nothing. -/
theorem setSlot_self {α : Type} {n : Nat} (v : Table α n) (k : Nat) (d : α) : setSlot v k (slot v k d) = v := by
  by_cases hk : 1 ≤ k ∧ k ≤ n
  · rw [slot_inside v k d hk.1 hk.2]
    simp only [setSlot, if_neg (show ¬k = 0 by omega)]
    apply Vector.ext
    intro i hi
    simp only [Vector.getElem_setIfInBounds]
    split
    · rename_i e
      simp [e]
    · rfl
  · exact setSlot_outside v k _ (by omega)

/-- Two changes of a bell record are one. -/
theorem State.modBell_modBell (s : State) (b : Nat) (f g : Bell → Bell) :
    (s.modBell b f).modBell b g = s.modBell b (fun r => g (f r)) := by
  by_cases hk : 1 ≤ b ∧ b ≤ 64
  · unfold State.modBell
    rw [State.bell_setBell, if_pos ⟨rfl, hk⟩]
    simp [State.setBell]
  · have out : b = 0 ∨ 64 < b := by omega
    simp [State.modBell, State.setBell, setSlot_outside _ _ _ out]

/-- The melody header after a write. -/
theorem State.melody_setMelody (s : State) (m a : Nat) (h : Melody) :
    (s.setMelody m h).melody a = if a = m ∧ 1 ≤ m ∧ m ≤ 64 then h else s.melody a := slot_setSlot ..

/-- The cue record after a write. -/
theorem State.cue_setCue (s : State) (c a : Nat) (r : Cue) :
    (s.setCue c r).cue a = if a = c ∧ 1 ≤ c ∧ c ≤ 4 then r else s.cue a := slot_setSlot ..

/-- Two states with the same bell table read the same records. -/
theorem State.bell_congr {s t : State} (h : t.bells = s.bells) (b : Nat) : t.bell b = s.bell b := by
  unfold State.bell
  rw [h]

/-- Two states with the same headers read the same melodies. -/
theorem State.melody_congr {s t : State} (h : t.melodies = s.melodies) (m : Nat) : t.melody m = s.melody m := by
  unfold State.melody
  rw [h]

/-- Two states with the same cue records read the same cues. -/
theorem State.cue_congr {s t : State} (h : t.cues = s.cues) (c : Nat) : t.cue c = s.cue c := by
  unfold State.cue
  rw [h]

/-- Two states with the same timebase read the same clock. -/
theorem State.now_congr {s t : State} (h : t.time = s.time) : t.now = s.now := by
  unfold State.now
  rw [h]

end Sys2Proof.Machine
end

