-- ==== Sys2Proof/Laws/Bells.lean ====
section
/-! SUPPORT. The bell table keeps its bounds: what each edit of a bell record does to them. -/

namespace Sys2Proof.Machine

/-! ## Numbers -/

theorem clamp_bounds {lo hi : Nat} (h : lo ≤ hi) (n : Nat) : lo ≤ clamp lo hi n ∧ clamp lo hi n ≤ hi := by
  unfold clamp
  omega

theorem clampInt_bounds {lo hi : Int} (h : lo ≤ hi) (x : Int) : lo ≤ clampInt lo hi x ∧ clampInt lo hi x ≤ hi := by
  unfold clampInt
  omega

/-- R17: a counter that rises stays within 16 bits. -/
theorem bump16_bound (n : Nat) : bump16 n ≤ 65535 := by
  unfold bump16
  omega

/-- R40: a learned flight lies within 50..2000. -/
theorem learnedFlight_bounds (held measured : Nat) :
    50 ≤ learnedFlight held measured ∧ learnedFlight held measured ≤ 2000 := by
  unfold learnedFlight
  dsimp only
  have := clampInt_bounds (lo := 50) (hi := 2000) (by omega)
    (if (measured : Int) - held < 0 then (held : Int) - (((measured : Int) - held).natAbs + 4 : Int) / 8
      else (held : Int) + (((measured : Int) - held).natAbs + 4 : Int) / 8)
  omega

/-! ## One record -/

theorem Counters.InBounds.bumpHit {c : Counters} (h : c.InBounds) : Counters.InBounds { c with hit := bump16 c.hit } :=
  { h with hit := bump16_bound _ }

theorem Counters.InBounds.bumpMiss {c : Counters} (h : c.InBounds) :
    Counters.InBounds { c with miss := bump16 c.miss } := { h with miss := bump16_bound _ }

theorem Counters.InBounds.bumpStray {c : Counters} (h : c.InBounds) :
    Counters.InBounds { c with stray := bump16 c.stray } := { h with stray := bump16_bound _ }

theorem Counters.InBounds.bumpSlip {c : Counters} (h : c.InBounds) :
    Counters.InBounds { c with slip := bump16 c.slip } := { h with slip := bump16_bound _ }

theorem Counters.InBounds.bumpDrop {c : Counters} (h : c.InBounds) :
    Counters.InBounds { c with drop := bump16 c.drop } := { h with drop := bump16_bound _ }

theorem Calibration.default_inBounds : Calibration.default.InBounds where
  pulse := by unfold AllSlots; decide
  flight := by unfold AllSlots; decide
  rearm := by decide
  heat := by decide
  duty := by decide

theorem Calibration.clamped_inBounds (c : Calibration) : c.clamped.InBounds where
  pulse := AllSlots.map (P := fun _ => True) _ (fun _ _ => trivial) fun x _ => clamp_bounds (by omega) x
  flight := AllSlots.map (P := fun _ => True) _ (fun _ _ => trivial) fun x _ => clamp_bounds (by omega) x
  rearm := clamp_bounds (by omega) _
  heat := clamp_bounds (by omega) _
  duty := clamp_bounds (by omega) _

theorem Counters.zero_inBounds : ({} : Counters).InBounds := by constructor <;> exact Nat.zero_le _

theorem Bell.powerOn_sound {c : Calibration} (h : c.InBounds) (flag : Bool) : (Bell.powerOn c flag).Sound where
  cal := h
  counters := Counters.zero_inBounds
  bucket := Nat.le_refl _
  misses := Nat.zero_le _
  hits := Nat.zero_le _
  settled := fun _ => ⟨rfl, rfl⟩
  flag := by cases flag <;> simp [Bell.powerOn]
  window := by simp [Bell.powerOn]

theorem noBell_sound : noBell.Sound := Bell.powerOn_sound Calibration.default_inBounds false

/-- A record with the calibration, health, counts and window held, and its counters and bucket within bounds. -/
theorem Bell.Sound.of_same {r q : Bell} (h : r.Sound) (cal : q.cal = r.cal) (flag : q.disabledFlag = r.disabledFlag)
    (health : q.health = r.health) (misses : q.misses = r.misses) (hits : q.hits = r.hits)
    (window : q.window.isSome = true → r.window.isSome = true) (counters : q.counters.InBounds)
    (bucket : q.bucket ≤ r.cal.heat * 100) : q.Sound where
  cal := cal ▸ h.cal
  counters := counters
  bucket := cal ▸ bucket
  misses := misses ▸ h.misses
  hits := hits ▸ h.hits
  settled := by rw [health, misses, hits]; exact h.settled
  flag := by rw [health, flag]; exact h.flag
  window := by rw [health, cal]; exact h.window ∘ window

theorem Bell.Sound.stuck {r : Bell} (h : r.Sound) (x : StuckTimer) : Bell.Sound { r with stuck := x } :=
  h.of_same rfl rfl rfl rfl rfl id h.counters h.bucket

theorem Bell.Sound.noWindow {r : Bell} (h : r.Sound) : Bell.Sound { r with window := none } :=
  h.of_same rfl rfl rfl rfl rfl (by simp) h.counters h.bucket

/-- A record whose counters alone move. -/
theorem Bell.Sound.counted {r : Bell} (h : r.Sound) {c : Counters} (hc : c.InBounds) :
    Bell.Sound { r with counters := c } :=
  h.of_same rfl rfl rfl rfl rfl id hc h.bucket

theorem Bell.Sound.flight {r : Bell} (h : r.Sound) (level : Nat) {x : Nat} (hx : 50 ≤ x ∧ x ≤ 2000) :
    Bell.Sound { r with cal := { r.cal with flight := setSlot r.cal.flight level x } } :=
  { h with cal := { h.cal with flight := h.cal.flight.setSlot level x hx } }

theorem Bell.Sound.learn {r : Bell} (h : r.Sound) (w : Window) (now : Nat) : (r.learn w now).Sound := by
  unfold Bell.learn
  split
  · exact h.flight _ (learnedFlight_bounds ..)
  · exact h

theorem Bell.Sound.afterHit {r : Bell} (h : r.Sound) (test : Bool) : (r.afterHit test).Sound := by
  have flag := h.flag
  have window := h.window
  unfold Bell.afterHit
  split
  · rename_i e
    exact { h with misses := Nat.zero_le _, hits := Nat.zero_le _, settled := fun _ => ⟨rfl, rfl⟩ }
  · rename_i e
    split
    · rename_i hh
      exact { h with misses := Nat.zero_le _, hits := hh, settled := by simp [e] }
    · exact
        { h with
          misses := Nat.zero_le _, hits := Nat.zero_le _, settled := fun _ => ⟨rfl, rfl⟩
          flag := by simpa [e] using flag, window := fun x => ⟨(window x).1, by simp⟩ }
  · rename_i e
    split
    · exact
        { h with
          misses := Nat.zero_le _, hits := Nat.zero_le _, settled := by simp
          flag := by simpa [e] using flag, window := fun x => ⟨(window x).1, by simp⟩ }
    · exact h
  · exact h

theorem Bell.Sound.afterMiss {r : Bell} (h : r.Sound) : r.afterMiss.Sound := by
  have flag := h.flag
  have window := h.window
  unfold Bell.afterMiss
  split
  · rename_i e
    exact
      { h with
        misses := by simp, hits := Nat.zero_le _, settled := by simp
        flag := by simpa [e] using flag, window := fun x => ⟨(window x).1, by simp⟩ }
  · rename_i e
    split
    · exact { h with misses := (by simp; omega), hits := Nat.zero_le _, settled := by simp [e] }
    · exact
        { h with
          misses := by simp, hits := Nat.zero_le _, settled := by simp
          flag := by simpa [e] using flag, window := fun x => ⟨(window x).1, by simp⟩ }
  · exact h
  · exact h

theorem Bell.Sound.afterStuck {r : Bell} (h : r.Sound) : r.afterStuck.Sound := by
  have flag := h.flag
  have window := h.window
  unfold Bell.afterStuck
  split
  · rename_i e
    exact
      { h with
        hits := Nat.zero_le _, settled := by simp
        flag := by simpa [e] using flag, window := fun x => ⟨(window x).1, by simp⟩ }
  · rename_i e
    exact
      { h with
        hits := Nat.zero_le _, settled := by simp
        flag := by simpa [e] using flag, window := fun x => ⟨(window x).1, by simp⟩ }
  · exact h.stuck _
  · exact h.stuck _

theorem Bell.Sound.disable {r : Bell} (h : r.Sound) : r.disable.Sound :=
  { h with
    misses := Nat.zero_le _, hits := Nat.zero_le _, settled := fun _ => ⟨rfl, rfl⟩
    flag := by simp [Bell.disable], window := by simp [Bell.disable] }

theorem Bell.Sound.makeGood {r : Bell} (h : r.Sound) : r.makeGood.Sound :=
  { h with
    misses := Nat.zero_le _, hits := Nat.zero_le _, settled := fun _ => ⟨rfl, rfl⟩
    flag := by simp [Bell.makeGood], window := fun x => ⟨(h.window x).1, by simp [Bell.makeGood]⟩ }

theorem Bell.Sound.refilled {r : Bell} (h : r.Sound) (now : Nat) :
    Bell.Sound { r with bucket := r.refilled now, stamp := now } :=
  h.of_same rfl rfl rfl rfl rfl id h.counters (Nat.min_le_left ..)

/-- R51: a firing of a bell that is not DISABLED. -/
theorem Bell.Sound.fired {r : Bell} (h : r.Sound) (hh : r.health ≠ .disabled) (e : Entry) (now level : Nat) :
    (r.fired e now level).Sound where
  cal := h.cal
  counters :=
    { h.counters with
      fired := bump16_bound _
      throttle := by
        simp only [Bell.fired]
        split
        · exact bump16_bound _
        · exact h.counters.throttle }
  bucket := Nat.le_trans (Nat.sub_le ..) h.bucket
  misses := h.misses
  hits := h.hits
  settled := h.settled
  flag := h.flag
  window := by
    simp only [Bell.fired]
    split
    · rename_i hf
      exact fun _ => ⟨hf, hh⟩
    · exact h.window

/-! ## The table -/

theorem State.BellsSound.bell {s : State} (h : s.BellsSound) (b : Nat) : (s.bell b).Sound :=
  h.slot_or b noBell noBell_sound

theorem State.BellsSound.setBell {s : State} (h : s.BellsSound) (b : Nat) {r : Bell} (hr : r.Sound) :
    (s.setBell b r).BellsSound := AllSlots.setSlot h b r hr

theorem State.BellsSound.modBell {s : State} (h : s.BellsSound) (b : Nat) {f : Bell → Bell}
    (hf : (s.bell b).Sound → (f (s.bell b)).Sound) : (s.modBell b f).BellsSound := h.setBell b (hf (h.bell b))

/-- The soundness of the bells is a property of the bell table alone. -/
theorem State.BellsSound.congr {s t : State} (h : s.BellsSound) (e : t.bells = s.bells) : t.BellsSound := by
  unfold State.BellsSound
  rw [e]
  exact h

theorem State.BellsSound.moveBell {s : State} (h : s.BellsSound) (b : Nat) {r : Bell} (hr : r.Sound) :
    (s.moveBell b r).BellsSound := (h.setBell b hr).congr (by simp [State.moveBell])

/-- The bell table after the sense unit moves a record. -/
@[simp] theorem State.moveBell_bells (s : State) (b : Nat) (r : Bell) : (s.moveBell b r).bells = setSlot s.bells b r := by
  simp [State.moveBell]

theorem State.BellsSound.hit {s : State} (h : s.BellsSound) (b : Nat) (w : Window) : (s.hit b w).BellsSound := by
  have base : Bell.Sound
      { s.bell b with counters := { (s.bell b).counters with hit := bump16 (s.bell b).counters.hit }, window := none } :=
    ((h.bell b).counted (h.bell b).counters.bumpHit).noWindow
  unfold State.hit
  refine h.moveBell b ?_
  split
  · exact (base.learn ..).afterHit _
  · exact base.learn ..

theorem State.BellsSound.miss {s : State} (h : s.BellsSound) (b : Nat) (w : Window) : (s.miss b w).BellsSound := by
  have base : Bell.Sound
      { s.bell b with counters := { (s.bell b).counters with miss := bump16 (s.bell b).counters.miss }, window := none } :=
    ((h.bell b).counted (h.bell b).counters.bumpMiss).noWindow
  unfold State.miss
  refine h.moveBell b ?_
  split
  · exact base.afterMiss
  · exact base

theorem State.BellsSound.stray {s : State} (h : s.BellsSound) (b : Nat) : (s.stray b).BellsSound :=
  h.modBell b fun hb => hb.counted hb.counters.bumpStray

theorem State.BellsSound.judgeEdge {s : State} (h : s.BellsSound) (b : Nat) : (s.judgeEdge b).BellsSound := by
  unfold State.judgeEdge
  split
  · exact h.stray b
  · split
    · exact (h.miss _ _).stray b
    · split
      · exact h.hit _ _
      · exact h.stray b

/-- R56: what a drop writes into the bell record. -/
@[simp] theorem State.drop_bells (s : State) (e : Entry) (reason : DropReason) :
    (s.drop e reason).bells =
      (s.modBell e.bell fun r =>
        { r with counters := { r.counters with drop := bump16 r.counters.drop }, lastDrop := some reason }).bells := by
  simp only [State.drop, State.tally_frame]

theorem State.BellsSound.drop {s : State} (h : s.BellsSound) (e : Entry) (r : DropReason) : (s.drop e r).BellsSound :=
  State.BellsSound.congr
    (h.modBell e.bell fun hb => hb.of_same rfl rfl rfl rfl rfl id hb.counters.bumpDrop hb.bucket)
    (State.drop_bells s e r)

/-- R48, R49: what a first slip writes into the bell record. -/
theorem State.countSlip_bells (s : State) (e : Entry) :
    (s.countSlip e).bells =
      if e.slipped then s.bells
      else
        (s.modBell e.bell fun r => { r with counters := { r.counters with slip := bump16 r.counters.slip } }).bells := by
  unfold State.countSlip
  split <;> simp only [State.tally_frame]

theorem State.BellsSound.countSlip {s : State} (h : s.BellsSound) (e : Entry) : (s.countSlip e).BellsSound := by
  have := State.countSlip_bells s e
  split at this
  · exact h.congr this
  · exact State.BellsSound.congr (h.modBell e.bell fun hb => hb.counted hb.counters.bumpSlip) this

theorem State.BellsSound.refill {s : State} (h : s.BellsSound) (b : Nat) : (s.refill b).BellsSound :=
  h.modBell b fun hb => hb.refilled _

theorem State.BellsSound.closeOldWindow {s : State} (h : s.BellsSound) (b : Nat) : (s.closeOldWindow b).BellsSound := by
  unfold State.closeOldWindow
  split
  · exact h
  · exact h.miss _ _

theorem State.BellsSound.judgeFirst {s : State} (h : s.BellsSound) (e : Entry) (granted : Bool) :
    (s.judgeFirst e granted).BellsSound := by
  unfold State.judgeFirst
  split
  · exact h.closeOldWindow _
  · exact h

theorem State.BellsSound.fire {s : State} (h : s.BellsSound) (e : Entry) (level : Nat)
    (hh : (s.bell e.bell).health ≠ .disabled) : (s.fire e level).BellsSound := by
  have refill : ((s.refill e.bell).bell e.bell).health ≠ .disabled := by
    unfold State.refill
    rw [State.bell_modBell]
    split <;> exact hh
  refine State.BellsSound.congr
    ((h.refill e.bell).modBell e.bell
      (f := fun r => r.fired e (s.refill e.bell).now level) fun hb => hb.fired refill ..) ?_
  simp [State.fire]

/-- A decision to fire finds the bell's health no bar. -/
theorem State.decide_fire_health {s : State} {e : Entry} {granted : Bool} {level : Nat}
    (h : s.decide e granted = .fire level) : (s.bell e.bell).health ≠ .disabled := by
  intro hd
  simp [State.decide, hd, healthBars] at h

theorem State.BellsSound.carryOut {s : State} (h : s.BellsSound) (e : Entry) (d : Decision)
    (hd : ∀ level, d = .fire level → (s.bell e.bell).health ≠ .disabled) : (s.carryOut e d).BellsSound := by
  unfold State.carryOut
  split
  · exact (h.refill _).drop _ _
  · exact h.drop _ _
  · exact (h.countSlip e).congr (by simp)
  · exact (h.countSlip e).congr (by simp)
  · exact h.fire _ _ (hd _ rfl)

theorem State.BellsSound.dispatchHead {s : State} (h : s.BellsSound) : s.dispatchHead.BellsSound := by
  unfold State.dispatchHead
  split
  · exact h
  · dsimp only
    refine State.BellsSound.carryOut (State.BellsSound.judgeFirst ?_ _ _) _ _ fun level hl => State.decide_fire_health hl
    exact h.congr rfl

theorem State.BellsSound.grantFrom (l : List Entry) {s : State} (h : s.BellsSound) : (s.grantFrom l).BellsSound := by
  induction l generalizing s with
  | nil => exact h
  | cons e rest ih =>
    unfold State.grantFrom
    dsimp only
    have base : (State.judgeFirst { s with waiting := rest } e true).BellsSound := by
      refine State.BellsSound.judgeFirst ?_ _ _
      exact h.congr rfl
    split
    · rename_i hd
      exact base.fire _ _ (State.decide_fire_health hd)
    · rename_i hd
      exact ih (base.carryOut _ _ fun level e => absurd e (hd level))

theorem State.BellsSound.releaseCoil {s : State} (h : s.BellsSound) (b : Nat) : (s.releaseCoil b).BellsSound :=
  State.BellsSound.grantFrom _ (h.congr rfl)

theorem State.BellsSound.dropAtDeadline {s : State} (h : s.BellsSound) (p : Nat) : (s.dropAtDeadline p).BellsSound := by
  unfold State.dropAtDeadline
  split
  · exact h
  · refine State.BellsSound.drop ?_ _ _
    exact h.congr rfl

theorem State.BellsSound.removeOrigin {s : State} (h : s.BellsSound) (o : Origin) : (s.removeOrigin o).BellsSound := by
  unfold State.removeOrigin
  dsimp only
  have base : State.BellsSound
      { s with
        queue := s.queue.filter (fun e => e.origin != o), waiting := s.waiting.filter (fun e => e.origin != o) } :=
    h.congr rfl
  generalize (s.queue ++ s.waiting).filter (fun e => e.origin == o) = gone
  revert base
  generalize (State.mk ..) = t
  intro base
  induction gone generalizing t with
  | nil => exact base
  | cons e rest ih => exact ih _ (base.drop _ _)

/-- The edits of the lanes and the cues keep the bells sound. -/
theorem State.BellsSound.edits {s t : State} (h : s.BellsSound) (e : s.Edits t) : t.BellsSound := by
  refine State.Edits.keeps (P := State.BellsSound) e ?_ ?_ ?_ ?_ ?_ ?_ ?_ ?_ ?_ ?_ ?_ ?_ ?_ ?_ ?_ h
  · exact fun _ h => h.congr rfl
  · exact fun _ _ _ h => h.congr (by simp)
  · exact fun _ _ _ h => h.congr (by simp)
  · exact fun _ _ _ _ h => h.congr (by simp)
  · exact fun _ o h => h.removeOrigin o
  · exact fun _ h => h.congr (by simp)
  · exact fun _ h => h.congr (by simp)
  · exact fun _ _ _ h => h.congr (by simp)
  · exact fun _ _ h => h.congr (by simp)
  · exact fun _ _ h => h.congr (by simp)
  · exact fun _ _ _ h => h.congr (by simp)
  · exact fun _ _ _ h => h.congr (by simp)
  · exact fun _ _ _ h => h.congr (by simp)
  · exact fun _ h => h.congr (by simp)
  · exact fun _ _ _ h => h.congr (by simp)

/-! ## Settings -/

theorem State.BellsSound.updateBucket {s : State} (h : s.BellsSound) (b : Nat) : (s.updateBucket b).BellsSound :=
  h.modBell b fun hb => hb.refilled _

theorem State.BellsSound.restartStuck {s : State} (h : s.BellsSound) (b : Nat) : (s.restartStuck b).BellsSound :=
  h.modBell b fun hb => hb.stuck _

theorem State.BellsSound.applyOne {s : State} (h : s.BellsSound) (b : Nat) (x : Setting) :
    (s.applyOne b x).BellsSound := by
  cases x with
  | pulse level value =>
    exact h.modBell b fun hb => { hb with cal := { hb.cal with pulse := hb.cal.pulse.setSlot _ _ (clamp_bounds (by omega) _) } }
  | flight level value =>
    refine State.BellsSound.modBell (h.modBell b fun hb => hb.flight level (clamp_bounds (by omega) value)) b fun hb => ?_
    refine hb.of_same rfl rfl rfl rfl rfl ?_ hb.counters hb.bucket
    simp
  | rearm value => exact h.modBell b fun hb => { hb with cal := { hb.cal with rearm := clamp_bounds (by omega) _ } }
  | heat value =>
    simp only [State.applyOne, State.modCal, State.modBell_modBell]
    exact (h.updateBucket b).modBell b fun hb =>
      { hb with
        cal := { hb.cal with heat := clamp_bounds (by omega) value }, bucket := Nat.min_le_right .. }
  | duty value =>
    exact State.BellsSound.modBell (h.updateBucket b) b fun hb =>
      { hb with cal := { hb.cal with duty := clamp_bounds (by omega) _ } }
  | sense fitted =>
    simp only [State.applyOne]
    split
    · exact h
    · split
      · rename_i hne ht
        refine State.BellsSound.restartStuck (h.modBell b fun hb => ?_) b
        exact { hb with cal := { hb.cal with }, window := fun x => ⟨rfl, (hb.window x).2⟩ }
      · simp only [State.modCal, State.modBell_modBell]
        exact h.modBell b fun hb => { hb with cal := { hb.cal with }, window := by simp }
  | pol polarity =>
    simp only [State.applyOne]
    split
    · exact h
    · exact State.BellsSound.restartStuck (h.modBell b fun hb => { hb with cal := { hb.cal with } }) b
  | learn on => exact h.modBell b fun hb => { hb with cal := { hb.cal with } }
  | default => exact h

theorem State.BellsSound.settings {s : State} (h : s.BellsSound) (b : Nat) (xs : List Setting) :
    (xs.foldl (State.applySetting b) s).BellsSound := by
  have ones : ∀ (xs : List Setting) (s : State), s.BellsSound → (xs.foldl (State.applyOne b) s).BellsSound := by
    intro xs
    induction xs with
    | nil => exact fun _ h => h
    | cons x rest ih => exact fun _ h => ih _ (h.applyOne b x)
  induction xs generalizing s with
  | nil => exact h
  | cons x rest ih =>
    refine ih ?_
    unfold State.applySetting
    split
    · exact ones _ _ h
    · exact h.applyOne b x

end Sys2Proof.Machine
end

