-- ==== Sys2Proof/Laws/Resets.lean ====
section
/-! SUPPORT. The resets: what a warm reset, a load and the end of a reset write, field by field, and the bell table kept
sound by them. -/

namespace Sys2Proof.Machine

/-- Where a state table is given slot by slot. -/
theorem AllSlots.ofFn {α : Type} {n : Nat} {P : α → Prop} (f : Fin n → α) (h : ∀ i, P (f i)) :
    AllSlots (Vector.ofFn f) P := by
  intro x hx
  simp only [Vector.toList_ofFn, List.mem_ofFn] at hx
  obtain ⟨i, rfl⟩ := hx
  exact h i

/-- The elements of a table have the property of its slots. -/
theorem AllSlots.get {α : Type} {n : Nat} {v : Table α n} {P : α → Prop} (h : AllSlots v P) (i : Fin n) : P v[i] :=
  h _ (by simp)

/-- R195: what the start of the blocks at the end of a reset leaves alone, and what it latches. -/
@[simp] theorem State.start_frame (s : State) (pins : Pins) :
    (s.start pins).pending = s.pending ∧ (s.start pins).choices = s.choices ∧ (s.start pins).held = false
      ∧ (s.start pins).pins = pins ∧ (s.start pins).cause = s.cause
      ∧ (s.start pins).bellCount = bellCountOf pins.nsel ∧ (s.start pins).coilBudget = coilBudgetOf pins.csel
      ∧ (s.start pins).lineRate = lineRateOf pins.rate
      ∧ (s.start pins).time = { s.time with crossed := s.wallSecond }
      ∧ (s.start pins).queue = s.queue ∧ (s.start pins).waiting = s.waiting ∧ (s.start pins).coils = s.coils
      ∧ (s.start pins).melodies = s.melodies ∧ (s.start pins).pool = s.pool
      ∧ (s.start pins).playQueue = s.playQueue ∧ (s.start pins).lastId = s.lastId ∧ (s.start pins).tune = s.tune
      ∧ (s.start pins).toll = s.toll ∧ (s.start pins).live = s.live ∧ (s.start pins).draft = s.draft
      ∧ (s.start pins).stamps = s.stamps ∧ (s.start pins).hold = s.hold ∧ (s.start pins).quiet = s.quiet
      ∧ (s.start pins).supply = (if pins.supgood then .recovering s.now else .dip s.now)
      ∧ (s.start pins).store = s.store ∧ (s.start pins).image = s.image := by
  and_intros <;> rfl

/-- R174: what a warm reset leaves alone, and what it clears. -/
@[simp] theorem State.warm_frame (s : State) (cause : ResetCause) :
    (s.warm cause).pending = s.pending ∧ (s.warm cause).choices = s.choices ∧ (s.warm cause).held = s.held
      ∧ (s.warm cause).pins = s.pins ∧ (s.warm cause).cause = cause ∧ (s.warm cause).bellCount = s.bellCount
      ∧ (s.warm cause).coilBudget = s.coilBudget ∧ (s.warm cause).lineRate = s.lineRate
      ∧ (s.warm cause).time = s.time.warm ∧ (s.warm cause).queue = [] ∧ (s.warm cause).waiting = []
      ∧ (s.warm cause).coils = [] ∧ (s.warm cause).pool = s.pool ∧ (s.warm cause).playQueue = []
      ∧ (s.warm cause).lastId = s.lastId ∧ (s.warm cause).tune = none ∧ (s.warm cause).toll = none
      ∧ (s.warm cause).live = s.live ∧ (s.warm cause).draft = s.draft ∧ (s.warm cause).stamps = s.stamps
      ∧ (s.warm cause).hold = s.hold ∧ (s.warm cause).quiet = s.quiet
      ∧ (s.warm cause).supply = .recovering s.now ∧ (s.warm cause).serial = { mask := s.serial.mask }
      ∧ (s.warm cause).store = s.store.cut ∧ (s.warm cause).image = s.image := by
  and_intros <;> rfl

/-- R96: the load of a melody changes no field but melodies and pool. -/
theorem State.loadMelody_frame (contents : StoreContents) (s : State) (m : Nat) :
    State.loadMelody contents s m =
      { s with
        melodies := (State.loadMelody contents s m).melodies, pool := (State.loadMelody contents s m).pool } := by
  unfold State.loadMelody
  split
  · rfl
  · split
    · rfl
    · rename_i h
      rw [appendAll_frame _ _ _ _ h]
      rfl

/-- R96: the load of the melodies changes no field but melodies and pool. -/
theorem State.loadMelodies_frame (contents : StoreContents) (ms : List Nat) (s : State) :
    ms.foldl (State.loadMelody contents) s =
      { s with
        melodies := (ms.foldl (State.loadMelody contents) s).melodies
        pool := (ms.foldl (State.loadMelody contents) s).pool } := by
  induction ms generalizing s with
  | nil => rfl
  | cons m rest ih =>
    rw [List.foldl_cons, ih, State.loadMelody_frame contents s m]

/-- R194: what a load from a good image writes, and what it leaves alone. -/
theorem State.loadContents_frame (s : State) (contents : StoreContents) :
    s.loadContents contents =
      { s with
        bells := contents.bells.map (fun (cal, flag) => Bell.powerOn cal.clamped flag)
        live := contents.schedule, draft := contents.schedule, quiet := contents.quiet
        cues := contents.cues.map (fun c => { config := c, settled := true })
        time := { s.time with source := contents.source, sync := contents.source.startState }
        serial := { s.serial with mask := contents.mask }
        store := .good
        melodies := (s.loadContents contents).melodies, pool := (s.loadContents contents).pool } := by
  unfold State.loadContents
  dsimp only
  rw [State.loadMelodies_frame]

/-! ## The bells -/

theorem State.BellsSound.start {s : State} (h : s.BellsSound) (pins : Pins) : (s.start pins).BellsSound :=
  AllSlots.ofFn _ fun i => (AllSlots.get h i).stuck _

theorem State.BellsSound.warm {s : State} (h : s.BellsSound) (cause : ResetCause) : (s.warm cause).BellsSound :=
  AllSlots.map _ h fun _ hr => hr.noWindow.stuck _

theorem State.BellsSound.blank : State.blank.BellsSound :=
  AllSlots.replicate 64 _ (Bell.powerOn_sound Calibration.default_inBounds false)

theorem State.BellsSound.load {s : State} (h : s.BellsSound) : s.load.BellsSound := by
  unfold State.load
  split
  · exact h.congr rfl
  · exact h.congr rfl
  · split
    · rw [State.loadContents_frame]
      exact AllSlots.map (P := fun _ => True) _ (fun _ _ => trivial) fun x _ =>
        Bell.powerOn_sound (Calibration.clamped_inBounds _) _
    · exact h.congr rfl

theorem State.BellsSound.powerOn (s : State) (pins : Pins) : (s.powerOn pins).BellsSound := by
  refine State.BellsSound.start (State.BellsSound.load ?_) pins
  exact State.BellsSound.blank.congr rfl

theorem State.BellsSound.reset : State.reset.BellsSound := State.BellsSound.blank.congr rfl

/-- The blocks at rest depend on these fields alone. -/
theorem State.AtRest.congr {s t : State} (h : s.AtRest) (coils : t.coils = s.coils) (queue : t.queue = s.queue)
    (waiting : t.waiting = s.waiting) (playQueue : t.playQueue = s.playQueue) (tune : t.tune = s.tune)
    (toll : t.toll = s.toll) (bells : t.bells = s.bells) (input : t.serial.input = s.serial.input) : t.AtRest where
  coils := coils ▸ h.coils
  queue := queue ▸ h.queue
  waiting := waiting ▸ h.waiting
  playQueue := playQueue ▸ h.playQueue
  tune := tune ▸ h.tune
  toll := toll ▸ h.toll
  windows := by rw [bells]; exact h.windows
  input := input ▸ h.input

/-- R195: the RESET line's fall puts the blocks at rest. -/
theorem State.AtRest.warm (s : State) (cause : ResetCause) : (s.warm cause).AtRest where
  coils := rfl
  queue := rfl
  waiting := rfl
  playQueue := rfl
  tune := rfl
  toll := rfl
  windows := AllSlots.map (P := fun _ => True) _ (fun _ _ => trivial) fun _ _ => ⟨rfl, rfl⟩
  input := rfl

end Sys2Proof.Machine
end

