-- ==== Sys2Proof/Laws/Dispatcher.lean ====
section
/-! SUPPORT. The dispatcher: the order of its lists, what its decision can be and what a firing does, and its bounds kept
by every edit. -/

namespace Sys2Proof.Machine

/-! ## Order -/

section Order

variable {α : Type} {before : α → α → Bool}

theorem length_insertBy (e : α) (xs : List α) : (insertBy before e xs).length = xs.length + 1 := by
  induction xs with
  | nil => rfl
  | cons x rest ih =>
    unfold insertBy
    split <;> simp [ih]

theorem mem_insertBy (e a : α) (xs : List α) : a ∈ insertBy before e xs ↔ a = e ∨ a ∈ xs := by
  induction xs with
  | nil => simp [insertBy]
  | cons x rest ih =>
    unfold insertBy
    split
    · simp
    · simp [ih, or_left_comm]

/-- An insertion puts one element among the others. -/
theorem insertBy_perm (e : α) (xs : List α) : (insertBy before e xs).Perm (e :: xs) := by
  induction xs with
  | nil => exact .refl _
  | cons x rest ih =>
    unfold insertBy
    split
    · exact .refl _
    · exact (ih.cons x).trans (.swap e x rest)

theorem countP_insertBy (p : α → Bool) (e : α) (xs : List α) :
    (insertBy before e xs).countP p = (e :: xs).countP p := (insertBy_perm e xs).countP_eq p

/-- An insertion keeps the order, if the order is one. -/
theorem InOrder.insertBy (irrefl : ∀ a, before a a = false)
    (trans : ∀ a b c, before a b = true → before b c = true → before a c = true) {xs : List α}
    (h : InOrder before xs) (e : α) : InOrder before (insertBy before e xs) := by
  induction xs with
  | nil => exact List.pairwise_singleton ..
  | cons x rest ih =>
    obtain ⟨hx, hrest⟩ := List.pairwise_cons.mp h
    unfold Machine.insertBy
    split
    · rename_i hb
      refine List.pairwise_cons.mpr ⟨fun y hy => ?_, h⟩
      rcases List.mem_cons.mp hy with rfl | hy
      · exact Bool.eq_false_iff.mpr fun c => absurd (trans _ _ _ hb c) (by simp [irrefl])
      · exact Bool.eq_false_iff.mpr fun c => absurd (trans _ _ _ c hb) (by simp [hx y hy])
    · rename_i hb
      refine List.pairwise_cons.mpr ⟨fun y hy => ?_, ih hrest⟩
      rcases (mem_insertBy e y rest).mp hy with rfl | hy
      · simpa using hb
      · exact hx y hy

theorem InOrder.filter {xs : List α} (h : InOrder before xs) (p : α → Bool) : InOrder before (xs.filter p) :=
  List.Pairwise.sublist List.filter_sublist h

theorem InOrder.tail {x : α} {xs : List α} (h : InOrder before (x :: xs)) : InOrder before xs :=
  (List.pairwise_cons.mp h).2

end Order

theorem Entry.firesBefore_irrefl (a : Entry) : a.firesBefore a = false := by simp [Entry.firesBefore]

theorem Entry.firesBefore_trans (a b c : Entry) (h : a.firesBefore b = true) (k : b.firesBefore c = true) :
    a.firesBefore c = true := by
  simp only [Entry.firesBefore, Bool.or_eq_true, Bool.and_eq_true, decide_eq_true_eq, beq_iff_eq] at *
  omega

theorem Entry.grantedBefore_irrefl (a : Entry) : a.grantedBefore a = false := by simp [Entry.grantedBefore]

theorem Entry.grantedBefore_trans (a b c : Entry) (h : a.grantedBefore b = true) (k : b.grantedBefore c = true) :
    a.grantedBefore c = true := by
  simp only [Entry.grantedBefore, Bool.or_eq_true, Bool.and_eq_true, decide_eq_true_eq, beq_iff_eq] at *
  omega

/-! ## The decision (R46 to R50, R55) -/

/-- A decision to fire: health and supply allow the entry, the bell is ready, a place is free or granted, and the level
is the one the heat affords. -/
theorem State.decide_fire {s : State} {e : Entry} {granted : Bool} {level : Nat}
    (h : s.decide e granted = .fire level) :
    healthBars (s.bell e.bell).health e.origin = false ∧ s.supply = .good ∧ (s.bell e.bell).ready ≤ s.now
      ∧ (granted = true ∨ s.coils.length < s.coilBudget)
      ∧ (s.bell e.bell).affordable ((s.bell e.bell).refilled s.now) e.level = some level := by
  unfold State.decide at h
  dsimp only at h
  split at h
  · cases h
  · rename_i h1
    split at h
    · cases h
    · rename_i h2
      split at h
      · split at h <;> cases h
      · rename_i h3
        split at h
        · split at h <;> cases h
        · rename_i h4
          split at h
          · cases h
          · rename_i l hl
            simp only [Decision.fire.injEq] at h
            refine ⟨by simpa using h1, by simpa [State.supplyGood] using h2, by omega, ?_, h ▸ hl⟩
            simp only [Bool.and_eq_true, Bool.not_eq_true', decide_eq_true_eq, not_and, Nat.not_le] at h4
            cases granted
            · exact .inr (h4 rfl)
            · exact .inl rfl

/-- The bell record after a miss: MISS counted, the window closed, and a supply-clean miss taken into the health. -/
theorem State.bell_miss (s : State) (b a : Nat) (w : Window) :
    (s.miss b w).bell a =
      if a = b ∧ 1 ≤ b ∧ b ≤ 64 then
        let r : Bell :=
          { s.bell b with
            counters := { (s.bell b).counters with miss := bump16 (s.bell b).counters.miss }, window := none }
        if w.clean then r.afterMiss else r
      else s.bell a := by
  have moved (r : Bell) : (s.moveBell b r).bells = (s.setBell b r).bells := by
    unfold State.moveBell State.reportHealth
    split <;> simp
  exact (State.bell_congr (moved _) a).trans (s.bell_setBell ..)

/-- A miss moves the health and the consecutive counts of a record and nothing else. -/
theorem Bell.afterMiss_frame (r : Bell) :
    r.afterMiss.cal = r.cal ∧ r.afterMiss.ready = r.ready ∧ r.afterMiss.bucket = r.bucket
      ∧ r.afterMiss.stamp = r.stamp ∧ r.afterMiss.window = r.window := by
  unfold Bell.afterMiss
  split
  · simp
  · split <;> simp
  · simp
  · simp

/-- The record that the judgement of an old window leaves: as ready, and as able to afford a level, as before. -/
theorem State.bell_closeOldWindow (s : State) (b : Nat) :
    ((s.closeOldWindow b).bell b).cal = (s.bell b).cal ∧ ((s.closeOldWindow b).bell b).ready = (s.bell b).ready
      ∧ ((s.closeOldWindow b).bell b).bucket = (s.bell b).bucket
      ∧ ((s.closeOldWindow b).bell b).stamp = (s.bell b).stamp := by
  unfold State.closeOldWindow
  split
  · simp
  · rw [State.bell_miss]
    split
    · dsimp only
      split
      · simp [Bell.afterMiss_frame]
      · simp
    · simp

/-- The heat search reads the pulse widths alone. -/
theorem Bell.affordable_congr {r q : Bell} (h : q.cal = r.cal) (bucket level : Nat) :
    q.affordable bucket level = r.affordable bucket level := by
  induction level with
  | zero => rfl
  | succ n ih => rw [Bell.affordable, Bell.affordable, ih, Bell.cost, Bell.cost, Bell.pulse, Bell.pulse, h]

/-- R65: all that the judgement before a decision can do. Where the decision is not to fire, nothing; where it is to
fire, the old window is judged, and what that leaves fires the same level unless its health bars the entry. -/
theorem State.judgeFirst_cases (s : State) (e : Entry) (granted : Bool) :
    ((s.decide e granted).fires = false ∧ s.judgeFirst e granted = s) ∨
      ∃ level, s.decide e granted = .fire level ∧ s.judgeFirst e granted = s.closeOldWindow e.bell ∧
        (s.closeOldWindow e.bell).decide e granted =
          if healthBars ((s.closeOldWindow e.bell).bell e.bell).health e.origin then .drop .fault
          else .fire level := by
  unfold State.judgeFirst
  generalize hd : s.decide e granted = d
  cases d with
  | fire level =>
    refine .inr ⟨level, rfl, rfl, ?_⟩
    obtain ⟨bars, supply, ready, free, heat⟩ := State.decide_fire hd
    obtain ⟨cal, due, bucket, stamp⟩ := s.bell_closeOldWindow e.bell
    have full : (s.closeOldWindow e.bell).supply = s.supply ∧ (s.closeOldWindow e.bell).now = s.now
        ∧ (s.closeOldWindow e.bell).coils = s.coils ∧ (s.closeOldWindow e.bell).coilBudget = s.coilBudget :=
      ⟨by simp, State.now_congr (by simp), by simp, by simp⟩
    have same : ((s.closeOldWindow e.bell).bell e.bell).refilled s.now = (s.bell e.bell).refilled s.now := by
      rw [Bell.refilled, Bell.refilled, cal, bucket, stamp]
    have room : (!granted && Decidable.decide (s.coilBudget ≤ s.coils.length)) = false := by
      rcases free with rfl | h
      · rfl
      · simp [Nat.not_le.2 h]
    unfold State.decide
    dsimp only
    split
    · rfl
    · simp only [State.supplyGood, full, due, same, Bell.affordable_congr cal, heat, supply, room, beq_self_eq_true,
        Bool.not_true, Bool.false_eq_true, if_false, if_neg (Nat.not_lt.2 ready)]
  | _ => exact .inl ⟨rfl, rfl⟩

/-- A decision to wait: every place of the coil budget is taken, and the place was not granted. -/
theorem State.decide_wait {s : State} {e : Entry} {granted : Bool} (h : s.decide e granted = .wait) :
    granted = false ∧ s.coilBudget ≤ s.coils.length := by
  unfold State.decide at h
  dsimp only at h
  split at h
  · cases h
  · split at h
    · cases h
    · split at h
      · split at h <;> cases h
      · split at h
        · rename_i h4
          simpa using h4
        · split at h <;> cases h

/-- R37: the level found is at most the entry's, the bucket covers its cost, and covers no cost above it. -/
theorem Bell.affordable_some {r : Bell} {bucket top level : Nat} (h : r.affordable bucket top = some level) :
    1 ≤ level ∧ level ≤ top ∧ r.cost level ≤ bucket ∧ ∀ k, level < k → k ≤ top → bucket < r.cost k := by
  induction top with
  | zero => cases h
  | succ top ih =>
    unfold Bell.affordable at h
    split at h
    · simp only [Option.some.injEq] at h
      subst h
      exact ⟨by omega, by omega, ‹_›, fun k _ _ => by omega⟩
    · obtain ⟨h1, h2, h3, h4⟩ := ih h
      refine ⟨h1, by omega, h3, fun k hk hk' => ?_⟩
      by_cases e : k = top + 1
      · subst e
        omega
      · exact h4 k hk (by omega)

/-- R37: no level is found exactly when the bucket covers no cost from 1 to the entry's level. -/
theorem Bell.affordable_none {r : Bell} {bucket top : Nat} :
    r.affordable bucket top = none ↔ ∀ k, 1 ≤ k → k ≤ top → bucket < r.cost k := by
  induction top with
  | zero => simp [Bell.affordable]; omega
  | succ top ih =>
    unfold Bell.affordable
    split
    · rename_i h
      simp only [reduceCtorEq, false_iff, not_forall, Nat.not_lt]
      exact ⟨top + 1, by omega, by omega, h⟩
    · rename_i h
      rw [ih]
      constructor
      · intro g k hk hk'
        by_cases e : k = top + 1
        · subst e
          omega
        · exact g k hk (by omega)
      · exact fun g k hk hk' => g k hk (by omega)

/-! ## What a firing and a drop write -/

/-- R51: the coil a firing adds. -/
@[simp] theorem State.fire_coils (s : State) (e : Entry) (level : Nat) :
    (s.fire e level).coils =
      s.coils ++ [{
        bell := e.bell
        release := s.now + ((s.refill e.bell).bell e.bell).pulse level
        origin := e.origin }] := by
  simp [State.fire, State.now]

/-- R56: a drop adds no coil. -/
theorem State.carryOut_coils {s : State} {e : Entry} {d : Decision} (h : ∀ level, d ≠ .fire level) :
    (s.carryOut e d).coils = s.coils := by
  unfold State.carryOut
  split <;> first | (simp; done) | exact absurd rfl (h _)

/-- What a decision does to the lists. -/
theorem State.carryOut_lists (s : State) (e : Entry) (d : Decision) :
    ((s.carryOut e d).queue = s.queue ∧ (s.carryOut e d).waiting = s.waiting)
      ∨ (d = .reinsert ∧ (s.carryOut e d).queue
          = insertBy Entry.firesBefore { e with fire := (s.bell e.bell).ready, slipped := true } s.queue
          ∧ (s.carryOut e d).waiting = s.waiting)
      ∨ (d = .wait ∧ (s.carryOut e d).queue = s.queue
          ∧ (s.carryOut e d).waiting = insertBy Entry.grantedBefore { e with slipped := true } s.waiting) := by
  unfold State.carryOut
  split
  · exact .inl (by simp)
  · exact .inl (by simp)
  · exact .inr (.inl ⟨rfl, by simp [State.bell, State.enqueue]⟩)
  · exact .inr (.inr ⟨rfl, by simp⟩)
  · exact .inl (by simp)

/-! ## The bounds -/

theorem State.DispatcherSound.congr {s t : State} (h : s.DispatcherSound) (queue : t.queue = s.queue)
    (waiting : t.waiting = s.waiting) (coils : t.coils = s.coils) (budget : t.coilBudget = s.coilBudget)
    (count : t.bellCount = s.bellCount) : t.DispatcherSound where
  slots := by rw [queue, waiting]; exact h.slots
  fitted := by rw [queue, waiting, count]; exact h.fitted
  queue := by rw [queue]; exact h.queue
  waiting := by rw [waiting]; exact h.waiting
  budget := by rw [coils, budget]; exact h.budget
  full := by rw [waiting, coils, budget]; exact h.full

/-- With nothing at the dispatcher its bounds hold. -/
theorem State.DispatcherSound.empty {s : State} (queue : s.queue = []) (waiting : s.waiting = [])
    (coils : s.coils = []) : s.DispatcherSound where
  slots := by simp [queue, waiting]
  fitted := by simp [queue, waiting]
  queue := by rw [queue]; exact List.Pairwise.nil
  waiting := by rw [waiting]; exact List.Pairwise.nil
  budget := by simp [coils]
  full := by simp [waiting]

/-- R44: an insertion where a slot is free. -/
theorem State.DispatcherSound.enqueue {s : State} (h : s.DispatcherSound) (e : Entry)
    (room : s.queue.length + s.waiting.length < 64) (named : 1 ≤ e.bell ∧ e.bell ≤ s.bellCount) :
    (s.enqueue e).DispatcherSound where
  slots := by
    simp only [State.enqueue_frame, length_insertBy]
    omega
  fitted := by
    intro x hx
    simp only [State.enqueue_frame, List.mem_append, mem_insertBy] at hx ⊢
    obtain (rfl | hx) | hx := hx
    · exact named
    · exact h.fitted x (List.mem_append_left _ hx)
    · exact h.fitted x (List.mem_append_right _ hx)
  queue := by
    rw [State.enqueue]
    exact h.queue.insertBy Entry.firesBefore_irrefl Entry.firesBefore_trans e
  waiting := h.waiting
  budget := h.budget
  full := h.full

/-- An entry that has left its list joins the coil-wait list where the budget is full. -/
theorem State.DispatcherSound.joinWaiting {s : State} (h : s.DispatcherSound) (e : Entry)
    (room : s.queue.length + s.waiting.length < 64) (named : 1 ≤ e.bell ∧ e.bell ≤ s.bellCount)
    (full : s.coilBudget ≤ s.coils.length) : (s.joinWaiting e).DispatcherSound where
  slots := by
    simp only [State.joinWaiting_frame, length_insertBy]
    omega
  fitted := by
    intro x hx
    simp only [State.joinWaiting_frame, List.mem_append, mem_insertBy] at hx ⊢
    obtain hx | rfl | hx := hx
    · exact h.fitted x (List.mem_append_left _ hx)
    · exact named
    · exact h.fitted x (List.mem_append_right _ hx)
  queue := h.queue
  waiting := h.waiting.insertBy Entry.grantedBefore_irrefl Entry.grantedBefore_trans e
  budget := h.budget
  full := fun _ => full

/-- A decision about an entry that has left its list, with its slot free behind it. -/
theorem State.DispatcherSound.carryOut {s : State} (h : s.DispatcherSound) (e : Entry) {d : Decision}
    (room : s.queue.length + s.waiting.length < 64) (named : 1 ≤ e.bell ∧ e.bell ≤ s.bellCount) (place : ∀ level, d = .fire level → s.coils.length < s.coilBudget)
    (wait : d = .wait → s.coilBudget ≤ s.coils.length) : (s.carryOut e d).DispatcherSound := by
  unfold State.carryOut
  split
  · exact h.congr (by simp) (by simp) (by simp) (by simp) (by simp)
  · exact h.congr (by simp) (by simp) (by simp) (by simp) (by simp)
  · exact (h.congr (t := s.countSlip e) (by simp) (by simp) (by simp) (by simp) (by simp)).enqueue _
      (by simpa using room) (by simpa using named)
  · exact (h.congr (t := s.countSlip e) (by simp) (by simp) (by simp) (by simp) (by simp)).joinWaiting _
      (by simpa using room) (by simpa using named) (by simpa using wait rfl)
  · rename_i level
    have := place level rfl
    exact
      { slots := by simpa using h.slots
        fitted := by simpa using h.fitted
        queue := by simpa using h.queue
        waiting := by simpa using h.waiting
        budget := by simp; omega
        full := by
          intro hw
          have := h.full (by simpa using hw)
          simp
          omega }

/-- R65: the judgement of an old window touches no list. -/
theorem State.DispatcherSound.judgeFirst {s : State} (h : s.DispatcherSound) (e : Entry) (granted : Bool) :
    (s.judgeFirst e granted).DispatcherSound :=
  h.congr (by simp) (by simp) (by simp) (by simp) (by simp)

theorem State.DispatcherSound.dispatchHead {s : State} (h : s.DispatcherSound) : s.dispatchHead.DispatcherSound := by
  unfold State.dispatchHead
  split
  · exact h
  · rename_i e rest hq
    dsimp only
    have slots := h.slots
    rw [hq, List.length_cons] at slots
    have fitted := h.fitted
    rw [hq] at fitted
    have base : State.DispatcherSound { s with queue := rest } :=
      { slots := by dsimp only; omega
        fitted := fun x hx => fitted x (List.mem_cons_of_mem _ hx)
        queue := InOrder.tail (hq ▸ h.queue)
        waiting := h.waiting
        budget := h.budget
        full := h.full }
    refine (base.judgeFirst e false).carryOut e ?_ ?_ ?_ ?_
    · simp
      omega
    · simpa using fitted e (by simp)
    · intro level hl
      obtain ⟨-, -, -, c | c, -⟩ := State.decide_fire hl
      · cases c
      · exact c
    · exact fun hw => (State.decide_wait hw).2

/-- The grant of a free place to the entries of a list, which share the slots with the queue. -/
theorem State.DispatcherSound.grantFrom {s : State} (l : List Entry) (slots : s.queue.length + l.length ≤ 64)
    (fitted : ∀ e ∈ s.queue ++ l, 1 ≤ e.bell ∧ e.bell ≤ s.bellCount) (queue : InOrder Entry.firesBefore s.queue)
    (waiting : InOrder Entry.grantedBefore l) (place : s.coils.length < s.coilBudget)
    (full : l ≠ [] → s.coils.length + 1 = s.coilBudget) (held : s.waiting = l) : (s.grantFrom l).DispatcherSound := by
  induction l generalizing s with
  | nil => exact ⟨by simpa [State.grantFrom, held] using slots, by simpa [State.grantFrom, held] using fitted, queue,
      by rw [State.grantFrom, held]; exact waiting, Nat.le_of_lt place, fun h => absurd held h⟩
  | cons e rest ih =>
    unfold State.grantFrom
    dsimp only
    rw [List.length_cons] at slots
    have at_budget := full (by simp)
    have named := fitted e (by simp)
    have others : ∀ x ∈ s.queue ++ rest, 1 ≤ x.bell ∧ x.bell ≤ s.bellCount := fun x hx =>
      fitted x (by simp only [List.mem_append, List.mem_cons] at hx ⊢; tauto)
    set u : State := State.judgeFirst { s with waiting := rest } e true with hu
    split
    · refine ⟨?_, ?_, ?_, ?_, ?_, ?_⟩
      · simp [hu]
        omega
      · simpa [hu] using others
      · simpa [hu] using queue
      · simpa [hu] using waiting.tail
      · simp [hu]
        omega
      · simp [hu]
        omega
    · rename_i d hd
      have keep : (u.carryOut e (u.decide e true)).coils = s.coils := by
        rw [State.carryOut_coils hd]
        simp [hu]
      have not_wait : u.decide e true ≠ .wait := fun c => by simpa using (State.decide_wait c).1
      have budget : (u.carryOut e (u.decide e true)).coilBudget = s.coilBudget := by simp [hu]
      have count : (u.carryOut e (u.decide e true)).bellCount = s.bellCount := by simp [hu]
      have uq : u.queue = s.queue := by simp [hu]
      have uw : u.waiting = rest := by simp [hu]
      have free : (u.carryOut e (u.decide e true)).coils.length < (u.carryOut e (u.decide e true)).coilBudget := by
        rw [keep, budget]
        exact place
      have last : rest ≠ [] →
          (u.carryOut e (u.decide e true)).coils.length + 1 = (u.carryOut e (u.decide e true)).coilBudget := by
        rw [keep, budget]
        exact fun _ => at_budget
      obtain ⟨hq, hw⟩ | ⟨-, hq, hw⟩ | ⟨c, -⟩ := State.carryOut_lists u e (u.decide e true)
      · refine ih (by rw [hq, uq]; omega) (by rw [hq, uq, count]; exact others) (by rw [hq, uq]; exact queue)
          waiting.tail free last (hw.trans uw)
      · refine ih ?_ ?_ ?_ waiting.tail free last (hw.trans uw)
        · rw [hq, length_insertBy, uq]
          omega
        · rw [hq, uq, count]
          intro x hx
          rw [List.mem_append, mem_insertBy] at hx
          obtain (rfl | hx) | hx := hx
          · exact named
          · exact others x (List.mem_append_left _ hx)
          · exact others x (List.mem_append_right _ hx)
        · rw [hq, uq]
          exact InOrder.insertBy Entry.firesBefore_irrefl Entry.firesBefore_trans queue _
      · exact absurd c not_wait

/-- The release of a coil that has come due frees one place. -/
theorem length_eraseP_of_any {α : Type} {p : α → Bool} {xs : List α} (h : xs.any p = true) :
    (xs.eraseP p).length + 1 = xs.length := by
  obtain ⟨x, hx, hp⟩ := List.any_eq_true.mp h
  have := List.length_eraseP_of_mem hx hp
  have : 0 < xs.length := List.length_pos_of_mem hx
  omega

theorem State.DispatcherSound.releaseCoil {s : State} (h : s.DispatcherSound) (b : Nat) (due : s.coilDue b = true) :
    (s.releaseCoil b).DispatcherSound := by
  have hany : s.coils.any (fun c => c.bell == b && c.release ≤ s.now) = true := by
    simp only [State.coilDue, Bool.and_eq_true] at due
    exact due.2
  have hlen := length_eraseP_of_any hany
  have hb := h.budget
  refine State.DispatcherSound.grantFrom _ h.slots h.fitted h.queue h.waiting ?_ ?_ rfl
  · dsimp only
    omega
  · intro hw
    have := h.full hw
    dsimp only
    omega

theorem State.DispatcherSound.dropAtDeadline {s : State} (h : s.DispatcherSound) (p : Nat) :
    (s.dropAtDeadline p).DispatcherSound := by
  unfold State.dropAtDeadline
  split
  · exact h
  · have sub : (s.waiting.eraseIdx p).Sublist s.waiting := List.eraseIdx_sublist ..
    have slots := h.slots
    have := sub.length_le
    refine ⟨by simp; omega, ?_, by simpa using h.queue, ?_, by simpa using h.budget, ?_⟩
    · simp only [State.drop_frame]
      exact fun x hx => h.fitted x (by
        rw [List.mem_append] at hx ⊢
        exact hx.imp_right fun hm => sub.subset hm)
    · simp only [State.drop_frame]
      exact List.Pairwise.sublist sub h.waiting
    · simp only [State.drop_frame]
      intro hw
      refine h.full fun c => hw ?_
      rw [c]
      rfl

@[simp] theorem State.removeOrigin_queue (s : State) (o : Origin) :
    (s.removeOrigin o).queue = s.queue.filter (fun e => e.origin != o) := by
  unfold State.removeOrigin
  dsimp only
  rw [dropAll_frame]

@[simp] theorem State.removeOrigin_waiting (s : State) (o : Origin) :
    (s.removeOrigin o).waiting = s.waiting.filter (fun e => e.origin != o) := by
  unfold State.removeOrigin
  dsimp only
  rw [dropAll_frame]

theorem State.DispatcherSound.removeOrigin {s : State} (h : s.DispatcherSound) (o : Origin) :
    (s.removeOrigin o).DispatcherSound := by
  have slots := h.slots
  have hq : (s.queue.filter (fun e => e.origin != o)).length ≤ s.queue.length := List.length_filter_le ..
  have hw : (s.waiting.filter (fun e => e.origin != o)).length ≤ s.waiting.length := List.length_filter_le ..
  refine ⟨by simp only [State.removeOrigin_queue, State.removeOrigin_waiting]; omega, ?_, ?_, ?_, ?_, ?_⟩
  · simp only [State.removeOrigin_queue, State.removeOrigin_waiting, State.removeOrigin_frame, ← List.filter_append]
    exact fun x hx => h.fitted x (List.mem_filter.mp hx).1
  · rw [State.removeOrigin_queue]
    exact h.queue.filter _
  · rw [State.removeOrigin_waiting]
    exact h.waiting.filter _
  · simpa using h.budget
  · simp only [State.removeOrigin_waiting, State.removeOrigin_frame]
    intro c
    refine h.full fun n => c ?_
    rw [n]
    rfl

/-- The edits of the lanes and the cues keep the dispatcher's bounds. -/
theorem State.DispatcherSound.edits {s t : State} (h : s.DispatcherSound) (e : s.Edits t) : t.DispatcherSound := by
  refine State.Edits.keeps (P := State.DispatcherSound) e ?_ ?_ ?_ ?_ ?_ ?_ ?_ ?_ ?_ ?_ ?_ ?_ ?_ ?_ ?_ h
  · exact fun _ h => h.congr rfl rfl rfl rfl rfl
  · exact fun _ _ _ h => h.congr (by simp) (by simp) (by simp) (by simp) (by simp)
  · exact fun _ _ _ h => h.congr (by simp) (by simp) (by simp) (by simp) (by simp)
  · exact fun s e free named h => h.enqueue e (of_decide_eq_true free) named
  · exact fun _ o h => h.removeOrigin o
  · exact fun _ h => h.congr (by simp) (by simp) (by simp) (by simp) (by simp)
  · exact fun _ h => h.congr (by simp) (by simp) (by simp) (by simp) (by simp)
  · exact fun _ _ _ h => h.congr (by simp) (by simp) (by simp) (by simp) (by simp)
  · exact fun _ _ h => h.congr (by simp) (by simp) (by simp) (by simp) (by simp)
  · exact fun _ _ h => h.congr (by simp) (by simp) (by simp) (by simp) (by simp)
  · exact fun _ _ _ h => h.congr (by simp) (by simp) (by simp) (by simp) (by simp)
  · exact fun _ _ _ h => h.congr (by simp) (by simp) (by simp) (by simp) (by simp)
  · exact fun _ _ _ h => h.congr (by simp) (by simp) (by simp) (by simp) (by simp)
  · exact fun _ h => h.congr (by simp) (by simp) (by simp) (by simp) (by simp)
  · exact fun _ _ _ h => h.congr (by simp) (by simp) (by simp) (by simp) (by simp)

end Sys2Proof.Machine
end

