-- ==== Sys2Proof/Laws/Summaries.lean ====
section
/-! SUPPORT. The dispatcher reaches the lanes only through their summaries (R58): said once for each of its operations. -/

namespace Sys2Proof.Machine

/-- The lanes of `t` are those of `s` but for their summaries. -/
structure State.Tallied (s t : State) : Prop where
  tune : ∃ f : Summary → Summary, t.tune = s.tune.map fun l => { l with summary := f l.summary }
  toll : ∃ f : Summary → Summary, t.toll = s.toll.map fun l => { l with summary := f l.summary }

theorem State.Tallied.congr {s t : State} (tune : t.tune = s.tune) (toll : t.toll = s.toll) : s.Tallied t where
  tune := ⟨id, by rw [tune]; cases s.tune <;> rfl⟩
  toll := ⟨id, by rw [toll]; cases s.toll <;> rfl⟩

theorem State.Tallied.trans {s t u : State} (a : s.Tallied t) (b : t.Tallied u) : s.Tallied u := by
  obtain ⟨⟨f, hf⟩, f', hf'⟩ := a
  obtain ⟨⟨g, hg⟩, g', hg'⟩ := b
  refine ⟨⟨g ∘ f, ?_⟩, ⟨g' ∘ f', ?_⟩⟩
  · rw [hg, hf]
    cases s.tune <;> rfl
  · rw [hg', hf']
    cases s.toll <;> rfl

theorem State.Tallied.tally (s : State) (o : Origin) (f : Summary → Summary) : s.Tallied (s.tally o f) := by
  have same : ∀ t : State, t.tune = s.tune → t.toll = s.toll → s.Tallied t := fun _ => .congr
  cases o
  · exact ⟨⟨f, rfl⟩, (same s rfl rfl).toll⟩
  · exact ⟨(same s rfl rfl).tune, ⟨f, rfl⟩⟩
  · exact same s rfl rfl
  · exact same s rfl rfl

theorem State.Tallied.drop (s : State) (e : Entry) (reason : DropReason) : s.Tallied (s.drop e reason) := by
  refine .trans (.congr ?_ ?_) (.tally _ _ _)
  · rfl
  · rfl

theorem State.Tallied.countSlip (s : State) (e : Entry) : s.Tallied (s.countSlip e) := by
  unfold State.countSlip
  split
  · exact .congr rfl rfl
  · refine .trans (.congr ?_ ?_) (.tally _ _ _)
    · rfl
    · rfl

theorem State.Tallied.fire (s : State) (e : Entry) (level : Nat) : s.Tallied (s.fire e level) := by
  unfold State.fire
  refine .trans (.congr ?_ ?_) (.tally _ _ _)
  · simp
  · simp

theorem State.Tallied.carryOut (s : State) (e : Entry) (d : Decision) : s.Tallied (s.carryOut e d) := by
  unfold State.carryOut
  split
  · refine .trans (.congr ?_ ?_) (.drop _ _ _)
    · rfl
    · rfl
  · exact .drop _ _ _
  · refine .trans (.countSlip s e) (.congr ?_ ?_)
    · rfl
    · rfl
  · refine .trans (.countSlip s e) (.congr ?_ ?_)
    · rfl
    · rfl
  · exact .fire _ _ _

theorem State.Tallied.dispatchHead (s : State) : s.Tallied s.dispatchHead := by
  unfold State.dispatchHead
  split
  · exact .congr rfl rfl
  · refine .trans (.congr ?_ ?_) (.carryOut _ _ _)
    · simp
    · simp

theorem State.Tallied.grantFrom (xs : List Entry) (s : State) : s.Tallied (s.grantFrom xs) := by
  induction xs generalizing s with
  | nil => exact .congr rfl rfl
  | cons e rest ih =>
    unfold State.grantFrom
    dsimp only
    split
    · refine .trans (.congr ?_ ?_) (.fire _ _ _)
      · simp
      · simp
    · refine .trans (.trans (.congr ?_ ?_) (.carryOut _ _ _)) (ih _)
      · simp
      · simp

theorem State.Tallied.releaseCoil (s : State) (b : Nat) : s.Tallied (s.releaseCoil b) := by
  unfold State.releaseCoil State.grant
  refine .trans (.congr ?_ ?_) (.grantFrom _ _)
  · rfl
  · rfl

theorem State.Tallied.dropAtDeadline (s : State) (place : Nat) : s.Tallied (s.dropAtDeadline place) := by
  unfold State.dropAtDeadline
  split
  · exact .congr rfl rfl
  · refine .trans (.congr ?_ ?_) (.drop _ _ _)
    · rfl
    · rfl

theorem State.Tallied.removeOrigin (s : State) (o : Origin) : s.Tallied (s.removeOrigin o) := by
  have all : ∀ (gone : List Entry) (s : State), s.Tallied (gone.foldl (fun s e => s.drop e .stop) s) := by
    intro gone
    induction gone with
    | nil => exact fun _ => .congr rfl rfl
    | cons e rest ih => exact fun s => .trans (.drop s e .stop) (ih _)
  refine .trans (.congr ?_ ?_) (all _ _)
  · rfl
  · rfl

/-- What each lane asks for is not a matter of its summary. -/
theorem State.Tallied.requests {s t : State} (h : s.Tallied t) :
    t.tune.map (·.request) = s.tune.map (·.request) ∧ t.toll.map (·.request) = s.toll.map (·.request) := by
  obtain ⟨⟨f, hf⟩, g, hg⟩ := h
  rw [hf, hg]
  cases s.tune <;> cases s.toll <;> exact ⟨rfl, rfl⟩

end Sys2Proof.Machine
end

