-- ==== Sys2Proof/Laws/Plays.lean ====
section
/-! SUPPORT. The play queue: request ids, its order, and its bounds kept by every edit. -/

namespace Sys2Proof.Machine

/-! ## Order -/

/-- R101: class first, then effective start, then arrival. -/
theorem PlayRequest.queuedBefore_iff (a b : PlayRequest) :
    a.queuedBefore b = true ↔ (a.isToll = true ∧ b.isToll = false)
      ∨ (a.isToll = b.isToll ∧ (a.effective < b.effective ∨ (a.effective = b.effective ∧ a.arrival < b.arrival))) := by
  simp [PlayRequest.queuedBefore]

theorem PlayRequest.queuedBefore_irrefl (a : PlayRequest) : a.queuedBefore a = false := by
  refine Bool.eq_false_iff.mpr fun h => ?_
  rcases a.queuedBefore_iff a |>.mp h with ⟨x, y⟩ | ⟨-, h⟩
  · simp [x] at y
  · omega

theorem PlayRequest.queuedBefore_trans (a b c : PlayRequest) (h : a.queuedBefore b = true)
    (g : b.queuedBefore c = true) : a.queuedBefore c = true := by
  refine (a.queuedBefore_iff c).mpr ?_
  rcases (a.queuedBefore_iff b).mp h with ⟨x, y⟩ | ⟨x, h⟩ <;> rcases (b.queuedBefore_iff c).mp g with ⟨z, w⟩ | ⟨z, g⟩
  · exact .inl ⟨x, w⟩
  · exact .inl ⟨x, z ▸ y⟩
  · exact .inl ⟨x ▸ z, w⟩
  · exact .inr ⟨x.trans z, by omega⟩

theorem PlayRequest.mergesWith_comm (a b : PlayRequest) : a.mergesWith b = b.mergesWith a := by
  unfold PlayRequest.mergesWith
  rw [show (a.source == b.source) = (b.source == a.source) from Bool.beq_comm]
  cases a.start <;> cases b.start <;> simp [Bool.beq_comm]

/-! ## Request ids (R99) -/

/-- R99: with fewer than 255 ids in use the next id is one of 1..255 that is not in use. -/
theorem State.nextId_free {s : State} (room : s.idsInUse.length < 255) :
    s.nextId ∉ s.idsInUse ∧ 1 ≤ s.nextId ∧ s.nextId ≤ 255 := by
  unfold State.nextId
  cases found : ((List.range 255).map (fun i => (s.lastId + i) % 255 + 1)).find? (fun id => !s.idsInUse.contains id) with
  | some id =>
    have fresh := List.find?_some found
    have range := List.mem_of_find?_eq_some found
    simp only [List.mem_map, List.mem_range] at range
    obtain ⟨i, -, rfl⟩ := range
    simp only [List.contains_eq_mem, Bool.not_eq_eq_eq_not, Bool.not_true, decide_eq_false_iff_not] at fresh
    have : (s.lastId + i) % 255 < 255 := Nat.mod_lt _ (by decide)
    exact ⟨fresh, by simp, by simp only [Option.getD_some]; omega⟩
  | none =>
    exfalso
    have used : ((List.range 255).map (fun i => (s.lastId + i) % 255 + 1)) ⊆ s.idsInUse := by
      intro id hid
      have := List.find?_eq_none.mp found id hid
      simpa using this
    have distinct : ((List.range 255).map (fun i => (s.lastId + i) % 255 + 1)).Nodup := by
      refine List.Nodup.map_on ?_ List.nodup_range
      intro a ha b hb e
      simp only [List.mem_range] at ha hb
      omega
    have := (List.subperm_of_subset distinct used).length_le
    simp only [List.length_map, List.length_range] at this
    omega

/-! ## The invariant -/

theorem State.PlaysSound.congr {s t : State} (h : s.PlaysSound) (queue : t.playQueue = s.playQueue)
    (tune : t.tune.map (·.request) = s.tune.map (·.request)) (toll : t.toll.map (·.request) = s.toll.map (·.request))
    (last : t.lastId = s.lastId) : t.PlaysSound := by
  have ids : t.idsInUse = s.idsInUse := by
    have move : ∀ {α : Type} (x : Option α) (f : α → PlayRequest),
        x.toList.map (fun l => (f l).id) = (x.map f).toList.map (·.id) := by
      intro α x f
      cases x <;> rfl
    unfold State.idsInUse
    rw [move t.tune (·.request), move s.tune (·.request), move t.toll (·.request), move s.toll (·.request), queue, tune,
      toll]
  exact
    { room := queue ▸ h.room
      order := queue ▸ h.order
      unmerged := queue ▸ h.unmerged
      distinct := ids ▸ h.distinct
      ids := ids ▸ h.ids
      last := last ▸ h.last }

/-- A state with nothing in its play queue or its lanes. -/
theorem State.PlaysSound.empty {s : State} (queue : s.playQueue = []) (tune : s.tune = none) (toll : s.toll = none)
    (last : s.lastId ≤ 255) : s.PlaysSound where
  room := by simp [queue]
  order := by rw [queue]; exact List.Pairwise.nil
  unmerged := by rw [queue]; exact List.Pairwise.nil
  distinct := by simp [State.idsInUse, queue, tune, toll]
  ids := by simp [State.idsInUse, queue, tune, toll]
  last := last

/-- Requests may leave the queue, and requests of the lanes may go. -/
theorem State.PlaysSound.fewer {s t : State} (h : s.PlaysSound) (queue : t.playQueue.Sublist s.playQueue)
    (ids : t.idsInUse.Sublist s.idsInUse) (last : t.lastId = s.lastId) : t.PlaysSound where
  room := Nat.le_trans queue.length_le h.room
  order := h.order.sublist queue
  unmerged := h.unmerged.sublist queue
  distinct := h.distinct.sublist ids
  ids := fun id hid => h.ids id (ids.subset hid)
  last := last ▸ h.last

theorem State.PlaysSound.unqueue {s : State} (h : s.PlaysSound) (id : Nat) : (s.unqueue id).PlaysSound := by
  refine h.fewer (List.filter_sublist ..) ?_ rfl
  exact ((((List.filter_sublist ..).map _).append (.refl _)).append (.refl _))

/-- R102: what an offer can do: merge, find the queue full, or let the request in with an id that is not in use. -/
theorem State.offer_cases (s : State) (r : PlayRequest) :
    (∃ q ∈ s.playQueue, q.mergesWith r = true ∧ s.offer r = (s, .merged q))
      ∨ ((∀ q ∈ s.playQueue, q.mergesWith r = false) ∧ 16 ≤ s.playQueue.length ∧ s.offer r = (s, .full))
      ∨ (∀ q ∈ s.playQueue, q.mergesWith r = false) ∧ s.playQueue.length < 16
          ∧ s.offer r
            = ({ s with
                  playQueue := insertBy PlayRequest.queuedBefore { r with id := s.nextId } s.playQueue
                  lastId := s.nextId },
                .admitted s.nextId) := by
  unfold State.offer
  split
  · rename_i q hq
    exact .inl ⟨q, List.mem_of_find?_eq_some hq, by simpa using List.find?_some hq, rfl⟩
  · rename_i none
    have apart : ∀ q ∈ s.playQueue, q.mergesWith r = false := by simpa using none
    split
    · exact .inr (.inl ⟨apart, ‹_›, rfl⟩)
    · exact .inr (.inr ⟨apart, by omega, rfl⟩)

theorem State.PlaysSound.offer {s : State} (h : s.PlaysSound) (r : PlayRequest) : (s.offer r).1.PlaysSound := by
  obtain ⟨q, -, -, e⟩ | ⟨-, -, e⟩ | ⟨apart, room, e⟩ := s.offer_cases r
  · rw [e]
    exact h
  · rw [e]
    exact h
  · rw [e]
    have few : s.idsInUse.length < 255 := by
      have tune : s.tune.toList.length ≤ 1 := by cases s.tune <;> simp
      have toll : s.toll.toList.length ≤ 1 := by cases s.toll <;> simp
      simp only [State.idsInUse, List.length_append, List.length_map]
      omega
    obtain ⟨fresh, low, high⟩ := State.nextId_free few
    have put := insertBy_perm (before := PlayRequest.queuedBefore) { r with id := s.nextId } s.playQueue
    suffices fits : ∀ t : State, t.playQueue = insertBy PlayRequest.queuedBefore { r with id := s.nextId } s.playQueue →
        t.tune = s.tune → t.toll = s.toll → t.lastId = s.nextId → t.PlaysSound from fits _ rfl rfl rfl rfl
    intro t queue tune toll last
    have ids : t.idsInUse.Perm (s.nextId :: s.idsInUse) := by
      unfold State.idsInUse
      rw [queue, tune, toll]
      exact ((put.map _).append_right _).append_right _
    rw [← queue] at put
    exact
      { room := by rw [queue, length_insertBy]; omega
        order := by rw [queue]; exact h.order.insertBy PlayRequest.queuedBefore_irrefl PlayRequest.queuedBefore_trans _
        unmerged := by
          refine (put.pairwise_iff fun {a b} e => ?_).mpr (List.pairwise_cons.mpr ⟨fun q hq => ?_, h.unmerged⟩)
          · rw [PlayRequest.mergesWith_comm]
            exact e
          · rw [PlayRequest.mergesWith_comm]
            exact apart q hq
        distinct := ids.nodup_iff.mpr (List.nodup_cons.mpr ⟨fresh, h.distinct⟩)
        ids := by
          intro id hid
          rcases List.mem_cons.mp (ids.mem_iff.mp hid) with rfl | hid
          · exact ⟨low, high⟩
          · exact h.ids id hid
        last := by rw [last]; exact high }

theorem State.PlaysSound.drainTune {s : State} (h : s.PlaysSound) : s.drainTune.PlaysSound := by
  unfold State.drainTune
  split
  · exact h
  · split
    · split
      · refine h.fewer (.refl _) ?_ rfl
        exact ((List.Sublist.refl _).append (by simp)).append (.refl _)
      · exact h
    · exact h

theorem State.PlaysSound.drainToll {s : State} (h : s.PlaysSound) : s.drainToll.PlaysSound := by
  unfold State.drainToll
  split
  · exact h
  · split
    · split
      · refine h.fewer (.refl _) ?_ rfl
        exact (List.Sublist.refl _).append (by simp)
      · exact h
    · exact h

/-- R107, R108: a request that leaves the queue for the IDLE TUNE lane. -/
theorem State.PlaysSound.toTune {s t : State} (h : s.PlaysSound) {r : PlayRequest} (from_ : r ∈ s.playQueue)
    (idle : s.tune = none) (queue : t.playQueue = s.playQueue.filter (fun q => q.id != r.id))
    (lane : t.tune.map (·.request) = some r) (toll : t.toll = s.toll) (last : t.lastId = s.lastId) : t.PlaysSound := by
  have ids : t.idsInUse = (s.playQueue.filter (fun q => q.id != r.id)).map (·.id) ++ [r.id]
      ++ s.toll.toList.map (·.request.id) := by
    have : t.tune.toList.map (·.request.id) = [r.id] := by
      cases e : t.tune with
      | none => simp [e] at lane
      | some l =>
        rw [e] at lane
        simp only [Option.map_some, Option.some.injEq] at lane
        simp [lane]
    unfold State.idsInUse
    rw [queue, toll, this]
  have old : s.idsInUse = s.playQueue.map (·.id) ++ s.toll.toList.map (·.request.id) := by simp [State.idsInUse, idle]
  have part : (s.playQueue.filter (fun q => q.id != r.id)).map (·.id) ⊆ s.playQueue.map (·.id) :=
    ((List.filter_sublist ..).map _).subset
  have member : r.id ∈ s.playQueue.map (·.id) := List.mem_map_of_mem from_
  have distinct := h.distinct
  rw [old, List.nodup_append] at distinct
  obtain ⟨first, second, apart⟩ := distinct
  exact
    { room := by rw [queue]; exact Nat.le_trans (List.length_filter_le ..) h.room
      order := by rw [queue]; exact h.order.sublist (List.filter_sublist ..)
      unmerged := by rw [queue]; exact h.unmerged.sublist (List.filter_sublist ..)
      distinct := by
        rw [ids, List.nodup_append, List.nodup_append]
        refine ⟨⟨first.sublist ((List.filter_sublist ..).map _), List.nodup_singleton _, ?_⟩, second, ?_⟩
        · intro a ha b hb
          simp only [List.mem_singleton] at hb
          subst hb
          simp only [List.mem_map, List.mem_filter, bne_iff_ne] at ha
          obtain ⟨q, ⟨-, hq⟩, rfl⟩ := ha
          exact hq
        · intro a ha
          rcases List.mem_append.mp ha with ha | ha
          · exact apart a (part ha)
          · simp only [List.mem_singleton] at ha
            subst ha
            exact apart _ member
      ids := by
        intro id hid
        refine h.ids id ?_
        rw [ids] at hid
        rw [old]
        simp only [List.mem_append] at hid ⊢
        rcases hid with (hid | hid) | hid
        · exact .inl (part hid)
        · simp only [List.mem_singleton] at hid
          subst hid
          exact .inl member
        · exact .inr hid
      last := last ▸ h.last }

/-- R130, R131: a request that leaves the queue for the IDLE TOLL lane. -/
theorem State.PlaysSound.toToll {s t : State} (h : s.PlaysSound) {r : PlayRequest} (from_ : r ∈ s.playQueue)
    (idle : s.toll = none) (queue : t.playQueue = s.playQueue.filter (fun q => q.id != r.id))
    (lane : t.toll.map (·.request) = some r) (tune : t.tune = s.tune) (last : t.lastId = s.lastId) : t.PlaysSound := by
  have ids : t.idsInUse = (s.playQueue.filter (fun q => q.id != r.id)).map (·.id)
      ++ s.tune.toList.map (·.request.id) ++ [r.id] := by
    have : t.toll.toList.map (·.request.id) = [r.id] := by
      cases e : t.toll with
      | none => simp [e] at lane
      | some l =>
        rw [e] at lane
        simp only [Option.map_some, Option.some.injEq] at lane
        simp [lane]
    unfold State.idsInUse
    rw [queue, tune, this]
  have old : s.idsInUse = s.playQueue.map (·.id) ++ s.tune.toList.map (·.request.id) := by simp [State.idsInUse, idle]
  have part : (s.playQueue.filter (fun q => q.id != r.id)).map (·.id) ⊆ s.playQueue.map (·.id) :=
    ((List.filter_sublist ..).map _).subset
  have member : r.id ∈ s.playQueue.map (·.id) := List.mem_map_of_mem from_
  have distinct := h.distinct
  rw [old, List.nodup_append] at distinct
  obtain ⟨first, second, apart⟩ := distinct
  exact
    { room := by rw [queue]; exact Nat.le_trans (List.length_filter_le ..) h.room
      order := by rw [queue]; exact h.order.sublist (List.filter_sublist ..)
      unmerged := by rw [queue]; exact h.unmerged.sublist (List.filter_sublist ..)
      distinct := by
        rw [ids, List.nodup_append, List.nodup_append]
        refine ⟨⟨first.sublist ((List.filter_sublist ..).map _), second, fun a ha => apart a (part ha)⟩,
          List.nodup_singleton _, ?_⟩
        intro a ha b hb
        simp only [List.mem_singleton] at hb
        subst hb
        rcases List.mem_append.mp ha with ha | ha
        · simp only [List.mem_map, List.mem_filter, bne_iff_ne] at ha
          obtain ⟨q, ⟨-, hq⟩, rfl⟩ := ha
          exact hq
        · exact (apart _ member a ha).symm
      ids := by
        intro id hid
        refine h.ids id ?_
        rw [ids] at hid
        rw [old]
        simp only [List.mem_append] at hid ⊢
        rcases hid with (hid | hid) | hid
        · exact .inl (part hid)
        · exact .inr hid
        · simp only [List.mem_singleton] at hid
          subst hid
          exact .inl member
      last := last ▸ h.last }

/-- R134: a cut order leaves the queue as it was but for the model's own mark. -/
theorem State.PlaysSound.markCut {s : State} (h : s.PlaysSound) (id : Nat) : (s.markCut id).PlaysSound := by
  have map : ∀ {f : PlayRequest → PlayRequest}, (∀ a, (f a).id = a.id) →
      (s.playQueue.map f).map (·.id) = s.playQueue.map (·.id) := by
    intro f hf
    simp [Function.comp_def, hf]
  have ids : (s.markCut id).idsInUse = s.idsInUse := by
    unfold State.idsInUse
    refine congrArg (· ++ _) (congrArg (· ++ _) (map ?_))
    intro a
    split <;> rfl
  refine ⟨?_, ?_, ?_, ids ▸ h.distinct, ids ▸ h.ids, h.last⟩
  · exact Nat.le_trans (Nat.le_of_eq (List.length_map ..)) h.room
  · refine List.pairwise_map.mpr (h.order.imp ?_)
    intro a b hab
    split <;> split <;> exact hab
  · refine List.pairwise_map.mpr (h.unmerged.imp ?_)
    intro a b hab
    split <;> split <;> exact hab

/-- The edits keep the play queue sound. -/
theorem State.PlaysSound.edits {s t : State} (h : s.PlaysSound) (e : s.Edits t) : t.PlaysSound := by
  have map : ∀ {α : Type} (x : Option α) (f : α → α) (g : α → PlayRequest), (∀ a, g (f a) = g a) →
      (x.map f).map g = x.map g := by
    intro α x f g hg
    cases x <;> simp [hg]
  refine State.Edits.keeps (P := State.PlaysSound) e ?_ ?_ ?_ ?_ ?_ ?_ ?_ ?_ ?_ ?_ ?_ ?_ ?_ ?_ ?_ h
  · exact fun _ h => h.congr rfl rfl rfl rfl
  · exact fun s f hf h => h.congr rfl (map _ _ _ fun l => (hf l).1) rfl rfl
  · exact fun s f hf h => h.congr rfl rfl (map _ _ _ fun l => (hf l).1) rfl
  · exact fun _ _ _ _ h => h.congr (by simp) (by simp) (by simp) (by simp)
  · intro s o h
    obtain ⟨tune, toll⟩ := (State.Tallied.removeOrigin s o).requests
    exact h.congr (by simp) tune toll (by simp)
  · exact fun _ h => h.drainTune
  · exact fun _ h => h.drainToll
  · exact fun _ _ _ h => h.congr (by simp) (by simp) (by simp) (by simp)
  · exact fun _ _ h => h.congr (by simp) (by simp) (by simp) (by simp)
  · exact fun _ r h => h.offer r
  · exact fun _ _ _ h => h.congr (by simp) (by simp) (by simp) (by simp)
  · exact fun _ _ _ h => h.congr (by simp) (by simp) (by simp) (by simp)
  · exact fun _ _ _ h => h.congr (by simp) (by simp) (by simp) (by simp)
  · exact fun _ h => h.congr (by simp) (by simp) (by simp) (by simp)
  · exact fun _ _ _ h => h.congr (by simp) (by simp) (by simp) (by simp)

end Sys2Proof.Machine
end

