-- ==== Sys2Proof/Laws/Lanes.lean ====
section
/-! SUPPORT. The lanes: which of them may hold a play, the holds on melodies, and what the settling of the lanes
establishes (R111, R113). -/

namespace Sys2Proof.Machine

/-! ## Melodies and holds -/

/-- No melody is held and the TUNE lane is IDLE. -/
theorem State.LanesSound.idle {s : State} (tune : s.tune = none) (held : ∀ m, (s.melody m).held = false) :
    s.LanesSound where
  apart := fun _ _ _ => tune
  held := fun m h => by simp [held m] at h
  holds := fun l h => by simp [tune] at h

/-- A change that leaves what the lanes ask for and the holds as they are. -/
theorem State.LanesSound.congr {s t : State} (h : s.LanesSound) (tune : t.tune.map (·.spec) = s.tune.map (·.spec))
    (toll : t.toll.map (·.spec) = s.toll.map (·.spec)) (held : ∀ m, (t.melody m).held = (s.melody m).held) :
    t.LanesSound where
  apart := by
    intro l hl mode
    rw [hl] at toll
    cases e : s.toll with
    | none => simp [e] at toll
    | some k =>
      simp only [e, Option.map_some, Option.some.injEq] at toll
      have := h.apart k e (toll ▸ mode)
      cases e2 : t.tune with
      | none => rfl
      | some j => simp [this, e2] at tune
  held := by
    intro m hm
    rw [held] at hm
    obtain ⟨l, hl, e⟩ := h.held m hm
    cases e2 : t.tune with
    | none => simp [hl, e2] at tune
    | some j =>
      simp only [hl, e2, Option.map_some, Option.some.injEq] at tune
      exact ⟨j, rfl, tune ▸ e⟩
  holds := by
    intro l hl
    rw [held]
    cases e2 : s.tune with
    | none => simp [hl, e2] at tune
    | some j =>
      simp only [hl, e2, Option.map_some, Option.some.injEq] at tune
      rw [tune]
      exact h.holds j e2

/-- What each lane asks for is not a matter of its summary. -/
theorem State.Tallied.specs {s t : State} (h : s.Tallied t) :
    t.tune.map (·.spec) = s.tune.map (·.spec) ∧ t.toll.map (·.spec) = s.toll.map (·.spec) := by
  obtain ⟨⟨f, hf⟩, g, hg⟩ := h
  rw [hf, hg]
  cases s.tune <;> cases s.toll <;> exact ⟨rfl, rfl⟩

/-- R113: what the end of the TUNE lane can do: nothing, or END with the hold released and the lane IDLE. -/
theorem State.drainTune_cases (s : State) :
    s.drainTune = s ∨ ∃ l reason, s.tune = some l ∧ l.phase = .draining reason ∧ s.laneDrained .tune = true
      ∧ s.drainTune = { (s.post .ended ([.num l.request.id, endWord reason] ++ summaryFields l.summary)).setHold
          l.spec.melody false with tune := none } := by
  unfold State.drainTune
  split
  · exact .inl rfl
  · rename_i l hl
    split
    · rename_i reason hp
      split
      · exact .inr ⟨l, reason, hl, hp, ‹_›, rfl⟩
      · exact .inl rfl
    · exact .inl rfl

/-- R113: what the end of the TOLL lane can do: nothing, or END with the lane IDLE. -/
theorem State.drainToll_cases (s : State) :
    s.drainToll = s ∨ ∃ l reason, s.toll = some l ∧ l.phase = .draining reason ∧ s.laneDrained .toll = true
      ∧ s.drainToll
        = { s.post .ended ([.num l.request.id, endWord reason] ++ summaryFields l.summary) with toll := none } := by
  unfold State.drainToll
  split
  · exact .inl rfl
  · rename_i l hl
    split
    · rename_i reason hp
      split
      · exact .inr ⟨l, reason, hl, hp, ‹_›, rfl⟩
      · exact .inl rfl
    · exact .inl rfl

theorem State.LanesSound.drainTune {s : State} (h : s.LanesSound) : s.drainTune.LanesSound := by
  obtain e | ⟨l, reason, hl, -, -, e⟩ := s.drainTune_cases
  · rw [e]
    exact h
  · rw [e]
    refine .idle rfl fun m => ?_
    show (((s.post .ended _).setMelody l.spec.melody _).melody m).held = false
    rw [State.melody_setMelody]
    split
    · rfl
    · rename_i other
      refine Bool.eq_false_iff.mpr fun hm => ?_
      have hm : (s.melody m).held = true := hm
      obtain ⟨k, hk, rfl⟩ := h.held m hm
      rw [hl, Option.some.injEq] at hk
      subst hk
      refine other ⟨rfl, ?_⟩
      refine Decidable.byContradiction fun out => ?_
      have := slot_outside s.melodies l.spec.melody {} (by omega)
      unfold State.melody at hm
      rw [this] at hm
      cases hm

theorem State.LanesSound.drainToll {s : State} (h : s.LanesSound) : s.drainToll.LanesSound := by
  obtain e | ⟨l, reason, hl, -, -, e⟩ := s.drainToll_cases
  · rw [e]
    exact h
  · rw [e]
    exact { apart := fun _ hl => (by cases hl), held := h.held, holds := h.holds }

/-- The edits keep the lanes sound. -/
theorem State.LanesSound.edits {s t : State} (h : s.LanesSound) (e : s.Edits t) : t.LanesSound := by
  have map : ∀ {α β : Type} (x : Option α) (f : α → α) (g : α → β), (∀ a, g (f a) = g a) → (x.map f).map g = x.map g := by
    intro α β x f g hg
    cases x <;> simp [hg]
  refine State.Edits.keeps (P := State.LanesSound) e ?_ ?_ ?_ ?_ ?_ ?_ ?_ ?_ ?_ ?_ ?_ ?_ ?_ ?_ ?_ h
  · exact fun _ h => h.congr rfl rfl fun _ => rfl
  · exact fun s f hf h => h.congr (map _ _ _ fun l => (hf l).2) rfl fun _ => rfl
  · exact fun s f hf h => h.congr rfl (map _ _ _ fun l => (hf l).2) fun _ => rfl
  · exact fun _ _ _ _ h => h.congr rfl rfl fun _ => rfl
  · intro s o h
    obtain ⟨tune, toll⟩ := (State.Tallied.removeOrigin s o).specs
    exact h.congr tune toll fun m => by simp [State.melody]
  · exact fun _ h => h.drainTune
  · exact fun _ h => h.drainToll
  · exact fun _ _ _ h => h.congr rfl rfl fun _ => rfl
  · exact fun _ _ h => h.congr rfl rfl fun _ => rfl
  · exact fun _ r h => h.congr (by simp) (by simp) fun m => by simp [State.melody]
  · exact fun _ _ _ h => h.congr rfl rfl fun _ => rfl
  · exact fun _ _ _ h => h.congr rfl rfl fun _ => rfl
  · exact fun _ _ _ h => h.congr rfl rfl fun _ => rfl
  · exact fun _ h => h.congr rfl rfl fun _ => rfl
  · exact fun _ _ _ h => h.congr rfl rfl fun _ => rfl

/-! ## What settling establishes -/

theorem State.tuneLags_eq (s : State) : s.tuneLags = ((s.tune.map (·.lag)).getD false) := by
  unfold State.tuneLags
  cases s.tune <;> rfl

theorem State.tollLags_eq (s : State) : s.tollLags = ((s.toll.map (·.lag)).getD false) := by
  unfold State.tollLags
  cases s.toll <;> rfl

theorem State.Tallied.lags {s t : State} (h : s.Tallied t) : t.tuneLags = s.tuneLags ∧ t.tollLags = s.tollLags := by
  obtain ⟨⟨f, hf⟩, g, hg⟩ := h
  unfold State.tuneLags State.tollLags
  rw [hf, hg]
  cases s.tune <;> cases s.toll <;> exact ⟨rfl, rfl⟩

theorem State.modTune_tuneLags {s : State} {f : TuneLane → TuneLane} (h : ∀ l, s.tune = some l → (f l).lag = false) :
    (s.modTune f).tuneLags = false := by
  unfold State.tuneLags State.modTune
  cases e : s.tune with
  | none => rfl
  | some l => exact h l e

theorem State.modToll_tollLags {s : State} {f : TollLane → TollLane} (h : ∀ l, s.toll = some l → (f l).lag = false) :
    (s.modToll f).tollLags = false := by
  unfold State.tollLags State.modToll
  cases e : s.toll with
  | none => rfl
  | some l => exact h l e

/-- R122: a stop NOW of the TUNE lane ends its lag and leaves the other lane's. -/
theorem State.stopTuneNow_lags (s : State) (r : EndReason) :
    (s.stopTuneNow r).tuneLags = false ∧ (s.stopTuneNow r).tollLags = s.tollLags := by
  unfold State.stopTuneNow
  split
  · rename_i e
    exact ⟨by simp [State.tuneLags, e], rfl⟩
  · exact ⟨State.modTune_tuneLags fun _ _ => rfl, (State.Tallied.removeOrigin s .tune).lags.2⟩

theorem State.testBarStop_lags (s : State) :
    (s.tuneLags = false → s.testBarStop.tuneLags = false) ∧ s.testBarStop.tollLags = s.tollLags := by
  have stop := fun r => s.stopTuneNow_lags r
  unfold State.testBarStop
  split
  · exact ⟨id, rfl⟩
  · split
    · split
      · exact ⟨fun _ => (stop _).1, (stop _).2⟩
      · split
        · exact ⟨id, rfl⟩
        · split
          · exact ⟨fun _ => (stop _).1, (stop _).2⟩
          · exact ⟨id, rfl⟩
    · exact ⟨id, rfl⟩

theorem TuneLane.endPass_lag (l : TuneLane) (onset beat : Nat) (barless : Bool) :
    (l.endPass onset beat barless).lag = l.lag := by
  unfold TuneLane.endPass
  split <;> rfl

theorem State.afterRecord_lags (s : State) (onset : Nat) :
    (s.afterRecord onset).tuneLags = s.tuneLags ∧ (s.afterRecord onset).tollLags = s.tollLags := by
  refine ⟨?_, rfl⟩
  unfold State.afterRecord State.tuneLags State.modTune
  cases s.tune with
  | none => rfl
  | some l =>
    dsimp only [Option.map_some]
    split
    · exact TuneLane.endPass_lag ..
    · rfl

/-- R111: with a slot free no offer is refused, so the expansion of a record leaves no lag. -/
theorem State.expandTune_lags {s : State} (free : s.slotFree = true) (clear : s.tuneLags = false) :
    s.expandTune.tuneLags = false ∧ s.expandTune.tollLags = s.tollLags := by
  unfold State.expandTune
  split
  · exact ⟨clear, rfl⟩
  · rename_i l hl
    split
    · exact ⟨clear, rfl⟩
    · split
      · exact ⟨clear, rfl⟩
      · rename_i r hr
        dsimp only
        have plain : ∀ onset division, (s.expandPlain onset division r).tuneLags = false
            ∧ (s.expandPlain onset division r).tollLags = s.tollLags := by
          intro onset division
          refine ⟨State.modTune_tuneLags fun l _ => ?_, rfl⟩
          dsimp only
          split
          · rfl
          · unfold TuneLane.stopAtBar TuneLane.liveAtBar
            split <;> split <;> rfl
          · rfl
          · rfl
        have note : ∀ onset division b level, (s.expandNote l onset division b level).tuneLags = false
            ∧ (s.expandNote l onset division b level).tollLags = s.tollLags := by
          intro onset division b level
          unfold State.expandNote
          dsimp only
          split
          · exact ⟨State.modTune_tuneLags fun _ _ => rfl, rfl⟩
          · exact ⟨State.modTune_tuneLags fun _ _ => rfl, rfl⟩
        have go : ∀ t : State, t.tuneLags = false ∧ t.tollLags = s.tollLags → ∀ onset,
            (if t.tuneLags then t else (t.afterRecord onset).testBarStop).tuneLags = false
              ∧ (if t.tuneLags then t else (t.afterRecord onset).testBarStop).tollLags = s.tollLags := by
          intro t ht onset
          rw [if_neg (by simp [ht.1])]
          obtain ⟨a, b⟩ := t.afterRecord_lags onset
          obtain ⟨c, d⟩ := (t.afterRecord onset).testBarStop_lags
          exact ⟨c (a.trans ht.1), d.trans (b.trans ht.2)⟩
        split
        · exact go _ (note ..) _
        · exact go _ (plain ..) _

theorem State.expandToll_lags {s : State} (free : s.slotFree = true) (clear : s.tollLags = false) :
    s.expandToll.tollLags = false ∧ s.expandToll.tuneLags = s.tuneLags := by
  unfold State.expandToll
  split
  · exact ⟨clear, rfl⟩
  · split
    · exact ⟨clear, rfl⟩
    · split
      · exact ⟨State.modToll_tollLags fun _ _ => rfl, rfl⟩
      · exact ⟨State.modToll_tollLags fun _ _ => rfl, rfl⟩

/-- How many lanes lag. -/
def State.lagging (s : State) : Nat := s.tuneLags.toNat + s.tollLags.toNat

/-- R44, R111: after as many retries as lanes lag, a lane lags only while every slot is in use. -/
theorem State.retryLags_lag (fuel : Nat) (s : State) (enough : s.lagging ≤ fuel) :
    (s.retryLags fuel).tuneLags = true ∨ (s.retryLags fuel).tollLags = true → (s.retryLags fuel).slotFree = false := by
  induction fuel generalizing s with
  | zero =>
    intro h
    unfold State.retryLags at h
    unfold State.lagging at enough
    rcases h with h | h <;> simp [h] at enough
  | succ fuel ih =>
    unfold State.retryLags
    split
    · rename_i full
      intro _
      simpa using full
    · rename_i free
      have free : s.slotFree = true := by simpa using free
      have lags : ∀ t : State, t = s ∨ t = { s with choices := s.choices + 1 } →
          t.tuneLags = s.tuneLags ∧ t.tollLags = s.tollLags ∧ t.slotFree = s.slotFree := by
        rintro t (rfl | rfl) <;> exact ⟨rfl, rfl, rfl⟩
      split
      · rename_i none
        have : s.tuneLags = false ∧ s.tollLags = false := by
          unfold Machine.choose at none
          cases a : s.tuneLags <;> cases b : s.tollLags <;> simp [a, b] at none ⊢
        intro h
        simp [this.1, this.2] at h
      · rename_i t choice
        obtain ⟨mem, e⟩ := choose_frame choice
        obtain ⟨a, b, c⟩ := lags t e
        have on : s.tuneLags = true := by
          cases h : s.tuneLags
          · cases h2 : s.tollLags <;> simp [h, h2] at mem
          · rfl
        refine ih _ ?_
        obtain ⟨x, y⟩ := State.expandTune_lags (s := t.modTune (fun l => { l with lag := false })) (c.trans free)
          (State.modTune_tuneLags fun _ _ => rfl)
        have y : _ = s.tollLags := y.trans b
        unfold State.lagging at enough ⊢
        rw [x, y]
        simp only [on, Bool.toNat_true, Bool.toNat_false] at enough ⊢
        omega
      · rename_i o t not choice
        obtain ⟨mem, e⟩ := choose_frame choice
        obtain ⟨a, b, c⟩ := lags t e
        have on : s.tollLags = true := by
          cases h : s.tollLags
          · cases h2 : s.tuneLags
            · simp [h, h2] at mem
            · simp only [h, h2, if_true, Bool.false_eq_true, if_false, List.append_nil, List.mem_singleton] at mem
              exact absurd mem (by simpa using not)
          · rfl
        refine ih _ ?_
        obtain ⟨x, y⟩ := State.expandToll_lags (s := t.modToll (fun l => { l with lag := false })) (c.trans free)
          (State.modToll_tollLags fun _ _ => rfl)
        have y : _ = s.tuneLags := y.trans a
        unfold State.lagging at enough ⊢
        rw [x, y]
        simp only [on, Bool.toNat_true, Bool.toNat_false] at enough ⊢
        omega

/-- A change that leaves the lanes, the entries and the coils as they are. -/
theorem State.LanesSettled.congr {s t : State} (h : s.LanesSettled) (tune : t.tune = s.tune) (toll : t.toll = s.toll)
    (queue : t.queue = s.queue) (waiting : t.waiting = s.waiting) (coils : t.coils = s.coils) : t.LanesSettled := by
  have drained : ∀ o, t.laneDrained o = s.laneDrained o := by
    intro o
    unfold State.laneDrained State.entriesOf State.coilsOf
    rw [queue, waiting, coils]
  refine ⟨?_, ?_, ?_⟩
  · have := h.lag
    unfold State.tuneLags State.tollLags State.slotFree State.slotsUsed at *
    rw [tune, toll, queue, waiting]
    exact this
  · intro l hl
    rw [drained]
    exact h.tuneDrains l (tune ▸ hl)
  · intro l hl
    rw [drained]
    exact h.tollDrains l (toll ▸ hl)

/-- Both lanes IDLE. -/
theorem State.LanesSettled.idle {s : State} (tune : s.tune = none) (toll : s.toll = none) : s.LanesSettled where
  lag := by simp [State.tuneLags, State.tollLags, tune, toll]
  tuneDrains := by simp [tune]
  tollDrains := by simp [toll]

theorem State.drains_settled {s : State} (lag : s.tuneLags = true ∨ s.tollLags = true → s.slotFree = false) :
    s.drainTune.drainToll.LanesSettled := by
  have one : s.drainTune.queue = s.queue ∧ s.drainTune.waiting = s.waiting ∧ s.drainTune.coils = s.coils
      ∧ s.drainTune.toll = s.toll ∧ (s.drainTune.tuneLags = true → s.tuneLags = true)
      ∧ ∀ l, s.drainTune.tune = some l → l.phase.runs = false → s.laneDrained .tune = false := by
    obtain e | ⟨l, reason, hl, hp, hd, e⟩ := s.drainTune_cases
    · refine ⟨by rw [e], by rw [e], by rw [e], by rw [e], fun h => by rwa [e] at h, ?_⟩
      intro l hl hr
      rw [e] at hl
      unfold State.drainTune at e
      rw [hl] at e
      dsimp only at e
      cases hp : l.phase with
      | armed => simp [hp, LanePhase.runs] at hr
      | playing => simp [hp, LanePhase.runs] at hr
      | draining reason =>
        rw [hp] at e
        dsimp only at e
        refine Bool.eq_false_iff.mpr fun hd => ?_
        rw [if_pos hd] at e
        have := congrArg State.tune e
        rw [hl] at this
        cases this
    · rw [e]
      exact ⟨rfl, rfl, rfl, rfl, fun h => (by cases h), fun _ h => (by cases h)⟩
  obtain ⟨queue, waiting, coils, toll, tuneLag, drains⟩ := one
  have two : s.drainTune.drainToll.queue = s.queue ∧ s.drainTune.drainToll.waiting = s.waiting
      ∧ s.drainTune.drainToll.coils = s.coils ∧ s.drainTune.drainToll.tune = s.drainTune.tune
      ∧ (s.drainTune.drainToll.tollLags = true → s.tollLags = true)
      ∧ ∀ l, s.drainTune.drainToll.toll = some l → l.phase.runs = false → s.drainTune.laneDrained .toll = false := by
    generalize s.drainTune = u at *
    obtain e | ⟨l, reason, hl, hp, hd, e⟩ := u.drainToll_cases
    · refine ⟨by rw [e, queue], by rw [e, waiting], by rw [e, coils], by rw [e],
        fun h => by rw [e] at h; unfold State.tollLags at *; rwa [toll] at h, ?_⟩
      intro l hl hr
      rw [e] at hl
      unfold State.drainToll at e
      rw [hl] at e
      dsimp only at e
      cases hp : l.phase with
      | armed => simp [hp, LanePhase.runs] at hr
      | playing => simp [hp, LanePhase.runs] at hr
      | draining reason =>
        rw [hp] at e
        dsimp only at e
        refine Bool.eq_false_iff.mpr fun hd => ?_
        rw [if_pos hd] at e
        have := congrArg State.toll e
        rw [hl] at this
        cases this
    · rw [e]
      exact ⟨queue, waiting, coils, rfl, fun h => (by cases h), fun _ h => (by cases h)⟩
  obtain ⟨queue2, waiting2, coils2, tune2, tollLag, drains2⟩ := two
  have drained : ∀ (t : State) o, t.queue = s.queue → t.waiting = s.waiting → t.coils = s.coils →
      t.laneDrained o = s.laneDrained o := by
    intro t o a b c
    unfold State.laneDrained State.entriesOf State.coilsOf
    rw [a, b, c]
  refine ⟨?_, ?_, ?_⟩
  · intro h
    have free : s.drainTune.drainToll.slotFree = s.slotFree := by
      unfold State.slotFree State.slotsUsed
      rw [queue2, waiting2]
    rw [free]
    refine lag (h.imp (fun h => tuneLag ?_) tollLag)
    unfold State.tuneLags at *
    rwa [tune2] at h
  · intro l hl hr
    rw [drained _ _ queue2 waiting2 coils2]
    exact drains l (tune2 ▸ hl) hr
  · intro l hl hr
    rw [drained _ _ queue2 waiting2 coils2, ← drained s.drainTune _ queue waiting coils]
    exact drains2 l hl hr

/-- R111, R113: settling the lanes leaves no lag beside a free slot and no lane draining with nothing left. -/
theorem State.settleLanes_settled (s : State) : s.settleLanes.LanesSettled := by
  refine State.drains_settled (State.retryLags_lag 2 s ?_)
  unfold State.lagging
  cases s.tuneLags <;> cases s.tollLags <;> decide

theorem State.LanesSettled.cueAct {s : State} (h : s.LanesSettled) (c : Nat) : (s.cueAct c).LanesSettled := by
  unfold State.cueAct
  dsimp only
  split
  · exact h.congr rfl rfl rfl rfl rfl
  · exact h.congr (by simp) (by simp) (by simp) (by simp) (by simp)
  · exact h.congr (by simp) (by simp) (by simp) (by simp) (by simp)
  · exact State.settleLanes_settled _

theorem State.LanesSettled.settleCues {s : State} (h : s.LanesSettled) (fuel : Nat) :
    (s.settleCues fuel).LanesSettled := by
  induction fuel generalizing s with
  | zero => exact h
  | succ fuel ih =>
    unfold State.settleCues
    split
    · exact h
    · rename_i c t choice
      refine ih (State.LanesSettled.cueAct ?_ c)
      obtain ⟨-, rfl | rfl⟩ := choose_frame choice
      · exact h
      · exact h.congr rfl rfl rfl rfl rfl

/-- R111, R113, R178: every event that ends in a settling leaves the lanes settled. -/
theorem State.settle_settled (s : State) : s.settle.LanesSettled := s.settleLanes_settled.settleCues 4

end Sys2Proof.Machine
end

