-- ==== Sys2Proof/Laws/Serial.lean ====
section
/-! SUPPORT. The serial line: what its operations do to its queues, and its bounds and orders kept by each of them. -/

namespace Sys2Proof.Machine

theorem MadeInOrder.grow {xs : List MadeLine} {n m : Nat} (h : MadeInOrder xs n) (hm : n ≤ m) : MadeInOrder xs m :=
  ⟨h.1, fun x hx => Nat.lt_of_lt_of_le (h.2 x hx) hm⟩

theorem MadeInOrder.append {xs : List MadeLine} {n : Nat} (h : MadeInOrder xs n) (line : Line) :
    MadeInOrder (xs ++ [⟨n, line⟩]) (n + 1) := by
  refine ⟨List.pairwise_append.mpr ⟨h.1, List.pairwise_singleton .., ?_⟩, ?_⟩
  · intro a ha b hb
    simp only [List.mem_singleton] at hb
    subst hb
    exact h.2 a ha
  · intro x hx
    rcases List.mem_append.mp hx with hx | hx
    · exact Nat.lt_succ_of_lt (h.2 x hx)
    · simp only [List.mem_singleton] at hx
      subst hx
      exact Nat.lt_succ_self _

theorem MadeInOrder.drop {xs : List MadeLine} {n : Nat} (h : MadeInOrder xs n) (k : Nat) : MadeInOrder (xs.drop k) n :=
  ⟨h.1.sublist (List.drop_sublist ..), fun x hx => h.2 x (List.mem_of_mem_drop hx)⟩

theorem Serial.sound_empty (mask : Table Bool 12) : Serial.Sound { mask := mask } where
  buffer := Nat.zero_le _
  input := Nat.zero_le _
  refusals := Nat.zero_le _
  reports := Nat.zero_le _
  discards := Nat.zero_le _
  executedMade := by simp
  refusalsMade := ⟨List.Pairwise.nil, by simp⟩
  reportsMade := ⟨List.Pairwise.nil, by simp⟩

/-- R188: what the post of a report can do. -/
theorem Serial.post_cases (l : Serial) (kind : ReportKind) (fields : List Fld) :
    (∃ k, kind = .maskable k ∧ slot l.mask (kindNumber k) true = false
        ∧ l.post kind fields = { l with latched := setSlot l.latched (kindNumber k) true })
      ∨ (l.reports.length < 32 ∧ l.post kind fields
          = { l with reports := l.reports ++ [⟨l.made, .report kind fields⟩], made := l.made + 1 })
      ∨ (32 ≤ l.reports.length ∧ l.post kind fields = { l with discards := bump16 l.discards }) := by
  unfold Serial.post
  dsimp only
  split
  · split
    · split
      · exact .inr (.inl ⟨‹_›, rfl⟩)
      · exact .inr (.inr ⟨by omega, rfl⟩)
    · rename_i k h
      exact .inl ⟨k, rfl, by simpa using h, rfl⟩
  · split
    · exact .inr (.inl ⟨‹_›, rfl⟩)
    · exact .inr (.inr ⟨by omega, rfl⟩)

theorem Serial.Sound.post {l : Serial} (h : l.Sound) (kind : ReportKind) (fields : List Fld) :
    (l.post kind fields).Sound := by
  obtain ⟨k, -, -, e⟩ | ⟨room, e⟩ | ⟨-, e⟩ := l.post_cases kind fields
  · rw [e]
    exact { h with }
  · rw [e]
    exact
      { h with
        reports := by simpa using room
        executedMade := fun x hx => Nat.lt_succ_of_lt (h.executedMade x hx)
        refusalsMade := h.refusalsMade.grow (Nat.le_succ _)
        reportsMade := h.reportsMade.append _ }
  · rw [e]
    exact { h with discards := by simp only [bump16]; omega }

theorem Serial.Sound.reply {l : Serial} (h : l.Sound) (line : Line) : (l.reply line).Sound :=
  { h with
    executedMade := by
      intro x hx
      simp only [Serial.reply, Option.some.injEq] at hx
      subst hx
      exact Nat.lt_succ_self _
    refusalsMade := h.refusalsMade.grow (Nat.le_succ _)
    reportsMade := h.reportsMade.grow (Nat.le_succ _) }

theorem Serial.Sound.refuse {l : Serial} (h : l.Sound) (line : Line) : (l.refuse line).Sound := by
  unfold Serial.refuse
  split
  · exact
      { h with
        refusals := by simp; omega
        executedMade := fun x hx => Nat.lt_succ_of_lt (h.executedMade x hx)
        refusalsMade := h.refusalsMade.append _
        reportsMade := h.reportsMade.grow (Nat.le_succ _) }
  · exact h

theorem Serial.Sound.accept {l : Serial} (h : l.Sound) (line : Text) : (l.accept line).Sound := by
  unfold Serial.accept
  split
  · exact h.refuse _
  · split
    · exact { h with input := by simp; omega }
    · exact h.refuse _

theorem Serial.Sound.endLine {l : Serial} (h : l.Sound) : l.endLine.Sound := by
  have fresh : Serial.Sound { l with buffer := [], badLine := false } := { h with buffer := Nat.zero_le _ }
  unfold Serial.endLine
  dsimp only
  split
  · exact fresh.refuse _
  · split
    · exact fresh
    · exact fresh.accept _

theorem Serial.Sound.receive {l : Serial} (h : l.Sound) (c : BitVec 8) (stopBit : Bool) : (l.receive c stopBit).Sound := by
  have bad : l.markBad.Sound := { h with }
  unfold Serial.receive
  split
  · exact bad
  · split
    · exact h
    · split
      · exact h.endLine
      · split
        · unfold Serial.store
          split
          · exact { h with buffer := by simp; omega }
          · exact bad
        · exact bad

theorem Serial.Sound.take {l : Serial} (h : l.Sound) (w : Waiting) (finish : Nat) : (l.take w finish).Sound := by
  unfold Serial.take
  split
  · exact { h with executedMade := by simp }
  · have := h.refusals
    exact { h with refusals := by simp; omega, refusalsMade := h.refusalsMade.drop 1 }
  · have := h.reports
    have dropped : Serial.Sound { l with reports := l.reports.drop 1 } :=
      { h with reports := by simp; omega, reportsMade := h.reportsMade.drop 1 }
    unfold Serial.overrun
    split
    · exact dropped
    · exact
        { dropped with
          reports := by simp; omega
          discards := Nat.zero_le _
          executedMade := fun x hx => Nat.lt_succ_of_lt (h.executedMade x hx)
          refusalsMade := h.refusalsMade.grow (Nat.le_succ _)
          reportsMade := (h.reportsMade.drop 1).append _ }

/-- The line of a state is sound. -/
def State.LineSound (s : State) : Prop := s.serial.Sound

theorem State.LineSound.congr {s t : State} (h : s.LineSound) (e : t.serial = s.serial) : t.LineSound := by
  unfold State.LineSound
  rw [e]
  exact h

theorem State.LineSound.post {s : State} (h : s.LineSound) (kind : Kind) (fields : List Fld) :
    (s.post kind fields).LineSound := Serial.Sound.post (l := s.serial) h (.maskable kind) fields

theorem State.LineSound.ok {s : State} (h : s.LineSound) (tag : Text) (fields : List Fld) : (s.ok tag fields).LineSound :=
  Serial.Sound.reply h _

theorem State.LineSound.err {s : State} (h : s.LineSound) (tag : Text) (code : ErrCode) : (s.err tag code).LineSound :=
  Serial.Sound.reply h _

theorem State.LineSound.reportHealth {s : State} (h : s.LineSound) (b : Nat) (x : Health) :
    (s.reportHealth b x).LineSound := by
  unfold State.reportHealth
  split
  · exact h
  · exact h.post ..

theorem State.LineSound.moveBell {s : State} (h : s.LineSound) (b : Nat) (r : Bell) : (s.moveBell b r).LineSound :=
  State.LineSound.reportHealth (h.congr (by simp)) ..

theorem State.LineSound.miss {s : State} (h : s.LineSound) (b : Nat) (w : Window) : (s.miss b w).LineSound :=
  h.moveBell _ _

theorem State.LineSound.judgeEdge {s : State} (h : s.LineSound) (b : Nat) : (s.judgeEdge b).LineSound := by
  unfold State.judgeEdge
  split
  · exact h.congr (by simp)
  · split
    · rename_i w _ _
      exact (h.miss b w).congr (by simp)
    · split
      · exact h.moveBell _ _
      · exact h.congr (by simp)

theorem State.LineSound.fire {s : State} (h : s.LineSound) (e : Entry) (level : Nat) : (s.fire e level).LineSound := by
  exact h.congr (by simp [State.fire])

/-- R65: the judgement of an old window posts its HEALTH report within the bounds. -/
theorem State.LineSound.judgeFirst {s : State} (h : s.LineSound) (e : Entry) (granted : Bool) :
    (s.judgeFirst e granted).LineSound := by
  unfold State.judgeFirst State.closeOldWindow
  split
  · split
    · exact h
    · exact h.miss _ _
  · exact h

theorem State.LineSound.carryOut {s : State} (h : s.LineSound) (e : Entry) (d : Decision) : (s.carryOut e d).LineSound := by
  unfold State.carryOut
  split
  · exact h.congr (by simp)
  · exact h.congr (by simp)
  · exact h.congr (by simp)
  · exact h.congr (by simp)
  · exact h.fire _ _

theorem State.LineSound.grantFrom (l : List Entry) {s : State} (h : s.LineSound) : (s.grantFrom l).LineSound := by
  induction l generalizing s with
  | nil => exact h
  | cons e rest ih =>
    unfold State.grantFrom
    dsimp only
    split
    · refine State.LineSound.fire (State.LineSound.judgeFirst ?_ _ _) _ _
      exact h.congr rfl
    · refine ih (State.LineSound.carryOut (State.LineSound.judgeFirst ?_ _ _) _ _)
      exact h.congr rfl

theorem State.LineSound.drainTune {s : State} (h : s.LineSound) : s.drainTune.LineSound := by
  unfold State.drainTune
  split
  · exact h
  · split
    · split
      · rename_i l _ _ reason _ _
        exact (h.post .ended ([.num l.request.id, endWord reason] ++ summaryFields l.summary)).congr (by simp)
      · exact h
    · exact h

theorem State.LineSound.drainToll {s : State} (h : s.LineSound) : s.drainToll.LineSound := by
  unfold State.drainToll
  split
  · exact h
  · split
    · split
      · rename_i l _ _ reason _ _
        exact (h.post .ended ([.num l.request.id, endWord reason] ++ summaryFields l.summary)).congr (by simp)
      · exact h
    · exact h

/-- The edits keep the line's bounds. -/
theorem State.LineSound.edits {s t : State} (h : s.LineSound) (e : s.Edits t) : t.LineSound := by
  refine State.Edits.keeps (P := State.LineSound) e ?_ ?_ ?_ ?_ ?_ ?_ ?_ ?_ ?_ ?_ ?_ ?_ ?_ ?_ ?_ h
  · exact fun _ h => h.congr rfl
  · exact fun _ _ _ h => h.congr (by simp)
  · exact fun _ _ _ h => h.congr (by simp)
  · exact fun _ _ _ _ h => h.congr (by simp)
  · exact fun _ _ h => h.congr (by simp)
  · exact fun _ h => h.drainTune
  · exact fun _ h => h.drainToll
  · exact fun _ _ _ h => h.post ..
  · exact fun _ _ h => h.congr (by simp)
  · exact fun _ _ h => h.congr (by simp)
  · exact fun _ _ _ h => h.ok ..
  · exact fun _ _ _ h => h.err ..
  · exact fun _ _ _ h => h.congr (by simp)
  · exact fun _ h => h.congr (by simp)
  · exact fun _ _ _ h => h.congr (by simp)

end Sys2Proof.Machine
end

