-- ==== Sys2Proof/Laws/Store.lean ====
section
/-! SUPPORT. The melody store: the blocks the melodies own, what appending a record does, and the store kept sound by
each of its operations. -/

namespace Sys2Proof.Machine

/-! ## The tables, and the blocks that are owned -/

theorem toList_split {α : Type} {n : Nat} (v : Table α n) (k : Nat) (d : α) (h0 : 1 ≤ k) (hn : k ≤ n) :
    v.toList = v.toList.take (k - 1) ++ slot v k d :: v.toList.drop k := by
  have e : slot v k d = v.toList[k - 1]'(by simp; omega) := by rw [slot_inside v k d h0 hn]; simp
  rw [e]
  conv => lhs; rw [← List.take_append_drop (k - 1) v.toList]
  rw [List.drop_eq_getElem_cons (by simp; omega), show k - 1 + 1 = k by omega]

theorem toList_setSlot {α : Type} {n : Nat} (v : Table α n) (k : Nat) (x : α) (h0 : 1 ≤ k) (hn : k ≤ n) :
    (setSlot v k x).toList = v.toList.take (k - 1) ++ x :: v.toList.drop k := by
  unfold setSlot
  rw [if_neg (by omega), Vector.toList_setIfInBounds, List.set_eq_take_append_cons_drop, if_pos (by simp; omega),
    show k - 1 + 1 = k by omega]

/-- The blocks owned by the melodies before and after melody `m`. -/
theorem State.ownedBlocks_split (s : State) (m : Nat) (h0 : 1 ≤ m) (hn : m ≤ 64) :
    ∃ before after : List Nat, ∀ h : Melody, (s.setMelody m h).ownedBlocks = before ++ (h.blocks ++ after)
      ∧ s.ownedBlocks = before ++ ((s.melody m).blocks ++ after) := by
  refine ⟨(s.melodies.toList.take (m - 1)).flatMap (·.blocks), (s.melodies.toList.drop m).flatMap (·.blocks), ?_⟩
  intro h
  unfold State.ownedBlocks State.setMelody State.melody
  refine ⟨?_, ?_⟩
  · dsimp only
    rw [toList_setSlot _ _ _ h0 hn]
    simp
  · conv => lhs; rw [toList_split s.melodies m {} h0 hn]
    simp

/-- A block of a melody is owned. -/
theorem State.melody_owned (s : State) (m b : Nat) (h : b ∈ (s.melody m).blocks) : b ∈ s.ownedBlocks := by
  by_cases hm : 1 ≤ m ∧ m ≤ 64
  · obtain ⟨x, y, e⟩ := s.ownedBlocks_split m hm.1 hm.2
    rw [(e {}).2]
    simp [h]
  · unfold State.melody at h
    rw [slot_outside _ _ _ (by omega)] at h
    cases h

/-- With no block twice, no block of one melody is a block of another. -/
theorem State.blocks_apart {s : State} (distinct : s.ownedBlocks.Nodup) {m k b : Nat} (apart : k ≠ m) (h0 : 1 ≤ m)
    (hn : m ≤ 64) (mine : b ∈ (s.melody m).blocks) (theirs : b ∈ (s.melody k).blocks) : False := by
  obtain ⟨x, y, e⟩ := s.ownedBlocks_split m h0 hn
  have other : b ∈ (s.setMelody m {}).ownedBlocks := by
    refine State.melody_owned _ k b ?_
    rw [State.melody_setMelody, if_neg (fun c => apart c.1)]
    exact theirs
  rw [(e {}).1] at other
  rw [(e {}).2] at distinct
  simp only [List.nil_append, List.mem_append] at other
  simp only [List.nodup_append, List.mem_append] at distinct
  rcases other with other | other
  · exact distinct.2.2 b other b (.inl mine) rfl
  · exact distinct.2.1.2.2 b mine b other rfl

/-! ## Changes that the store does not see -/

theorem State.score_congr {s t : State} {m : Nat} (blocks : (t.melody m).blocks = (s.melody m).blocks)
    (pool : ∀ b ∈ (s.melody m).blocks, slot t.pool b [] = slot s.pool b []) : t.score m = s.score m := by
  unfold State.score
  rw [blocks]
  refine List.flatMap_congr fun b hb => ?_
  exact pool b hb

/-- A melody keeps its soundness where its header and the slots of its blocks stay. -/
theorem State.MelodySound.congr {s t : State} {m : Nat} (h : s.MelodySound m) (header : t.melody m = s.melody m)
    (pool : ∀ b ∈ (s.melody m).blocks, slot t.pool b [] = slot s.pool b []) : t.MelodySound m := by
  have score := State.score_congr (congrArg Melody.blocks header) pool
  refine ⟨?_, ?_, ?_, ?_, ?_, ?_, ?_, ?_⟩
  · rw [header]; exact h.limit
  · rw [header]; exact h.blocks
  · intro i b hb
    rw [header] at hb ⊢
    rw [pool b (List.mem_of_getElem? hb)]
    exact h.filled i b hb
  · rw [header, score]; exact h.records
  · rw [header, score]; exact h.notes
  · rw [header, score]; exact h.bars
  · rw [header]; exact h.empty
  · rw [header]; exact h.named

theorem State.StoreSound.congr {s t : State} (h : s.StoreSound) (melodies : t.melodies = s.melodies)
    (pool : t.pool = s.pool) : t.StoreSound := by
  have owned : t.ownedBlocks = s.ownedBlocks := by unfold State.ownedBlocks; rw [melodies]
  refine ⟨⟨owned ▸ h.1.numbers, owned ▸ h.1.owners, ?_⟩, fun m h0 hn => (h.2 m h0 hn).congr ?_ ?_⟩
  · intro k hk
    rw [pool]
    exact h.1.free k (owned ▸ hk)
  · unfold State.melody; rw [melodies]
  · intro b _; rw [pool]

/-- A new header for melody `m` with the blocks and counts it has. -/
theorem State.StoreSound.retitle {s : State} (h : s.StoreSound) (m : Nat) (x : Melody)
    (blocks : x.blocks = (s.melody m).blocks) (records : x.records = (s.melody m).records)
    (notes : x.notes = (s.melody m).notes) (bars : x.bars = (s.melody m).bars)
    (empty : x.phase = .empty → x = { held := x.held })
    (named : x.phase ≠ .empty → x.name.isSome = true ∧ x.beat.isSome = true) : (s.setMelody m x).StoreSound := by
  by_cases hm : 1 ≤ m ∧ m ≤ 64
  · obtain ⟨before, after, e⟩ := s.ownedBlocks_split m hm.1 hm.2
    have owned : (s.setMelody m x).ownedBlocks = s.ownedBlocks := by rw [(e x).1, (e x).2, blocks]
    refine ⟨⟨owned ▸ h.1.numbers, owned ▸ h.1.owners, fun k hk => h.1.free k (owned ▸ hk)⟩, fun k h0 hn => ?_⟩
    by_cases hk : k = m
    · subst hk
      have me : (s.setMelody k x).melody k = x := by rw [State.melody_setMelody, if_pos ⟨rfl, h0, hn⟩]
      have score : (s.setMelody k x).score k = s.score k := State.score_congr (by rw [me, blocks]) (fun _ _ => rfl)
      have old := h.2 k h0 hn
      refine ⟨?_, ?_, ?_, ?_, ?_, ?_, ?_, ?_⟩
      · rw [me, blocks]; exact old.limit
      · rw [me, blocks, records]; exact old.blocks
      · rw [me, blocks, records]; exact old.filled
      · rw [me, records, score]; exact old.records
      · rw [me, notes, score]; exact old.notes
      · rw [me, bars, score]; exact old.bars
      · rw [me]; exact empty
      · rw [me]; exact named
    · refine (h.2 k h0 hn).congr ?_ fun _ _ => rfl
      rw [State.melody_setMelody, if_neg (fun c => hk c.1)]
  · refine h.congr ?_ rfl
    exact setSlot_outside _ _ _ (by omega)

/-! ## Freeing blocks -/

theorem slot_discard (blocks : List Nat) (pool : Table (List ScoreRecord) 384) (k : Nat) :
    slot (blocks.foldl (fun pool k => setSlot pool k []) pool) k [] = if k ∈ blocks then [] else slot pool k [] := by
  induction blocks generalizing pool with
  | nil => simp
  | cons b rest ih =>
    rw [List.foldl_cons, ih, slot_setSlot]
    by_cases hr : k ∈ rest
    · simp [hr]
    · by_cases hb : k = b
      · subst hb
        by_cases hk : 1 ≤ k ∧ k ≤ 384
        · simp [hr, hk]
        · simp only [hr, if_false, List.mem_cons, true_or, if_true]
          rw [if_neg (by omega), slot_outside _ _ _ (by omega)]
      · simp [hr, hb]

/-- R84, R89: the blocks of melody `m` freed and its header begun again, EMPTY or OPEN. -/
theorem State.StoreSound.begin {s : State} (h : s.StoreSound) (m : Nat) (x : Melody) (blocks : x.blocks = [])
    (records : x.records = 0) (notes : x.notes = 0) (bars : x.bars = 0)
    (empty : x.phase = .empty → x = { held := x.held })
    (named : x.phase ≠ .empty → x.name.isSome = true ∧ x.beat.isSome = true) :
    ((s.discardBlocks (s.melody m).blocks).setMelody m x).StoreSound := by
  by_cases hm : 1 ≤ m ∧ m ≤ 64
  · obtain ⟨before, after, e⟩ := s.ownedBlocks_split m hm.1 hm.2
    generalize ht : (s.discardBlocks (s.melody m).blocks).setMelody m x = t
    have melody : ∀ k, t.melody k = if k = m ∧ 1 ≤ m ∧ m ≤ 64 then x else s.melody k := by
      intro k
      rw [← ht]
      exact State.melody_setMelody (s.discardBlocks _) m k x
    have owned : t.ownedBlocks = before ++ after := by
      have := (e x).1
      rw [blocks, List.nil_append] at this
      rw [← this, ← ht]
      rfl
    have old := (e x).2
    have pool : ∀ k, slot t.pool k [] = if k ∈ (s.melody m).blocks then [] else slot s.pool k [] := by
      intro k
      rw [← ht]
      exact slot_discard ..
    have fewer : (before ++ after).Sublist s.ownedBlocks := by
      rw [old]
      exact (List.Sublist.refl _).append (List.sublist_append_right ..)
    refine ⟨⟨?_, ?_, ?_⟩, fun k h0 hn => ?_⟩
    · intro k hk
      exact h.1.numbers k (fewer.subset (owned ▸ hk))
    · rw [owned]
      exact h.1.owners.sublist fewer
    · intro k hk
      rw [pool]
      split
      · rfl
      · rename_i none
        refine h.1.free k ?_
        rw [owned] at hk
        rw [old]
        simp only [List.mem_append] at hk ⊢
        tauto
    · by_cases hk : k = m
      · subst hk
        have me : t.melody k = x := by rw [melody, if_pos ⟨rfl, h0, hn⟩]
        have score : t.score k = [] := by unfold State.score; rw [me, blocks]; rfl
        refine ⟨?_, ?_, ?_, ?_, ?_, ?_, ?_, ?_⟩
        · rw [me, blocks]; exact Nat.zero_le _
        · rw [me, blocks, records]; rfl
        · rw [me, blocks]; simp
        · rw [me, records, score]; rfl
        · rw [me, notes, score]; rfl
        · rw [me, bars, score]; rfl
        · rw [me]; exact empty
        · rw [me]; exact named
      · refine (h.2 k h0 hn).congr ?_ fun b hb => ?_
        · rw [melody, if_neg (fun c => hk c.1)]
        · rw [pool, if_neg]
          exact fun mine => State.blocks_apart h.1.owners hk hm.1 hm.2 mine hb
  · refine h.congr ?_ ?_
    · exact setSlot_outside _ _ _ (by omega)
    · have : (s.melody m).blocks = [] := by
        unfold State.melody
        rw [slot_outside _ _ _ (by omega)]
      rw [this]
      rfl

/-! ## Appending (R86, R87) -/

/-- A melody about to take a record: every block before the last is full, and the last has room. -/
structure State.Room (s : State) (m last : Nat) (full : List Nat) : Prop where
  blocks : (s.melody m).blocks = full ++ [last]
  few : full.length < 64
  count : (s.melody m).records < 32 * full.length + 32
  filled : ∀ b ∈ full, (slot s.pool b []).length = 32
  rest : 32 * full.length + (slot s.pool last []).length = (s.melody m).records
  records : (s.melody m).records = (s.score m).length
  notes : (s.melody m).notes = (s.score m).countP ScoreRecord.isNote
  bars : (s.melody m).bars = (s.score m).countP ScoreRecord.isBar
  named : (s.melody m).phase ≠ .empty ∧ (s.melody m).name.isSome = true ∧ (s.melody m).beat.isSome = true

/-- What an append does to melody `m` and to every other melody. -/
structure State.Appended (s t : State) (m : Nat) (r : ScoreRecord) : Prop where
  score : t.score m = s.score m ++ [r]
  header : ∃ blocks records notes bars,
    t.melody m = { s.melody m with blocks := blocks, records := records, notes := notes, bars := bars }
  others : ∀ k, k ≠ m → t.melody k = s.melody k ∧ t.score k = s.score k

theorem State.Room.place {s : State} {m last : Nat} {full : List Nat} (h : s.Room m last full) (pool : s.PoolSound)
    (others : ∀ k, k ≠ m → 1 ≤ k → k ≤ 64 → s.MelodySound k) (h0 : 1 ≤ m) (hn : m ≤ 64) (r : ScoreRecord) :
    (s.place m r).StoreSound ∧ s.Appended (s.place m r) m r := by
  have isLast : (s.melody m).blocks.getLast?.getD 0 = last := by simp [h.blocks]
  have mine : last ∈ (s.melody m).blocks := by simp [h.blocks]
  obtain ⟨lastLow, lastHigh⟩ := pool.numbers last (s.melody_owned m last mine)
  have notFull : last ∉ full := by
    intro hf
    obtain ⟨x, y, e⟩ := s.ownedBlocks_split m h0 hn
    have := pool.owners
    rw [(e {}).2, h.blocks] at this
    simp only [List.nodup_append] at this
    exact this.2.1.1.2.2 last hf last (List.mem_singleton_self _) rfl
  have new : ∀ k, (s.place m r).melody k
      = if k = m then
          { s.melody m with
            records := (s.melody m).records + 1
            notes := if r.isNote then (s.melody m).notes + 1 else (s.melody m).notes
            bars := if r.isBar then (s.melody m).bars + 1 else (s.melody m).bars }
        else s.melody k := by
    intro k
    unfold State.place
    dsimp only
    rw [State.melody_setMelody]
    by_cases e : k = m
    · rw [if_pos ⟨e, h0, hn⟩, if_pos e]
    · rw [if_neg (fun c => e c.1), if_neg e]
      rfl
  have slots : ∀ k, slot (s.place m r).pool k []
      = if k = last then slot s.pool last [] ++ [r] else slot s.pool k [] := by
    intro k
    unfold State.place
    simp only [isLast]
    show slot (setSlot s.pool last (slot s.pool last [] ++ [r])) k [] = _
    rw [slot_setSlot]
    by_cases e : k = last
    · rw [if_pos ⟨e, lastLow, lastHigh⟩, if_pos e]
    · rw [if_neg (fun c => e c.1), if_neg e]
  have owned : (s.place m r).ownedBlocks = s.ownedBlocks := by
    obtain ⟨x, y, e⟩ := s.ownedBlocks_split m h0 hn
    rw [(e {}).2]
    exact (e { s.melody m with
            records := (s.melody m).records + 1
            notes := if r.isNote then (s.melody m).notes + 1 else (s.melody m).notes
            bars := if r.isBar then (s.melody m).bars + 1 else (s.melody m).bars }).1
  have me := new m
  rw [if_pos rfl] at me
  have blocks : ((s.place m r).melody m).blocks = full ++ [last] := by rw [me]; exact h.blocks
  have score : (s.place m r).score m = s.score m ++ [r] := by
    unfold State.score
    rw [blocks, h.blocks]
    simp only [List.flatMap_append, List.flatMap_cons, List.flatMap_nil, List.append_nil, slots, if_true]
    rw [← List.append_assoc]
    refine congrArg (· ++ _) (congrArg (· ++ _) (List.flatMap_congr fun b hb => ?_))
    rw [if_neg (fun e : b = last => notFull (e ▸ hb))]
  have len : (s.melody m).records = 32 * full.length + (slot s.pool last []).length := h.rest.symm
  have lenLast : (slot s.pool last []).length < 32 := by have := h.count; omega
  have other : ∀ k, k ≠ m → (s.place m r).melody k = s.melody k ∧
      ∀ b ∈ (s.melody k).blocks, slot (s.place m r).pool b [] = slot s.pool b [] := by
    intro k hk
    refine ⟨by rw [new, if_neg hk], fun b hb => ?_⟩
    rw [slots, if_neg]
    rintro rfl
    exact State.blocks_apart pool.owners hk h0 hn mine hb
  refine ⟨⟨⟨owned ▸ pool.numbers, owned ▸ pool.owners, ?_⟩, fun k k0 kn => ?_⟩, ⟨score, ⟨_, _, _, _, me⟩, ?_⟩⟩
  · intro k hk
    rw [owned] at hk
    rw [slots, if_neg]
    · exact pool.free k hk
    · rintro rfl
      exact hk (s.melody_owned m _ mine)
  · by_cases hk : k = m
    · subst hk
      refine ⟨?_, ?_, ?_, ?_, ?_, ?_, ?_, ?_⟩
      · rw [blocks]
        have := h.few
        simp
        omega
      · rw [blocks, me]
        simp only [List.length_append, List.length_singleton]
        omega
      · intro i b hb
        rw [blocks] at hb
        rw [slots, me]
        dsimp only
        rcases Nat.lt_trichotomy i full.length with hi | hi | hi
        · rw [List.getElem?_append_left hi] at hb
          have hb := List.mem_of_getElem? hb
          rw [if_neg (fun e : b = last => notFull (e ▸ hb)), h.filled b hb]
          omega
        · subst hi
          simp only [List.getElem?_concat_length, Option.some.injEq] at hb
          subst hb
          rw [if_pos rfl]
          simp only [List.length_append, List.length_singleton]
          omega
        · rw [List.getElem?_eq_none (by simp; omega)] at hb
          cases hb
      · rw [me, score, List.length_append, ← h.records]
        rfl
      · rw [me, score, List.countP_append, ← h.notes, List.countP_singleton]
        dsimp only
        split <;> rfl
      · rw [me, score, List.countP_append, ← h.bars, List.countP_singleton]
        dsimp only
        split <;> rfl
      · rw [me]
        exact fun e => absurd e h.named.1
      · rw [me]
        exact fun _ => h.named.2
    · exact (others k hk k0 kn).congr (other k hk).1 (other k hk).2
  · intro k hk
    refine ⟨(other k hk).1, State.score_congr ?_ (other k hk).2⟩
    rw [(other k hk).1]

/-- R81: the lowest free block is one of the pool, and no melody owns it. -/
theorem State.lowestFree_spec {s : State} {k : Nat} (h : s.lowestFree = some k) :
    1 ≤ k ∧ k ≤ 384 ∧ k ∉ s.ownedBlocks := by
  have fresh := List.find?_some h
  have range := List.mem_of_find?_eq_some h
  simp only [List.mem_range'_1] at range
  simp only [List.contains_eq_mem, Bool.not_eq_eq_eq_not, Bool.not_true, decide_eq_false_iff_not] at fresh
  exact ⟨range.1, by omega, fresh⟩

/-- R81, R86, R87: an append keeps the store sound and puts the record last in its melody's score. -/
theorem State.StoreSound.appendRecord {s t : State} (h : s.StoreSound) {m : Nat} {r : ScoreRecord} (h0 : 1 ≤ m)
    (hn : m ≤ 64) (begun : (s.melody m).phase ≠ .empty) (e : s.appendRecord m r = some t) :
    t.StoreSound ∧ s.Appended t m r := by
  have old := h.2 m h0 hn
  have named := old.named begun
  have blocks := old.blocks
  unfold State.appendRecord at e
  split at e
  · rename_i whole
    simp only [State.allocate] at e
    split at e
    · cases e
    · rename_i few
      simp only [Option.map_map, Option.map_eq_some_iff] at e
      obtain ⟨k, hk, rfl⟩ := e
      obtain ⟨low, high, fresh⟩ := State.lowestFree_spec hk
      simp only [Function.comp_apply]
      generalize hu : s.setMelody m { s.melody m with blocks := (s.melody m).blocks ++ [k] } = u
      have pool : u.pool = s.pool := by rw [← hu]; rfl
      have me : u.melody m = { s.melody m with blocks := (s.melody m).blocks ++ [k] } := by
        rw [← hu, State.melody_setMelody, if_pos ⟨rfl, h0, hn⟩]
      have rest : ∀ j, j ≠ m → u.melody j = s.melody j := by
        intro j hj
        rw [← hu, State.melody_setMelody, if_neg (fun c => hj c.1)]
      have mineNot : k ∉ (s.melody m).blocks := fun c => fresh (s.melody_owned m k c)
      have none : slot s.pool k [] = [] := h.1.free k fresh
      have score : u.score m = s.score m := by
        unfold State.score
        rw [me, pool]
        simp [none]
      obtain ⟨before, after, split⟩ := s.ownedBlocks_split m h0 hn
      have owned : u.ownedBlocks.Perm (k :: s.ownedBlocks) := by
        rw [← hu, (split { s.melody m with blocks := (s.melody m).blocks ++ [k] }).1, (split {}).2]
        simp only [List.append_assoc, List.singleton_append]
        have := List.perm_middle (a := k) (l₁ := before ++ (s.melody m).blocks) (l₂ := after)
        simpa only [List.append_assoc] using this
      have sound : u.PoolSound := by
        refine ⟨?_, ?_, ?_⟩
        · intro j hj
          rcases List.mem_cons.mp (owned.mem_iff.mp hj) with rfl | hj
          · exact ⟨low, high⟩
          · exact h.1.numbers j hj
        · exact owned.nodup_iff.mpr (List.nodup_cons.mpr ⟨fresh, h.1.owners⟩)
        · intro j hj
          rw [pool]
          exact h.1.free j fun c => hj (owned.mem_iff.mpr (List.mem_cons_of_mem _ c))
      have room : u.Room m k (s.melody m).blocks := by
        have full : 32 * (s.melody m).blocks.length = (s.melody m).records := by omega
        refine ⟨by rw [me], by omega, ?_, ?_, ?_, ?_, ?_, ?_, ?_⟩
        · rw [me]
          dsimp only
          omega
        · intro b hb
          rw [pool]
          obtain ⟨i, hi, e⟩ := List.mem_iff_getElem.mp hb
          rw [old.filled i b (by rw [List.getElem?_eq_getElem hi, e])]
          omega
        · rw [me, pool, none]
          exact full
        · rw [me, score]; exact old.records
        · rw [me, score]; exact old.notes
        · rw [me, score]; exact old.bars
        · rw [me]; exact ⟨begun, named⟩
      obtain ⟨a, b⟩ := room.place sound
        (fun j hj j0 jn => (h.2 j j0 jn).congr (rest j hj) (fun _ _ => by rw [pool])) h0 hn r
      refine ⟨a, ⟨by rw [b.score, score], ?_, fun j hj => ?_⟩⟩
      · obtain ⟨x, y, z, w, e⟩ := b.header
        refine ⟨x, y, z, w, ?_⟩
        rw [e, me]
      · refine ⟨(b.others j hj).1.trans (rest j hj), (b.others j hj).2.trans ?_⟩
        exact State.score_congr (by rw [rest j hj]) (fun _ _ => by rw [pool])
  · rename_i part
    simp only [Option.some.injEq] at e
    subst e
    have some' : (s.melody m).blocks ≠ [] := by
      intro c
      rw [c] at blocks
      simp at blocks
      omega
    obtain ⟨full, last, split⟩ : ∃ full last, (s.melody m).blocks = full ++ [last] :=
      ⟨_, _, (List.dropLast_append_getLast some').symm⟩
    have count : full.length + 1 = ((s.melody m).records + 31) / 32 := by
      rw [← blocks, split]
      simp
    refine State.Room.place ⟨split, ?_, by omega, ?_, ?_, old.records, old.notes, old.bars, begun, named⟩ h.1
      (fun j _ j0 jn => h.2 j j0 jn) h0 hn r
    · have := old.limit
      rw [split] at this
      simp at this
      omega
    · intro b hb
      obtain ⟨i, hi, e⟩ := List.mem_iff_getElem.mp hb
      rw [old.filled i b (by rw [split, List.getElem?_append_left hi, List.getElem?_eq_getElem hi, e])]
      omega
    · rw [old.filled full.length last (by rw [split]; simp)]
      omega

/-- R86: the records of an ADD, in their order. -/
theorem State.StoreSound.appendAll {s t : State} (h : s.StoreSound) {m : Nat} (h0 : 1 ≤ m) (hn : m ≤ 64)
    (rs : List ScoreRecord) (begun : (s.melody m).phase ≠ .empty) (e : State.appendAll m s rs = some t) :
    t.StoreSound ∧ t.score m = s.score m ++ rs
      ∧ (∃ blocks records notes bars,
        t.melody m = { s.melody m with blocks := blocks, records := records, notes := notes, bars := bars })
      ∧ ∀ k, k ≠ m → t.melody k = s.melody k ∧ t.score k = s.score k := by
  induction rs generalizing s with
  | nil =>
    simp only [State.appendAll, Option.some.injEq] at e
    subst e
    exact ⟨h, by simp, ⟨_, _, _, _, rfl⟩, fun _ _ => ⟨rfl, rfl⟩⟩
  | cons r rest ih =>
    simp only [State.appendAll, Option.bind_eq_some_iff] at e
    obtain ⟨u, hu, ht⟩ := e
    obtain ⟨sound, step⟩ := h.appendRecord h0 hn begun hu
    obtain ⟨x, y, z, w, header⟩ := step.header
    obtain ⟨a, b, ⟨x', y', z', w', c⟩, d⟩ := ih sound (by rw [header]; exact begun) ht
    refine ⟨a, by rw [b, step.score]; simp, ⟨x', y', z', w', by rw [c, header]⟩, fun k hk => ?_⟩
    exact ⟨(d k hk).1.trans (step.others k hk).1, (d k hk).2.trans (step.others k hk).2⟩

/-! ## Loading (R96) and the warm reset (R97) -/

/-- The store with every melody EMPTY and every block free. -/
theorem State.StoreSound.none {s : State} (melodies : s.melodies = Vector.replicate 64 {})
    (pool : s.pool = Vector.replicate 384 []) : s.StoreSound := by
  have melody : ∀ m, s.melody m = {} := by
    intro m
    unfold State.melody
    rw [melodies, slot_replicate]
    split <;> rfl
  have owned : s.ownedBlocks = [] := by
    unfold State.ownedBlocks
    rw [melodies]
    simp
  refine ⟨⟨by simp [owned], by simp [owned], fun k _ => ?_⟩, fun m _ _ => ?_⟩
  · rw [pool, slot_replicate]
    split <;> rfl
  · have score : s.score m = [] := by unfold State.score; rw [melody]; rfl
    refine ⟨?_, ?_, ?_, ?_, ?_, ?_, ?_, ?_⟩
    all_goals simp [melody, score]

theorem State.StoreSound.loadMelody {s : State} (h : s.StoreSound) (contents : StoreContents) {m : Nat} (h0 : 1 ≤ m)
    (hn : m ≤ 64) (unused : s.melody m = {}) :
    (State.loadMelody contents s m).StoreSound ∧ ∀ k, k ≠ m → (State.loadMelody contents s m).melody k = s.melody k := by
  unfold State.loadMelody
  split
  · exact ⟨h, fun _ _ => rfl⟩
  · rename_i saved _
    split
    · exact ⟨h, fun _ _ => rfl⟩
    · rename_i t ht
      have opened := h.retitle m { phase := .opened, name := some saved.name, beat := some saved.beat }
        (by rw [unused]) (by rw [unused]) (by rw [unused]) (by rw [unused]) nofun (fun _ => ⟨rfl, rfl⟩)
      have me : (s.setMelody m { phase := .opened, name := some saved.name, beat := some saved.beat }).melody m
          = { phase := .opened, name := some saved.name, beat := some saved.beat } := by
        rw [State.melody_setMelody, if_pos ⟨rfl, h0, hn⟩]
      obtain ⟨sound, -, ⟨x, y, z, w, header⟩, others⟩ := opened.appendAll h0 hn saved.records (by rw [me]; exact nofun) ht
      refine ⟨sound.retitle m _ rfl rfl rfl rfl nofun fun _ => ?_, fun k hk => ?_⟩
      · rw [header, me]
        exact ⟨rfl, rfl⟩
      · rw [State.melody_setMelody, if_neg (fun c => hk c.1), (others k hk).1, State.melody_setMelody,
          if_neg (fun c => hk c.1)]

theorem State.StoreSound.loadMelodies {s : State} (h : s.StoreSound) (contents : StoreContents) (ms : List Nat)
    (range : ∀ m ∈ ms, 1 ≤ m ∧ m ≤ 64) (distinct : ms.Nodup) (unused : ∀ m ∈ ms, s.melody m = {}) :
    (ms.foldl (State.loadMelody contents) s).StoreSound := by
  induction ms generalizing s with
  | nil => exact h
  | cons m rest ih =>
    obtain ⟨apart, distinct⟩ := List.nodup_cons.mp distinct
    obtain ⟨h0, hn⟩ := range m (List.mem_cons_self ..)
    obtain ⟨sound, others⟩ := h.loadMelody contents h0 hn (unused m (List.mem_cons_self ..))
    refine ih sound (fun k hk => range k (List.mem_cons_of_mem _ hk)) distinct fun k hk => ?_
    rw [others k (fun e => apart (e ▸ hk))]
    exact unused k (List.mem_cons_of_mem _ hk)

/-- R96: a load leaves the store sound, whatever the image. -/
theorem State.StoreSound.loadContents {s : State} (melodies : s.melodies = Vector.replicate 64 {})
    (pool : s.pool = Vector.replicate 384 []) (contents : StoreContents) : (s.loadContents contents).StoreSound := by
  unfold State.loadContents
  refine State.StoreSound.loadMelodies (.none ?_ ?_) contents _ ?_ ?_ ?_
  · exact melodies
  · exact pool
  · intro m hm
    simp only [List.mem_range'_1] at hm
    omega
  · exact List.nodup_range'
  · intro m _
    unfold State.melody
    show slot s.melodies m {} = {}
    rw [melodies, slot_replicate]
    split <;> rfl

/-- R97: a warm reset releases the holds and leaves the rest of the store. -/
theorem State.StoreSound.release {s t : State} (h : s.StoreSound)
    (melodies : t.melodies = s.melodies.map (fun h => { h with held := false })) (pool : t.pool = s.pool) :
    t.StoreSound := by
  have melody : ∀ m, 1 ≤ m → m ≤ 64 → t.melody m = { s.melody m with held := false } := by
    intro m h0 hn
    unfold State.melody
    rw [melodies, slot_map _ _ _ ({} : Melody) h0 hn]
  have owned : t.ownedBlocks = s.ownedBlocks := by
    unfold State.ownedBlocks
    rw [melodies, Vector.toList_map, List.flatMap_map]
  refine ⟨⟨owned ▸ h.1.numbers, owned ▸ h.1.owners, ?_⟩, fun m h0 hn => ?_⟩
  · intro k hk
    rw [pool]
    exact h.1.free k (owned ▸ hk)
  · have old := h.2 m h0 hn
    have me := melody m h0 hn
    have score : t.score m = s.score m := State.score_congr (by rw [me]) (fun _ _ => by rw [pool])
    refine ⟨?_, ?_, ?_, ?_, ?_, ?_, ?_, ?_⟩
    · rw [me]; exact old.limit
    · rw [me]; exact old.blocks
    · intro i b hb
      rw [me] at hb ⊢
      rw [pool]
      exact old.filled i b hb
    · rw [me, score]; exact old.records
    · rw [me, score]; exact old.notes
    · rw [me, score]; exact old.bars
    · intro hp
      rw [me] at hp ⊢
      have := old.empty hp
      generalize s.melody m = x at *
      rw [this]
    · rw [me]; exact old.named

/-! ## The edits -/

theorem State.StoreSound.setHold {s : State} (h : s.StoreSound) (m : Nat) (held : Bool) : (s.setHold m held).StoreSound := by
  by_cases hm : 1 ≤ m ∧ m ≤ 64
  · have old := h.2 m hm.1 hm.2
    refine h.retitle m _ rfl rfl rfl rfl (fun hp => ?_) old.named
    have := old.empty hp
    generalize s.melody m = x at *
    rw [this]
  · refine h.congr ?_ rfl
    exact setSlot_outside _ _ _ (by omega)

/-- The edits keep the store sound. -/
theorem State.StoreSound.edits {s t : State} (h : s.StoreSound) (e : s.Edits t) : t.StoreSound := by
  refine State.Edits.keeps (P := State.StoreSound) e ?_ ?_ ?_ ?_ ?_ ?_ ?_ ?_ ?_ ?_ ?_ ?_ ?_ ?_ ?_ h
  · exact fun _ h => h.congr rfl rfl
  · exact fun _ _ _ h => h.congr (by simp) (by simp)
  · exact fun _ _ _ h => h.congr (by simp) (by simp)
  · exact fun _ _ _ _ h => h.congr (by simp) (by simp)
  · exact fun _ _ h => h.congr (by simp) (by simp)
  · intro s h
    unfold State.drainTune
    split
    · exact h
    · rename_i l _
      split
      · split
        · exact (h.setHold l.spec.melody false).congr rfl rfl
        · exact h
      · exact h
  · exact fun _ h => h.congr (by simp) (by simp)
  · exact fun _ _ _ h => h.congr (by simp) (by simp)
  · exact fun _ _ h => h.congr (by simp) (by simp)
  · exact fun _ _ h => h.congr (by simp) (by simp)
  · exact fun _ _ _ h => h.congr (by simp) (by simp)
  · exact fun _ _ _ h => h.congr (by simp) (by simp)
  · exact fun _ _ _ h => h.congr (by simp) (by simp)
  · exact fun _ h => h.congr (by simp) (by simp)
  · exact fun _ _ _ h => h.congr (by simp) (by simp)

end Sys2Proof.Machine
end

