-- ==== Sys2Proof/Laws/Text.lean ====
section
/-! SUPPORT. Text: lines split into words and joined again, tags, words of the line, and decimal numbers written and
read back. -/

namespace Sys2Proof

/-! ## Words -/

theorem splitOn_ne_nil (sep : Char) (t : Text) : splitOn sep t ≠ [] := by
  cases t with
  | nil => exact nofun
  | cons c cs =>
    unfold splitOn
    split
    · exact nofun
    · split <;> exact nofun

/-- A piece without separators is one piece. -/
theorem splitOn_self {sep : Char} {w : Text} (h : sep ∉ w) : splitOn sep w = [w] := by
  induction w with
  | nil => rfl
  | cons c cs ih =>
    obtain ⟨hc, hcs⟩ := not_or.mp (fun e => h (List.mem_cons.mpr e))
    unfold splitOn
    rw [if_neg (fun e => hc e.symm), ih hcs]

/-- Splitting at the first separator. -/
theorem splitOn_append {sep : Char} {w : Text} (h : sep ∉ w) (t : Text) :
    splitOn sep (w ++ sep :: t) = w :: splitOn sep t := by
  induction w with
  | nil => simp [splitOn]
  | cons c cs ih =>
    obtain ⟨hc, hcs⟩ := not_or.mp (fun e => h (List.mem_cons.mpr e))
    rw [List.cons_append, splitOn, if_neg (fun e => hc e.symm), ih hcs]

/-- R185: fields joined by single spaces are read back as they were. -/
theorem words_joinWords {ws : List Text} (h : ∀ w ∈ ws, ' ' ∉ w ∧ w ≠ []) : words (joinWords ws) = ws := by
  induction ws with
  | nil => rfl
  | cons w rest ih =>
    obtain ⟨hs, hn⟩ := h w (List.mem_cons_self ..)
    have keep : (!w.isEmpty) = true := by cases w <;> simp_all
    cases rest with
    | nil =>
      unfold joinWords words
      rw [splitOn_self hs]
      simp [keep]
    | cons v more =>
      have ih := ih fun w hw => h w (List.mem_cons_of_mem _ hw)
      unfold words at ih ⊢
      unfold joinWords
      rw [splitOn_append hs, List.filter_cons, if_pos keep, ih]

theorem fieldOk_plain {w : Text} (h : fieldOk w = true) : ' ' ∉ w ∧ w ≠ [] := by
  unfold fieldOk at h
  simp only [Bool.and_eq_true, Bool.not_eq_true', List.all_eq_true] at h
  refine ⟨fun hw => absurd (h.2 _ hw) (by decide), ?_⟩
  rintro rfl
  simp at h

/-- R185: a tag of 1 to 4 digits and a space are read back as they were. -/
theorem readTag_append {tag : Text} (h : tagOk tag = true) (rest : Text) :
    readTag (tag ++ ' ' :: rest) = some (tag, rest) := by
  unfold tagOk at h
  simp only [Bool.and_eq_true, decide_eq_true_eq, List.all_eq_true] at h
  have digits : (tag ++ ' ' :: rest).takeWhile isDigit = tag := by
    rw [List.takeWhile_append_of_pos h.2]
    simp [isDigit]
  unfold readTag
  dsimp only
  rw [digits, if_pos h.1]
  simp

/-- Every word is read from its spelling. -/
@[simp] theorem readKw_text (k : Kw) : readKw k.text = some k := by
  cases k <;> decide

/-! ## Decimal numbers -/

namespace Machine

theorem isDigit_digitChar {d : Nat} (h : d < 10) : isDigit d.digitChar = true ∧ d.digitChar.toNat - 48 = d := by
  interval_cases d <;> decide

theorem digitsValue_append (t : Text) (c : Char) : digitsValue (t ++ [c]) = digitsValue t * 10 + (c.toNat - 48) := by
  unfold digitsValue
  rw [List.foldl_append]
  rfl

theorem decimal_digits (n : Nat) : (decimal n).all isDigit = true ∧ decimal n ≠ [] ∧ digitsValue (decimal n) = n := by
  unfold decimal
  induction n using Nat.strongRecOn with
  | _ n ih =>
    by_cases hn : n < 10
    · rw [Nat.toDigits_of_lt_base hn]
      obtain ⟨a, b⟩ := isDigit_digitChar hn
      refine ⟨by simp [a], nofun, ?_⟩
      simpa [digitsValue] using b
    · rw [Nat.toDigits_of_base_le (by decide) (by omega)]
      obtain ⟨a, b, c⟩ := ih (n / 10) (by omega)
      obtain ⟨d, e⟩ := isDigit_digitChar (Nat.mod_lt n (show 0 < 10 by decide))
      refine ⟨by simp [a, d], by simp, ?_⟩
      rw [digitsValue_append, c, e]
      omega

/-- Numbers are read as they are written (Conventions of 00_scope.md). -/
@[simp] theorem readNat_decimal (n : Nat) : readNat (decimal n) = some n := by
  obtain ⟨a, b, c⟩ := decimal_digits n
  unfold readNat
  rw [a, c]
  cases h : decimal n with
  | nil => exact absurd h b
  | cons _ _ => rfl

/-- A number read within a range lies in it. -/
theorem readWithin_bounds {lo hi n : Nat} {t : Text} (h : readWithin lo hi t = some n) : lo ≤ n ∧ n ≤ hi := by
  unfold readWithin within at h
  obtain ⟨x, -, e⟩ := Option.bind_eq_some_iff.mp h
  split at e
  · rename_i c
    rw [Option.some.injEq] at e
    exact e ▸ c
  · cases e

/-- A number within a range is read as it is written. -/
theorem readWithin_decimal {lo hi n : Nat} (h : lo ≤ n ∧ n ≤ hi) : readWithin lo hi (decimal n) = some n := by
  unfold readWithin within
  rw [readNat_decimal]
  exact if_pos h

end Machine

end Sys2Proof
end

