-- ==== Sys2Proof/Laws/Time.lean ====
section
/-! SUPPORT. The timebase: what each of its operations leaves in it, and its invariant kept by each of them. -/

namespace Sys2Proof.Machine

/-! ## What the operations leave in the timebase -/

theorem State.afterForwardStep_time (s : State) (crossed : Nat) :
    (s.afterForwardStep crossed).time = { s.time with crossed := s.wallSecond } := by
  unfold State.afterForwardStep
  dsimp only
  rw [reportAllMissed_frame]
  split <;> simp

theorem State.crossBoundary_time (s : State) :
    s.crossBoundary.time = { s.time with crossed := s.time.crossed + 1 } := by
  unfold State.crossBoundary
  dsimp only
  split <;> simp

/-- R162: the timebase after a step of the wall clock. -/
theorem State.stepWall_time (s : State) (d : Int) :
    (s.stepWall d).time
      = { s.time with offset := s.time.offset + d, slew := 0, crossed := ((s.wall + d) / 10000).toNat } := by
  have second : ∀ t : State, t.time = { s.time with offset := s.time.offset + d, slew := 0 } →
      t.wallSecond = ((s.wall + d) / 10000).toNat := by
    intro t e
    unfold State.wallSecond State.wall State.now
    rw [e]
    simp only [Int.add_assoc]
  unfold State.stepWall
  dsimp only
  split
  · rw [State.afterForwardStep_time]
    exact congrArg (fun c => ({ s.time with offset := s.time.offset + d, slew := 0, crossed := c } : Timebase)) (second _ rfl)
  · exact congrArg (fun c => ({ s.time with offset := s.time.offset + d, slew := 0, crossed := c } : Timebase)) (second _ rfl)

/-- R164: with no slew pending a correction is the named instant less the wall clock at now, on either measure. -/
theorem State.correction_noSlew {s : State} (h : s.time.slew = 0) (instant : Nat) :
    s.correction instant = (instant : Int) * 10000 - s.wall := by
  unfold State.correction State.countedSlew
  rw [h]
  split <;> rw [Int.add_zero]

/-- R164: the timebase after a TIME applied now. -/
theorem State.applyTime_time (s : State) (instant : Nat) :
    (s.applyTime instant).time
      = if s.time.isSet = false then
          { s.time with offset := (instant : Int) * 10000 - s.now, isSet := true, slew := 0, crossed := instant }
        else if (s.correction instant).natAbs ≤ 1000 then { s.time with slew := s.correction instant }
        else
          { s.time with
            offset := s.time.offset + s.correction instant, slew := 0
            crossed := ((s.wall + s.correction instant) / 10000).toNat } := by
  unfold State.applyTime
  cases h : s.time.isSet
  · rfl
  · simp only [Bool.not_true, Bool.false_eq_true, if_false, reduceCtorEq]
    split
    · rfl
    · exact State.stepWall_time ..

/-! ## The invariant -/

/-- The timebase of a state is sound. -/
def State.TimeSound (s : State) : Prop := s.time.Sound

theorem State.TimeSound.congr {s t : State} (h : s.TimeSound) (e : t.time = s.time) : t.TimeSound := by
  unfold State.TimeSound
  rw [e]
  exact h

theorem State.TimeSound.applyTime {s : State} (h : s.TimeSound) (instant : Nat) : (s.applyTime instant).TimeSound := by
  unfold State.TimeSound
  rw [State.applyTime_time]
  split
  · exact { h with unset := by simp }
  · split
    · exact { h with unset := fun e => absurd e ‹_› }
    · exact { h with unset := fun _ => rfl }

/-- R165: a timebase whose pending TIME has been taken away stays sound. -/
theorem Timebase.Sound.noPending {t : Timebase} (h : t.Sound) : Timebase.Sound { t with pendingTime := none } :=
  { h with pending := by simp }

theorem State.applyPending_none {s : State} (h : s.time.pendingTime = none) : s.applyPending = s := by
  unfold State.applyPending
  rw [h]

theorem State.TimeSound.applyPending {s : State} (h : Timebase.Sound { s.time with pendingTime := none }) :
    s.applyPending.TimeSound := by
  unfold State.applyPending
  split
  · rename_i e
    unfold State.TimeSound
    have e2 : s.time = { s.time with pendingTime := none } := by rw [← e]
    rw [e2]
    exact h
  · refine State.TimeSound.applyTime ?_ _
    exact h

theorem State.TimeSound.setSlew {s : State} (h : s.TimeSound) (set : s.time.isSet = true) (d : Int) :
    (s.setSlew d).TimeSound :=
  { (h : s.time.Sound) with unset := fun e => absurd (set.symm.trans e) (by simp) }

theorem State.TimeSound.stepWall {s : State} (h : s.TimeSound) (d : Int) : (s.stepWall d).TimeSound := by
  unfold State.TimeSound
  rw [State.stepWall_time]
  exact { h with unset := fun _ => rfl }

theorem State.TimeSound.correctAtLock {s : State} (h : s.TimeSound) (fromAcquire : Bool) :
    (s.correctAtLock fromAcquire).TimeSound := by
  unfold State.correctAtLock
  dsimp only
  split
  · exact h
  · rename_i set
    split
    · exact h.stepWall _
    · exact h.setSlew (by simpa using set) _

theorem State.TimeSound.qualify {s : State} (h : s.TimeSound) (away : s.time.sync = .acquire ∨ s.time.sync = .holdover) :
    s.qualify.TimeSound := by
  have pending : ∀ x, s.time.pendingTime = some x → False := by
    intro x e
    have := Timebase.Sound.pending h (by simp [e])
    rcases away with e | e <;> simp [e] at this
  have source : s.time.source ≠ .free := by
    intro e
    have := (Timebase.Sound.free h).mp e
    rcases away with e | e <;> simp [e] at this
  have few : s.time.qualified ≤ 2 := Timebase.Sound.qualified h
  unfold State.qualify
  dsimp only
  generalize hc : (if s.goodInterval then s.time.qualified + 1 else 0) = count
  split
  · refine State.TimeSound.correctAtLock ?_ _
    exact
      { (h : s.time.Sound) with
        free := by simp [source]
        pending := fun _ => rfl
        qualified := Nat.zero_le _
        locked := fun _ => ⟨rfl, rfl⟩
        holdover := by simp
        past := by simp }
  · rename_i fewer
    exact
      { (h : s.time.Sound) with
        qualified := by show count ≤ 2; omega
        locked := by rcases away with e | e <;> simp [e]
        holdover := fun _ => rfl
        past := by simp }

theorem State.TimeSound.goodPulse {s : State} (h : s.TimeSound) (locked : s.time.sync = .locked) :
    s.goodPulse.TimeSound := by
  have pulse : (s.modTime (fun t => { t with lastPulse := some t.now })).TimeSound :=
    { (h : s.time.Sound) with
      locked := fun _ => ⟨(Timebase.Sound.locked h locked).1, rfl⟩
      holdover := fun _ => rfl
      past := by simp }
  unfold State.goodPulse
  dsimp only
  split
  · exact State.TimeSound.applyPending (Timebase.Sound.noPending pulse)
  · split
    · exact pulse.setSlew ‹_› _
    · exact pulse

theorem State.TimeSound.takePulse {s : State} (h : s.TimeSound) : s.takePulse.TimeSound := by
  unfold State.takePulse
  split
  · exact h
  · exact h.qualify (.inl ‹_›)
  · exact h.qualify (.inr ‹_›)
  · split
    · exact h.goodPulse ‹_›
    · exact h

theorem State.TimeSound.losePulse {s : State} (h : s.TimeSound) (locked : s.time.sync = .locked) :
    s.losePulse.TimeSound := by
  have source : s.time.source ≠ .free := by
    intro e
    have := (Timebase.Sound.free h).mp e
    simp [locked] at this
  refine State.TimeSound.applyPending ?_
  exact
    { (h : s.time.Sound) with
      free := by simp [source]
      pending := by simp
      qualified := Nat.zero_le _
      locked := by simp
      holdover := fun _ => (Timebase.Sound.locked h locked).2 }

theorem Timebase.warm_sound (t : Timebase) : t.warm.Sound where
  free := by cases e : t.source <;> simp [Timebase.warm, SyncSource.startState, e]
  pending := by simp [Timebase.warm]
  qualified := Nat.zero_le _
  locked := by cases e : t.source <;> simp [Timebase.warm, SyncSource.startState, e]
  holdover := by cases e : t.source <;> simp [Timebase.warm, SyncSource.startState, e]
  past := by simp [Timebase.warm]
  unset := fun _ => rfl

end Sys2Proof.Machine
end

