-- ==== Sys2Proof/Tests/Slice0.lean ====
section
/-! SUPPORT. Tests of the model: ill-formed commands are refused, the manual's own examples come out as the manual
prints them, and each statement with hypotheses has a state and operands that meet them. -/

namespace Sys2Proof.Tests

open Sys2Proof Sys2Proof.Machine

-- One test at a time: each is an evaluation by the kernel, and many at once take a thread each.
set_option Elab.async false

/-! ## Helpers -/

/-- A text from a string. -/
def tx (s : String) : Text := s.toList

/-- The line an outcome replies with. -/
def replyOf : Outcome → Text
  | .next t => (t.serial.executed.map (fun x => lineText x.line)).getD []
  | _ => []

/-- The report lines an outcome leaves waiting. -/
def reportsOf : Outcome → List Text
  | .next t => t.serial.reports.map (fun x => lineText x.line)
  | _ => []

/-- A property of the next state. -/
def leaves (o : Outcome) (p : State → Bool) : Bool :=
  match o with
  | .next t => p t
  | _ => false

/-- The state at a strike-clock value. -/
def atGrain (n : Nat) (s : State) : State := { s with time := { s.time with now := n } }

/-- The blank state with the supply GOOD. -/
def good : State := { State.blank with supply := .good }

/-- The state with a line in the receive buffer. -/
def typed (line : Text) (s : State) : State := { s with serial := { s.serial with buffer := line } }

/-- A strike entry. -/
def entryOf (origin : Origin) (bell level fire : Nat) : Entry :=
  { fire := fire, orig := fire, onset := fire, bell := bell, level := level, origin := origin, slip := 150
    serial := none, slipped := false }

/-- A play request as soon as possible. -/
def asked (id : Nat) (source : Source) (play : Play) : PlayRequest :=
  { id := id, source := source, play := play, start := none, arrival := 0, latest := 1200000, cap := 7, slip := 150
    force := false, cutGiven := false }

def tuneSpec : TuneSpec := { melody := 3, tempo := 100, transpose := 0, repeats := 2 }

def tollSpec (mode : TollMode) : TollSpec :=
  { rule := .fixed 2, bell := 12, interval := 20000, level := 6, mode := mode }

/-- A TUNE lane that has just taken melody 3. -/
def tuneLane (phase : LanePhase) : TuneLane :=
  { phase := phase, request := asked 9 .line (.tune tuneSpec), spec := tuneSpec, origin := 2500
    timing :=
      { beat := 6000, percent := 100, eff := 6000, segOrigin := 2500, segDivision := 0, division := 0, pass := 1
        liveCap := 7, requestCap := 7, transpose := 0 }
    cursor := 1, lastOnset := none, pendingTempo := none, pendingCap := none, barStop := none, lag := false
    serial := 0, summary := {} }

/-- A TOLL lane that has just taken a toll. -/
def tollLane (mode : TollMode) (phase : LanePhase) : TollLane :=
  { phase := phase, request := asked 8 .line (.toll (tollSpec mode)), spec := tollSpec mode, origin := 2500
    requestCap := 7, strokes := 2, next := 0, lastOnset := none, lag := false, summary := {} }

/-- The state with melody 3 READY and its score in block 1 (its kinds: a tempo, a note, a rest, a bar, a note). -/
def scored (s : State) : State :=
  { s.setMelody 3
      { phase := .ready, name := some (tx "HOURTUNE"), beat := some 6000, records := 5, notes := 2, bars := 1
        blocks := [1], held := false } with
    pool := setSlot s.pool 1 [.tempo 0 7200, .note 0 12 5, .rest 48, .bar 0, .note 48 60 7] }

/-- The state with the TUNE lane in melody 3. -/
def tuned (phase : LanePhase) (cursor : Nat) (s : State) : State :=
  { scored s with tune := some { tuneLane phase with cursor := cursor } }

/-- The sense line of a bell low: the active level of POL FALL. -/
def pulled (b : Nat) (s : State) : State := { s with pins := { s.pins with sense := setSlot s.pins.sense b false } }

/-- An open window of a level-5 strike fired at grain 0 (flight 650, W 162). -/
def openWindow : Window :=
  { firedAt := 0, level := 5, test := false, onset := 650, width := 162, bandStart := 488, closes := 812
    clean := true, blocked := false }

/-- Bell 12 with its window open. -/
def struck (s : State) : State := s.setBell 12 { s.bell 12 with window := some openWindow }

/-- Bell 12 with a health. -/
def ailing (h : Health) (s : State) : State := s.setBell 12 { s.bell 12 with health := h }

/-! ## Well-formedness: one ill-formed command for each check -/

theorem test_illFormed_numbers :
    (Instr.coilRelease 0).wellFormed = false ∧ (Instr.coilRelease 65).wellFormed = false ∧
      (Instr.coilWaitDeadline 64).wellFormed = false ∧ (Instr.senseActiveEdge 0).wellFormed = false ∧
      (Instr.senseReleaseEdge 65).wellFormed = false ∧ (Instr.windowEnd 65).wellFormed = false ∧
      (Instr.stuckTimeout 0).wellFormed = false ∧ (Instr.expired 0).wellFormed = false ∧
      (Instr.expired 256).wellFormed = false ∧ (Instr.cutOrder 256).wellFormed = false ∧
      (Instr.cueLineChange 5).wellFormed = false ∧ (Instr.cueDebounceExpire 0).wellFormed = false ∧
      (Instr.characterReceived 13 true).wellFormed = false := by decide

theorem test_illFormed_tags :
    (Instr.save [] []).wellFormed = false ∧ (Instr.save (tx "12345") []).wellFormed = false ∧
      (Instr.save (tx "1a") []).wellFormed = false ∧ (Instr.queueSummary (tx "-1")).wellFormed = false := by
  decide +kernel

theorem test_illFormed_fields :
    (Instr.strike (tx "1") [tx "1 2"]).wellFormed = false ∧ (Instr.strike (tx "1") [[]]).wellFormed = false ∧
      (Instr.time (tx "1") [[Char.ofNat 127]]).wellFormed = false ∧
      (Instr.report (tx "1") [List.replicate 112 'X']).wellFormed = false ∧
      (Instr.report (tx "1") [List.replicate 111 'X']).wellFormed = true := by decide +kernel

theorem test_illFormed_otherRequests :
    (Instr.bell (tx "1") [tx "2", tx "DISABLE"]).wellFormed = false ∧
      (Instr.countRead (tx "1") [tx "2", tx "CLEAR"]).wellFormed = false ∧
      (Instr.entry (tx "1") [tx "2", tx "CLEAR"]).wellFormed = false ∧
      (Instr.quiet (tx "1") [tx "2", tx "CLEAR"]).wellFormed = false ∧
      (Instr.cue (tx "1") [tx "2", tx "ENABLE"]).wellFormed = false := by decide +kernel

/-! ## The manual's own lines -/

/-- R185, R18, R7, R90. -/
theorem test_lines_read :
    readRequest (tx "17 STRIKE 12 5") = .request (.strike (tx "17") [tx "12", tx "5"]) ∧
      readRequest (tx "51 COUNT? 12") = .request (.countRead (tx "51") [tx "12"]) ∧
      readRequest (tx "51 COUNT? 12 CLEAR") = .request (.countClear (tx "51") (tx "12") []) ∧
      readRequest (tx "42 BELL 9 DEFAULT REARM 1000") =
        .request (.bell (tx "42") [tx "9", tx "DEFAULT", tx "REARM", tx "1000"]) ∧
      readRequest (tx "44  MEL?   3  ") = .request (.melRead (tx "44") [tx "3"]) := by decide +kernel

/-- R185: verbs are upper case, and a tag stands at the start of its line. -/
theorem test_lines_refused :
    readRequest (tx "7") = .unknown (tx "7") ∧ readRequest (tx "7 strike 12 5") = .unknown (tx "7") ∧
      readRequest (tx " 7 STATUS") = .noTag ∧ readRequest (tx "12345 STATUS") = .noTag ∧
      readRequest (tx "7STATUS") = .noTag := by decide +kernel

/-- No row of the table has bits (assumption 15). -/
theorem test_no_word_spells_a_command : decodeTableWord 8 255 = none := rfl

/-- R60: "20 STRIKE 12 9" is answered "20 OK 12 7". -/
theorem test_strike_reply : replyOf (exec (.strike (tx "20") [tx "12", tx "9"]) State.blank) = tx "20 OK 12 7" := by
  decide +kernel

/-- R61: a TEST is answered as a STRIKE, and its level clamped from below. -/
theorem test_test_reply : replyOf (exec (.test (tx "21") [tx "23", tx "0"]) State.blank) = tx "21 OK 23 1" := by
  decide +kernel

/-- R18: the reply of COUNT?. -/
theorem test_count_reply :
    replyOf (exec (.countRead (tx "51") [tx "12"]) (State.blank.setBell 12
      { State.blank.bell 12 with
        counters := { fired := 2210, hit := 2198, miss := 5, stray := 3, slip := 41, throttle := 9, drop := 2 } })) =
      tx "51 OK 12 FIRED 2210 HIT 2198 MISS 5 STRAY 3 SLIP 41 THROTTLE 9 DROP 2" := by decide +kernel

/-- R7: DEFAULT and then REARM leaves the defaults with a rearm of 1000. -/
theorem test_bell_default_then_rearm :
    leaves (exec (.bell (tx "42") [tx "9", tx "DEFAULT", tx "REARM", tx "1000"])
        (State.blank.setBell 9 { State.blank.bell 9 with cal := { Calibration.default with heat := 300, rearm := 400 } }))
      (fun t => (t.bell 9).cal = { Calibration.default with rearm := 1000 }) = true := by decide +kernel

/-- R190: ID after a power-on reset. -/
theorem test_id_reply :
    replyOf (exec (.identity (tx "1") []) State.reset) =
      tx "1 OK VELISCA TC56 REV A N 23 C 2 RATE 9600 STORE EMPTY RESET POWER" := by decide +kernel

/-- R90: the reply of MEL? in its two forms. -/
theorem test_mel_reply :
    replyOf (exec (.melRead (tx "44") [tx "3"]) (scored State.blank)) =
        tx "44 OK 3 READY HOURTUNE 6000 RECORDS 5 NOTES 2 BARS 1 BLOCKS 1 HOLD NONE FREE 383" ∧
      replyOf (exec (.melRead (tx "44") [tx "4"]) State.blank) = tx "44 OK 4 EMPTY FREE 384" := by decide +kernel

/-- R163, R164: TIME sets an UNSET clock, replies SET and posts SET. -/
theorem test_time_sets :
    replyOf (exec (.time (tx "5") [tx "2024-02-29", tx "23:59:59"]) State.blank) =
        tx "5 OK SET 2024-02-29 23:59:59" ∧
      reportsOf (exec (.time (tx "5") [tx "2024-02-29", tx "23:59:59"]) State.blank) =
        [tx "!SET 2024-02-29 23:59:59"] := by decide +kernel

/-- R164: with the wall clock at 11:58:20.3000 and at 12:00:59.9400, a TIME for 12:01:00 corrects by 1597000 and by 600. -/
theorem test_correction_examples :
    let noonOf (seconds grains : Int) : State :=
      { good with time := { good.time with isSet := true, offset := seconds * 10000 + grains } }
    (noonOf 43100 3000).correction 43260 = 1597000 ∧ (noonOf 43259 9400).correction 43260 = 600 := by
  refine ⟨(State.correction_noSlew rfl _).trans ?_, (State.correction_noSlew rfl _).trans ?_⟩ <;> decide +kernel

/-- R163: 2023 is no leap year; a date and a time are refused outside their ranges. -/
theorem test_time_refused :
    replyOf (exec (.time (tx "5") [tx "2023-02-29", tx "00:00:00"]) State.blank) = tx "5 ERR ARG" ∧
      replyOf (exec (.time (tx "5") [tx "2024-02-29", tx "24:00:00"]) State.blank) = tx "5 ERR ARG" := by
  decide +kernel

/-- R196: the START report of a power-on reset, and of the rise of RESET. -/
theorem test_start_reports :
    reportsOf (.next State.reset) = [tx "!START POWER EMPTY FREE N 23 C 2"] ∧
      reportsOf (exec (.resetLineRise { Pins.resting with nsel := 7, csel := 3 })
        { State.blank with held := true, cause := .line }) = [tx "!START LINE EMPTY FREE N 64 C 6"] := by decide +kernel

/-- R151: Friday 22:00 to 06:00 covers Saturday 05:59:59 and not Friday 05:59:59; 2000-01-01 is a Saturday. -/
theorem test_quiet_wraps :
    let rule : QuietRule := { days := [4], fromMin := 1320, toMin := 360, tune := .silence, tollCap := 1 }
    rule.covers (7 * 86400 + 21599) = true ∧ rule.covers (7 * 86400 + 21600) = false ∧
      rule.covers (6 * 86400 + 21599) = false ∧ rule.covers (6 * 86400 + 79200) = true := by decide +kernel

/-- R39, R51: a firing at level 5 with the default calibration: flight 650, W 162, ready after 812. -/
theorem test_dispatch_fires :
    leaves (exec .dispatch (atGrain 10000 { good with queue := [entryOf .strike 12 5 10000] }))
      (fun t => t.coils = [⟨12, 10100, .strike⟩] ∧ (t.bell 12).ready = 10900 ∧
        (t.bell 12).bucket = 110000 ∧ (t.bell 12).window.map (·.closes) = some 10812) = true := by decide +kernel

/-- R67, R68: an edge at the end of the band is a hit. -/
theorem test_edge_at_band_end :
    leaves (exec (.senseActiveEdge 12) (atGrain 812 (struck State.blank)))
      (fun t => (t.bell 12).counters.hit = 1 ∧ (t.bell 12).window = none ∧
        slot (t.bell 12).cal.flight 5 0 = 670) = true := by decide +kernel

/-! ## Witnesses: the hypotheses of each statement are met -/

theorem test_witness_idleStep :
    ((atGrain 1 good).pending = [] ∧ (atGrain 1 good).due = [] ∧ (atGrain 1 good).now + 1 < 2 ^ 48) ∧
      ((atGrain (2 ^ 48 - 1) good).due = [] ∧ 2 ^ 48 ≤ (atGrain (2 ^ 48 - 1) good).now + 1) ∧
      (atGrain 10001 State.blank).due = [.supplyGood] ∧
      (atGrain 10000 State.blank).due = [.slewTick, .supplyGood] ∧
      2 ≤ (atGrain 10000 { State.blank with queue := [entryOf .strike 12 5 1] }).due.length := by decide +kernel

theorem test_witness_commandsAnswer :
    ((Instr.save (tx "7") []).fields.isSome = true ∧ { State.blank with held := true }.canExecute = false) ∧
      (∃ t, exec (.strike (tx "7") [tx "1", tx "7"]) State.blank = .next t) ∧
      ∃ t, exec (.powerOnReset Pins.resting) good = .next t := ⟨by decide +kernel, ⟨_, rfl⟩, _, rfl⟩

/-- The state in which the reply to RESET has been sent. -/
def replied : State := atGrain 500 { good with serial := { good.serial with resetWait := .replySending 500 } }

theorem test_witness_straps :
    (∃ t, State.blank.bellCount ≤ 64 ∧ exec (.powerOnReset Pins.resting) State.blank = .next t) ∧
      (∃ t, { good with held := true }.held = true ∧
        exec (.resetLineRise Pins.resting) { good with held := true } = .next t) ∧
      ∃ t, replied.warmResetDue = true ∧ exec (.warmResetCommand Pins.resting) replied = .next t :=
  ⟨⟨_, by decide, rfl⟩, ⟨_, rfl, rfl⟩, _, by decide +kernel, rfl⟩

theorem test_witness_powerOn :
    ∀ contents, { good with image := .torn }.image ≠ .written contents (imageSum contents) :=
  fun _ h => nomatch h

/-- Every bell record of the blank state is sound. -/
theorem blank_bells : State.blank.BellsSound := by
  refine AllSlots.replicate 64 _ ⟨⟨?_, ?_, by decide, by decide, by decide⟩, ⟨?_, ?_, ?_, ?_, ?_, ?_, ?_⟩, ?_, ?_, ?_,
    ?_, ?_, ?_⟩
  all_goals first | decide | (unfold AllSlots; decide)

/-- A store with one READY melody, made by an OPEN and an ADD. -/
def opened : State :=
  (State.blank.discardBlocks (State.blank.melody 3).blocks).setMelody 3
    { phase := .opened, name := some (tx "HOURTUNE"), beat := some 6000 }

theorem opened_store : opened.StoreSound :=
  State.StoreSound.begin (State.StoreSound.none rfl rfl) 3 _ rfl rfl rfl rfl (fun h => nomatch h) (fun _ => ⟨rfl, rfl⟩)

def added : State := (State.appendAll 3 opened [.note 0 12 5, .bar 48]).getD opened

theorem added_store : added.StoreSound := by
  have e : State.appendAll 3 opened [.note 0 12 5, .bar 48] = some added := by
    unfold added
    rcases h : State.appendAll 3 opened [.note 0 12 5, .bar 48] with _ | t
    · have some : (State.appendAll 3 opened [.note 0 12 5, .bar 48]).isSome = true := by decide +kernel
      rw [h] at some
      cases some
    · rfl
  exact (opened_store.appendAll (by decide) (by decide) _ (by decide +kernel) e).1

def closed : State := added.setMelody 3 { added.melody 3 with phase := .ready }

theorem ready_store {s : State} (h : s.StoreSound)
    (named : (s.melody 3).name.isSome = true ∧ (s.melody 3).beat.isSome = true) :
    (s.setMelody 3 { s.melody 3 with phase := .ready }).StoreSound :=
  h.retitle 3 _ rfl rfl rfl rfl (fun h => nomatch h) (fun _ => named)

theorem closed_store : closed.StoreSound := ready_store added_store (by decide +kernel)

theorem closed_bells : closed.BellsSound := by
  have e : closed.bells = State.blank.bells := by decide +kernel
  unfold State.BellsSound
  rw [e]
  exact blank_bells

theorem test_witness_loadRestores :
    closed.BellsSound ∧ closed.StoreSound ∧
      { good with image := .written closed.snapshot (imageSum closed.snapshot) }.image =
        .written closed.snapshot (imageSum closed.snapshot) ∧
      (closed.melody 3).phase = .ready ∧ (closed.melody 64).phase ≠ .ready := by
  exact ⟨closed_bells, closed_store, rfl, by decide +kernel, by decide +kernel⟩

theorem test_witness_warmResets :
    good.held = false ∧ { good with held := true }.held = true ∧ good.canExecute = true ∧
      replied.serial.resetWait ≠ .none ∧ replied.held = false ∧ replied.serial.resetWait = .replySending 500 ∧
      500 ≤ replied.now ∧ (∃ m, exec .resetLineFall replied = .next m) ∧ (atGrain 499 replied).now < 500 :=
  ⟨rfl, rfl, by decide, by decide, rfl, rfl, by decide, ⟨_, rfl⟩, by decide⟩

theorem test_witness_bellsSound :
    { State.blank with pending := [.bellDisable (tx "1") (tx "12") []] }.BellsSound ∧
      ∃ t, step { State.blank with pending := [.bellDisable (tx "1") (tx "12") []] } = .next t :=
  ⟨blank_bells, _, rfl⟩

/-- Two entries due at once, and a coil. -/
def busy : State :=
  { good with
    queue := [entryOf .toll 12 5 1, entryOf .tune 12 5 1], coils := [⟨5, 40, .strike⟩], pending := [.dispatch] }

theorem test_witness_dispatcherSound :
    busy.DispatcherSound ∧ busy.RestsWhileHeld ∧ (∃ t, step busy = .next t) ∧
      { State.blank with held := true }.RestsWhileHeld ∧ { State.blank with held := true }.held = true := by
  refine ⟨⟨by decide, by decide, ?_, ?_, by decide, by decide⟩, (fun h => nomatch h), ⟨_, rfl⟩, fun _ => ?_, rfl⟩
  · unfold InOrder; decide
  · unfold InOrder; decide
  · exact ⟨rfl, rfl, rfl, rfl, rfl, rfl, AllSlots.replicate 64 _ ⟨rfl, rfl⟩, rfl⟩

/-- A toll and a tune queued, and a CANCEL waiting. -/
def queued : State :=
  { good with
    playQueue := [asked 1 .line (.toll (tollSpec .after)), asked 2 (.cue 4) (.tune tuneSpec)], lastId := 2
    pending := [.cancel (tx "1") [tx "2"]] }

theorem queued_plays : queued.PlaysSound := by
  refine ⟨by decide, ?_, by decide +kernel, by decide +kernel, by decide +kernel, by decide⟩
  unfold InOrder
  decide +kernel

theorem test_witness_playsSound : queued.PlaysSound ∧ ∃ t, step queued = .next t := ⟨queued_plays, _, rfl⟩

/-- A tune that drains, with a coil of it still energised. -/
def draining : State :=
  { good.setMelody 3 { phase := .ready, held := true } with
    tune := some (tuneLane (.draining .done)), coils := [⟨12, 40, .tune⟩], pending := [.expandRecord] }

theorem test_witness_lanesSound :
    draining.LanesSound ∧ draining.LanesSettled ∧ ∃ t, step draining = .next t := by
  refine ⟨⟨?_, fun m h => ⟨_, rfl, ?_⟩, fun l h => ?_⟩, ⟨?_, fun l h _ => ?_, ?_⟩, _, rfl⟩
  · intro l h
    cases h
  · have e : draining.melody m = (good.setMelody 3 { phase := .ready, held := true }).melody m := rfl
    rw [e, State.melody_setMelody] at h
    split at h
    · exact (by assumption : m = 3 ∧ _).1.symm
    · have none : good.melody m = {} := by
        change slot (Vector.replicate 64 _) m _ = _
        rw [slot_replicate]
        split <;> rfl
      rw [none] at h
      cases h
  · cases h
    decide +kernel
  · decide
  · decide
  · intro l h
    cases h

/-- A serial line with a line waiting in each of its queues. -/
def waitingLines : Serial :=
  { input := [tx "1 ID"], executed := some ⟨2, .ok (tx "3") []⟩, refusals := [⟨1, .error (tx "4") .busy⟩]
    reports := [⟨0, .report .start []⟩], made := 3 }

theorem test_witness_serialSound :
    waitingLines.Sound ∧ ∃ t, step { good with serial := waitingLines, pending := [.transmitLine] } = .next t := by
  refine ⟨⟨by decide, by decide, by decide, by decide, by decide, fun x h => ?_, ?_, ?_⟩, _, rfl⟩
  · cases h
    decide
  · unfold MadeInOrder; decide
  · unfold MadeInOrder; decide

theorem test_witness_storeSound :
    closed.StoreSound ∧ ∃ t, step { closed with pending := [.melDelete (tx "1") (tx "3") []] } = .next t :=
  ⟨closed_store, _, rfl⟩

/-- A timebase that is LOCKED, its last pulse at grain 10. -/
def locked : Timebase :=
  { now := 10010, offset := 5, isSet := true, slew := -3, pendingTime := some 0, source := .pulse, sync := .locked
    qualified := 0, lastPulse := some 10, crossed := 1, slewedAt := none }

theorem test_witness_timeSound : locked.Sound ∧ ∃ t, step { good with time := locked, pending := [.secpulseEdge] } = .next t :=
  ⟨⟨by decide, by decide, by decide, by decide, by decide, fun p h => by cases h; decide, by decide⟩, _, rfl⟩

theorem test_witness_linesArrive :
    { good with held := true }.held = true ∧ good.held = false ∧
      (∀ c ∈ [(32 : BitVec 8), 126], 32 ≤ c.toNat ∧ c.toNat ≤ 126) ∧
      (typed (List.replicate 119 'A') good).serial.buffer.length < 120 ∧
      120 ≤ (typed (List.replicate 120 'A') good).serial.buffer.length ∧
      (∀ c ∈ [(31 : BitVec 8), 127, 255, 0], c ≠ 10 ∧ c ≠ 13 ∧ (c.toNat < 32 ∨ 126 < c.toNat)) ∧
      { good.serial with badLine := true }.badLine = true ∧ good.serial.badLine = false ∧ good.serial.buffer = [] ∧
      (typed (tx "ID") good).serial.buffer ≠ [] ∧ readTag (typed (tx "ID") good).serial.buffer = none ∧
      readTag (typed (tx "1 ID") good).serial.buffer = some (tx "1", tx "ID") ∧
      { good.serial with input := List.replicate 3 (tx "1 ID") }.input.length < 4 ∧
      4 ≤ { good.serial with input := List.replicate 4 (tx "1 ID") }.input.length := by decide +kernel

/-- A state whose input queue holds a line. -/
def lined (line : Text) : State := { good with serial := { good.serial with input := [line] } }

theorem test_witness_lineExecutes :
    { good with held := true }.canExecute = false ∧ good.serial.input = [] ∧
      (lined (tx "1 ID")).canExecute = true ∧ (lined (tx "1 ID")).serial.input = [tx "1 ID"] ∧
      readRequest (tx "1 ID") = .request (.identity (tx "1") []) ∧ readRequest (tx "1 NONE") = .unknown (tx "1") ∧
      readRequest (tx "1 HOLD") = .badArg (tx "1") := by decide +kernel

theorem test_witness_requestsReply :
    (Instr.save (tx "7") []).fields = some (tx "7", [tx "SAVE"]) ∧ good.canExecute = true ∧
      (∃ t, exec (.save (tx "7") []) good = .next t) ∧
      (Instr.save (tx "7") [tx "1"]).fields = some (tx "7", [tx "SAVE", tx "1"]) ∧
      ∃ t, exec (.save (tx "7") [tx "1"]) good = .next t ∧
        t.serial.executed = some ⟨good.serial.made, .error (tx "7") .arg⟩ :=
  ⟨by decide +kernel, by decide, ⟨_, rfl⟩, by decide +kernel, _, rfl, rfl⟩

theorem test_witness_transmitter :
    { good with held := true }.held = true ∧
      (good.serial.executed = none ∧ good.serial.refusals = [] ∧ good.serial.reports = []) ∧
      good.held = false ∧ good.transmitterIdle = true ∧ (∀ f, good.serial.resetWait ≠ .replySending f) ∧
      (let l : Serial := { waitingLines with executed := some ⟨0, .ok (tx "3") []⟩, reports := [] }
       (∀ y ∈ l.refusals.head?, 0 ≤ y.order) ∧ ∀ y ∈ l.reports.head?, 0 ≤ y.order) ∧
      (let l : Serial := { waitingLines with reports := [] }
       (∀ y ∈ l.executed, 1 < y.order) ∧ ∀ y ∈ l.reports.head?, 1 ≤ y.order) ∧
      ((∀ y ∈ waitingLines.executed, 0 < y.order) ∧ ∀ y ∈ waitingLines.refusals.head?, 0 < y.order) ∧
      waitingLines.discards = 0 ∧ 0 < { waitingLines with discards := 1 }.discards := by
  refine ⟨by decide, by decide, by decide, by decide, (fun f h => nomatch h), ?_, ?_, ?_, by decide, by decide⟩
  all_goals simp [waitingLines]

theorem test_witness_reports :
    (let l : Serial := { good.serial with mask := setSlot good.serial.mask (kindNumber .play) false }
     slot l.mask (kindNumber .play) true = false) ∧
      slot good.serial.mask (kindNumber .saved) true = true ∧
      { good.serial with reports := List.replicate 31 ⟨0, .report .start []⟩ }.reports.length < 32 ∧
      32 ≤ { good.serial with reports := List.replicate 32 ⟨0, .report .start []⟩ }.reports.length ∧
      good.canExecute = true ∧
      readPairs [tx "PLAY", tx "OFF", tx "ALL", tx "ON"] = some [(.one .play, false), (.all, true)] ∧
      readPairs [tx "START", tx "OFF"] = none := by decide +kernel

theorem test_witness_requestLines :
    (Instr.report (tx "1") [List.replicate 111 'X']).wellFormed = true ∧
      (Instr.report (tx "1") [List.replicate 111 'X']).fields.isSome = true ∧
      (Instr.queueSummary (tx "0000")).wellFormed = true ∧ (Instr.queueSummary (tx "0000")).fields.isSome = true ∧
      readTag (tx "0000 QUEUE?") = some (tx "0000", tx "QUEUE?") ∧ readTag (tx "9999") = some (tx "9999", []) ∧
      readRequest (tx "9  STATUS") = .request (.status (tx "9") []) := by
  decide +kernel

theorem test_witness_textReadsBack : 0 < wallEnd ∧ wallEnd - 1 < wallEnd := by decide

theorem test_witness_readings :
    good.canExecute = true ∧ readNat (tx "1") = some 1 ∧ (1 ≤ 1 ∧ 1 ≤ good.bellCount) ∧ readNat (tx "16") = some 16 ∧
      readNat (tx "64") = some 64 ∧ readNat (tx "48") = some 48 ∧ readNat (tx "8") = some 8 ∧
      readNat (tx "4") = some 4 ∧ readNat (tx "23") = some good.bellCount ∧ readNat (tx "0") = some 0 ∧
      readNat (tx "17") = some 17 ∧ readNat (tx "65") = some 65 := by decide +kernel

theorem test_witness_readings_refused :
    (∀ f n, ([tx "1", tx "2"] : List Text) = [f] → readNat f ≠ some n) ∧
      (∀ f n, [tx "24"] = [f] → readNat f = some n → n = 0 ∨ good.bellCount < n) ∧
      (∀ f g n, [tx "49", tx "LIVE"] = [f, g] → readNat f = some n →
        (readKw g = some .LIVE ∨ readKw g = some .PENDING) → n = 0 ∨ 48 < n) := by
  have n24 : readNat (tx "24") = some 24 := by decide +kernel
  have n49 : readNat (tx "49") = some 49 := by decide +kernel
  refine ⟨fun f n h => by simp at h, fun f n h e => ?_, fun f g n h e _ => ?_⟩
  · cases h
    rw [n24] at e
    cases e
    decide
  · cases h
    rw [n49] at e
    cases e
    decide

/-- A state whose store is BUSY since grain 0. -/
def saving : State := { good with store := .busy 0 good.snapshot }

theorem test_witness_save :
    good.canExecute = true ∧ saving.canExecute = true ∧ saving.store = .busy 0 good.snapshot ∧
      (good.store = .good ∨ good.store = .bad ∨ good.store = .empty) ∧ saving.held = false ∧
      (atGrain 30000 saving).now ≤ 0 + 30000 ∧ 0 + 30000 ≤ (atGrain 30000 saving).now ∧
      (atGrain 29999 saving).now < 0 + 30000 ∧ 0 + 30000 < (atGrain 30001 saving).now :=
  ⟨by decide, by decide, rfl, by decide +kernel, rfl, by decide, by decide, by decide, by decide⟩

theorem test_witness_numbers :
    good.canExecute = true ∧ good.readBell (tx "24") = none ∧ good.readBell (tx "0") = none ∧
      good.readBell (tx "23") = some 23 ∧ readRule 15 [tx "HOUR12", tx "24"] = some (.hour12, [tx "24"]) ∧
      (∀ n, readNat (tx "x") = some n → n = 0 ∨ 64 < n) ∧
      (∀ n, readNat (tx "65") = some n → n = 0 ∨ 64 < n) ∧ ∀ n, readNat (tx "5") = some n → n = 0 ∨ 4 < n := by
  have x : readNat (tx "x") = none := by decide +kernel
  have n65 : readNat (tx "65") = some 65 := by decide +kernel
  have n5 : readNat (tx "5") = some 5 := by decide +kernel
  refine ⟨by decide, by decide +kernel, by decide +kernel, by decide +kernel, by decide +kernel, fun n h => ?_,
    fun n h => ?_, fun n h => ?_⟩
  · rw [x] at h
    cases h
  · rw [n65] at h
    cases h
    decide
  · rw [n5] at h
    cases h
    decide

theorem test_witness_counts : good.canExecute = true ∧ good.readBell (tx "23") = some 23 := by decide +kernel

theorem test_witness_bellHealth :
    good.bellCount ≤ 64 ∧ good.canExecute = true ∧ good.readBell (tx "12") = some 12 ∧ (good.bell 12).health = .good ∧
      (good.bell 12).health ≠ .disabled ∧ ((ailing .disabled good).bell 12).health = .disabled ∧
      ((ailing .suspect good).bell 12).health = .suspect ∧
      ((ailing (.faulted .stuck) good).bell 12).health = .faulted .stuck := by decide +kernel

theorem test_witness_settings :
    good.bellCount ≤ 64 ∧ good.canExecute = true ∧ good.readBell (tx "1") = some 1 ∧
      readSettings [tx "HEAT", tx "1"] = some [.heat 1] ∧ readSettings [tx "DEFAULT"] = some [.default] ∧
      readSettings [tx "PULSE", tx "8", tx "1"] = none ∧ (good.bell 64).cal.fitted = true ∧
      (good.bell 64).cal.polarity = .fall ∧ (good.bell 64).cal.polarity ≠ .rise ∧
      ((good.setBell 1 { good.bell 1 with cal := { Calibration.default with fitted := false } }).bell 1).cal.fitted =
        false := by decide +kernel

theorem test_witness_refills : (good.bell 1).stamp ≤ 0 ∧ (0 : Nat) ≤ 5 := by decide +kernel

theorem test_witness_learnedFlight : (50 ≤ 50 ∧ 50 ≤ 2000) ∧ (50 ≤ 2000 ∧ 2000 ≤ 2000) := by decide

theorem test_witness_liveStrikes :
    good.canExecute = true ∧ good.readBell (tx "23") = some 23 ∧ readNat (tx "9") = some 9 ∧
      { good with queue := List.replicate 63 (entryOf .tune 1 1 9) }.queue.length + good.waiting.length < 64 ∧
      64 ≤ { good with queue := List.replicate 64 (entryOf .tune 1 1 9) }.queue.length + good.waiting.length ∧
      ∀ f g b n, [tx "24", tx "1"] = [f, g] → good.readBell f = some b → readNat g ≠ some n := by
  have out : good.readBell (tx "24") = none := by decide +kernel
  refine ⟨by decide, by decide +kernel, by decide +kernel, by decide, by decide, fun f g b n h e => ?_⟩
  cases h
  rw [out] at e
  cases e

theorem test_witness_dispatch :
    { good with held := true }.held = true ∧ good.queue = [] ∧ good.held = false ∧
      { good with queue := [entryOf .strike 12 5 7] }.queue = [entryOf .strike 12 5 7] ∧
      (atGrain 6 good).now < (entryOf .strike 12 5 7).fire ∧ (entryOf .strike 12 5 7).fire ≤ (atGrain 7 good).now := by
  decide +kernel

/-- Bell 12 SUSPECT with two misses and a window that ends at grain 812, and a strike of it due then. -/
def ending : State :=
  atGrain 812
    { good.setBell 12 { good.bell 12 with health := .suspect, misses := 2, window := some openWindow } with
      queue := [entryOf .strike 12 5 812] }

/-- R65: the dispatch of an entry at the end of its bell's window and that end itself, in either order: the miss faults
the bell, and the entry is a drop with reason FAULT (assumption 16). -/
theorem test_dispatch_at_window_end :
    let dropped (t : State) : Bool :=
      (t.bell 12).health = .faulted .misses ∧ (t.bell 12).window = none ∧ (t.bell 12).lastDrop = some .fault ∧
        (t.bell 12).counters.miss = 1 ∧ (t.bell 12).counters.fired = 0 ∧ t.coils = []
    leaves (exec .dispatch ending) dropped = true ∧
      leaves (exec (.windowEnd 12) ending) (fun t => leaves (exec .dispatch t) dropped) = true := by decide +kernel

theorem test_witness_dropsSlips :
    (entryOf .strike 12 5 7).origin = .strike ∧ (entryOf .tune 12 5 7).origin = .tune ∧
      (entryOf .toll 12 5 7).origin = .toll ∧ (entryOf .toll 12 5 7).slipped = false ∧
      { entryOf .toll 12 5 7 with slipped := true }.slipped = true := by decide

theorem test_witness_coils :
    ∃ t, exec .dispatch { good with queue := [entryOf .strike 12 5 0] } = .next t ∧
      (⟨12, 100, .strike⟩ : Coil) ∈ t.coils ∧ (⟨12, 100, .strike⟩ : Coil) ∉ good.coils :=
  ⟨_, rfl, by decide +kernel, by decide⟩

theorem test_witness_coilPlaces :
    (atGrain 40 { good with coils := [⟨12, 40, .strike⟩] }).coilDue 12 = true ∧
      (atGrain 39 { good with coils := [⟨12, 40, .strike⟩] }).coilDue 12 = false ∧
      { good with held := true }.held = true ∧ good.waiting[63]? = none ∧
      { good with waiting := [entryOf .toll 12 5 7] }.waiting[0]? = some (entryOf .toll 12 5 7) ∧
      (atGrain 156 good).now < 7 + 150 ∧ 7 + 150 ≤ (atGrain 157 good).now ∧ good.held = false := by decide +kernel

theorem test_witness_health :
    (∀ h ∈ [Health.good, .suspect, .faulted .misses, .faulted .stuck], ((ailing h good).bell 12).health = h) ∧
      (∀ n ∈ [0, 2], { good.bell 12 with hits := n }.hits ≤ 2) ∧ { good.bell 12 with hits := 3 }.hits = 3 ∧
      (∀ n ∈ [0, 1], { good.bell 12 with misses := n }.misses ≤ 1) ∧ { good.bell 12 with misses := 2 }.misses = 2 := by
  decide +kernel

theorem test_witness_edges :
    good.held = false ∧ good.lineActive 12 = false ∧ good.watched 12 = true ∧ (good.bell 12).window = none ∧
      ((struck good).bell 12).window = some openWindow ∧ (struck good).lineActive 12 = false ∧
      (struck good).watched 12 = true ∧ openWindow.closes < (atGrain 813 good).now ∧
      (atGrain 487 good).now < openWindow.bandStart ∧ (atGrain 487 good).now ≤ openWindow.closes ∧
      openWindow.bandStart ≤ (atGrain 488 good).now ∧ (atGrain 812 good).now ≤ openWindow.closes ∧
      ((atGrain 812 (struck good)).now = openWindow.closes ∧ (atGrain 812 (struck good)).mayFire 12 = false) ∧
      (openWindow.closes = ending.now ∧ ending.mayFire 12 = true ∧ (ending.bell 12).window = some openWindow ∧
        ending.lineActive 12 = false ∧ ending.watched 12 = true ∧ ending.held = false) ∧
      (pulled 12 good).lineActive 12 = true ∧ (pulled 12 good).watched 12 = true ∧ good.watched 24 = false ∧
      good.lineActive 24 = false ∧ (pulled 64 good).lineActive 64 = true ∧ good.watched 64 = false := by decide +kernel

/-- Bell 12 with its stuck timer running from grain 5. -/
def stuckFrom (h : Health) : State := good.setBell 12 { good.bell 12 with health := h, stuck := .running 5 }

theorem test_witness_timers :
    good.held = false ∧ { good with held := true }.held = true ∧ (good.bell 12).window = none ∧
      ((struck good).bell 12).window = some openWindow ∧ (atGrain 811 good).now < openWindow.closes ∧
      openWindow.closes ≤ (atGrain 812 good).now ∧ (∀ start, (good.bell 12).stuck ≠ .running start) ∧
      ((stuckFrom .good).bell 12).stuck = .running 5 ∧ ((stuckFrom .good).bell 12).health = .good ∧
      ((stuckFrom (.faulted .misses)).bell 12).health = .faulted .misses ∧
      ((stuckFrom (.faulted .misses)).bell 12).stuck = .running 5 ∧ (atGrain 2004 good).now < 5 + 2000 ∧
      5 + 2000 ≤ (atGrain 2005 good).now := by
  have idle : (good.bell 12).stuck = .idle := by decide +kernel
  refine ⟨rfl, rfl, by decide +kernel, by decide +kernel, by decide, by decide, fun start h => ?_, by decide +kernel,
    by decide +kernel, by decide +kernel, by decide +kernel, by decide, by decide⟩
  rw [idle] at h
  cases h

theorem test_witness_melodies :
    good.canExecute = true ∧ opened.canExecute = true ∧ readNat (tx "3") = some 3 ∧ readNat (tx "64") = some 64 ∧
      readOpen [tx "HOURTUNE"] = some (tx "HOURTUNE", 6000) ∧ readOpen [] = none ∧
      (draining.melody 3).held = true ∧ draining.canExecute = true ∧ (good.melody 3).held = false ∧
      (good.melody 3).phase ≠ .opened ∧ (opened.melody 3).phase = .opened ∧ (opened.melody 3).notes = 0 ∧
      (added.melody 3).phase = .opened ∧ 0 < (added.melody 3).notes ∧ added.canExecute = true := by decide +kernel

theorem test_witness_openFields :
    (let name := List.replicate 16 '~'
     1 ≤ name.length ∧ name.length ≤ 16 ∧ ∀ c ∈ name, 33 ≤ c.toNat ∧ c.toNat ≤ 126) ∧
      (let name := List.replicate 17 'A'
       ¬ (1 ≤ name.length ∧ name.length ≤ 16 ∧ ∀ c ∈ name, 33 ≤ c.toNat ∧ c.toNat ≤ 126)) :=
  ⟨⟨by decide, by decide, fun c h => by rw [List.eq_of_mem_replicate h]; decide⟩, fun h => absurd h.2.1 (by decide)⟩

theorem test_witness_openBeats :
    readNat (tx "2500") = some 2500 ∧ readNat (tx "30000") = some 30000 ∧ readNat (tx "2499") = some 2499 ∧
      readNat (tx "30001") = some 30001 ∧ readNat (tx "x") = none :=
  ⟨by decide +kernel, by decide +kernel, by decide +kernel, rfl, by decide +kernel⟩

theorem test_witness_add :
    opened.StoreSound ∧ added.StoreSound ∧ closed.StoreSound ∧ opened.canExecute = true ∧
      closed.canExecute = true ∧ readNat (tx "3") = some 3 ∧ (closed.melody 3).phase ≠ .opened ∧
      (opened.melody 3).phase = .opened ∧ readRecords [] = none ∧
      readRecords [tx "N/0/12/5", tx "B/48"] = some [.note 0 12 5, .bar 48] ∧
      (((opened.melody 3).records + 2 + 31) / 32 ≤ 64 ∧
        ((opened.melody 3).records + 2 + 31) / 32 ≤ (opened.melody 3).blocks.length + opened.freeBlocks) :=
  ⟨opened_store, added_store, closed_store, by decide +kernel, by decide +kernel, by decide +kernel, by decide +kernel,
    by decide +kernel, by decide +kernel, by decide +kernel, by decide +kernel⟩

/-- Sixteen requests queued, from sixteen schedule entries. -/
def sixteen : State :=
  { good with
    playQueue := (List.range' 1 16).map (fun k => asked k (.schedule k) (.tune tuneSpec)), lastId := 255 }

theorem test_witness_offers :
    queued.PlaysSound ∧
      queued.playQueue.find? (fun q => q.mergesWith (asked 0 .line (.tune tuneSpec))) =
        some (asked 1 .line (.toll (tollSpec .after))) ∧
      (∀ q ∈ queued.playQueue, q.mergesWith (asked 0 (.cue 1) (.tune tuneSpec)) = false) ∧
      queued.playQueue.length < 16 ∧ sixteen.PlaysSound ∧
      (∀ q ∈ sixteen.playQueue, q.mergesWith (asked 0 .line (.tune tuneSpec)) = false) ∧
      sixteen.playQueue.length = 16 ∧
      (∃ t q, queued.offer (asked 0 .line (.tune tuneSpec)) = (t, .merged q)) ∧
      (∃ t, sixteen.offer (asked 0 (.cue 1) (.tune tuneSpec)) = (t, .full)) ∧
      ∃ t id, queued.offer (asked 0 (.cue 1) (.tune tuneSpec)) = (t, .admitted id) := by
  refine ⟨queued_plays, by decide +kernel, by decide +kernel, by decide, ⟨by decide, ?_, by decide +kernel,
    by decide +kernel, by decide +kernel, by decide⟩, by decide +kernel, by decide, ⟨_, _, rfl⟩, ⟨_, rfl⟩, _, _, rfl⟩
  unfold InOrder
  decide +kernel

theorem test_witness_playToll :
    good.canExecute = true ∧ readNum 15 (tx "000000000000064") = some 64 ∧
      readNum 15 (tx "0000000000000064") = none ∧
      readOptions 15 playOptions [tx "WAIT", tx "300"] = some { wait := some 300 } ∧
      readOptions 15 tollOptions [tx "CLOCK", tx "9000", tx "WAIT", tx "120"] =
        some { clock := some 9000, wait := some 120 } ∧
      readRule 15 [tx "FIXED", tx "3", tx "12"] = some (.fixed 3, [tx "12"]) ∧ readNum 15 (tx "12") = some 12 ∧
      12 ≤ good.bellCount ∧
      (∀ f options m o, [tx "3", tx "WAIT", tx "301"] = f :: options → readNum 15 f = some m → 1 ≤ m → m ≤ 64 →
        readOptions 15 playOptions options = some o → 300 < o.wait.getD 120) ∧
      ∀ rule f options b o, readRule 15 ([] : List Text) = some (rule, f :: options) → readNum 15 f = some b →
        1 ≤ b → b ≤ good.bellCount → readOptions 15 tollOptions options = some o → 120 < o.wait.getD 120 := by
  have late : readOptions 15 playOptions [tx "WAIT", tx "301"] = some { wait := some 301 } := by decide +kernel
  refine ⟨by decide, by decide +kernel, by decide +kernel, by decide +kernel, by decide +kernel, by decide +kernel,
    by decide +kernel, by decide +kernel, fun f options m o h _ _ _ e => ?_, fun rule f options b o h => by simp [readRule] at h⟩
  cases h
  rw [late] at e
  cases e
  decide

theorem test_witness_cancel :
    queued.canExecute = true ∧ readNat (tx "2") = some 2 ∧ readNat (tx "255") = some 255 ∧
      (∃ r ∈ queued.playQueue, r.id = 2) ∧ (∀ r ∈ (tuned .armed 1 good).playQueue, r.id ≠ 9) ∧
      (∃ l, (tuned .armed 1 good).tune = some l ∧ l.request.id = 9) ∧ (∀ r ∈ good.playQueue, r.id ≠ 2) ∧
      (∀ l, good.tune = some l → l.request.id ≠ 2) ∧ (∀ l, good.toll = some l → l.request.id ≠ 2) ∧
      (∀ f id, ([] : List Text) = [f] → readNat f = some id → id = 0 ∨ 255 < id) ∧
      (∀ r ∈ (atGrain 1200000 queued).playQueue, r.id = 2 → ((atGrain 1200000 queued).now : Int) ≤ r.latest) ∧
      queued.PlaysSound ∧ asked 2 (.cue 4) (.tune tuneSpec) ∈ queued.playQueue ∧
      (asked 2 (.cue 4) (.tune tuneSpec)).latest < ((atGrain 1200001 queued).now : Int) :=
  ⟨by decide, by decide +kernel, by decide +kernel, by decide, by decide, ⟨_, rfl, rfl⟩, by decide,
    (fun l h => nomatch h), (fun l h => nomatch h), (fun f id h => nomatch h), by decide, queued_plays, by decide, by decide⟩

theorem test_witness_takes :
    (let s := { good with playQueue := [asked 2 .line (.tune tuneSpec)] }
     s.tuneTakeDue = true ∧ s.playQueue.find? (fun q => !q.isToll) = some (asked 2 .line (.tune tuneSpec)) ∧
       (s.melody 3).phase ≠ .ready ∧ ((scored s).melody 3).phase = .ready ∧ (scored s).tuneTakeDue = true) ∧
      good.tuneTakeDue = false ∧ good.tollTakeDue = false ∧
      (let s := { good with playQueue := [asked 1 .line (.toll (tollSpec .after))] }
       s.tollTakeDue = true ∧
         s.playQueue.find? (fun q => q.isToll && s.inReach q && (q.hasMode .over || s.tune.isNone)) =
           some (asked 1 .line (.toll (tollSpec .after)))) ∧
      good.time.isSet = false ∧ locked.isSet = true ∧
      ((3600 : Int) * 10000 ≤ (35995000 : Int) + 0 + 5000 ∧ (35995000 : Int) + 0 + 5000 < ((3600 : Int) + 1) * 10000) := by
  decide +kernel

/-- A CUT toll at the very instant of its reach that has given its order bars the TUNE take (R107, R134). -/
theorem test_given_order_bars_take :
    let toll : PlayRequest := { asked 1 .line (.toll (tollSpec .cut)) with start := some 5001, cutGiven := true }
    State.tuneTakeDue (atGrain 1 { good with playQueue := [toll, asked 2 .line (.tune tuneSpec)] }) = false ∧
      State.tuneTakeDue (atGrain 1 { good with playQueue := [asked 2 .line (.tune tuneSpec)] }) = true := by
  decide +kernel

theorem test_witness_expansion :
    ({ good with held := true }.held = true ∧ good.tune = none) ∧
      (tuned .armed 6 good).record 3 6 = none ∧ (tuned .armed 1 good).record 3 1 = some (.tempo 0 7200) ∧
      (tuned .armed 2 good).record 3 2 = some (.note 0 12 5) ∧ (tuned .armed 3 good).record 3 3 = some (.rest 48) ∧
      (tuned .armed 4 good).record 3 4 = some (.bar 0) ∧ (tuned .armed 5 good).record 3 5 = some (.note 48 60 7) ∧
      (tuneLane .armed).phase.runs = true ∧ (tuneLane .playing).phase.runs = true ∧ (tuneLane .armed).lag = false ∧
      (tuneLane (.draining .done)).phase.runs = false ∧
      (tuneLane .armed).timing.onset (0 + 48) ≤ (atGrain 3500 good).now + 5000 ∧
      (atGrain 3499 good).now + 5000 < (tuneLane .armed).timing.onset (0 + 48) ∧
      ((60 : Int) + 0 < 1 ∨ (good.bellCount : Int) < (60 : Int) + 0) ∧
      (1 ≤ (12 : Int) + 0 ∧ (12 : Int) + 0 ≤ (good.bellCount : Int)) ∧
      64 ≤ { good with queue := List.replicate 64 (entryOf .tune 1 1 9) }.queue.length + good.waiting.length := by
  decide +kernel

/-- The TUNE lane at a record of melody 3, its last onset at grain 2500, with a bar stop whose limit is a grain. -/
def stopping (cursor limit : Nat) (s : State) : State :=
  { s with tune := some { tuneLane .playing with cursor := cursor, barStop := some ⟨.stop, limit⟩ } }

theorem test_witness_barStop :
    (good.tune = none ∧ (tuneLane .playing).barStop = none ∧ (tuneLane (.draining .stop)).phase.runs = false) ∧
      (∃ l, (stopping 3 3500 (scored good)).tune = some l ∧ l.phase.runs = true ∧ l.barStop = some ⟨.stop, 3500⟩) ∧
      (good.melody 3).bars = 0 ∧ 0 < ((scored good).melody 3).bars ∧
      (stopping 6 3500 (scored good)).record 3 6 = none ∧ (stopping 3 3500 (scored good)).record 3 3 = some (.rest 48) ∧
      3499 < (tuneLane .playing).timing.onset (0 + 48) ∧ (tuneLane .playing).timing.onset (0 + 48) ≤ 8500 :=
  ⟨⟨rfl, rfl, rfl⟩, ⟨_, rfl, rfl, rfl⟩, by decide +kernel, by decide +kernel, by decide +kernel, by decide +kernel,
    by decide +kernel, by decide +kernel⟩

theorem test_witness_passes :
    (tuneLane .playing).cursor ≤ ((scored good).melody 3).records ∧ ((scored good).melody 3).records < 6 ∧
      (tuneLane .playing).spec.repeats ≤ { (tuneLane .playing).timing with pass := 2 }.pass ∧
      (tuneLane .playing).timing.pass < (tuneLane .playing).spec.repeats ∧ 0 < ((scored good).melody 3).bars ∧
      (good.melody 3).bars = 0 ∧ (good.melody 3).records < 1 := by decide +kernel

theorem test_witness_strokes :
    (let l := tollLane .over .armed
     l.phase.runs = true ∧ l.lag = false ∧ l.origin + l.next * l.spec.interval ≤ good.now + 5000 ∧ 1 ≤ l.spec.bell ∧
       l.spec.bell ≤ good.bellCount ∧ { l.spec with bell := 24 }.bell > good.bellCount) ∧
      (tollLane .over (.draining .stop)).phase.runs = false ∧ good.toll = none ∧
      good.queue.length + good.waiting.length < 64 := by decide +kernel

theorem test_witness_adjust :
    good.canExecute = true ∧ (tuned .armed 1 good).canExecute = true ∧
      readAdjust [tx "TUNE", tx "CAP", tx "9", tx "TEMPO", tx "49"] = some { tempo := some 49, cap := some 9 } ∧
      readAdjust [tx "TUNE"] = none ∧ good.tune = none ∧
      (tuned .armed 1 good).tune = some { tuneLane .armed with cursor := 1 } ∧ LanePhase.armed.runs = true ∧
      (LanePhase.draining .done).runs = false := by decide +kernel

theorem test_witness_stops :
    good.canExecute = true ∧ readKw (tx "TUNE") = some .TUNE ∧ readKw (tx "TOLL") = some .TOLL ∧
      { good with toll := some (tollLane .over .armed) }.tollRuns = true ∧ good.tollRuns = false ∧
      readKw (tx "ALL") ≠ some .TUNE ∧ readKw (tx "ALL") ≠ some .TOLL := by decide +kernel

theorem test_witness_stopsAndCuts :
    good.tune = none ∧ good.toll = none ∧ (tuned .playing 2 good).tune = some { tuneLane .playing with cursor := 2 } ∧
      { good with toll := some (tollLane .over .armed) }.toll = some (tollLane .over .armed) ∧
      0 < ((tuned .playing 2 good).melody 3).bars ∧
      (tuned .playing 2 good).record 3 2 = some (.note 0 12 5) ∧ (good.melody 3).bars = 0 ∧
      { tuned .playing 2 good with playQueue := [asked 1 .line (.toll (tollSpec .cut))] }.cutDue 1 = true ∧
      good.cutDue 1 = false := by decide +kernel

theorem test_witness_settling :
    64 ≤ { good with queue := List.replicate 64 (entryOf .tune 1 1 9) }.queue.length + good.waiting.length ∧
      good.tuneLags = false ∧ good.tollLags = false ∧ (∀ c ∈ [1, 2, 3, 4], good.cueReady c = false) ∧
      good.LanesSettled ∧ draining.tune = some (tuneLane (.draining .done)) ∧ draining.laneDrained .tune = false ∧
      { draining with coils := [] }.laneDrained .tune = true ∧
      { good with toll := some (tollLane .over (.draining .done)) }.laneDrained .toll = true := by
  refine ⟨by decide, by decide, by decide, by decide +kernel, ⟨by decide, (fun l h => nomatch h), fun l h => nomatch h⟩, rfl,
    by decide, by decide, by decide⟩

/-- A state with lanes that lag: the TUNE lane at the note of its score, the TOLL lane at its first stroke. -/
def lagging (tuneLag tollLag : Bool) (s : State) : State :=
  { scored s with
    tune := some { tuneLane .armed with cursor := 2, lag := tuneLag }
    toll := some { tollLane .over .armed with lag := tollLag } }

theorem test_witness_retry :
    (lagging true true good).queue.length + (lagging true true good).waiting.length < 64 ∧
      (lagging true false good).tuneLags = true ∧ (lagging true false good).tollLags = false ∧
      (lagging false true good).tuneLags = false ∧ (lagging false true good).tollLags = true ∧
      (lagging true true good).tuneLags = true ∧ (lagging true true good).tollLags = true ∧
      (lagging true false good).record 3 2 = some (.note 0 12 5) ∧
      ((5 : Int) + (-12) < 1 ∨ (good.bellCount : Int) < (5 : Int) + (-12)) ∧
      1 ≤ (12 : Int) + 0 ∧ (12 : Int) + 0 ≤ (good.bellCount : Int) := by decide +kernel

/-- R111: with one slot free, each lane alone gets its refused record into it: one entry, one QUEUED, PLAYING. -/
theorem test_retry_queues_refused :
    let full := { good with queue := List.replicate 63 (entryOf .tune 1 1 9) }
    let tune := (lagging true false full).retryLags 2
    let toll := (lagging false true full).retryLags 2
    (tune.queue.length = 64 ∧ (tune.tune.map fun l => (l.lag, l.serial, l.cursor, l.summary.queued)) =
      some (false, 1, 3, 1)) ∧
      toll.queue.length = 64 ∧ (toll.toll.map fun l => (l.lag, l.next, l.summary.queued)) = some (false, 1, 1) := by
  decide +kernel

theorem test_witness_schedule :
    good.canExecute = true ∧ readNat (tx "1") = some 1 ∧ readNat (tx "48") = some 48 ∧ readNat (tx "8") = some 8 ∧
      (tx "000048").length ≤ 6 ∧ 6 < (tx "0000048").length ∧ readNat (tx "0000048") = some 48 ∧
      (readEntry [tx "HOURS", tx "*", tx "MINUTES", tx "0,30", tx "TUNE", tx "3"]).map (·.2) = some [] ∧ readEntry [] = none ∧
      (readEntry [tx "HOURS", tx "*", tx "MINUTES", tx "0", tx "TUNE", tx "3", tx "CAP", tx "7", tx "TRANSPOSE", tx "-13",
        tx "TEMPO", tx "250"]).map (·.2) = some [.word .TEMPO, .num 200, .word .TRANSPOSE, .int (-12)] ∧
      (readEntry [tx "HOURS", tx "*", tx "MINUTES", tx "0", tx "TOLL", tx "HOUR12", tx "1", tx "LEVEL", tx "0"]).map (·.2)
        = some [.word .LEVEL, .num 1] ∧
      (readQuiet [tx "DAYS", tx "*", tx "FROM", tx "22:00", tx "TO", tx "07:00", tx "TUNE", tx "SILENCE", tx "TOLL",
        tx "2"]).isSome = true ∧ readQuiet [] = none := by decide +kernel

/-- A wall clock two seconds into its range whose last crossing was that of the first second. -/
def ticking : State := { good with time := { locked with now := 20000, offset := 0, slew := 0, pendingTime := none } }

/-- An entry for 2000-01-01 00:00:04, in the live table as entry 48. -/
def noon : ScheduleEntry :=
  { hours := [0], minutes := [0], second := 4, days := [5], months := [1], dates := some (⟨24, 12⟩, ⟨6, 1⟩)
    action := .tune tuneSpec 7, expiry := 120, force := false }

def planned : State := { ticking with live := setSlot ticking.live 48 (some noon) }

theorem test_witness_boundary :
    ticking.boundaryDue = true ∧ good.boundaryDue = false ∧ good.matchOf 48 4 = none ∧
      planned.matchOf 48 4 = some noon ∧ planned.boundaryDue = true ∧ noon.action = .tune tuneSpec 7 ∧
      { noon with action := .toll (tollSpec .over) }.action = .toll (tollSpec .over) := by decide +kernel

/-- A silencing rule and one that caps. -/
def rules : List (Nat × QuietRule) :=
  [(2, { days := [5], fromMin := 0, toMin := 0, tune := .cap 3, tollCap := 2 }),
    (7, { days := [5], fromMin := 0, toMin := 360, tune := .silence, tollCap := 1 })]

theorem test_witness_quiet :
    (∀ r ∈ rules.take 1, r.2.tune ≠ .silence) ∧ quietVerdict rules false 7 = .silenced 7 ∧
      quietVerdict rules true 7 = .capped 1 ∧ ticking.time.isSet = true ∧ good.time.isSet = false ∧
      { ticking with quiet := setSlot ticking.quiet 7 ((rules.drop 1).head?.map Prod.snd) }.quietAt 3 =
        (rules.drop 1) := by decide +kernel

/-- A SET wall clock out of LOCKED at a grain. -/
def free (n : Nat) : State := { good with time := { locked with now := n, offset := 0, source := .free, sync := .free } }

theorem test_witness_time :
    good.canExecute = true ∧ (free 9000).canExecute = true ∧
      readWall (tx "2000-01-01") (tx "00:00:01") = some 1 ∧ ticking.time.sync = .locked ∧ ticking.canExecute = true ∧
      good.time.sync ≠ .locked ∧ good.time.isSet = false ∧ (free 9000).time.isSet = true ∧
      (free 9000).time.sync ≠ .locked ∧ ((1 : Int) * 10000 - ((free 9000).now + (free 9000).time.offset) = 1000) ∧
      ((1 : Int) * 10000 - ((free 11000).now + (free 11000).time.offset) = -1000) ∧
      ((1 : Int) * 10000 - ((free 8999).now + (free 8999).time.offset) > 1000) ∧
      ((1 : Int) * 10000 - ((free 11001).now + (free 11001).time.offset) < -1000) ∧
      planned.matchOf 48 4 = some noon ∧ readWall (tx "2000-02-30") (tx "00:00:00") = none := by decide +kernel

theorem test_witness_disposal :
    ((20000 : Int) + 2500 ≤ (3 : Int) * 10000 - 0) ∧
      ((2 : Int) * 10000 - 0 < (20000 : Int) + 2500 ∧ ticking.wall - 600000 ≤ (2 : Int) * 10000) ∧
      ((2 : Int) * 10000 - 700000 < (20000 : Int) + 2500 ∧
        (2 : Int) * 10000 < { ticking with time := { ticking.time with offset := 700000 } }.wall - 600000) ∧
      (∀ x ∈ [((48 : Nat), (4 : Nat))], x.1 ≠ 1) ∧
      ([((48 : Nat), (4 : Nat)), (48, 7)] = [(48, 4)] ++ (48, 7) :: [] ∧ ∀ x ∈ ([] : List (Nat × Nat)), x.1 ≠ 48) := by
  refine ⟨by decide +kernel, by decide +kernel, by decide +kernel, by decide, rfl, fun x h => nomatch h⟩

/-- 9.6: LOCKED with no slew pending at strike clock 163,000, where a good pulse finds the wall clock at fraction 9,999. -/
def behind : State :=
  { good with
    time := { locked with now := 163000, offset := 6999, slew := 0, pendingTime := none, lastPulse := some 153001 } }

/-- 9.6: the tick of 163,000 taken first, the pulse sets a slew of 1 that waits for the tick at 163,500. -/
theorem test_pulse_after_tick :
    ∃ t u, exec .slewTick behind = .next t ∧ exec .secpulseEdge t = .next u ∧ u.time.slew = 1 ∧
      exec .slewTick u = .next u ∧ State.slewDue (atGrain 163500 u) = true :=
  ⟨_, _, rfl, rfl, by decide +kernel, by rfl, by decide +kernel⟩

/-- R161: the pulse taken before the tick of its own grain: that tick moves the offset. -/
theorem test_pulse_before_tick :
    ∃ u v, exec .secpulseEdge behind = .next u ∧ exec .slewTick u = .next v ∧ v.time.slew = 0 ∧
      v.time.offset = behind.time.offset + 1 :=
  ⟨_, _, rfl, rfl, by decide +kernel, by decide +kernel⟩

theorem test_witness_slew :
    (free 500).tickDue = true ∧ (free 501).tickDue = false ∧
      { free 500 with time := { (free 500).time with slew := 0 } }.tickDue = true ∧
      { free 500 with time := { (free 500).time with slew := 1 } }.slewDue = true ∧ (free 500).slewDue = true ∧
      (free 500).time.slew < 0 ∧ (0 : Int) < { (free 500).time with slew := 1 }.slew ∧ (free 501).slewDue = false ∧
      (∃ t, exec .slewTick (free 500) = .next t) ∧
      { free 501 with time := { (free 501).time with offset := (wallEnd : Int) * 10000 - 501 } }.rangeEndDue = true ∧
      { free 501 with time := { (free 501).time with offset := (wallEnd : Int) * 10000 - 502 } }.rangeEndDue = false :=
  ⟨by decide, by decide, by decide, by decide, by decide, by decide, by decide, by decide, ⟨_, rfl⟩, by decide +kernel, by decide +kernel⟩

/-- A timebase in ACQUIRE with two good intervals behind it and its last pulse at grain 10. -/
def acquiring : State := { good with time := { locked with sync := .acquire, qualified := 2, pendingTime := none } }

theorem test_witness_sync :
    good.canExecute = true ∧ good.time.source = .free ∧ good.time.sync = .free ∧
      { good with time := locked }.time.source = .pulse ∧ { good with time := locked }.time.sync = .locked ∧
      good.held = false ∧ (atGrain 10009 { good with time := locked }).goodInterval = true ∧
      { good with time := locked }.goodInterval = true ∧
      (atGrain 10021 { good with time := locked }).goodInterval = false ∧
      locked.pendingTime = some 0 ∧ ticking.time.pendingTime = none ∧
      acquiring.time.sync = .acquire ∧ acquiring.goodInterval = true ∧ 3 ≤ acquiring.time.qualified + 1 ∧
      acquiring.phaseError.natAbs ≤ 1000 ∧ acquiring.time.isSet = true ∧
      (let s := { acquiring with time := { acquiring.time with offset := 3000 } }
       1000 < s.phaseError.natAbs ∧ 0 ≤ s.wall - s.phaseError ∧ s.wall - s.phaseError < (wallEnd : Int) * 10000) ∧
      (atGrain 15010 { good with time := locked }).pulseLossDue = true ∧
      (atGrain 15009 { good with time := locked }).pulseLossDue = false := by decide +kernel

/-- A cue record set into cue 4. -/
def cued (c : Cue) : State := good.setCue 4 c

/-- Cue 4 enabled and latched, its action STOP. -/
def pressed : State := cued { config := { enable := true, action := .stop }, settled := true, latch := true }

theorem test_witness_cues :
    good.held = false ∧ (good.cue 4).timer = none ∧ (!good.cueLevel 4) ≠ (good.cue 4).settled ∧
      (!(cued { settled := false }).cueLevel 4) = ((cued { settled := false }).cue 4).settled ∧
      ((cued { settled := true, timer := some ⟨0, 500⟩ }).cue 4).timer ≠ none ∧
      (atGrain 500 (cued { settled := false, timer := some ⟨0, 500⟩ })).debounceDue 4 = true ∧
      (atGrain 499 (cued { settled := false, timer := some ⟨0, 500⟩ })).debounceDue 4 = false ∧
      pressed.cueReady 4 = true ∧ (∀ d ∈ [1, 2, 3, 4], d ≠ 4 → pressed.cueReady d = false) ∧
      (∀ c ∈ [1, 2, 3, 4], good.cueReady c = false) ∧ (pressed.cue 4).config.action = .stop ∧
      ((cued { config := { action := .tune tuneSpec 7 150 120 }, settled := true }).cue 4).config.action =
        .tune tuneSpec 7 150 120 ∧
      ((cued { config := { action := .toll (tollSpec .over) 7 150 120 }, settled := true }).cue 4).config.action =
        .toll (tollSpec .over) 7 150 120 := by decide +kernel

theorem test_witness_cueRequests :
    good.canExecute = true ∧ pressed.canExecute = true ∧ readNat (tx "1") = some 1 ∧ readNat (tx "4") = some 4 ∧
      (tx "000004").length ≤ 6 ∧ 6 < (tx "0000004").length ∧ readNat (tx "0000004") = some 4 ∧
      (readCueSettings [tx "DEBOUNCE", tx "200"]).isSome = true ∧ readCueSettings [] = none ∧
      (good.cue 4).config.action = .none ∧ (pressed.cue 4).config.action ≠ .none ∧
      (pressed.cue 4).config.enable = true ∧
      ((cued { config := { action := .stop }, settled := true }).cue 4).config.enable = false := by decide +kernel

theorem test_witness_supply :
    (good.pins.supgood = true ∧ good.held = false ∧ good.supply = .good) ∧
      State.blank.supply = .recovering 0 ∧
      (let s := { good with supply := .dip 0, pins := { good.pins with supgood := false } }
       s.pins.supgood = false ∧ s.supply = .dip 0 ∧ (atGrain 19999 s).now < 0 + 20000 ∧
         0 + 20000 ≤ (atGrain 20000 s).now) ∧
      { good with supply := .lost }.supply = .lost ∧ (atGrain 9999 State.blank).now < 0 + 10000 ∧
      0 + 10000 ≤ (atGrain 10000 State.blank).now := by decide +kernel

end Sys2Proof.Tests
end

section
/-! SUPPORT. The readers of one field, each held against the form of the grammar that it reads: numbers, times of day,
days and months, sets and lists. -/

namespace Sys2Proof

/-! ## Words and pieces -/

/-- A word is read from its spelling and from nothing else. -/
theorem readKw_eq_some_iff {t : Text} {k : Kw} : readKw t = some k ↔ t = k.text := by
  constructor
  · intro h
    have same := List.find?_some h
    exact (beq_iff_eq.mp same).symm
  · rintro rfl
    exact readKw_text k

theorem Kw.text_inj {k l : Kw} : k.text = l.text ↔ k = l :=
  ⟨fun h => Option.some.inj (by rw [← readKw_text k, h, readKw_text]), congrArg _⟩

/-- The first piece of a text, and those after it. -/
theorem splitOn_eq_cons_iff {sep : Char} {t w : Text} {ws : List Text} :
    splitOn sep t = w :: ws ↔
      sep ∉ w ∧ ((ws = [] ∧ t = w) ∨ ∃ u, t = w ++ sep :: u ∧ splitOn sep u = ws) := by
  constructor
  · intro h
    induction t generalizing w with
    | nil =>
      obtain ⟨rfl, rfl⟩ := List.cons.inj h
      exact ⟨nofun, .inl ⟨rfl, rfl⟩⟩
    | cons c cs ih =>
      unfold splitOn at h
      split at h
      case isTrue hc =>
        obtain ⟨rfl, rfl⟩ := List.cons.inj h
        exact ⟨nofun, .inr ⟨cs, by rw [hc, List.nil_append], rfl⟩⟩
      case isFalse hc =>
        split at h
        case h_1 he => exact absurd he (splitOn_ne_nil sep cs)
        case h_2 v vs he =>
          obtain ⟨rfl, rfl⟩ := List.cons.inj h
          obtain ⟨hv, rest⟩ := ih he
          refine ⟨List.not_mem_cons_of_ne_of_not_mem (fun e => hc e.symm) hv, ?_⟩
          obtain ⟨hvs, rfl⟩ | ⟨u, rfl, hu⟩ := rest
          · exact .inl ⟨hvs, rfl⟩
          · exact .inr ⟨u, rfl, hu⟩
  · rintro ⟨hw, ⟨rfl, rfl⟩ | ⟨u, rfl, rfl⟩⟩
    · exact splitOn_self hw
    · exact splitOn_append hw u

theorem splitOn_eq_one_iff {sep : Char} {t a : Text} : splitOn sep t = [a] ↔ t = a ∧ sep ∉ a := by
  simp [splitOn_eq_cons_iff, splitOn_ne_nil, and_comm]

theorem splitOn_eq_two_iff {sep : Char} {t a b : Text} :
    splitOn sep t = [a, b] ↔ t = a ++ sep :: b ∧ sep ∉ a ∧ sep ∉ b := by
  rw [splitOn_eq_cons_iff]
  simp only [List.cons_ne_nil, false_and, false_or, splitOn_eq_one_iff]
  constructor
  · rintro ⟨ha, u, rfl, rfl, hb⟩
    exact ⟨rfl, ha, hb⟩
  · rintro ⟨rfl, ha, hb⟩
    exact ⟨ha, b, rfl, rfl, hb⟩

namespace Machine

theorem splitOn_joinCommas {ws : List Text} (hne : ws ≠ []) (h : ∀ w ∈ ws, ',' ∉ w) :
    splitOn ',' (joinCommas ws) = ws := by
  induction ws with
  | nil => exact absurd rfl hne
  | cons w rest ih =>
    obtain ⟨hw, hrest⟩ := List.forall_mem_cons.mp h
    cases rest with
    | nil => exact splitOn_self hw
    | cons v more =>
      rw [joinCommas, splitOn_append hw, ih nofun hrest]
      nofun

theorem joinCommas_splitOn (t : Text) : joinCommas (splitOn ',' t) = t := by
  cases hs : splitOn ',' t with
  | nil => exact absurd hs (splitOn_ne_nil ',' t)
  | cons w ws =>
    induction ws generalizing t w with
    | nil => exact (splitOn_eq_one_iff.mp hs).1.symm
    | cons v more ih =>
      obtain ⟨-, ⟨e, -⟩ | ⟨u, rfl, hu⟩⟩ := splitOn_eq_cons_iff.mp hs
      · cases e
      · rw [joinCommas, ih u v hu]
        nofun

/-! ## Lists of pieces -/

/-- A list is read piece by piece. -/
theorem mapM_eq_some_iff {α β : Type} {f : α → Option β} {xs : List α} {ys : List β} :
    xs.mapM f = some ys ↔ List.Forall₂ (fun x y => f x = some y) xs ys := by
  induction xs generalizing ys with
  | nil => simp [eq_comm]
  | cons x rest ih =>
    simp only [List.mapM_cons, Option.pure_def, Option.bind_eq_bind, Option.bind_eq_some_iff, Option.some.injEq, ih,
      List.forall₂_cons_left_iff]
    constructor
    · rintro ⟨y, hy, ys, hys, rfl⟩
      exact ⟨y, ys, hy, hys, rfl⟩
    · rintro ⟨y, ys, hy, hys, rfl⟩
      exact ⟨y, hy, ys, hys, rfl⟩

theorem forall₂_exists_map_iff {α β γ : Type} {R : α → γ → Prop} {g : γ → β} {xs : List α} {ys : List β} :
    List.Forall₂ (fun x y => ∃ z, R x z ∧ y = g z) xs ys ↔ ∃ zs, List.Forall₂ R xs zs ∧ ys = zs.map g := by
  constructor
  · intro h
    induction h with
    | nil => exact ⟨[], .nil, rfl⟩
    | cons one _ ih =>
      obtain ⟨z, hz, rfl⟩ := one
      obtain ⟨zs, hzs, rfl⟩ := ih
      exact ⟨z :: zs, .cons hz hzs, rfl⟩
  · rintro ⟨zs, h, rfl⟩
    exact List.forall₂_map_right_iff.mpr (h.imp fun x z hz => ⟨z, hz, rfl⟩)

/-- A comma-separated list is read as its pieces are, where no piece holds a comma. -/
theorem mapM_splitOn_eq_some_iff {α : Type} {read : Text → Option α} {form : Text → α → Prop}
    (hread : ∀ t x, read t = some x ↔ form t x) (hcomma : ∀ t x, form t x → ',' ∉ t) {t : Text} {xs : List α} :
    (splitOn ',' t).mapM read = some xs ↔
      ∃ pieces, pieces ≠ [] ∧ t = joinCommas pieces ∧ List.Forall₂ form pieces xs := by
  simp only [mapM_eq_some_iff, hread]
  constructor
  · exact fun h => ⟨_, splitOn_ne_nil ',' t, (joinCommas_splitOn t).symm, h⟩
  · rintro ⟨pieces, hne, rfl, h⟩
    have plain : ∀ w ∈ pieces, ',' ∉ w := fun w hw =>
      let ⟨i, hi, e⟩ := List.getElem_of_mem hw
      e ▸ hcomma _ _ (h.get (i := i) hi (h.length_eq ▸ hi))
    rwa [splitOn_joinCommas hne plain]

/-! ## Numbers -/

theorem isDigit_iff {c : Char} : isDigit c = true ↔ 48 ≤ c.toNat ∧ c.toNat ≤ 57 := by
  simp [isDigit]

theorem digitsValue_eq_ofDigits (t : Text) :
    digitsValue t = Nat.ofDigits 10 (t.reverse.map (fun c => c.toNat - 48)) := by
  induction t using List.reverseRecOn with
  | nil => rfl
  | append_singleton t c ih =>
    rw [digitsValue_append, ih, List.reverse_concat, List.map_cons, Nat.ofDigits_cons]
    ring

theorem readNat_eq_some_iff {t : Text} {n : Nat} : readNat t = some n ↔ DecimalForm t n := by
  have shape : (!t.isEmpty && t.all isDigit) = true ↔ t ≠ [] ∧ ∀ c ∈ t, 48 ≤ c.toNat ∧ c.toNat ≤ 57 := by
    simp [isDigit_iff]
  rw [readNat, Option.ite_none_right_eq_some, shape, DecimalForm, digitsValue_eq_ofDigits, and_assoc,
    Option.some.injEq, eq_comm (a := n)]

/-- A number holds digits only. -/
theorem DecimalForm.not_mem {t : Text} {n : Nat} (h : DecimalForm t n) {c : Char} (hc : isDigit c = false) :
    c ∉ t := by
  intro hm
  have digit := isDigit_iff.mpr (h.2.1 c hm)
  rw [hc] at digit
  cases digit

theorem readNum_eq_some_iff {most : Nat} {t : Text} {n : Nat} : readNum most t = some n ↔ NumberForm most t n := by
  rw [readNum, Option.ite_none_right_eq_some, readNat_eq_some_iff, NumberForm, and_comm]

theorem within_eq_some_iff {lo hi n m : Nat} : within lo hi n = some m ↔ m = n ∧ lo ≤ n ∧ n ≤ hi := by
  rw [within, Option.ite_none_right_eq_some, Option.some.injEq, eq_comm, and_comm]

/-- A number that a reader reads and a range admits. -/
theorem bind_within_eq_some_iff {lo hi n : Nat} {o : Option Nat} :
    o.bind (within lo hi) = some n ↔ o = some n ∧ lo ≤ n ∧ n ≤ hi := by
  simp only [Option.bind_eq_some_iff, within_eq_some_iff]
  constructor
  · rintro ⟨_, h, rfl, bounds⟩
    exact ⟨h, bounds⟩
  · exact fun ⟨h, bounds⟩ => ⟨n, h, rfl, bounds⟩

theorem readNum_within_eq_some_iff {most lo hi : Nat} {t : Text} {n : Nat} :
    (readNum most t).bind (within lo hi) = some n ↔ WithinForm most lo hi t n := by
  rw [bind_within_eq_some_iff, readNum_eq_some_iff, WithinForm]

theorem readWithin6_eq_some_iff {lo hi : Nat} {t : Text} {n : Nat} :
    readWithin6 lo hi t = some n ↔ WithinForm 6 lo hi t n := readNum_within_eq_some_iff

theorem WithinForm.not_mem {most lo hi : Nat} {t : Text} {n : Nat} (h : WithinForm most lo hi t n) {c : Char}
    (hc : isDigit c = false) : c ∉ t := h.1.1.not_mem hc

theorem signedForm_cons_iff {most : Nat} {c : Char} {cs : Text} {x : Int} :
    SignedForm most (c :: cs) x ↔ ∃ n : Nat, (NumberForm most (c :: cs) n ∧ x = n) ∨
      (c = '+' ∧ NumberForm most cs n ∧ x = n) ∨ (c = '-' ∧ NumberForm most cs n ∧ x = -(n : Int)) := by
  refine exists_congr fun n => or_congr_right ?_
  constructor
  · rintro ⟨u, hu, ⟨e, rfl⟩ | ⟨e, rfl⟩⟩
    · cases e
      exact .inl ⟨rfl, hu, rfl⟩
    · cases e
      exact .inr ⟨rfl, hu, rfl⟩
  · rintro (⟨rfl, hn, rfl⟩ | ⟨rfl, hn, rfl⟩)
    · exact ⟨cs, hn, .inl ⟨rfl, rfl⟩⟩
    · exact ⟨cs, hn, .inr ⟨rfl, rfl⟩⟩

/-- A signed number is its sign, if it has one, and its digits. -/
theorem readInt_eq_some_iff {most : Nat} {t : Text} {x : Int} : readInt most t = some x ↔ SignedForm most t x := by
  cases t with
  | nil => simp [readInt, SignedForm, NumberForm, DecimalForm]
  | cons c cs =>
    have notSign (h : isDigit c = false) (n : Nat) : ¬ NumberForm most (c :: cs) n :=
      fun hn => hn.1.not_mem h (List.mem_cons_self ..)
    rw [readInt, signedForm_cons_iff]
    split
    case isTrue hc =>
      subst hc
      simp [notSign (by decide), Option.map_eq_some_iff, readNum_eq_some_iff, eq_comm (a := x)]
    case isFalse hplus =>
      split
      case isTrue hc =>
        subst hc
        simp [notSign (by decide), Option.map_eq_some_iff, readNum_eq_some_iff, eq_comm (a := x)]
      case isFalse hminus => simp [hplus, hminus, Option.map_eq_some_iff, readNum_eq_some_iff, eq_comm (a := x)]

/-! ## Times of day, days and months -/

theorem isDigit_eq_digitChar {c : Char} (h : 48 ≤ c.toNat ∧ c.toNat ≤ 57) : c = (c.toNat - 48).digitChar := by
  have back : ∀ d < 10, Char.ofNat (d + 48) = d.digitChar := by decide
  have same := back (c.toNat - 48) (by omega)
  rw [← same, show c.toNat - 48 + 48 = c.toNat by omega, Char.ofNat_toNat]

theorem padded_two : ∀ n < 100, padded 2 n = [(n / 10).digitChar, (n % 10).digitChar] := by decide

/-- A number of exactly two digits is read from its text with leading zeros. -/
theorem readFixed_two_eq_some_iff {t : Text} {n : Nat} : readFixed 2 t = some n ↔ n < 100 ∧ t = padded 2 n := by
  rw [readFixed, Option.ite_none_right_eq_some, readNat_eq_some_iff]
  constructor
  · rintro ⟨two, -, digits, rfl⟩
    obtain ⟨a, b, rfl⟩ := List.length_eq_two.mp two
    have ha := digits a (by simp)
    have hb := digits b (by simp)
    have value : Nat.ofDigits 10 ([a, b].reverse.map fun c => c.toNat - 48) = (a.toNat - 48) * 10 + (b.toNat - 48) := by
      simp [Nat.ofDigits_cons]
      ring
    rw [value]
    refine ⟨by omega, ?_⟩
    rw [padded_two _ (by omega), show ((a.toNat - 48) * 10 + (b.toNat - 48)) / 10 = a.toNat - 48 by omega,
      show ((a.toNat - 48) * 10 + (b.toNat - 48)) % 10 = b.toNat - 48 by omega, ← isDigit_eq_digitChar ha,
      ← isDigit_eq_digitChar hb]
  · rintro ⟨small, rfl⟩
    have shape : ∀ n < 100, (padded 2 n).length = 2 ∧ readNat (padded 2 n) = some n := by decide
    exact ⟨(shape n small).1, readNat_eq_some_iff.mp (shape n small).2⟩

/-- Two digits hold no separator. -/
theorem not_mem_padded_two {n : Nat} (h : n < 100) {c : Char} (hc : isDigit c = false) : c ∉ padded 2 n :=
  have read := (readFixed_two_eq_some_iff.mpr ⟨h, rfl⟩)
  (readNat_eq_some_iff.mp (Option.ite_none_right_eq_some.mp read).2).not_mem hc

/-- A text of two pairs of digits and a separator. -/
theorem splitOn_padded_two {sep : Char} (hsep : isDigit sep = false) {a b : Nat} (ha : a < 100) (hb : b < 100) :
    splitOn sep (padded 2 a ++ sep :: padded 2 b) = [padded 2 a, padded 2 b] :=
  splitOn_eq_two_iff.mpr ⟨rfl, not_mem_padded_two ha hsep, not_mem_padded_two hb hsep⟩

theorem readClock_eq_some_iff {t : Text} {minute : Nat} : readClock t = some minute ↔ ClockForm t minute := by
  unfold readClock ClockForm
  constructor
  · intro h
    split at h
    case h_2 => cases h
    case h_1 hs =>
      obtain ⟨rfl, -, -⟩ := splitOn_eq_two_iff.mp hs
      simp only [Option.pure_def, Option.bind_eq_bind, Option.bind_eq_some_iff, within_eq_some_iff,
        readFixed_two_eq_some_iff, Option.some.injEq] at h
      obtain ⟨a, ⟨_, ⟨-, rfl⟩, rfl, -, ha⟩, b, ⟨_, ⟨-, rfl⟩, rfl, -, hb⟩, rfl⟩ := h
      rw [clockText, show (a * 60 + b) / 60 = a by omega, show (a * 60 + b) % 60 = b by omega]
      exact ⟨by omega, rfl⟩
  · rintro ⟨small, rfl⟩
    have hour : (readFixed 2 (padded 2 (minute / 60))).bind (within 0 23) = some (minute / 60) :=
      bind_within_eq_some_iff.mpr ⟨readFixed_two_eq_some_iff.mpr ⟨by omega, rfl⟩, by omega, by omega⟩
    have past : (readFixed 2 (padded 2 (minute % 60))).bind (within 0 59) = some (minute % 60) :=
      bind_within_eq_some_iff.mpr ⟨readFixed_two_eq_some_iff.mpr ⟨by omega, rfl⟩, by omega, by omega⟩
    rw [clockText, splitOn_padded_two (by decide) (by omega) (by omega)]
    simp only [hour, past, Option.pure_def, Option.bind_eq_bind, Option.bind_some, Option.some.injEq]
    omega

theorem monthLength_le (m : Nat) : (monthLengths true).getD (m - 1) 0 ≤ 31 := by
  obtain h | h := Nat.lt_or_ge (m - 1) 12
  · generalize m - 1 = i at h
    have table : ∀ i < 12, (monthLengths true).getD i 0 ≤ 31 := by decide
    exact table i h
  · rw [List.getD_eq_default _ _ (by simpa [monthLengths] using h)]
    omega

theorem readDayMonth_eq_some_iff {t : Text} {d : DayMonth} : readDayMonth t = some d ↔ DayMonthForm t d := by
  unfold readDayMonth DayMonthForm
  constructor
  · intro h
    split at h
    case h_2 => cases h
    case h_1 hs =>
      obtain ⟨rfl, -, -⟩ := splitOn_eq_two_iff.mp hs
      simp only [Option.pure_def, Option.bind_eq_bind, Option.bind_eq_some_iff, within_eq_some_iff,
        readFixed_two_eq_some_iff, Option.some.injEq] at h
      obtain ⟨day, ⟨-, rfl⟩, month, ⟨_, ⟨-, rfl⟩, rfl, m1, m12⟩, _, ⟨rfl, d1, most⟩, rfl⟩ := h
      exact ⟨rfl, m1, m12, d1, most⟩
  · rintro ⟨rfl, m1, m12, d1, most⟩
    have small : d.day ≤ 31 := most.trans (monthLength_le d.month)
    have day : readFixed 2 (padded 2 d.day) = some d.day := readFixed_two_eq_some_iff.mpr ⟨by omega, rfl⟩
    have month : (readFixed 2 (padded 2 d.month)).bind (within 1 12) = some d.month :=
      bind_within_eq_some_iff.mpr ⟨readFixed_two_eq_some_iff.mpr ⟨by omega, rfl⟩, m1, m12⟩
    have inMonth : within 1 ((monthLengths true).getD (d.month - 1) 0) d.day = some d.day :=
      within_eq_some_iff.mpr ⟨rfl, d1, most⟩
    rw [dayMonthText, splitOn_padded_two (by decide) (by omega) (by omega)]
    simp only [day, month, inMonth, Option.pure_def, Option.bind_eq_bind, Option.bind_some]

/-! ## Sets and lists -/

/-- A number or a range is read as the numbers it spans. -/
theorem readSpan_eq_some_iff {lo hi : Nat} {t : Text} {xs : List Nat} :
    readSpan lo hi t = some xs ↔ ∃ span, SpanForm lo hi t span ∧ xs = List.range' span.1 (span.2 + 1 - span.1) := by
  unfold readSpan SpanForm
  constructor
  · intro h
    split at h
    case h_1 a hs =>
      obtain ⟨rfl, -⟩ := splitOn_eq_one_iff.mp hs
      obtain ⟨n, hn, rfl⟩ := Option.map_eq_some_iff.mp h
      exact ⟨(n, n), .inl ⟨readWithin6_eq_some_iff.mp hn, rfl⟩, by simp⟩
    case h_2 a b hs =>
      obtain ⟨rfl, -, -⟩ := splitOn_eq_two_iff.mp hs
      simp only [Option.pure_def, Option.bind_eq_bind, Option.bind_eq_some_iff, readWithin6_eq_some_iff,
        Option.ite_none_right_eq_some, Option.some.injEq] at h
      obtain ⟨m, hm, n, hn, le, rfl⟩ := h
      exact ⟨(m, n), .inr ⟨a, b, rfl, hm, hn, le⟩, rfl⟩
    case h_3 => cases h
  · rintro ⟨⟨m, n⟩, ⟨hm, one⟩ | ⟨u, v, rfl, hm, hn, le⟩, rfl⟩
    · obtain rfl : n = m := one
      rw [splitOn_self (hm.not_mem (by decide))]
      simp [readWithin6_eq_some_iff.mpr hm]
    · rw [splitOn_eq_two_iff.mpr ⟨rfl, hm.not_mem (by decide), hn.not_mem (by decide)⟩]
      simp [readWithin6_eq_some_iff.mpr hm, readWithin6_eq_some_iff.mpr hn, le]

theorem SpanForm.not_mem_comma {lo hi : Nat} {t : Text} {span : Nat × Nat} (h : SpanForm lo hi t span) : ',' ∉ t := by
  obtain ⟨hm, -⟩ | ⟨u, v, rfl, hu, hv, -⟩ := h
  · exact hm.not_mem (by decide)
  · simp [hu.not_mem (c := ',') (by decide), hv.not_mem (c := ',') (by decide)]

/-- The numbers of spans in ascending order. -/
theorem ascending_spans (lo hi : Nat) (spans : List (Nat × Nat)) :
    ascending lo hi (spans.map fun span => List.range' span.1 (span.2 + 1 - span.1)).flatten =
      (List.range' lo (hi + 1 - lo)).filter (fun x => spans.any (fun span => span.1 ≤ x && x ≤ span.2)) := by
  refine List.filter_congr fun x _ => ?_
  rw [Bool.eq_iff_iff]
  simp only [List.contains_iff_mem, List.mem_flatten, List.mem_map, List.any_eq_true, Bool.and_eq_true,
    decide_eq_true_eq, exists_exists_and_eq_and, List.mem_range'_1]
  refine exists_congr fun span => and_congr_right fun _ => ?_
  omega

/-- R140: a set of hours or months. -/
theorem readSet_eq_some_iff {lo hi : Nat} {t : Text} {xs : List Nat} :
    readSet lo hi t = some xs ↔ NumberSetForm lo hi t xs := by
  have listed : ((splitOn ',' t).mapM (readSpan lo hi)).map (fun ys => ascending lo hi ys.flatten) = some xs ↔
      ∃ pieces spans, pieces ≠ [] ∧ t = joinCommas pieces ∧ List.Forall₂ (SpanForm lo hi) pieces spans ∧
        xs = (List.range' lo (hi + 1 - lo)).filter (fun x => spans.any (fun span => span.1 ≤ x && x ≤ span.2)) := by
    have comma : ∀ (t : Text) (ys : List Nat),
        (∃ span, SpanForm lo hi t span ∧ ys = List.range' span.1 (span.2 + 1 - span.1)) → ',' ∉ t :=
      fun _ _ ⟨_, h, _⟩ => h.not_mem_comma
    simp only [Option.map_eq_some_iff, mapM_splitOn_eq_some_iff (fun _ _ => readSpan_eq_some_iff) comma,
      forall₂_exists_map_iff]
    constructor
    · rintro ⟨_, ⟨pieces, hne, rfl, spans, h, rfl⟩, rfl⟩
      exact ⟨pieces, spans, hne, rfl, h, ascending_spans lo hi spans⟩
    · rintro ⟨pieces, spans, hne, rfl, h, rfl⟩
      exact ⟨_, ⟨pieces, hne, rfl, spans, h, rfl⟩, ascending_spans lo hi spans⟩
  rw [readSet, NumberSetForm, ← listed]
  split
  case isFalse hstar => simp [hstar]
  case isTrue hstar =>
    subst hstar
    have unread : (splitOn ',' ['*']).mapM (readSpan lo hi) = none := by
      simp [splitOn, readSpan, readWithin6, readNum, readNat, isDigit]
    simp [unread, eq_comm]

/-- R140: one to four minutes. -/
theorem readMinutes_eq_some_iff {t : Text} {xs : List Nat} : readMinutes t = some xs ↔ MinutesForm t xs := by
  have comma : ∀ (t : Text) (n : Nat), WithinForm 6 0 59 t n → ',' ∉ t := fun _ _ h => h.not_mem (by decide)
  simp only [readMinutes, MinutesForm, Option.pure_def, Option.bind_eq_bind, Option.bind_eq_some_iff,
    Option.ite_none_right_eq_some, Option.some.injEq,
    mapM_splitOn_eq_some_iff (fun _ _ => readWithin6_eq_some_iff) comma]
  constructor
  · rintro ⟨ns, ⟨pieces, hne, rfl, h⟩, ⟨four, distinct⟩, rfl⟩
    exact ⟨pieces, ns, hne, h.length_eq ▸ four, rfl, h, distinct, by rw [ascending, List.range_eq_range']⟩
  · rintro ⟨pieces, ns, hne, four, rfl, h, distinct, rfl⟩
    exact ⟨ns, ⟨pieces, hne, rfl, h⟩, ⟨h.length_eq ▸ four, distinct⟩, by rw [ascending, List.range_eq_range']⟩

theorem readDay_eq_some_iff {t : Text} {d : Nat} : readDay t = some d ↔ d < 7 ∧ t = dayText d := by
  constructor
  · intro h
    unfold readDay at h
    split at h
    case h_8 => cases h
    all_goals
      rename_i hk
      obtain rfl := Option.some.inj h
      exact ⟨by decide, readKw_eq_some_iff.mp hk⟩
  · rintro ⟨small, rfl⟩
    have table : ∀ d < 7, readDay (dayText d) = some d := by decide
    exact table d small

theorem forall₂_dayText_iff {pieces : List Text} {ds : List Nat} :
    List.Forall₂ (fun t d => d < 7 ∧ t = dayText d) pieces ds ↔ (∀ d ∈ ds, d < 7) ∧ pieces = ds.map dayText := by
  induction ds generalizing pieces with
  | nil => simp
  | cons d rest ih =>
    simp only [List.forall₂_cons_right_iff, ih, List.forall_mem_cons, List.map_cons]
    constructor
    · rintro ⟨_, _, ⟨hd, rfl⟩, ⟨hrest, rfl⟩, rfl⟩
      exact ⟨⟨hd, hrest⟩, rfl⟩
    · rintro ⟨⟨hd, hrest⟩, rfl⟩
      exact ⟨_, _, ⟨hd, rfl⟩, ⟨hrest, rfl⟩, rfl⟩

/-- R140, R150: a set of weekdays. -/
theorem readDays_eq_some_iff {t : Text} {xs : List Nat} : readDays t = some xs ↔ DaysForm t xs := by
  have listed : ((splitOn ',' t).mapM readDay).map (ascending 0 6) = some xs ↔
      ∃ ds : List Nat, ds ≠ [] ∧ (∀ d ∈ ds, d < 7) ∧ t = joinCommas (ds.map dayText) ∧
        xs = (List.range 7).filter (fun x => ds.contains x) := by
    have comma : ∀ (t : Text) (d : Nat), d < 7 ∧ t = dayText d → ',' ∉ t := by
      rintro _ d ⟨small, rfl⟩
      have table : ∀ d < 7, ',' ∉ dayText d := by decide
      exact table d small
    simp only [Option.map_eq_some_iff, mapM_splitOn_eq_some_iff (fun _ _ => readDay_eq_some_iff) comma,
      forall₂_dayText_iff]
    constructor
    · rintro ⟨ds, ⟨_, hne, rfl, small, rfl⟩, rfl⟩
      exact ⟨ds, by simpa using hne, small, rfl, by rw [ascending, List.range_eq_range']⟩
    · rintro ⟨ds, hne, small, rfl, rfl⟩
      exact ⟨ds, ⟨_, by simpa using hne, rfl, small, rfl⟩, by rw [ascending, List.range_eq_range']⟩
  rw [readDays, DaysForm, ← listed]
  split
  case isFalse hstar => simp [hstar]
  case isTrue hstar =>
    subst hstar
    have unread : (splitOn ',' ['*']).mapM readDay = none := by decide
    simp [unread, eq_comm]

end Machine

end Sys2Proof
end

section
/-! SUPPORT. Lines whose fields follow one another in any order: what a reader that takes them one by one has read, and
the options and count rules of an action. -/

namespace Sys2Proof.Machine

/-! ## Fields taken one after another -/

/-- How a line of fields is read into a record: the form of each field's value, which two values cannot stand on one
line, which value a record refuses for what it holds already, and the record with one value more. -/
structure Repertoire (σ α : Type) where
  form : List Text → α → Prop
  clash : α → α → Prop
  refuses : σ → α → Prop
  put : σ → α → σ
  form_ne_nil : ∀ {piece v}, form piece v → piece ≠ []
  refuses_put : ∀ s v w, refuses (put s v) w ↔ refuses s w ∨ clash v w

namespace Repertoire

variable {σ α ρ : Type} (R : Repertoire σ α)

/-- The fields, none of them refused, take the record `s` to `t`. -/
def Fills (s : σ) (fields : List Text) (t : σ) : Prop :=
  ∃ values, Spells R.form fields values ∧ values.Pairwise (fun v w => ¬ R.clash v w) ∧
    (∀ v ∈ values, ¬ R.refuses s v) ∧ t = values.foldl R.put s

/-- The first of the fields is in the form of a value that `s` does not refuse, and the property holds of the record
with that value and of the fields after it. -/
def Takes (s : σ) (fields : List Text) (next : σ → List Text → Prop) : Prop :=
  ∃ piece v rest, fields = piece ++ rest ∧ R.form piece v ∧ ¬ R.refuses s v ∧ next (R.put s v) rest

variable {R}

theorem not_takes_nil {s : σ} {next : σ → List Text → Prop} : ¬ R.Takes s [] next := by
  rintro ⟨piece, v, rest, e, one, -⟩
  exact R.form_ne_nil one (List.append_eq_nil_iff.mp e.symm).1

/-- What follows a field is asked of shorter lines only. -/
theorem takes_congr {s : σ} {fields : List Text} {p q : σ → List Text → Prop}
    (h : ∀ u rest, rest.length < fields.length → (p u rest ↔ q u rest)) : R.Takes s fields p ↔ R.Takes s fields q := by
  refine exists_congr fun piece => exists_congr fun v => exists_congr fun rest => and_congr_right fun e =>
    and_congr_right fun one => and_congr_right fun _ => h _ _ ?_
  have := List.length_pos_iff.mpr (R.form_ne_nil one)
  rw [e, List.length_append]
  omega

/-- Fields that fill a record are none, or a first one and the fields after it. -/
theorem fills_iff {s t : σ} {fields : List Text} :
    R.Fills s fields t ↔ (fields = [] ∧ t = s) ∨ R.Takes s fields (fun u rest => R.Fills u rest t) := by
  constructor
  · rintro ⟨values, ⟨pieces, rfl, forms⟩, apart, free, rfl⟩
    cases forms with
    | nil => exact .inl ⟨rfl, rfl⟩
    | @cons piece v pieces values one forms =>
      obtain ⟨first, apart⟩ := List.pairwise_cons.mp apart
      obtain ⟨hv, free⟩ := List.forall_mem_cons.mp free
      refine .inr ⟨piece, v, pieces.flatten, rfl, one, hv, values, ⟨pieces, rfl, forms⟩, apart, fun w hw => ?_, rfl⟩
      rw [R.refuses_put]
      exact not_or.mpr ⟨free w hw, first w hw⟩
  · rintro (⟨rfl, rfl⟩ | ⟨piece, v, rest, rfl, one, hv, values, ⟨pieces, rfl, forms⟩, apart, free, rfl⟩)
    · exact ⟨[], ⟨[], rfl, .nil⟩, .nil, nofun, rfl⟩
    · simp only [R.refuses_put, not_or] at free
      exact ⟨v :: values, ⟨piece :: pieces, rfl, .cons one forms⟩,
        List.pairwise_cons.mpr ⟨fun w hw => (free w hw).2, apart⟩,
        List.forall_mem_cons.mpr ⟨hv, fun w hw => (free w hw).1⟩, rfl⟩

/-- Fields that fill a record and then end: the end at once, or a first field and the same of those after it. -/
theorem exists_fills_iff {s : σ} {fields : List Text} {ends : σ → List Text → Prop} :
    (∃ front tail t, fields = front ++ tail ∧ R.Fills s front t ∧ ends t tail) ↔
      ends s fields ∨ R.Takes s fields (fun u rest =>
        ∃ front tail t, rest = front ++ tail ∧ R.Fills u front t ∧ ends t tail) := by
  constructor
  · rintro ⟨front, tail, t, rfl, filled, ended⟩
    obtain ⟨rfl, rfl⟩ | ⟨piece, v, rest, rfl, one, hv, filled⟩ := fills_iff.mp filled
    · exact .inl ended
    · exact .inr ⟨piece, v, rest ++ tail, List.append_assoc .., one, hv, rest, tail, t, rfl, filled, ended⟩
  · rintro (ended | ⟨piece, v, _, rfl, one, hv, front, tail, t, rfl, filled, ended⟩)
    · exact ⟨[], fields, s, rfl, fills_iff.mpr (.inl ⟨rfl, rfl⟩), ended⟩
    · exact ⟨piece ++ front, tail, t, (List.append_assoc ..).symm,
        fills_iff.mpr (.inr ⟨piece, v, front, rfl, one, hv, filled⟩), ended⟩

/-- A reader that at each field ends or takes that field, with fuel for every word, has read fields that fill the
record, and then the end. -/
theorem read_eq_some_iff {read : Nat → σ → List Text → Option ρ} {ends : ρ → σ → List Text → Prop}
    (read_nil : ∀ fuel s r, read fuel s [] = some r ↔ ends r s [])
    (read_cons : ∀ fuel s w ws r, read (fuel + 1) s (w :: ws) = some r ↔
      ends r s (w :: ws) ∨ R.Takes s (w :: ws) (fun u rest => read fuel u rest = some r))
    {fuel : Nat} {s : σ} {fields : List Text} {r : ρ} (enough : fields.length ≤ fuel) :
    read fuel s fields = some r ↔ ∃ front tail t, fields = front ++ tail ∧ R.Fills s front t ∧ ends r t tail := by
  induction fuel generalizing s fields with
  | zero =>
    obtain rfl := List.length_eq_zero_iff.mp (Nat.le_zero.mp enough)
    rw [read_nil, exists_fills_iff, or_iff_left not_takes_nil]
  | succ fuel ih =>
    cases fields with
    | nil => rw [read_nil, exists_fills_iff, or_iff_left not_takes_nil]
    | cons w ws =>
      rw [read_cons, exists_fills_iff]
      refine or_congr_right (takes_congr fun u rest shorter => ih ?_)
      simp only [List.length_cons] at enough shorter
      omega

end Repertoire

/-! ## Options -/

theorem once_eq_some_iff {α : Type} {held value : Option α} {write : α → Options} {o : Options} :
    once held value write = some o ↔ held = none ∧ ∃ x, value = some x ∧ o = write x := by
  cases held <;> simp [once, eq_comm]

theorem readMode_eq_some_iff {t : Text} {m : TollMode} : readMode t = some m ↔ t = m.word.text := by
  constructor
  · intro h
    unfold readMode at h
    split at h
    case h_4 => cases h
    all_goals
      rename_i hk
      obtain rfl := Option.some.inj h
      exact readKw_eq_some_iff.mp hk
  · rintro rfl
    cases m <;> rfl

/-- The options hold a value that the option of a line would give again, or the other of AT and CLOCK. -/
def Options.holds (o : Options) : OptionValue → Prop
  | .atTime _ => o.atTime.isSome ∨ o.clock.isSome
  | .clock _ => o.clock.isSome ∨ o.atTime.isSome
  | .tempo _ => o.tempo.isSome
  | .transpose _ => o.transpose.isSome
  | .cap _ => o.cap.isSome
  | .repeats _ => o.repeats.isSome
  | .slip _ => o.slip.isSome
  | .wait _ => o.wait.isSome
  | .interval _ => o.interval.isSome
  | .level _ => o.level.isSome
  | .mode _ => o.mode.isSome

/-- Two options that cannot stand on one line: an option twice, or AT and CLOCK. -/
def OptionValue.clash (v w : OptionValue) : Prop :=
  v.key = w.key ∨ (v.key = .AT ∧ w.key = .CLOCK) ∨ (v.key = .CLOCK ∧ w.key = .AT)

theorem Options.holds_put (o : Options) (v w : OptionValue) : (o.put v).holds w ↔ o.holds w ∨ v.clash w := by
  cases v <;> cases w <;> simp [Options.holds, Options.put, OptionValue.clash, OptionValue.key, or_comm]

/-- An option begins with its keyword and has a value. -/
theorem OptionForm.eq_cons {most : Nat} {piece : List Text} {v : OptionValue} (h : OptionForm most piece v) :
    ∃ value more, piece = v.key.text :: value :: more := by
  cases v with
  | atTime =>
    obtain ⟨date, time, rfl, -⟩ := h
    exact ⟨date, [time], rfl⟩
  | mode m => exact ⟨m.word.text, [], h⟩
  | _ =>
    obtain ⟨value, rfl, -⟩ := h
    exact ⟨value, [], rfl⟩

/-- The options of a line, of those allowed. -/
def optionRepertoire (most : Nat) (allowed : List Kw) : Repertoire Options OptionValue where
  form := OptionForm most
  clash := OptionValue.clash
  refuses o v := v.key ∉ allowed ∨ o.holds v
  put := Options.put
  form_ne_nil h := by
    obtain ⟨_, _, rfl⟩ := h.eq_cons
    exact nofun
  refuses_put o v w := by rw [Options.holds_put, or_assoc]

/-- An option is read from the front of the fields: its keyword and its value, where it is allowed and not held. -/
theorem readOption_eq_some_iff {most : Nat} {allowed : List Kw} {o o' : Options} {ws rest : List Text}
    (wall : Kw.AT ∈ allowed → ∀ date time instant, readWall date time = some instant ↔ WallForm date time instant) :
    readOption most allowed o ws = some (o', rest) ↔
      ∃ piece v, ws = piece ++ rest ∧ OptionForm most piece v ∧ v.key ∈ allowed ∧ ¬ o.holds v ∧ o' = o.put v := by
  constructor
  · intro h
    unfold readOption at h
    split at h
    case h_2 => cases h
    case h_1 w v rest₀ =>
    split at h
    case h_1 => cases h
    case h_2 k hk =>
    obtain rfl := readKw_eq_some_iff.mp hk
    split at h
    case isTrue => cases h
    case isFalse hallowed =>
    simp only [Bool.not_eq_true', Bool.not_eq_false, List.contains_iff_mem] at hallowed
    split at h
    case h_1 =>
      split at h
      case h_1 => cases h
      case h_2 time rest₁ =>
      split at h
      case isTrue => cases h
      case isFalse hclock =>
      simp only [Option.map_eq_some_iff, once_eq_some_iff, Prod.mk.injEq] at h
      obtain ⟨_, ⟨free, x, hx, rfl⟩, rfl, rfl⟩ := h
      exact ⟨_, .atTime x, rfl, ⟨v, time, rfl, (wall hallowed ..).mp hx⟩,
        hallowed, by simpa [Options.holds, free] using hclock, rfl⟩
    case h_2 =>
      split at h
      case isTrue => cases h
      case isFalse hat =>
      simp only [Option.map_eq_some_iff, once_eq_some_iff, Prod.mk.injEq] at h
      obtain ⟨_, ⟨free, x, hx, rfl⟩, rfl, rfl⟩ := h
      exact ⟨[_, v], .clock x, rfl, ⟨v, rfl, readNum_eq_some_iff.mp hx⟩, hallowed,
        by simpa [Options.holds, free] using hat, rfl⟩
    case h_12 => cases h
    all_goals
      simp only [Option.map_eq_some_iff, once_eq_some_iff, Prod.mk.injEq, readNum_within_eq_some_iff,
        readNum_eq_some_iff, readInt_eq_some_iff, readMode_eq_some_iff] at h
      obtain ⟨_, ⟨free, x, hx, rfl⟩, rfl, rfl⟩ := h
    case h_3 => exact ⟨[_, v], .tempo x, rfl, ⟨v, rfl, hx⟩, hallowed, by simp [Options.holds, free], rfl⟩
    case h_4 => exact ⟨[_, v], .transpose x, rfl, ⟨v, rfl, hx⟩, hallowed, by simp [Options.holds, free], rfl⟩
    case h_5 => exact ⟨[_, v], .cap x, rfl, ⟨v, rfl, hx⟩, hallowed, by simp [Options.holds, free], rfl⟩
    case h_6 => exact ⟨[_, v], .repeats x, rfl, ⟨v, rfl, hx⟩, hallowed, by simp [Options.holds, free], rfl⟩
    case h_7 => exact ⟨[_, v], .slip x, rfl, ⟨v, rfl, hx⟩, hallowed, by simp [Options.holds, free], rfl⟩
    case h_8 => exact ⟨[_, v], .wait x, rfl, ⟨v, rfl, hx⟩, hallowed, by simp [Options.holds, free], rfl⟩
    case h_9 => exact ⟨[_, v], .interval x, rfl, ⟨v, rfl, hx⟩, hallowed, by simp [Options.holds, free], rfl⟩
    case h_10 => exact ⟨[_, v], .level x, rfl, ⟨v, rfl, hx⟩, hallowed, by simp [Options.holds, free], rfl⟩
    case h_11 => exact ⟨[_, v], .mode x, rfl, congrArg ([_, ·]) hx, hallowed, by simp [Options.holds, free], rfl⟩
  · rintro ⟨piece, v, rfl, form, hallowed, free, rfl⟩
    cases v with
    | atTime x =>
      obtain ⟨date, time, rfl, hx⟩ := form
      simp_all [readOption, Options.holds, OptionValue.key, Options.put, once_eq_some_iff]
    | mode m =>
      obtain rfl := form
      simp_all [readOption, Options.holds, OptionValue.key, Options.put, once_eq_some_iff, readMode_eq_some_iff]
    | _ =>
      obtain ⟨t, rfl, ht⟩ := form
      simp_all [readOption, Options.holds, OptionValue.key, Options.put, once_eq_some_iff, readNum_within_eq_some_iff,
        readNum_eq_some_iff, readInt_eq_some_iff]

/-- Options that do not clash: none stands twice, and AT and CLOCK do not both stand. -/
theorem pairwise_not_clash_iff {values : List OptionValue} :
    values.Pairwise (fun v w => ¬ v.clash w) ↔
      (values.map OptionValue.key).Nodup ∧
        ¬ (Kw.AT ∈ values.map OptionValue.key ∧ Kw.CLOCK ∈ values.map OptionValue.key) := by
  rw [List.Nodup, List.pairwise_map]
  constructor
  · intro apart
    have : Std.Symm fun v w : OptionValue => ¬ v.clash w :=
      ⟨fun v w h => by simpa [OptionValue.clash, eq_comm, or_comm, and_comm] using h⟩
    refine ⟨apart.imp fun h e => h (.inl e), fun ⟨hat, hclock⟩ => ?_⟩
    obtain ⟨v, hv, atKey⟩ := List.mem_map.mp hat
    obtain ⟨w, hw, clockKey⟩ := List.mem_map.mp hclock
    have other : v ≠ w := by
      rintro rfl
      rw [atKey] at clockKey
      cases clockKey
    exact apart.forall hv hw other (.inr (.inl ⟨atKey, clockKey⟩))
  · rintro ⟨apart, notBoth⟩
    refine apart.imp_of_mem fun hv hw ne clash => ?_
    have mem {v : OptionValue} (h : v ∈ values) : v.key ∈ values.map OptionValue.key := List.mem_map_of_mem h
    obtain same | ⟨atKey, clockKey⟩ | ⟨clockKey, atKey⟩ := clash
    · exact ne same
    · exact notBoth ⟨atKey ▸ mem hv, clockKey ▸ mem hw⟩
    · exact notBoth ⟨atKey ▸ mem hw, clockKey ▸ mem hv⟩

/-- The options of a line are read as the grammar gives them (R105, R127, R140, R179). AT is read as its form wherever
the readers of dates are. -/
theorem readOptions_eq_some_iff {most : Nat} {allowed : List Kw} {ws : List Text} {o : Options}
    (wall : Kw.AT ∈ allowed → ∀ date time instant, readWall date time = some instant ↔ WallForm date time instant) :
    readOptions most allowed ws = some o ↔ OptionsForm most allowed ws o := by
  have one : ∀ fuel s w ws r, readOptionsFrom most allowed (fuel + 1) s (w :: ws) = some r ↔
      (w :: ws = [] ∧ r = s) ∨ (optionRepertoire most allowed).Takes s (w :: ws)
        (fun u rest => readOptionsFrom most allowed fuel u rest = some r) := by
    intro fuel s w ws r
    rw [readOptionsFrom]
    constructor
    · intro h
      split at h
      case h_1 => cases h
      case h_2 u rest hread =>
        obtain ⟨piece, v, e, form, hallowed, free, rfl⟩ := (readOption_eq_some_iff wall).mp hread
        exact .inr ⟨piece, v, rest, e, form, not_or.mpr ⟨not_not.mpr hallowed, free⟩, h⟩
    · rintro (⟨e, -⟩ | ⟨piece, v, rest, e, form, free, h⟩)
      · cases e
      · obtain ⟨hallowed, free⟩ := not_or.mp free
        rw [(readOption_eq_some_iff wall).mpr ⟨piece, v, e, form, not_not.mp hallowed, free, rfl⟩]
        exact h
  have last : ∀ fuel s r, readOptionsFrom most allowed fuel s [] = some r ↔ ([] : List Text) = [] ∧ r = s := by
    intro fuel s r
    simp [readOptionsFrom, eq_comm]
  rw [readOptions, Repertoire.read_eq_some_iff (ends := fun r s ws => ws = [] ∧ r = s) last one le_rfl, OptionsForm]
  constructor
  · rintro ⟨front, _, _, rfl, ⟨values, spelled, apart, free, rfl⟩, rfl, rfl⟩
    obtain ⟨nodup, notBoth⟩ := pairwise_not_clash_iff.mp apart
    exact ⟨values, by rwa [List.append_nil], nodup, fun v hv => not_not.mp (not_or.mp (free v hv)).1, notBoth, rfl⟩
  · rintro ⟨values, spelled, nodup, hallowed, notBoth, rfl⟩
    refine ⟨ws, [], _, (List.append_nil ws).symm,
      ⟨values, spelled, pairwise_not_clash_iff.mpr ⟨nodup, notBoth⟩, fun v hv => ?_, rfl⟩, rfl, rfl⟩
    exact not_or.mpr ⟨not_not.mpr (hallowed v hv), by cases v <;> simp [Options.holds]⟩

/-- Options without AT. -/
theorem readOptions_eq_some_iff_of_not_mem {most : Nat} {allowed : List Kw} (h : Kw.AT ∉ allowed) {ws : List Text}
    {o : Options} : readOptions most allowed ws = some o ↔ OptionsForm most allowed ws o :=
  readOptions_eq_some_iff fun hat => absurd hat h

/-! ## Count rules -/

/-- A count rule is read from the front of the fields (R126, R127). -/
theorem readRule_eq_some_iff {most : Nat} {ws rest : List Text} {rule : CountRule} :
    readRule most ws = some (rule, rest) ↔ ∃ piece, ws = piece ++ rest ∧ RuleForm most piece rule := by
  constructor
  · intro h
    unfold readRule at h
    split at h
    case h_1 => cases h
    case h_2 w more =>
    split at h
    case h_1 hk =>
      cases h
      exact ⟨[w], rfl, congrArg (· :: []) (readKw_eq_some_iff.mp hk)⟩
    case h_2 hk =>
      cases h
      exact ⟨[w], rfl, congrArg (· :: []) (readKw_eq_some_iff.mp hk)⟩
    case h_3 hk =>
      split at h
      case h_1 => cases h
      case h_2 v rest₀ =>
      simp only [Option.map_eq_some_iff, readNum_within_eq_some_iff, Prod.mk.injEq] at h
      obtain ⟨n, hn, rfl, rfl⟩ := h
      exact ⟨[w, v], rfl, v, congrArg (· :: [v]) (readKw_eq_some_iff.mp hk), hn⟩
    case h_4 => cases h
  · rintro ⟨piece, rfl, form⟩
    cases rule with
    | hour12 =>
      obtain rfl := form
      simp [readRule]
    | hour24 =>
      obtain rfl := form
      simp [readRule]
    | fixed n =>
      obtain ⟨v, rfl, hn⟩ := form
      simp [readRule, readNum_within_eq_some_iff.mpr hn]

end Sys2Proof.Machine
end

section
/-! SUPPORT. The readers of ENTRY and QUIET lines held against their forms: the action that ends an entry, the time
fields before it, and the five fields of a quiet rule. -/

namespace Sys2Proof.Machine

/-! ## The action of an entry (R1, R140) -/

/-- A clamped value is shown where the end of the range stands for it. -/
theorem shownClamp_eq_endShown (k : Kw) {lo hi : Nat} (h : lo ≤ hi) (given : Option Nat) (d : Nat) :
    shownClamp k given (max lo (min hi (given.getD d))) = endShown k lo hi given := by
  cases given with
  | none => rfl
  | some n =>
    simp only [shownClamp, endShown, Option.getD_some]
    obtain below | within | above : n < lo ∨ (lo ≤ n ∧ n ≤ hi) ∨ hi < n := by omega
    · rw [show max lo (min hi n) = lo by omega, if_neg (by omega), if_pos below]
    · rw [if_pos (by omega), if_neg (by omega), if_neg (by omega)]
    · rw [show max lo (min hi n) = hi by omega, if_neg (by omega), if_neg (by omega), if_pos above]

theorem shownClampInt_eq_endShownInt (k : Kw) {lo hi : Int} (h : lo ≤ hi) (given : Option Int) (d : Int) :
    shownClampInt k given (max lo (min hi (given.getD d))) = endShownInt k lo hi given := by
  cases given with
  | none => rfl
  | some x =>
    simp only [shownClampInt, endShownInt, Option.getD_some]
    obtain below | within | above : x < lo ∨ (lo ≤ x ∧ x ≤ hi) ∨ hi < x := by omega
    · rw [show max lo (min hi x) = lo by omega, if_neg (by omega), if_pos below]
    · rw [if_pos (by omega), if_neg (by omega), if_neg (by omega)]
    · rw [show max lo (min hi x) = hi by omega, if_neg (by omega), if_neg (by omega), if_pos above]

theorem clampedFields_tune (o : Options) (melody : Nat) :
    clampedFields o (.tune (tuneAsked melody o) o.capOf) =
      endShown .TEMPO 50 200 o.tempo ++ endShownInt .TRANSPOSE (-12) 12 o.transpose ++ endShown .CAP 1 7 o.cap := by
  rw [← shownClamp_eq_endShown .TEMPO (by decide) _ 100, ← shownClampInt_eq_endShownInt .TRANSPOSE (by decide) _ 0,
    ← shownClamp_eq_endShown .CAP (by decide) _ 7]
  rfl

theorem clampedFields_toll (o : Options) (rule : CountRule) (bell : Nat) :
    clampedFields o (.toll (tollAsked rule bell o)) = endShown .LEVEL 1 7 o.level := by
  rw [← shownClamp_eq_endShown .LEVEL (by decide) _ 6]
  rfl

/-- An action begins with TUNE or TOLL. -/
theorem EntryActionForm.eq_cons {fields : List Text} {action : ScheduleAction} {shown : List Fld}
    (h : EntryActionForm fields action shown) :
    ∃ isToll rest, fields = (bif isToll then Kw.TOLL else Kw.TUNE).text :: rest := by
  cases action with
  | tune spec cap =>
    obtain ⟨melody, o, ⟨m, options, rfl, -⟩, -⟩ := h
    exact ⟨false, _, rfl⟩
  | toll spec =>
    obtain ⟨rule, bell, o, ⟨piece, b, options, rfl, -⟩, -⟩ := h
    exact ⟨true, _, rfl⟩

theorem readEntryTune_eq_some_iff {rest : List Text} {action : ScheduleAction} {shown : List Fld} :
    readEntryAction false rest = some (action, shown) ↔ EntryActionForm (Kw.TUNE.text :: rest) action shown := by
  constructor
  · intro h
    cases rest with
    | nil => cases h
    | cons m options =>
      simp only [readEntryAction, Bool.false_eq_true, if_false, Option.pure_def, Option.bind_eq_bind,
        Option.bind_eq_some_iff, readWithin6_eq_some_iff, Option.some.injEq, Prod.mk.injEq] at h
      obtain ⟨melody, hm, o, ho, rfl, rfl⟩ := h
      exact ⟨melody, o, ⟨m, options, rfl, hm, (readOptions_eq_some_iff_of_not_mem (by decide)).mp ho⟩, rfl, rfl,
        clampedFields_tune o melody⟩
  · intro h
    cases action with
    | toll spec =>
      obtain ⟨_, _, _, ⟨_, _, _, e, -⟩, -⟩ := h
      exact absurd (List.cons.inj e).1 (by decide)
    | tune spec cap =>
      obtain ⟨melody, o, ⟨m, options, e, hm, ho⟩, rfl, rfl, rfl⟩ := h
      obtain ⟨-, rfl⟩ := List.cons.inj e
      rw [← clampedFields_tune o melody]
      simp only [readEntryAction, readWithin6_eq_some_iff.mpr hm,
        (readOptions_eq_some_iff_of_not_mem (by decide)).mpr ho]
      rfl

theorem readEntryToll_eq_some_iff {rest : List Text} {action : ScheduleAction} {shown : List Fld} :
    readEntryAction true rest = some (action, shown) ↔ EntryActionForm (Kw.TOLL.text :: rest) action shown := by
  constructor
  · intro h
    simp only [readEntryAction, if_true, Option.bind_eq_bind, Option.bind_eq_some_iff, Prod.exists,
      readRule_eq_some_iff] at h
    obtain ⟨rule, more, ⟨piece, rfl, form⟩, h⟩ := h
    split at h
    case h_1 => cases h
    case h_2 b options =>
    simp only [Option.pure_def, Option.bind_eq_some_iff, readWithin6_eq_some_iff, Option.some.injEq,
      Prod.mk.injEq] at h
    obtain ⟨bell, hb, o, ho, rfl, rfl⟩ := h
    have options := (readOptions_eq_some_iff_of_not_mem (by decide)).mp ho
    exact ⟨rule, bell, o, ⟨piece, b, _, rfl, form, hb, options⟩, rfl, clampedFields_toll o rule bell⟩
  · intro h
    cases action with
    | tune spec cap =>
      obtain ⟨_, _, ⟨_, _, e, -⟩, -⟩ := h
      exact absurd (List.cons.inj e).1 (by decide)
    | toll spec =>
      obtain ⟨rule, bell, o, ⟨piece, b, options, e, form, hb, ho⟩, rfl, rfl⟩ := h
      obtain ⟨-, rfl⟩ := List.cons.inj e
      rw [← clampedFields_toll o rule bell]
      have hrule := readRule_eq_some_iff.mpr ⟨piece, (rfl : piece ++ b :: options = _), form⟩
      simp only [readEntryAction, if_true, List.append_eq, hrule, Option.bind_eq_bind, Option.bind_some,
        readWithin6_eq_some_iff.mpr hb,
        (readOptions_eq_some_iff_of_not_mem (by decide)).mpr ho]
      rfl

/-! ## The time fields of an entry (R140) -/

theorem onceField_eq_some_iff {α : Type} {held value : Option α} {write : α → TimeFields} {f : TimeFields} :
    onceField held value write = some f ↔ held = none ∧ ∃ x, value = some x ∧ f = write x := by
  cases held <;> simp [onceField, eq_comm]

/-- The time fields hold a value that the time field of a line would give again. -/
def TimeFields.holds (f : TimeFields) : TimeValue → Prop
  | .hours _ => f.hours.isSome
  | .minutes _ => f.minutes.isSome
  | .second _ => f.second.isSome
  | .days _ => f.days.isSome
  | .months _ => f.months.isSome
  | .dates _ _ => f.dates.isSome
  | .expiry _ => f.expiry.isSome
  | .force => f.force

theorem TimeFields.holds_put (f : TimeFields) (v w : TimeValue) : (f.put v).holds w ↔ f.holds w ∨ v.key = w.key := by
  cases v <;> cases w <;> simp [TimeFields.holds, TimeFields.put, TimeValue.key]

/-- A time field begins with its keyword. -/
theorem TimeFieldForm.eq_cons {piece : List Text} {v : TimeValue} (h : TimeFieldForm piece v) :
    ∃ more, piece = v.key.text :: more := by
  cases v with
  | dates first last =>
    obtain ⟨t, u, rfl, -⟩ := h
    exact ⟨[t, u], rfl⟩
  | force => exact ⟨[], h⟩
  | _ =>
    obtain ⟨t, rfl, -⟩ := h
    exact ⟨[t], rfl⟩

/-- The time fields of an ENTRY line. -/
def timeRepertoire : Repertoire TimeFields TimeValue where
  form := TimeFieldForm
  clash v w := v.key = w.key
  refuses := TimeFields.holds
  put := TimeFields.put
  form_ne_nil h := by
    obtain ⟨_, rfl⟩ := h.eq_cons
    exact nofun
  refuses_put := TimeFields.holds_put

/-- A time field of one value, where it is not held. -/
theorem readOneValue_eq_some_iff {f f' : TimeFields} {k : Kw} {t : Text} :
    readOneValue f k t = some f' ↔ ∃ v, TimeFieldForm [k.text, t] v ∧ ¬ f.holds v ∧ f' = f.put v := by
  constructor
  · intro h
    unfold readOneValue at h
    split at h
    case h_7 => cases h
    all_goals
      simp only [onceField_eq_some_iff, readSet_eq_some_iff, readMinutes_eq_some_iff, readWithin6_eq_some_iff,
        readDays_eq_some_iff, readNum_eq_some_iff] at h
      obtain ⟨free, x, hx, rfl⟩ := h
    case h_1 => exact ⟨.hours x, ⟨t, rfl, hx⟩, by simp [TimeFields.holds, free], rfl⟩
    case h_2 => exact ⟨.minutes x, ⟨t, rfl, hx⟩, by simp [TimeFields.holds, free], rfl⟩
    case h_3 => exact ⟨.second x, ⟨t, rfl, hx⟩, by simp [TimeFields.holds, free], rfl⟩
    case h_4 => exact ⟨.days x, ⟨t, rfl, hx⟩, by simp [TimeFields.holds, free], rfl⟩
    case h_5 => exact ⟨.months x, ⟨t, rfl, hx⟩, by simp [TimeFields.holds, free], rfl⟩
    case h_6 => exact ⟨.expiry x, ⟨t, rfl, hx⟩, by simp [TimeFields.holds, free], rfl⟩
  · rintro ⟨v, form, free, rfl⟩
    cases v with
    | force => cases congrArg List.length (show [k.text, t] = [_] from form)
    | dates first last =>
      obtain ⟨_, _, e, -⟩ := form
      cases congrArg List.length e
    | _ =>
      obtain ⟨u, e, hx⟩ := form
      simp only [List.cons.injEq, Kw.text_inj, and_true] at e
      obtain ⟨rfl, rfl⟩ := e
      simpa [readOneValue, onceField_eq_some_iff, readSet_eq_some_iff, readMinutes_eq_some_iff,
        readWithin6_eq_some_iff, readDays_eq_some_iff, readNum_eq_some_iff, TimeFields.holds, TimeFields.put, hx]
        using free

/-- DATES, where it is not held. -/
theorem readDates_eq_some_iff {f f' : TimeFields} {ws rest : List Text} :
    readDates f ws = some (f', rest) ↔
      ∃ t u first last, ws = t :: u :: rest ∧ DayMonthForm t first ∧ DayMonthForm u last ∧
        ¬ f.holds (.dates first last) ∧ f' = f.put (.dates first last) := by
  constructor
  · intro h
    unfold readDates at h
    split at h
    case h_2 => cases h
    case h_1 t u more =>
    split at h
    case h_2 => cases h
    case h_1 first last ht hu =>
    simp only [Option.map_eq_some_iff, onceField_eq_some_iff, Prod.mk.injEq, Option.some.injEq] at h
    obtain ⟨_, ⟨free, _, rfl, rfl⟩, rfl, rfl⟩ := h
    exact ⟨t, u, first, last, rfl, readDayMonth_eq_some_iff.mp ht, readDayMonth_eq_some_iff.mp hu,
      by simp [TimeFields.holds, free], rfl⟩
  · rintro ⟨t, u, first, last, rfl, ht, hu, free, rfl⟩
    simpa [readDates, readDayMonth_eq_some_iff.mpr ht, readDayMonth_eq_some_iff.mpr hu, onceField_eq_some_iff,
      TimeFields.put, TimeFields.holds] using free

/-- A time field is read from the front of the fields: its keyword and its values, where it is not held. -/
theorem readTimeField_eq_some_iff {f f' : TimeFields} {k : Kw} {ws rest : List Text} :
    readTimeField f k ws = some (f', rest) ↔
      ∃ piece v, k.text :: ws = piece ++ rest ∧ TimeFieldForm piece v ∧ ¬ f.holds v ∧ f' = f.put v := by
  constructor
  · intro h
    unfold readTimeField at h
    split at h
    case isTrue hk =>
      subst hk
      obtain ⟨free, e⟩ := Option.ite_none_left_eq_some.mp h
      cases e
      exact ⟨[_], .force, rfl, rfl, free, rfl⟩
    case isFalse =>
    split at h
    case isTrue hk =>
      obtain ⟨t, u, first, last, rfl, ht, hu, free, rfl⟩ := readDates_eq_some_iff.mp h
      exact ⟨[k.text, t, u], .dates first last, rfl, ⟨t, u, by rw [hk], ht, hu⟩, free, rfl⟩
    case isFalse =>
    split at h
    case h_1 => cases h
    case h_2 t more =>
    obtain ⟨u, one, e⟩ := Option.map_eq_some_iff.mp h
    cases e
    obtain ⟨v, form, free, rfl⟩ := readOneValue_eq_some_iff.mp one
    exact ⟨[k.text, t], v, rfl, form, free, rfl⟩
  · rintro ⟨piece, v, e, form, free, rfl⟩
    have whole := form
    cases v with
    | force =>
      obtain rfl := form
      simp only [List.cons_append, List.nil_append, List.cons.injEq, Kw.text_inj] at e
      obtain ⟨rfl, rfl⟩ := e
      unfold readTimeField
      rw [if_pos rfl]
      exact if_neg free
    | dates first last =>
      obtain ⟨t, u, rfl, ht, hu⟩ := form
      simp only [List.cons_append, List.nil_append, List.cons.injEq, Kw.text_inj] at e
      obtain ⟨rfl, rfl⟩ := e
      unfold readTimeField
      rw [if_neg (by decide), if_pos rfl]
      exact readDates_eq_some_iff.mpr ⟨t, u, first, last, rfl, ht, hu, free, rfl⟩
    | _ =>
      obtain ⟨t, rfl, -⟩ := form
      simp only [List.cons_append, List.nil_append, List.cons.injEq, Kw.text_inj] at e
      obtain ⟨rfl, rfl⟩ := e
      unfold readTimeField
      rw [if_neg nofun, if_neg nofun]
      simp only [readOneValue_eq_some_iff.mpr ⟨_, whole, free, rfl⟩, Option.map_some]

/-! ## The lines of an entry (R139, R140) -/

theorem readEntryFrom_time {fuel : Nat} {f : TimeFields} {k : Kw} (hk : k ≠ .TUNE ∧ k ≠ .TOLL) (rest : List Text) :
    readEntryFrom (fuel + 1) f (k.text :: rest) =
      (readTimeField f k rest).bind fun (g, more) => readEntryFrom fuel g more := by
  rw [readEntryFrom, readKw_text]
  split
  case h_1 e => cases e
  case h_2 e => exact absurd (Option.some.inj e) hk.1
  case h_3 e => exact absurd (Option.some.inj e) hk.2
  case h_4 e => cases e; rfl

/-- At each field an ENTRY line has its action, or one time field more. -/
theorem readEntryFrom_cons_eq_some_iff {fuel : Nat} {f : TimeFields} {w : Text} {ws : List Text}
    {r : TimeFields × ScheduleAction × List Fld} :
    readEntryFrom (fuel + 1) f (w :: ws) = some r ↔
      (r.1 = f ∧ EntryActionForm (w :: ws) r.2.1 r.2.2) ∨
        timeRepertoire.Takes f (w :: ws) (fun u rest => readEntryFrom fuel u rest = some r) := by
  constructor
  · intro h
    rw [readEntryFrom] at h
    split at h
    case h_1 => cases h
    case h_2 hk =>
      obtain ⟨_, action, rfl⟩ := Option.map_eq_some_iff.mp h
      rw [readKw_eq_some_iff.mp hk]
      exact .inl ⟨rfl, readEntryTune_eq_some_iff.mp action⟩
    case h_3 hk =>
      obtain ⟨_, action, rfl⟩ := Option.map_eq_some_iff.mp h
      rw [readKw_eq_some_iff.mp hk]
      exact .inl ⟨rfl, readEntryToll_eq_some_iff.mp action⟩
    case h_4 k hk =>
      obtain ⟨⟨g, rest⟩, field, h⟩ := Option.bind_eq_some_iff.mp h
      obtain ⟨piece, v, e, form, free, rfl⟩ := readTimeField_eq_some_iff.mp field
      rw [readKw_eq_some_iff.mp hk, e]
      exact .inr ⟨piece, v, rest, rfl, form, free, h⟩
  · rintro (⟨rfl, action⟩ | ⟨piece, v, rest, e, form, free, h⟩)
    · obtain ⟨isToll, rest, e⟩ := action.eq_cons
      obtain ⟨rfl, rfl⟩ := List.cons.inj e
      cases isToll with
      | false => simp [readEntryFrom, readEntryTune_eq_some_iff.mpr action]
      | true => simp [readEntryFrom, readEntryToll_eq_some_iff.mpr action]
    · obtain ⟨more, rfl⟩ := form.eq_cons
      obtain ⟨rfl, rfl⟩ := List.cons.inj e
      have time : v.key ≠ .TUNE ∧ v.key ≠ .TOLL := by cases v <;> exact ⟨nofun, nofun⟩
      rw [readEntryFrom_time time, readTimeField_eq_some_iff.mpr ⟨_, v, rfl, form, free, rfl⟩]
      exact h

theorem TimeFields.not_holds_empty (v : TimeValue) : ¬ TimeFields.holds {} v := by
  cases v <;> simp [TimeFields.holds]

/-- R140: an ENTRY line is its time fields and then its action. -/
theorem readEntryFrom_eq_some_iff {fields : List Text} {f : TimeFields} {action : ScheduleAction} {shown : List Fld} :
    readEntryFrom fields.length {} fields = some (f, action, shown) ↔
      ∃ time rest values, fields = time ++ rest ∧ Spells TimeFieldForm time values ∧
        (values.map TimeValue.key).Nodup ∧ f = values.foldl TimeFields.put {} ∧ EntryActionForm rest action shown := by
  have last : ∀ fuel f (r : TimeFields × ScheduleAction × List Fld), readEntryFrom fuel f [] = some r ↔
      r.1 = f ∧ EntryActionForm [] r.2.1 r.2.2 := by
    intro fuel f r
    constructor
    · intro h
      cases fuel <;> cases h
    · rintro ⟨-, form⟩
      obtain ⟨_, _, e⟩ := form.eq_cons
      cases e
  rw [Repertoire.read_eq_some_iff
    (ends := fun (r : TimeFields × ScheduleAction × List Fld) f ws => r.1 = f ∧ EntryActionForm ws r.2.1 r.2.2)
    last (fun _ _ _ _ _ => readEntryFrom_cons_eq_some_iff) le_rfl]
  constructor
  · rintro ⟨time, rest, _, rfl, ⟨values, spelled, apart, -, rfl⟩, filled, form⟩
    exact ⟨time, rest, values, rfl, spelled, List.pairwise_map.mpr apart, filled, form⟩
  · rintro ⟨time, rest, values, rfl, spelled, apart, filled, form⟩
    exact ⟨time, rest, _, rfl,
      ⟨values, spelled, List.pairwise_map.mp apart, fun v _ => TimeFields.not_holds_empty v, rfl⟩, filled, form⟩

/-- R139, R140: an ENTRY line is read as its form gives it. -/
theorem readEntry_eq_some_iff {fields : List Text} {e : ScheduleEntry} {shown : List Fld} :
    readEntry fields = some (e, shown) ↔ EntryForm fields e shown := by
  simp only [readEntry, Option.pure_def, Option.bind_eq_bind, Option.bind_eq_some_iff, Prod.exists,
    readEntryFrom_eq_some_iff, within_eq_some_iff, Option.some.injEq, Prod.mk.injEq, EntryForm]
  constructor
  · rintro ⟨_, action, _, ⟨time, rest, values, rfl, spelled, apart, rfl, form⟩, hours, hhours, minutes, hminutes, _,
      ⟨rfl, -, most⟩, rfl, rfl⟩
    refine ⟨time, rest, values, rfl, spelled, apart, form, hhours, hminutes, rfl, rfl, rfl, rfl, rfl, rfl, ?_⟩
    cases action <;> exact most
  · rintro ⟨time, rest, values, rfl, spelled, apart, form, hhours, hminutes, second, days, months, dates, force, expiry,
      most⟩
    obtain ⟨hours, minutes, _, _, _, _, action, _, _⟩ := e
    dsimp only at second days months dates force expiry hhours hminutes form
    subst second days months dates force expiry
    refine ⟨_, action, shown, ⟨time, rest, values, rfl, spelled, apart, rfl, form⟩, hours, hhours, minutes, hminutes, _,
      ⟨rfl, Nat.zero_le _, ?_⟩, rfl, rfl⟩
    cases action <;> exact most

/-! ## The fields of a quiet rule (R150) -/

theorem onceQuiet_eq_some_iff {α : Type} {held value : Option α} {write : α → QuietFields} {f : QuietFields} :
    onceQuiet held value write = some f ↔ held = none ∧ ∃ x, value = some x ∧ f = write x := by
  cases held <;> simp [onceQuiet, eq_comm]

/-- The keyword of a quiet field. -/
def QuietValue.key : QuietValue → Kw
  | .days _ => .DAYS
  | .fromMin _ => .FROM
  | .toMin _ => .TO
  | .tune _ => .TUNE
  | .tollCap _ => .TOLL

/-- Quiet fields with one more given. -/
def QuietFields.put (f : QuietFields) : QuietValue → QuietFields
  | .days xs => { f with days := some xs }
  | .fromMin minute => { f with fromMin := some minute }
  | .toMin minute => { f with toMin := some minute }
  | .tune action => { f with tune := some action }
  | .tollCap level => { f with tollCap := some level }

/-- The quiet fields hold a value that the field of a line would give again. -/
def QuietFields.holds (f : QuietFields) : QuietValue → Prop
  | .days _ => f.days.isSome
  | .fromMin _ => f.fromMin.isSome
  | .toMin _ => f.toMin.isSome
  | .tune _ => f.tune.isSome
  | .tollCap _ => f.tollCap.isSome

/-- The quiet fields hold this very value. -/
def QuietFields.gives (f : QuietFields) : QuietValue → Prop
  | .days xs => f.days = some xs
  | .fromMin minute => f.fromMin = some minute
  | .toMin minute => f.toMin = some minute
  | .tune action => f.tune = some action
  | .tollCap level => f.tollCap = some level

theorem QuietFields.holds_put (f : QuietFields) (v w : QuietValue) : (f.put v).holds w ↔ f.holds w ∨ v.key = w.key := by
  cases v <;> cases w <;> simp [QuietFields.holds, QuietFields.put, QuietValue.key]

/-- A value that is not refused is added to those held. -/
theorem QuietFields.gives_put {f : QuietFields} {v : QuietValue} (h : ¬ f.holds v) (w : QuietValue) :
    (f.put v).gives w ↔ f.gives w ∨ w = v := by
  cases v <;>
    · simp only [QuietFields.holds, Option.not_isSome_iff_eq_none] at h
      cases w <;> simp [QuietFields.put, QuietFields.gives, h, eq_comm]

/-- A quiet field begins with its keyword. -/
theorem QuietFieldForm.eq_cons {piece : List Text} {v : QuietValue} (h : QuietFieldForm piece v) :
    ∃ more, piece = v.key.text :: more := by
  cases v with
  | tune action =>
    cases action with
    | silence => exact ⟨_, h⟩
    | cap level =>
      obtain ⟨t, n, rfl, -⟩ := h
      exact ⟨_, rfl⟩
  | tollCap level =>
    obtain ⟨t, n, rfl, -⟩ := h
    exact ⟨_, rfl⟩
  | _ =>
    obtain ⟨t, rfl, -⟩ := h
    exact ⟨_, rfl⟩

/-- A quiet field other than TUNE has one value. -/
theorem QuietFieldForm.eq_pair {piece : List Text} {v : QuietValue} (h : QuietFieldForm piece v) (hv : v.key ≠ .TUNE) :
    ∃ t, piece = [v.key.text, t] := by
  cases v with
  | tune action => exact absurd rfl hv
  | tollCap level =>
    obtain ⟨t, n, rfl, -⟩ := h
    exact ⟨t, rfl⟩
  | _ =>
    obtain ⟨t, rfl, -⟩ := h
    exact ⟨t, rfl⟩

/-- The fields of a QUIET line. -/
def quietRepertoire : Repertoire QuietFields QuietValue where
  form := QuietFieldForm
  clash v w := v.key = w.key
  refuses := QuietFields.holds
  put := QuietFields.put
  form_ne_nil h := by
    obtain ⟨_, rfl⟩ := h.eq_cons
    exact nofun
  refuses_put := QuietFields.holds_put

/-- The tune action is read from the front of the fields after TUNE. -/
theorem readQuietTune_eq_some_iff {ws rest : List Text} {action : QuietTune} :
    readQuietTune ws = some (action, rest) ↔
      ∃ piece, Kw.TUNE.text :: ws = piece ++ rest ∧ QuietFieldForm piece (.tune action) := by
  constructor
  · intro h
    unfold readQuietTune at h
    split at h
    case h_1 => cases h
    case h_2 w more =>
    split at h
    case h_1 hk =>
      cases h
      exact ⟨[_, w], rfl, by rw [readKw_eq_some_iff.mp hk]; rfl⟩
    case h_2 hk =>
      split at h
      case h_1 => cases h
      case h_2 t rest₀ =>
      simp only [Option.map_eq_some_iff, readNat_eq_some_iff, Prod.mk.injEq] at h
      obtain ⟨n, hn, rfl, rfl⟩ := h
      exact ⟨[_, w, t], rfl, t, n, by rw [readKw_eq_some_iff.mp hk], hn, rfl⟩
    case h_3 => cases h
  · rintro ⟨piece, e, form⟩
    cases action with
    | silence =>
      obtain rfl := form
      obtain ⟨-, rfl⟩ := List.cons.inj e
      simp [readQuietTune]
    | cap level =>
      obtain ⟨t, n, rfl, hn, rfl⟩ := form
      obtain ⟨-, rfl⟩ := List.cons.inj e
      simp [readQuietTune, readNat_eq_some_iff.mpr hn, clampLevel, clamp]

/-- A quiet field of one value, where it is not held. -/
theorem readQuietValue_eq_some_iff {f f' : QuietFields} {k : Kw} {t : Text} :
    readQuietValue f k t = some f' ↔
      ∃ v, k ≠ .TUNE ∧ QuietFieldForm [k.text, t] v ∧ ¬ f.holds v ∧ f' = f.put v := by
  constructor
  · intro h
    unfold readQuietValue at h
    split at h
    case h_5 => cases h
    all_goals
      simp only [onceQuiet_eq_some_iff, readDays_eq_some_iff, readClock_eq_some_iff, Option.map_eq_some_iff,
        readNat_eq_some_iff] at h
      obtain ⟨free, x, hx, rfl⟩ := h
    case h_1 => exact ⟨.days x, nofun, ⟨t, rfl, hx⟩, by simp [QuietFields.holds, free], rfl⟩
    case h_2 => exact ⟨.fromMin x, nofun, ⟨t, rfl, hx⟩, by simp [QuietFields.holds, free], rfl⟩
    case h_3 => exact ⟨.toMin x, nofun, ⟨t, rfl, hx⟩, by simp [QuietFields.holds, free], rfl⟩
    case h_4 =>
      obtain ⟨n, hn, rfl⟩ := hx
      exact ⟨.tollCap _, nofun, ⟨t, n, rfl, hn, rfl⟩, by simp [QuietFields.holds, free], rfl⟩
  · rintro ⟨v, notTune, form, free, rfl⟩
    cases v with
    | tune action =>
      obtain ⟨_, e⟩ := form.eq_cons
      exact absurd (Kw.text_inj.mp (List.cons.inj e).1) notTune
    | tollCap level =>
      obtain ⟨u, n, e, hn, rfl⟩ := form
      simp only [List.cons.injEq, Kw.text_inj, and_true] at e
      obtain ⟨rfl, rfl⟩ := e
      simpa [readQuietValue, onceQuiet_eq_some_iff, readNat_eq_some_iff.mpr hn, clampLevel, clamp, QuietFields.holds,
        QuietFields.put] using free
    | _ =>
      obtain ⟨u, e, hx⟩ := form
      simp only [List.cons.injEq, Kw.text_inj, and_true] at e
      obtain ⟨rfl, rfl⟩ := e
      simpa [readQuietValue, onceQuiet_eq_some_iff, readDays_eq_some_iff, readClock_eq_some_iff, QuietFields.holds,
        QuietFields.put, hx] using free

theorem readQuietFrom_value {fuel : Nat} {f : QuietFields} {k : Kw} (hk : k ≠ .TUNE) (t : Text) (rest : List Text) :
    readQuietFrom (fuel + 1) f (k.text :: t :: rest) =
      (readQuietValue f k t).bind fun g => readQuietFrom fuel g rest := by
  rw [readQuietFrom, readKw_text]
  split
  case h_1 e => cases e
  case h_2 e => exact absurd (Option.some.inj e) hk
  case h_3 e => cases e; rfl

/-- A QUIET line is read field by field. -/
theorem readQuietFrom_cons_eq_some_iff {fuel : Nat} {f g : QuietFields} {w : Text} {ws : List Text} :
    readQuietFrom (fuel + 1) f (w :: ws) = some g ↔
      quietRepertoire.Takes f (w :: ws) (fun u rest => readQuietFrom fuel u rest = some g) := by
  constructor
  · intro h
    rw [readQuietFrom] at h
    split at h
    case h_1 => cases h
    case h_2 hk =>
      split at h
      case h_1 => cases h
      case h_2 action rest hread =>
      obtain ⟨u, put, h⟩ := Option.bind_eq_some_iff.mp h
      obtain ⟨free, _, e, rfl⟩ := onceQuiet_eq_some_iff.mp put
      cases e
      obtain ⟨piece, e, form⟩ := readQuietTune_eq_some_iff.mp hread
      rw [readKw_eq_some_iff.mp hk, e]
      exact ⟨piece, .tune action, rest, rfl, form, by simp [quietRepertoire, QuietFields.holds, free], h⟩
    case h_3 k _ hk =>
      split at h
      case h_1 => cases h
      case h_2 t rest =>
      obtain ⟨u, one, h⟩ := Option.bind_eq_some_iff.mp h
      obtain ⟨v, -, form, free, rfl⟩ := readQuietValue_eq_some_iff.mp one
      rw [readKw_eq_some_iff.mp hk]
      exact ⟨[k.text, t], v, rest, rfl, form, free, h⟩
  · rintro ⟨piece, v, rest, e, form, free, h⟩
    by_cases hv : v.key = .TUNE
    · cases v with
      | tune action =>
        obtain ⟨more, rfl⟩ := form.eq_cons
        obtain ⟨rfl, -⟩ := List.cons.inj e
        have held : f.tune = none := by simpa [quietRepertoire, QuietFields.holds] using free
        rw [readQuietFrom, QuietValue.key, readKw_text]
        simp only [readQuietTune_eq_some_iff.mpr ⟨_, e, form⟩, onceQuiet, held, Option.map_some, Option.bind_some]
        exact h
      | _ => cases hv
    · obtain ⟨t, rfl⟩ := form.eq_pair hv
      obtain ⟨rfl, rfl⟩ := List.cons.inj e
      change readQuietFrom (fuel + 1) f (v.key.text :: t :: rest) = some g
      rw [readQuietFrom_value hv, readQuietValue_eq_some_iff.mpr ⟨v, hv, form, free, rfl⟩]
      exact h

/-- Fields of different keywords add their values, and no others, to those a record gives. -/
theorem gives_foldl_put {values : List QuietValue} {f : QuietFields} (apart : (values.map QuietValue.key).Nodup)
    (free : ∀ v ∈ values, ¬ f.holds v) (w : QuietValue) :
    (values.foldl QuietFields.put f).gives w ↔ f.gives w ∨ w ∈ values := by
  induction values generalizing f with
  | nil => simp
  | cons v rest ih =>
    obtain ⟨first, apart⟩ := List.nodup_cons.mp apart
    obtain ⟨hv, free⟩ := List.forall_mem_cons.mp free
    have free' : ∀ u ∈ rest, ¬ (f.put v).holds u := fun u hu => by
      rw [QuietFields.holds_put]
      exact not_or.mpr ⟨free u hu, fun e => first (e ▸ List.mem_map_of_mem hu)⟩
    rw [List.foldl_cons, ih apart free', QuietFields.gives_put hv, or_assoc, List.mem_cons]

theorem QuietFields.not_holds_empty (v : QuietValue) : ¬ QuietFields.holds {} v := by
  cases v <;> simp [QuietFields.holds]

/-- R150: the five values of a quiet rule. -/
def QuietRule.values (q : QuietRule) : List QuietValue :=
  [.days q.days, .fromMin q.fromMin, .toMin q.toMin, .tune q.tune, .tollCap q.tollCap]

theorem QuietRule.nodup_keys (q : QuietRule) : (q.values.map QuietValue.key).Nodup := by
  simp [QuietRule.values, QuietValue.key]

/-- Quiet fields give the values of a rule and no others where each of them is that of the rule. -/
theorem gives_iff_mem_values {f : QuietFields} {q : QuietRule} :
    (∀ w, f.gives w ↔ w ∈ q.values) ↔
      f.days = some q.days ∧ f.fromMin = some q.fromMin ∧ f.toMin = some q.toMin ∧ f.tune = some q.tune ∧
        f.tollCap = some q.tollCap := by
  constructor
  · intro h
    have mem {w : QuietValue} (hw : w ∈ q.values) : f.gives w := (h w).mpr hw
    simp only [QuietRule.values, List.mem_cons] at mem
    exact ⟨mem (w := .days _) (by simp), mem (w := .fromMin _) (by simp), mem (w := .toMin _) (by simp),
      mem (w := .tune _) (by simp), mem (w := .tollCap _) (by simp)⟩
  · rintro ⟨hdays, hfrom, hto, htune, htoll⟩ w
    cases w <;> simp [QuietFields.gives, QuietRule.values, hdays, hfrom, hto, htune, htoll, eq_comm]

/-- Fields of different keywords give the values of a rule where they are those values in some order. -/
theorem gives_values_iff_perm {values : List QuietValue} {q : QuietRule} (apart : (values.map QuietValue.key).Nodup) :
    (∀ w, (values.foldl QuietFields.put {}).gives w ↔ w ∈ q.values) ↔ values.Perm q.values := by
  have empty (w : QuietValue) : ¬ QuietFields.gives {} w := by cases w <;> simp [QuietFields.gives]
  rw [List.perm_ext_iff_of_nodup apart.of_map q.nodup_keys.of_map]
  simp only [gives_foldl_put apart (fun v _ => QuietFields.not_holds_empty v), empty, false_or]

theorem readQuietFrom_eq_some_iff {fields : List Text} {f : QuietFields} :
    readQuietFrom fields.length {} fields = some f ↔
      ∃ values, Spells QuietFieldForm fields values ∧ (values.map QuietValue.key).Nodup ∧
        f = values.foldl QuietFields.put {} := by
  have last : ∀ fuel (f g : QuietFields), readQuietFrom fuel f [] = some g ↔ ([] : List Text) = [] ∧ g = f := by
    intro fuel f g
    cases fuel <;> simp [readQuietFrom, eq_comm]
  have next : ∀ fuel (f : QuietFields) w ws g, readQuietFrom (fuel + 1) f (w :: ws) = some g ↔
      (w :: ws = [] ∧ g = f) ∨
        quietRepertoire.Takes f (w :: ws) (fun u rest => readQuietFrom fuel u rest = some g) := by
    intro fuel f w ws g
    rw [readQuietFrom_cons_eq_some_iff, or_iff_right (fun h => List.cons_ne_nil _ _ h.1)]
  rw [Repertoire.read_eq_some_iff (ends := fun g f ws => ws = [] ∧ g = f) last next le_rfl]
  constructor
  · rintro ⟨front, _, _, rfl, ⟨values, spelled, apart, -, rfl⟩, rfl, rfl⟩
    exact ⟨values, by rwa [List.append_nil], List.pairwise_map.mpr apart, rfl⟩
  · rintro ⟨values, spelled, apart, rfl⟩
    exact ⟨fields, [], _, (List.append_nil _).symm,
      ⟨values, spelled, List.pairwise_map.mp apart, fun v _ => QuietFields.not_holds_empty v, rfl⟩, rfl, rfl⟩

/-- R150: a QUIET line is read as its form gives it. -/
theorem readQuiet_eq_some_iff {fields : List Text} {q : QuietRule} :
    readQuiet fields = some q ↔ QuietForm fields q := by
  have whole : readQuiet fields = some q ↔
      ∃ f, readQuietFrom fields.length {} fields = some f ∧ ∀ w, f.gives w ↔ w ∈ q.values := by
    simp only [readQuiet, Option.pure_def, Option.bind_eq_bind, Option.bind_eq_some_iff, Option.some.injEq,
      gives_iff_mem_values]
    refine exists_congr fun f => and_congr_right fun _ => ?_
    constructor
    · rintro ⟨_, hdays, _, hfrom, _, hto, _, htune, _, htoll, rfl⟩
      exact ⟨hdays, hfrom, hto, htune, htoll⟩
    · rintro ⟨hdays, hfrom, hto, htune, htoll⟩
      exact ⟨_, hdays, _, hfrom, _, hto, _, htune, _, htoll, rfl⟩
  rw [whole]
  simp only [readQuietFrom_eq_some_iff]
  constructor
  · rintro ⟨_, ⟨values, spelled, apart, rfl⟩, given⟩
    exact ⟨values, spelled, (gives_values_iff_perm apart).mp given⟩
  · rintro ⟨values, spelled, perm⟩
    have apart := (perm.map QuietValue.key).nodup_iff.mpr q.nodup_keys
    exact ⟨_, ⟨values, spelled, apart, rfl⟩, (gives_values_iff_perm apart).mpr perm⟩

end Sys2Proof.Machine
end

section
/-! SUPPORT. The requests that edit the schedule: what ENTRY, ENTRY CLEAR, HOLD, QUIET and QUIET CLEAR write and reply,
and what they refuse (8.1, 8.2, 8.4). -/

namespace Sys2Proof.Machine

/-! ## The requests, taken where the line can execute one -/

/-- A request that the line can execute takes its effect. -/
theorem exec_request_taken {i : Instr} {p : Text × List Text} (h : i.fields = some p) {s : State}
    (hs : s.canExecute = true) : exec i s = .next (runRequest i s) := by
  rw [exec_request h, event_taken hs]

/-! ## The numbers of entries and rules -/

theorem readWithin_eq_some {lo hi n : Nat} {t : Text} (h : readNat t = some n) (hlo : lo ≤ n) (hhi : n ≤ hi) :
    readWithin lo hi t = some n :=
  bind_within_eq_some_iff.mpr ⟨h, hlo, hhi⟩

theorem readWithin6_eq_some {lo hi n : Nat} {t : Text} (h : readNat t = some n) (six : t.length ≤ 6) (hlo : lo ≤ n)
    (hhi : n ≤ hi) : readWithin6 lo hi t = some n :=
  bind_within_eq_some_iff.mpr ⟨by rw [readNum, if_pos six, h], hlo, hhi⟩

theorem readWithin6_eq_none {lo hi : Nat} {t : Text} (long : 6 < t.length) : readWithin6 lo hi t = none := by
  rw [readWithin6, readNum, if_neg (by omega)]
  rfl

/-! ## What is written and replied -/

/-- R143: the entries whose pending contents differ from the live ones are counted. -/
theorem State.changed_eq_length (s : State) :
    s.changed = ((List.range' 1 48).filter (fun k => slot s.draft k none != slot s.live k none)).length :=
  List.countP_eq_length_filter

section Requests

variable {s : State} {tag f : Text} {n : Nat}

theorem entryRequest_stores {rest : List Text} {e : ScheduleEntry} {shown : List Fld}
    (number : readWithin6 1 48 f = some n) (entry : readEntry rest = some (e, shown)) :
    entryRequest tag (f :: rest) s = (s.setDraft n (some e)).replyEntry tag n shown := by
  simp only [entryRequest, number, entry]

theorem entryRequest_refuses {rest : List Text} (h : readWithin6 1 48 f = none ∨ readEntry rest = none) :
    entryRequest tag (f :: rest) s = s.err tag .arg := by
  obtain h | h := h
  · simp only [entryRequest, h]
  · simp only [entryRequest, h]
    cases readWithin6 1 48 f <;> rfl

theorem entryClearRequest_clears (number : readEntryNumber f = some n) :
    entryClearRequest tag f [] s = (s.setDraft n none).replyEntry tag n [] := by
  simp [entryClearRequest, number]

/-- R141: ENTRY CLEAR refuses a further field. -/
theorem entryClearRequest_refuses (g : Text) (more : List Text) :
    entryClearRequest tag f (g :: more) s = s.err tag .arg := by
  unfold entryClearRequest
  cases readEntryNumber f <;> rfl

theorem quietRequest_stores {rest : List Text} {r : QuietRule} (h0 : 1 ≤ n) (h8 : n ≤ 8)
    (number : readRuleNumber f = some n) (rule : readQuiet rest = some r) :
    quietRequest tag (f :: rest) s =
      State.ok { s with quiet := setSlot s.quiet n (some r) } tag (.num n :: quietFields (some r)) := by
  simp only [quietRequest, number, rule, State.replyQuiet, State.setQuiet, State.quietRule,
    slot_setSlot_same _ _ _ _ h0 h8]

theorem quietRequest_refuses {rest : List Text} (h : readQuiet rest = none) :
    quietRequest tag (f :: rest) s = s.err tag .arg := by
  simp only [quietRequest, h]
  cases readRuleNumber f <;> rfl

theorem quietClearRequest_clears (h0 : 1 ≤ n) (h8 : n ≤ 8) (number : readRuleNumber f = some n) :
    quietClearRequest tag f [] s =
      State.ok { s with quiet := setSlot s.quiet n none } tag (.num n :: quietFields none) := by
  simp [quietClearRequest, number, State.replyQuiet, State.setQuiet, State.quietRule,
    slot_setSlot_same _ _ _ _ h0 h8]

/-- QUIET CLEAR refuses a further field (assumption 8). -/
theorem quietClearRequest_refuses (g : Text) (more : List Text) :
    quietClearRequest tag f (g :: more) s = s.err tag .arg := by
  unfold quietClearRequest
  cases readRuleNumber f <;> rfl

end Requests

/-- Settles O52: each reader against its form, and each request by the lemmas on what it writes and what it refuses. -/
theorem scheduleEdited : Obligations.ScheduleEdited := by
  unfold Obligations.ScheduleEdited
  refine ⟨State.changed_eq_length, fun _ _ _ => readEntry_eq_some_iff, fun _ _ => readQuiet_eq_some_iff,
    fun s tag f n can number => ?_⟩
  have taken {i : Instr} {p : Text × List Text} {t : State} (h : i.fields = some p) (e : runRequest i s = t) :
      exec i s = .next t := e ▸ exec_request_taken h can
  refine ⟨fun h0 h48 => ⟨fun rest e shown six entry => ?_, fun rest refused => ?_, ?_⟩,
    fun h0 h8 => ⟨fun rest r rule => ?_, fun rest refused => ?_, ?_⟩, ?_, ?_, fun g more => ⟨?_, ?_, ?_, ?_⟩⟩
  · exact taken rfl (entryRequest_stores (readWithin6_eq_some number six h0 h48) entry)
  · exact taken rfl (entryRequest_refuses (refused.imp_left readWithin6_eq_none))
  · exact taken rfl (entryClearRequest_clears (readWithin_eq_some number h0 h48))
  · exact taken rfl (quietRequest_stores h0 h8 (readWithin_eq_some number h0 h8) rule)
  · exact taken rfl (quietRequest_refuses refused)
  · exact taken rfl (quietClearRequest_clears h0 h8 (readWithin_eq_some number h0 h8))
  · exact taken rfl rfl
  · exact taken rfl rfl
  · exact taken rfl (entryClearRequest_refuses g more)
  · exact taken rfl (quietClearRequest_refuses g more)
  · exact taken rfl rfl
  · exact taken rfl rfl

end Sys2Proof.Machine
end

section
/-! SUPPORT. Every step keeps the bell table sound: the requests, the events and the passing of a grain. -/

namespace Sys2Proof.Machine

namespace State.BellsSound

/-! ## The requests -/

theorem bellRequest {s : State} (h : s.BellsSound) (tag : Text) (fields : List Text) :
    (bellRequest tag fields s).BellsSound := by
  unfold Machine.bellRequest
  split
  · exact h.congr (by simp)
  · split
    · rename_i b settings _ _
      exact (h.settings b settings).congr (by simp)
    · exact h.congr (by simp)

theorem restoreBell {s : State} (h : s.BellsSound) (b : Nat) : (s.restoreBell b).BellsSound :=
  State.BellsSound.restartStuck (h.modBell b Bell.Sound.makeGood) b

theorem bellDisableRequest {s : State} (h : s.BellsSound) (tag b : Text) (more : List Text) :
    (bellDisableRequest tag b more s).BellsSound := by
  unfold Machine.bellDisableRequest
  split
  · exact h.congr (by simp)
  · rename_i n _
    dsimp only
    split
    · exact h.congr (by simp)
    · exact (h.modBell n Bell.Sound.disable).congr (by simp)

theorem bellEnableRequest {s : State} (h : s.BellsSound) (tag b : Text) (more : List Text) :
    (bellEnableRequest tag b more s).BellsSound := by
  unfold Machine.bellEnableRequest
  split
  · exact h.congr (by simp)
  · rename_i n _
    split
    · exact (h.restoreBell n).congr (by simp)
    · exact h.congr (by simp)

theorem bellClearRequest {s : State} (h : s.BellsSound) (tag b : Text) (more : List Text) :
    (bellClearRequest tag b more s).BellsSound := by
  unfold Machine.bellClearRequest
  split
  · exact h.congr (by simp)
  · rename_i n _
    split
    · exact (h.restoreBell n).congr (by simp)
    · exact (h.restoreBell n).congr (by simp)
    · exact h.congr (by simp)
    · exact h.congr (by simp)

theorem countClearRequest {s : State} (h : s.BellsSound) (tag b : Text) (more : List Text) :
    (countClearRequest tag b more s).BellsSound := by
  unfold Machine.countClearRequest
  split
  · exact h.congr (by simp)
  · exact State.BellsSound.modBell (h.congr (by simp)) _ fun hb =>
      { hb with counters := Counters.zero_inBounds }

theorem cancelRequest {s : State} (h : s.BellsSound) (tag : Text) (fields : List Text) :
    (cancelRequest tag fields s).BellsSound := by
  unfold Machine.cancelRequest
  repeat' split
  case h_2.isTrue => exact State.BellsSound.edits (h.congr (by simp)) (.settle _)
  all_goals exact h.congr (by simp)

theorem stopNowRequest {s : State} (h : s.BellsSound) (tag lane : Text) (more : List Text) :
    (stopNowRequest tag lane more s).BellsSound := by
  refine h.edits ?_
  unfold Machine.stopNowRequest
  repeat' split
  · exact .err ..
  · exact .err ..
  · exact .trans (.stopTuneNow ..) (.replyTuneStop ..)
  · exact .trans (.stopTollNow ..) (.replyTollStop ..)

theorem stopBarRequest {s : State} (h : s.BellsSound) (tag lane : Text) (more : List Text) :
    (stopBarRequest tag lane more s).BellsSound := by
  refine h.edits ?_
  unfold Machine.stopBarRequest
  repeat' split
  · exact .err ..
  · exact .err ..
  · exact .trans (.barStopTune ..) (.replyTuneStop ..)
  · exact .trans (.barStopToll ..) (.replyTollStop ..)

theorem cueEnableRequest {s : State} (h : s.BellsSound) (tag c : Text) (more : List Text) :
    (cueEnableRequest tag c more s).BellsSound := by
  unfold Machine.cueEnableRequest
  split
  · exact h.congr (by simp)
  · split
    · exact h.congr (by simp)
    · split
      · exact h.congr (by simp)
      · exact State.BellsSound.edits (h.congr (by simp)) (.settleCues ..)

/-- Every request keeps the bells sound; those not named here do not touch the bell table. -/
theorem runRequest {s : State} (h : s.BellsSound) (i : Instr) : (runRequest i s).BellsSound := by
  cases i
  case bell => exact h.bellRequest _ _
  case bellDisable => exact h.bellDisableRequest _ _ _
  case bellEnable => exact h.bellEnableRequest _ _ _
  case bellClear => exact h.bellClearRequest _ _ _
  case countClear => exact h.countClearRequest _ _ _
  case cancel => exact h.cancelRequest _ _
  case stopNow => exact h.stopNowRequest _ _ _
  case stopBar => exact h.stopBarRequest _ _ _
  case cueEnable => exact h.cueEnableRequest _ _ _
  all_goals exact h.congr (by simp [Machine.runRequest])

theorem executeLine {s : State} (h : s.BellsSound) : s.executeLine.BellsSound := by
  unfold State.executeLine
  split
  · exact h
  · unfold State.runLine
    split
    · exact State.BellsSound.runRequest (h.congr (by simp)) _
    all_goals exact h.congr (by simp)

/-! ## The events -/

theorem activeEdge {s : State} (h : s.BellsSound) (b : Nat) : (s.activeEdge b).BellsSound := by
  have seen : (s.setSense b (!s.senseLevel b)).BellsSound := h.congr (by simp)
  unfold State.activeEdge
  dsimp only
  split
  · exact (seen.judgeEdge b).modBell b fun hb => hb.stuck _
  · exact seen

theorem releaseEdge {s : State} (h : s.BellsSound) (b : Nat) : (s.releaseEdge b).BellsSound := by
  have seen : (s.setSense b (!s.senseLevel b)).BellsSound := h.congr (by simp)
  unfold State.releaseEdge
  dsimp only
  split
  · exact seen.modBell b fun hb => hb.stuck _
  · exact seen

theorem endWindow {s : State} (h : s.BellsSound) (b : Nat) : (s.endWindow b).BellsSound := by
  unfold State.endWindow
  split
  · exact h
  · exact h.miss b _

theorem expire {s : State} (h : s.BellsSound) (id : Nat) : (s.expire id).BellsSound := by
  unfold State.expire
  split
  · exact h
  · exact State.BellsSound.edits (h.congr (by simp)) (.settle _)

theorem takeFirstTune {s : State} (h : s.BellsSound) : s.takeFirstTune.BellsSound := by
  unfold State.takeFirstTune
  repeat' split
  · exact h
  · exact State.BellsSound.edits (h.congr (by simp)) (.settle _)
  · exact h

theorem cutOrder {s : State} (h : s.BellsSound) (id : Nat) : (s.cutOrder id).BellsSound :=
  State.BellsSound.edits (h.congr (s := s) (t := (s.markCut id)) (by simp))
    (.trans (.post ..) (.trans (.barStopTune ..) (.settle _)))

theorem changeCueLine {s : State} (h : s.BellsSound) (c : Nat) : (s.changeCueLine c).BellsSound := by
  unfold State.changeCueLine
  dsimp only
  split <;> exact h.congr (by simp)

theorem loseSupply {s : State} (h : s.BellsSound) : s.loseSupply.BellsSound :=
  State.BellsSound.edits (h.congr (t := { s with supply := .lost }) rfl)
    (.trans (.post ..) (.trans (.stopTuneNow ..) (.trans (.stopTollNow ..) (.settle _))))

/-- R71: a window that is no longer supply clean is still open, or still closed. -/
theorem soilWindows {s : State} (h : s.BellsSound) : s.soilWindows.BellsSound :=
  AllSlots.map _ h fun _ hr => hr.of_same rfl rfl rfl rfl rfl (by simp) hr.counters hr.bucket

theorem supplyFalls {s : State} (h : s.BellsSound) : s.supplyFalls.BellsSound := by
  unfold State.supplyFalls
  split
  · have fallen : State.BellsSound { s with supply := .dip s.now } := h.congr rfl
    exact State.BellsSound.congr fallen.soilWindows (by simp)
  all_goals exact h.congr rfl

/-- What a command does where its condition holds keeps the bells sound. -/
theorem effectOf {s : State} (h : s.BellsSound) (i : Instr) : (effectOf i s).BellsSound := by
  cases i
  case powerOnReset pins => exact State.BellsSound.powerOn s pins
  case resetLineFall => exact (h.warm .line).congr rfl
  case resetLineRise pins => exact h.start pins
  case warmResetCommand pins => exact State.BellsSound.start (h.warm .command) pins
  case lineExecute => exact h.executeLine
  case dispatch => exact State.BellsSound.edits h.dispatchHead (.settle _)
  case coilRelease b => exact State.BellsSound.edits (h.releaseCoil b) (.settle _)
  case coilWaitDeadline p => exact State.BellsSound.edits (h.dropAtDeadline p) (.settle _)
  case senseActiveEdge b => exact h.activeEdge b
  case senseReleaseEdge b => exact h.releaseEdge b
  case windowEnd b => exact h.endWindow b
  case stuckTimeout b => exact h.moveBell b (h.bell b).afterStuck
  case expired id => exact h.expire id
  case tuneTake => exact h.takeFirstTune
  case expandRecord => exact h.edits (.trans (.expandTune s) (.settle _))
  case expandStroke => exact h.edits (.trans (.expandToll s) (.settle _))
  case cutOrder id => exact h.cutOrder id
  case cueLineChange c => exact h.changeCueLine c
  case cueDebounceExpire c => exact State.BellsSound.edits (h.congr (by simp)) (.settleCues 4 (s.acceptChange c))
  case supgoodFall =>
    have seen : (s.setSupgood false).BellsSound := h.congr (by simp)
    simp only [Machine.effectOf]
    split
    · exact seen
    · exact seen.supplyFalls
  case supgoodRise =>
    simp only [Machine.effectOf]
    split <;> exact h.congr (by simp)
  case supplyLost => exact h.loseSupply
  case lineReceived | transmitLine | tollTake | secondBoundary | slewTick | wallClockRangeEnd | secpulseEdge
    | pulseLoss | supplyGood | saveComplete | saveTimeout | characterReceived =>
    exact h.congr (by simp [Machine.effectOf])
  all_goals exact h.runRequest _

end State.BellsSound

/-- Settles O8: every command's effect keeps the bells sound, and nothing else in a step touches them. -/
theorem bellsStaySound : Obligations.BellsStaySound := by
  unfold Obligations.BellsStaySound
  intro s t h hstep
  refine step_keeps (P := State.BellsSound) hstep h ?_ ?_ ?_ ?_
  · exact fun i s t hs he => exec_keeps he hs fun _ => hs.effectOf i
  · exact fun s hs => hs.congr (by simp)
  · exact fun s cs hs => hs.congr rfl
  · exact fun s hs => hs.congr rfl

end Sys2Proof.Machine
end

section
/-! SUPPORT. The straps are latched where a reset ends, and no other command touches them (R3, R184). -/

namespace Sys2Proof.Machine

/-- Two states hold the same latched straps. -/
def State.SameStraps (s t : State) : Prop :=
  t.bellCount = s.bellCount ∧ t.coilBudget = s.coilBudget ∧ t.lineRate = s.lineRate

/-- No request touches the latched straps. -/
theorem runRequest_sameStraps (i : Instr) (s : State) : s.SameStraps (runRequest i s) := by
  cases i <;> simp [State.SameStraps, runRequest]

theorem State.executeLine_sameStraps (s : State) : s.SameStraps s.executeLine := by
  unfold State.executeLine
  split
  · exact ⟨rfl, rfl, rfl⟩
  · unfold State.runLine
    split
    · exact runRequest_sameStraps _ _
    all_goals simp [State.SameStraps]

/-- Of all commands the three that end a reset alone can touch the latched straps. -/
theorem effectOf_sameStraps (i : Instr) (s : State) :
    s.SameStraps (effectOf i s) ∨ ∃ pins, i ∈ [.powerOnReset pins, .resetLineRise pins, .warmResetCommand pins] := by
  cases i
  case powerOnReset pins | resetLineRise pins | warmResetCommand pins => exact .inr ⟨pins, by simp⟩
  case lineExecute => exact .inl s.executeLine_sameStraps
  case senseActiveEdge | senseReleaseEdge | windowEnd | cueLineChange | supgoodFall | supgoodRise =>
    left
    simp only [effectOf, State.activeEdge, State.releaseEdge, State.endWindow, State.changeCueLine]
    split <;> simp [State.SameStraps]
  case resetLineFall | lineReceived | transmitLine | dispatch | coilRelease | coilWaitDeadline | stuckTimeout | expired
    | tuneTake | expandRecord | tollTake | expandStroke | cutOrder | secondBoundary | slewTick | wallClockRangeEnd
    | secpulseEdge | pulseLoss | cueDebounceExpire | supplyLost | supplyGood | saveComplete | saveTimeout
    | characterReceived =>
    exact .inl (by simp [State.SameStraps, effectOf])
  all_goals exact .inl (runRequest_sameStraps _ s)

/-- R3: the straps select one of eight bell counts. -/
theorem bellCountOf_eq (code : BitVec 3) : bellCountOf code = [23, 27, 32, 37, 42, 47, 53, 64].getD code.toNat 0 := by
  revert code
  decide

theorem bellCountOf_le (code : BitVec 3) : bellCountOf code ≤ 64 := by
  revert code
  decide

/-- R3: the straps select one of four coil budgets. -/
theorem coilBudgetOf_eq (code : BitVec 2) : coilBudgetOf code = [2, 3, 4, 6].getD code.toNat 0 := by
  revert code
  decide

/-- R184: the straps select one of four line rates. -/
theorem lineRateOf_eq (code : BitVec 2) : lineRateOf code = [9600, 19200, 38400, 115200].getD code.toNat 0 := by
  revert code
  decide

/-- Each command that ends a reset, where its condition holds, ends it with the start of the blocks. -/
theorem reset_ends_with_start {pins : Pins} {s t : State}
    (h : exec (.powerOnReset pins) s = .next t ∨ (s.held = true ∧ exec (.resetLineRise pins) s = .next t) ∨
      (s.warmResetDue = true ∧ exec (.warmResetCommand pins) s = .next t)) : ∃ u : State, t = u.start pins := by
  have taken : ∀ i, conditionOf i s = true → exec i s = .next t → t = effectOf i s := by
    intro i hc he
    rw [exec_event, event_taken hc] at he
    exact (Host.Outcome.next.inj he).symm
  obtain h | ⟨held, h⟩ | ⟨due, h⟩ := h
  · exact ⟨_, taken (.powerOnReset pins) rfl h⟩
  · exact ⟨_, taken (.resetLineRise pins) held h⟩
  · exact ⟨_, taken (.warmResetCommand pins) due h⟩

theorem exec_bellCount_le {i : Instr} {s t : State} (hs : s.bellCount ≤ 64) (h : exec i s = .next t) :
    t.bellCount ≤ 64 := by
  refine exec_keeps (P := fun s => s.bellCount ≤ 64) h hs fun _ => ?_
  obtain ⟨same, -, -⟩ | ⟨pins, hi⟩ := effectOf_sameStraps i s
  · exact same ▸ hs
  · simp only [List.mem_cons, List.not_mem_nil, or_false] at hi
    obtain rfl | rfl | rfl := hi
    all_goals simpa [effectOf, State.powerOn] using bellCountOf_le pins.nsel

/-- Settles O4: only the start of the blocks that ends a reset latches the straps. -/
theorem strapsLatchedAtResets : Obligations.StrapsLatchedAtResets := by
  unfold Obligations.StrapsLatchedAtResets
  refine ⟨fun i s t h => ?_, fun i s t => exec_bellCount_le, fun pins s t h => ?_⟩
  · obtain ⟨-, rfl⟩ | ⟨-, rfl⟩ := exec_inv h
    · exact effectOf_sameStraps i s
    · exact .inl ⟨rfl, rfl, rfl⟩
  · obtain ⟨u, rfl⟩ := reset_ends_with_start h
    simp [bellCountOf_eq, coilBudgetOf_eq, lineRateOf_eq]

end Sys2Proof.Machine
end

section
/-! SUPPORT. The requests that begin with a number: what each refuses, and the requests of the bell table that show and
clear counters and move the health (R2, R18, R20 to R22). -/

namespace Sys2Proof.Machine

/-- A request that the line can execute answers what its meaning gives. -/
theorem exec_request_eq {i : Instr} {p : Text × List Text} (h : i.fields = some p) {s t : State}
    (can : s.canExecute = true) (e : runRequest i s = t) : exec i s = .next t := e ▸ exec_request_taken h can

/-- R2: the bell a request addresses is a number within 1..N. -/
theorem State.readBell_eq_some_iff {s : State} {f : Text} {b : Nat} :
    s.readBell f = some b ↔ readNat f = some b ∧ 1 ≤ b ∧ b ≤ s.bellCount := bind_within_eq_some_iff

theorem State.readBellAlone_nil (s : State) (f : Text) : s.readBellAlone f [] = s.readBell f := rfl

theorem State.readBellAlone_eq_none {s : State} {f : Text} (h : s.readBell f = none) (more : List Text) :
    s.readBellAlone f more = none := by
  cases more
  · exact h
  · rfl

/-! ## Numbers outside their range -/

section Refused

variable {s : State} {tag f : Text} {more : List Text}

/-- The commands are requests, and each refuses its fields. -/
def Refuses (s : State) (tag : Text) (is : List Instr) : Prop :=
  ∀ i ∈ is, i.fields.isSome = true ∧ runRequest i s = s.err tag .arg

theorem Refuses.exec {is : List Instr} (h : Refuses s tag is) (can : s.canExecute = true) :
    ∀ i ∈ is, exec i s = .next (s.err tag .arg) := by
  intro i hi
  obtain ⟨isRequest, refused⟩ := h i hi
  obtain ⟨p, hp⟩ := Option.isSome_iff_exists.mp isRequest
  exact exec_request_eq hp can refused

theorem liveRequest_refuses (o : Origin) (h : s.readBell f = none) :
    liveRequest o tag (f :: more) s = s.err tag .arg := by
  unfold liveRequest
  split
  · rename_i e
    cases e
    simp [h]
  · rfl

theorem bellNumber_refused (h : s.readBell f = none) :
    Refuses s tag [Instr.bell tag (f :: more), .bellDisable tag f more, .bellEnable tag f more, .bellClear tag f more,
      .bellRead tag (f :: more), .countRead tag (f :: more), .countClear tag f more, .strike tag (f :: more),
      .test tag (f :: more)] := by
  have alone := State.readBellAlone_eq_none h more
  simp [Refuses, Instr.fields, runRequest, bellRequest, bellDisableRequest, bellEnableRequest, bellClearRequest,
    bellReadRequest, countReadRequest, countClearRequest, strikeRequest, testRequest, liveRequest_refuses, h, alone]

/-- R127: TOLL reads its bell after its rule. -/
theorem tollRequest_refuses {fields options : List Text} {rule : CountRule} (h : s.readBell f = none)
    (hrule : readRule 15 fields = some (rule, f :: options)) : tollRequest tag fields s = s.err tag .arg := by
  have bell : readWithin15 1 s.bellCount f = none := by
    rw [Option.eq_none_iff_forall_ne_some] at h ⊢
    intro b hb
    obtain ⟨number, range⟩ := bind_within_eq_some_iff.mp hb
    exact h b (State.readBell_eq_some_iff.mpr ⟨(Option.ite_none_right_eq_some.mp number).2, range⟩)
  simp [tollRequest, State.readToll, hrule, bell]

/-- A number that is 0 or beyond the range is read by none of the readers of numbers. -/
theorem readWithin_eq_none {most : Nat} (h : ∀ n, readNat f = some n → n = 0 ∨ most < n) :
    readWithin 1 most f = none ∧ readWithin6 1 most f = none ∧ readWithin15 1 most f = none := by
  have outside : ∀ o : Option Nat, (∀ n, o = some n → readNat f = some n) → o.bind (within 1 most) = none := by
    intro o ho
    rw [Option.eq_none_iff_forall_ne_some]
    intro n hn
    obtain ⟨number, low, high⟩ := bind_within_eq_some_iff.mp hn
    have := h n (ho n number)
    omega
  have short : ∀ k n, readNum k f = some n → readNat f = some n :=
    fun _ _ hn => (Option.ite_none_right_eq_some.mp hn).2
  exact ⟨outside _ fun _ => id, outside _ (short 6), outside _ (short 15)⟩

theorem melodyNumber_refused (h : ∀ n, readNat f = some n → n = 0 ∨ 64 < n) :
    Refuses s tag [Instr.melOpen tag f more, .melAdd tag f more, .melClose tag f more, .melDelete tag f more,
      .melRead tag (f :: more), .play tag (f :: more)] := by
  obtain ⟨plain, -, fifteen⟩ := readWithin_eq_none h
  have read : melReadRequest tag (f :: more) s = s.err tag .arg := by
    cases more <;> simp [melReadRequest, readMelody, plain]
  simp [Refuses, Instr.fields, runRequest, melOpenRequest, melAddRequest, melCloseRequest, melDeleteRequest, read,
    playRequest, readMelody, plain, fifteen]

theorem entryNumber_refused (h : ∀ n, readNat f = some n → n = 0 ∨ 48 < n) :
    Refuses s tag [Instr.entry tag (f :: more), .entryClear tag f more, .entryRead tag (f :: more)] := by
  obtain ⟨plain, six, -⟩ := readWithin_eq_none h
  have read : entryReadRequest tag (f :: more) s = s.err tag .arg := by
    unfold entryReadRequest
    split
    · rename_i e
      cases e
      simp [readEntryNumber, plain]
    · rfl
  simp [Refuses, Instr.fields, runRequest, read, entryClearRequest, readEntryNumber, plain,
    entryRequest_refuses (.inl six)]

theorem ruleNumber_refused (h : ∀ n, readNat f = some n → n = 0 ∨ 8 < n) :
    Refuses s tag [Instr.quiet tag (f :: more), .quietClear tag f more, .quietRead tag (f :: more)] := by
  obtain ⟨plain, -, -⟩ := readWithin_eq_none h
  have read : quietReadRequest tag (f :: more) s = s.err tag .arg := by
    cases more <;> simp [quietReadRequest, readRuleNumber, plain]
  simp [Refuses, Instr.fields, runRequest, read, quietRequest, quietClearRequest, readRuleNumber, plain]

theorem cueNumber_refused (h : ∀ n, readNat f = some n → n = 0 ∨ 4 < n) :
    Refuses s tag [Instr.cue tag (f :: more), .cueEnable tag f more, .cueDisable tag f more, .cueClear tag f more,
      .cueRead tag (f :: more)] := by
  obtain ⟨plain, six, -⟩ := readWithin_eq_none h
  have alone : readCueAlone f more = none := by cases more <;> simp [readCueAlone, readCue, plain]
  have read : cueReadRequest tag (f :: more) s = s.err tag .arg := by
    cases more <;> simp [cueReadRequest, readCue, plain]
  simp [Refuses, Instr.fields, runRequest, read, alone, cueRequest, cueEnableRequest, cueDisableRequest,
    cueClearRequest, six]

end Refused

/-- Settles O25: the range of each reader of numbers, and the refusal of each request that begins with one. -/
theorem numbersChecked : Obligations.NumbersChecked := by
  unfold Obligations.NumbersChecked
  refine ⟨fun _ _ _ => State.readBell_eq_some_iff, fun _ _ _ _ can h => (bellNumber_refused h).exec can,
    fun _ _ _ _ _ _ can h hrule => exec_request_eq rfl can (tollRequest_refuses h hrule), ?_⟩
  rintro s tag f more most can h
  refine ⟨?_, ?_, ?_, ?_⟩ <;> rintro rfl
  · exact (melodyNumber_refused h).exec can
  · exact (entryNumber_refused h).exec can
  · exact (ruleNumber_refused h).exec can
  · exact (cueNumber_refused h).exec can

/-! ## The counters (R18) -/

/-- Settles O26: the reply shows the counters as they stood, and CLEAR then writes the record without them. -/
theorem countShowsAndClears : Obligations.CountShowsAndClears := by
  unfold Obligations.CountShowsAndClears
  intro s tag f b can hb
  refine ⟨exec_request_eq rfl can ?_, exec_request_eq rfl can ?_, fun g more =>
    ⟨exec_request_eq rfl can rfl, exec_request_eq rfl can rfl⟩⟩
  · simp only [runRequest, countReadRequest, State.readBellAlone_nil, hb]
    rfl
  · simp only [runRequest, countClearRequest, State.readBellAlone_nil, hb]
    rfl

/-! ## The health (R20 to R22) -/

/-- A HEALTH report is posted where the health is no longer what it was. -/
theorem State.reportHealth_of_ne {s : State} {b : Nat} {before : Health} (h : (s.bell b).health ≠ before) :
    s.reportHealth b before = s.post .health (.num b :: healthFields (s.bell b).health) := by
  rw [State.reportHealth, if_neg h]

/-- A bell outside the table is not read as anything but GOOD. -/
theorem State.bell_inside_of_health {s : State} {b : Nat} (h : (s.bell b).health ≠ .good) : 1 ≤ b ∧ b ≤ 64 := by
  by_contra out
  refine h ?_
  rw [State.bell, slot_outside _ _ _ (by omega)]
  rfl

/-- R21, R22: the record that ENABLE and CLEAR leave. -/
theorem State.restoreBell_eq {s : State} {b : Nat} (h1 : 1 ≤ b) (h64 : b ≤ 64) (hN : b ≤ s.bellCount) :
    s.restoreBell b = s.setBell b
      { s.bell b with
        disabledFlag := false, health := .good, misses := 0, hits := 0
        stuck := if (s.bell b).cal.fitted = true ∧ s.lineActive b = true then .running s.now else .idle } := by
  have good : (s.modBell b Bell.makeGood).bell b = (s.bell b).makeGood := by
    rw [State.bell_modBell, if_pos ⟨rfl, h1, h64⟩]
  have watched : (s.modBell b Bell.makeGood).watched b = (s.bell b).cal.fitted := by
    rw [State.watched, good]
    simp [h1, hN, Bell.makeGood]
  have active : (s.modBell b Bell.makeGood).lineActive b = s.lineActive b := by
    rw [State.lineActive, good]
    rfl
  unfold State.restoreBell State.restartStuck
  rw [State.modBell_modBell]
  simp only [State.modBell, Bell.makeGood, State.stuckFromNow] at watched active ⊢
  simp only [watched, active, Bool.and_eq_true]
  rfl

/-- R21, R22: the reply of a restored bell, and the report of the health it has moved to. -/
theorem State.restoreBell_reported {s : State} {b : Nat} (tag : Text) {before : Health} (hb : before ≠ .good)
    (h1 : 1 ≤ b) (h64 : b ≤ 64) :
    ((s.restoreBell b).okBell tag b).reportHealth b before =
      ((s.restoreBell b).okBell tag b).post .health [.num b, .word .GOOD] := by
  have good : (((s.restoreBell b).okBell tag b).bell b).health = .good := by
    have same : ((s.restoreBell b).okBell tag b).bell b = (s.restoreBell b).bell b := State.bell_congr (by simp) b
    rw [same, State.restoreBell, State.restartStuck, State.modBell_modBell, State.bell_modBell,
      if_pos ⟨rfl, h1, h64⟩]
    rfl
  rw [State.reportHealth_of_ne (by rw [good]; exact hb.symm), good]
  rfl

/-- R20: the reply of a disabled bell, and the report of the health it has moved to. -/
theorem State.disable_reported {s : State} {b : Nat} (tag : Text) (h : (s.bell b).health ≠ .disabled) (h1 : 1 ≤ b)
    (h64 : b ≤ 64) :
    ((s.modBell b Bell.disable).okBell tag b).reportHealth b (s.bell b).health =
      ((s.modBell b Bell.disable).okBell tag b).post .health [.num b, .word .DISABLED] := by
  have disabled : (((s.modBell b Bell.disable).okBell tag b).bell b).health = .disabled := by
    have same : ((s.modBell b Bell.disable).okBell tag b).bell b = (s.modBell b Bell.disable).bell b :=
      State.bell_congr (by simp) b
    rw [same, State.bell_modBell, if_pos ⟨rfl, h1, h64⟩]
    rfl
  rw [State.reportHealth_of_ne (by rw [disabled]; exact h.symm), disabled]
  rfl

section Health

variable {s : State} {tag f : Text} {b : Nat}

theorem bellDisableRequest_eq (hb : s.readBell f = some b) :
    bellDisableRequest tag f [] s =
      if (s.bell b).health = .disabled then s.okBell tag b
      else ((s.modBell b Bell.disable).okBell tag b).reportHealth b (s.bell b).health := by
  simp only [bellDisableRequest, State.readBellAlone_nil, hb]

theorem bellEnableRequest_disabled (hb : s.readBell f = some b) (h : (s.bell b).health = .disabled) :
    bellEnableRequest tag f [] s = ((s.restoreBell b).okBell tag b).reportHealth b .disabled := by
  simp only [bellEnableRequest, State.readBellAlone_nil, hb, h]

theorem bellEnableRequest_other (hb : s.readBell f = some b) (h : (s.bell b).health ≠ .disabled) :
    bellEnableRequest tag f [] s = s.okBell tag b := by
  simp only [bellEnableRequest, State.readBellAlone_nil, hb]

theorem bellClearRequest_faulty (hb : s.readBell f = some b)
    (h : (s.bell b).health = .suspect ∨ ∃ cause, (s.bell b).health = .faulted cause) :
    bellClearRequest tag f [] s = ((s.restoreBell b).okBell tag b).reportHealth b (s.bell b).health := by
  obtain h | ⟨cause, h⟩ := h <;> simp only [bellClearRequest, State.readBellAlone_nil, hb, h]

theorem bellClearRequest_other (hb : s.readBell f = some b)
    (h : (s.bell b).health = .good ∨ (s.bell b).health = .disabled) :
    bellClearRequest tag f [] s = s.okBell tag b := by
  obtain h | h := h <;> simp only [bellClearRequest, State.readBellAlone_nil, hb, h]

end Health

/-- Settles O27: each request by the health it finds, and what it writes by the lemmas on the restored and the disabled
record. -/
theorem bellHealthRequests : Obligations.BellHealthRequests := by
  unfold Obligations.BellHealthRequests
  refine ⟨fun s tag f b hN can hb => ?_, fun s tag f b can hb => ?_⟩
  · obtain ⟨-, h1, hb64⟩ := State.readBell_eq_some_iff.mp hb
    refine ⟨fun h => exec_request_eq rfl can ?_, fun h => exec_request_eq rfl can ?_,
      fun g more => exec_request_eq rfl can rfl⟩
    · rw [runRequest, bellDisableRequest_eq hb, if_neg h, State.disable_reported tag h h1 (by omega)]
      rfl
    · rw [runRequest, bellDisableRequest_eq hb, if_pos h]
  · obtain ⟨-, -, hbN⟩ := State.readBell_eq_some_iff.mp hb
    have restored : (s.bell b).health ≠ .good →
        ((s.restoreBell b).okBell tag b).reportHealth b (s.bell b).health = ((s.setBell b
          { s.bell b with
            disabledFlag := false, health := .good, misses := 0, hits := 0
            stuck := if (s.bell b).cal.fitted = true ∧ s.lineActive b = true then .running s.now
              else .idle }).okBell tag b).post .health [.num b, .word .GOOD] := by
      intro h
      obtain ⟨h1, h64⟩ := State.bell_inside_of_health h
      rw [State.restoreBell_reported tag h h1 h64, State.restoreBell_eq h1 h64 hbN]
    refine ⟨fun h => exec_request_eq rfl can ?_, fun h => exec_request_eq rfl can (bellEnableRequest_other hb h),
      fun h => exec_request_eq rfl can ?_, fun h => exec_request_eq rfl can (bellClearRequest_other hb h),
      fun g more => ⟨exec_request_eq rfl can rfl, exec_request_eq rfl can rfl⟩⟩
    · rw [runRequest, bellEnableRequest_disabled hb h, ← h]
      exact restored (by simp [h])
    · rw [runRequest, bellClearRequest_faulty hb h]
      exact restored (by obtain h | ⟨cause, h⟩ := h <;> simp [h])

end Sys2Proof.Machine
end

section
/-! SUPPORT. What a drop, a slip and a firing write: the record of the bell, the coils, and the summary of the play that
made the entry (R51, R56, R58). -/

namespace Sys2Proof.Machine

section Tally

variable {s : State} {o : Origin} {f : Summary → Summary}

/-- R58: an entry of the TUNE lane is counted in the summary of the tune. -/
theorem State.tally_tune (h : o = .tune) :
    s.tally o f = { s with tune := s.tune.map fun l => { l with summary := f l.summary } } := by
  subst h
  rfl

/-- R58: an entry of the TOLL lane is counted in the summary of the toll. -/
theorem State.tally_toll (h : o = .toll) :
    s.tally o f = { s with toll := s.toll.map fun l => { l with summary := f l.summary } } := by
  subst h
  rfl

/-- R58: a live strike belongs to no play. -/
theorem State.tally_live (h : o = .strike ∨ o = .test) : s.tally o f = s := by
  obtain rfl | rfl := h <;> rfl

end Tally

theorem State.countSlip_of_slipped {s : State} {e : Entry} (h : e.slipped = true) : s.countSlip e = s := by
  rw [State.countSlip, if_pos h]

theorem State.countSlip_of_not_slipped {s : State} {e : Entry} (h : e.slipped = false) :
    s.countSlip e =
      (s.modBell e.bell fun r => { r with counters := { r.counters with slip := bump16 r.counters.slip } }).tally
        e.origin fun m => { m with slipped := m.slipped + 1 } := by
  rw [State.countSlip, if_neg (by simp [h])]

/-- R36: a refill moves no pulse width. -/
theorem State.refill_pulse (s : State) (b level : Nat) :
    ((s.refill b).bell b).pulse level = (s.bell b).pulse level := by
  rw [State.refill, State.bell_modBell]
  split <;> rfl

/-- R51: a firing as one write of the bell record, one coil and one count: refilled to now, the record pays its cost. -/
theorem State.fire_eq (s : State) (e : Entry) (level : Nat) :
    s.fire e level =
      State.tally
        { s.modBell e.bell fun r => Bell.fired { r with bucket := r.refilled s.now, stamp := s.now } e s.now level with
          coils := s.coils ++ [⟨e.bell, s.now + (s.bell e.bell).pulse level, e.origin⟩] }
        e.origin fun m =>
          { m with fired := m.fired + 1, throttled := if level < e.level then m.throttled + 1 else m.throttled } := by
  have coil : (s.refill e.bell).now + ((s.refill e.bell).bell e.bell).pulse level =
      s.now + (s.bell e.bell).pulse level := by
    rw [s.refill_pulse]
    rfl
  have record : (s.refill e.bell).modBell e.bell (fun r => r.fired e (s.refill e.bell).now level) =
      s.modBell e.bell fun r => Bell.fired { r with bucket := r.refilled s.now, stamp := s.now } e s.now level :=
    s.modBell_modBell ..
  unfold State.fire
  simp only [coil, record]
  rfl

/-- Settles O34: a drop and a slip are one write of the record and one count, a firing by `State.fire_eq`, and where the
count goes is said by the lemmas on `State.tally`. -/
theorem firingsDropsSlipsRecorded : Obligations.FiringsDropsSlipsRecorded := by
  unfold Obligations.FiringsDropsSlipsRecorded
  refine ⟨⟨fun m => ⟨rfl, rfl, rfl, rfl, rfl, rfl⟩, fun s e => ⟨fun reason => ?_, State.countSlip_of_slipped, ?_⟩⟩, ?_⟩
  · exact ⟨State.tally_live, State.tally_tune, State.tally_toll⟩
  · intro first
    rw [State.countSlip_of_not_slipped first]
    exact ⟨State.tally_live, State.tally_tune, State.tally_toll⟩
  · intro s e level
    rw [State.fire_eq]
    obtain ⟨fire, orig, onset, bell, top, origin, slip, serial, slipped⟩ := e
    cases origin with
    | tune => exact State.tally_tune rfl
    | toll => exact State.tally_toll rfl
    | strike => exact State.tally_live (.inl rfl)
    | test => exact State.tally_live (.inr rfl)

end Sys2Proof.Machine
end

section
/-! SUPPORT. The end of a reset written out (R78, R79, R176, R183, R195, R196), and the power-on reset that finds no
good image. -/

namespace Sys2Proof.Machine

/-! ## The end of a reset -/

/-- R78, R79: the stuck timer of bell record `r`, whose line stands at `level`, where `n` bells are fitted. -/
def Bell.timedAt (r : Bell) (now n b : Nat) (level : Bool) : StuckTimer :=
  if b ≤ n ∧ r.cal.fitted = true ∧ r.health ≠ .disabled ∧ level = (r.cal.polarity == .rise) then .running now else .idle

/-- R75: the timer begun now is that of the record, at the bell count latched and the level of the line. -/
theorem State.stuckFromNow_eq (s : State) {b : Nat} (h1 : 1 ≤ b) :
    s.stuckFromNow b = (s.bell b).timedAt s.now s.bellCount b (s.senseLevel b) := by
  unfold State.stuckFromNow Bell.timedAt State.watched State.lineActive
  simp only [h1, decide_true, Bool.true_and, Bool.and_eq_true, decide_eq_true_eq, bne_iff_ne, ne_eq, beq_iff_eq,
    and_assoc]

theorem slot_succ {α : Type} {n : Nat} (v : Table α n) (i : Fin n) (d : α) : slot v (i.val + 1) d = v[i] := by
  rw [slot_inside v _ d (by omega) (by omega)]
  rfl

/-- R195, R196: all that the start of the blocks at the end of a reset writes. -/
theorem State.start_eq (s : State) (pins : Pins) :
    s.start pins =
      { s with
        held := false, pins := pins
        bellCount := bellCountOf pins.nsel, coilBudget := coilBudgetOf pins.csel, lineRate := lineRateOf pins.rate
        bells := Vector.ofFn fun i : Fin 64 =>
          { s.bells[i] with
            stuck := s.bells[i].timedAt s.now (bellCountOf pins.nsel) (i.val + 1) pins.sense[i] }
        cues := Vector.ofFn fun i : Fin 4 => { s.cues[i] with settled := pins.cue[i], timer := none }
        supply := if pins.supgood then .recovering s.now else .dip s.now
        time := { s.time with crossed := s.wallSecond }
        serial := s.serial.post .start
          [causeWord s.cause, storeWord s.store, syncWord s.time.sync, .word .N, .num (bellCountOf pins.nsel),
            .word .C, .num (coilBudgetOf pins.csel)] } := by
  have latched : ∀ i : Fin 64, ({ s with held := false }.latchStraps pins).stuckFromNow (i.val + 1) =
      s.bells[i].timedAt s.now (bellCountOf pins.nsel) (i.val + 1) pins.sense[i] := by
    intro i
    rw [State.stuckFromNow_eq _ (by omega), State.bell, State.senseLevel, slot_succ, slot_succ]
    rfl
  unfold State.start State.sampleLines
  simp only [latched]
  rfl

/-! ## Without a good image (R194) -/

/-- R194: an image that no sum marks as good loads nothing. -/
theorem State.load_of_not_good {s : State} (h : ∀ contents, s.image ≠ .written contents (imageSum contents)) :
    s.load = { s with store := if s.image = .unwritten then .empty else .bad } := by
  unfold State.load
  split
  · rename_i e
    simp [e]
  · rename_i e
    simp [e]
  · rename_i contents sum e
    rw [if_neg fun same => h contents (by rw [e, same])]
    simp [e]

/-- R78: a bell at its defaults is timed where its line is low. -/
theorem timedAt_powerOn (n b : Nat) (level : Bool) :
    (Bell.powerOn Calibration.default false).timedAt 0 n b level =
      if b ≤ n ∧ level = false then .running 0 else .idle := by
  have fall : (Polarity.fall == Polarity.rise) = false := rfl
  simp [Bell.timedAt, Bell.powerOn, Calibration.default, fall]

/-- The wall second of a clock that stands at its power-on values. -/
theorem State.wallSecond_zero {s : State} (now : s.time.now = 0) (offset : s.time.offset = 0) : s.wallSecond = 0 := by
  simp [State.wallSecond, State.wall, State.now, now, offset]

/-- R194 to R196: the power-on reset that finds no good image. -/
theorem State.powerOn_of_not_good (pins : Pins) {s : State}
    (h : ∀ contents, s.image ≠ .written contents (imageSum contents)) :
    s.powerOn pins =
      { State.blank with
        pending := s.pending, choices := s.choices, image := s.image, pins := pins
        store := if s.image = .unwritten then .empty else .bad
        bellCount := bellCountOf pins.nsel, coilBudget := coilBudgetOf pins.csel, lineRate := lineRateOf pins.rate
        bells := Vector.ofFn fun i : Fin 64 =>
          { Bell.powerOn Calibration.default false with
            stuck := if i.val < bellCountOf pins.nsel ∧ pins.sense[i] = false then .running 0 else .idle }
        cues := Vector.ofFn fun i : Fin 4 => { settled := pins.cue[i] }
        supply := if pins.supgood then .recovering 0 else .dip 0
        serial :=
          { made := 1
            reports := [⟨0, .report .start
              [.word .POWER, .word (if s.image = .unwritten then .EMPTY else .BAD), .word .FREE, .word .N,
                .num (bellCountOf pins.nsel), .word .C, .num (coilBudgetOf pins.csel)]⟩] } } := by
  have bell : ∀ i : Fin 64, State.blank.bells[i] = Bell.powerOn Calibration.default false :=
    fun i => Vector.getElem_replicate i.isLt
  have cue : ∀ i : Fin 4, State.blank.cues[i] = { settled := true } := fun i => Vector.getElem_replicate i.isLt
  have word : storeWord (if s.image = .unwritten then .empty else .bad) =
      .word (if s.image = .unwritten then .EMPTY else .BAD) := by split <;> rfl
  have now : State.blank.now = 0 := rfl
  have loaded := State.load_of_not_good
    (s := { State.blank with pending := s.pending, choices := s.choices, image := s.image }) h
  refine (congrArg (State.start · pins) loaded).trans ?_
  rw [State.start_eq, State.wallSecond_zero rfl rfl]
  simp only [State.now, word, bell, cue] at now ⊢
  simp only [now, timedAt_powerOn, Nat.add_one_le_iff]
  rfl

/-! ## The state right after reset -/

theorem exec_powerOnReset_resting : exec (.powerOnReset Pins.resting) State.blank = .next State.reset := by
  have e : exec (.powerOnReset Pins.resting) State.blank = .next (State.blank.powerOn Pins.resting) := rfl
  have bells : (Vector.ofFn fun i : Fin 64 =>
      { Bell.powerOn Calibration.default false with
        stuck :=
          if i.val < bellCountOf Pins.resting.nsel ∧ Pins.resting.sense[i] = false then .running 0 else .idle }) =
      State.blank.bells := by
    refine Vector.ext fun i hi => ?_
    simp [State.blank, Pins.resting, Bell.powerOn]
  have cues : (Vector.ofFn fun i : Fin 4 => ({ settled := Pins.resting.cue[i] } : Cue)) = State.blank.cues := by
    refine Vector.ext fun i hi => ?_
    simp [State.blank, Pins.resting]
  rw [e, State.powerOn_of_not_good _ (s := State.blank) fun _ h => nomatch h, bells, cues]
  rfl

theorem State.melody_reset (m : Nat) : State.reset.melody m = {} := by
  refine (slot_replicate 64 _ _ m).trans ?_
  split <;> rfl

theorem State.PlaysSound.reset : State.reset.PlaysSound where
  room := by decide
  order := .nil
  unmerged := .nil
  distinct := .nil
  ids := nofun
  last := by decide

theorem State.LanesSound.reset : State.reset.LanesSound where
  apart := fun _ h => nomatch h
  held := fun m h => by
    rw [State.melody_reset] at h
    cases h
  holds := fun _ h => nomatch h

theorem State.LanesSettled.reset : State.reset.LanesSettled where
  lag := by decide
  tuneDrains := fun _ h => nomatch h
  tollDrains := fun _ h => nomatch h

theorem Serial.Sound.reset : State.reset.serial.Sound where
  buffer := by decide
  input := by decide
  refusals := by decide
  reports := by decide
  discards := by decide
  executedMade := fun _ h => nomatch h
  refusalsMade := ⟨.nil, nofun⟩
  reportsMade := ⟨List.pairwise_singleton .., by decide⟩

theorem Timebase.Sound.reset : State.reset.time.Sound where
  free := by decide
  pending := by decide
  qualified := by decide
  locked := fun h => nomatch h
  holdover := fun h => nomatch h
  past := fun _ h => nomatch h
  unset := fun _ => rfl

/-- Settles O5: the start of the blocks written out over the blank state, and each invariant of the state it leaves. -/
theorem powerOnResetValues : Obligations.PowerOnResetValues := by
  unfold Obligations.PowerOnResetValues
  refine ⟨⟨exec_powerOnReset_resting, .reset, .empty rfl rfl rfl, nofun, .reset, .reset, .reset, .reset, .none rfl rfl,
    .reset⟩, fun pins s h => ?_⟩
  exact congrArg _ (State.powerOn_of_not_good pins h)

end Sys2Proof.Machine
end

section
/-! SUPPORT. The settings of a BELL line: how they are read (R6), what each writes into the record (R5 to R10, R75), and
what a line of them writes, one after another. -/

namespace Sys2Proof.Machine

/-! ## Reading the settings (R6) -/

theorem Spells.nil_iff {α : Type} {form : List Text → α → Prop} (hne : ∀ {piece x}, form piece x → piece ≠ [])
    {values : List α} : Spells form [] values ↔ values = [] := by
  constructor
  · rintro ⟨pieces, e, forms⟩
    cases forms with
    | nil => rfl
    | cons one _ => exact absurd (List.append_eq_nil_iff.mp e.symm).1 (hne one)
  · rintro rfl
    exact ⟨[], rfl, .nil⟩

/-- A line that begins with a word falls into a first piece and the pieces after it. -/
theorem Spells.cons_iff {α : Type} {form : List Text → α → Prop} {w : Text} {ws : List Text} {values : List α} :
    Spells form (w :: ws) values ↔
      ∃ piece x rest more, w :: ws = piece ++ rest ∧ form piece x ∧ Spells form rest more ∧ values = x :: more := by
  constructor
  · rintro ⟨pieces, e, forms⟩
    cases forms with
    | nil => cases e
    | @cons piece x pieces values one forms =>
      exact ⟨piece, x, pieces.flatten, values, e, one, ⟨pieces, rfl, forms⟩, rfl⟩
  · rintro ⟨piece, x, _, more, e, one, ⟨pieces, rfl, forms⟩, rfl⟩
    exact ⟨piece :: pieces, e, .cons one forms⟩

theorem SettingForm.ne_nil {piece : List Text} {x : Setting} (h : SettingForm piece x) : piece ≠ [] := by
  cases x with
  | pulse | flight =>
    obtain ⟨l, v, rfl, -⟩ := h
    exact nofun
  | rearm | heat | duty =>
    obtain ⟨v, rfl, -⟩ := h
    exact nofun
  | sense | pol | learn | default =>
    obtain rfl := h
    exact nofun

theorem readFitted_eq_some_iff {t : Text} {b : Bool} :
    readFitted t = some b ↔ t = if b then Kw.FITTED.text else Kw.ABSENT.text := by
  constructor
  · intro h
    unfold readFitted at h
    split at h
    case h_3 => cases h
    all_goals
      rename_i hk
      obtain rfl := Option.some.inj h
      exact readKw_eq_some_iff.mp hk
  · rintro rfl
    cases b <;> rfl

theorem readPolarity_eq_some_iff {t : Text} {p : Polarity} :
    readPolarity t = some p ↔ t = if p = .rise then Kw.RISE.text else Kw.FALL.text := by
  constructor
  · intro h
    unfold readPolarity at h
    split at h
    case h_3 => cases h
    all_goals
      rename_i hk
      obtain rfl := Option.some.inj h
      exact readKw_eq_some_iff.mp hk
  · rintro rfl
    cases p <;> rfl

theorem readOnOff_eq_some_iff {t : Text} {b : Bool} :
    readOnOff t = some b ↔ t = if b then Kw.ON.text else Kw.OFF.text := by
  constructor
  · intro h
    unfold readOnOff at h
    split at h
    case h_3 => cases h
    all_goals
      rename_i hk
      obtain rfl := Option.some.inj h
      exact readKw_eq_some_iff.mp hk
  · rintro rfl
    cases b <;> rfl

theorem readLevel_eq_some_iff {t : Text} {n : Nat} : readLevel t = some n ↔ DecimalForm t n ∧ 1 ≤ n ∧ n ≤ 7 := by
  rw [readLevel, readWithin, bind_within_eq_some_iff, readNat_eq_some_iff]

/-- A level and a value are read from the front of the fields. -/
theorem readLevelSetting_eq_some_iff {write : Nat → Nat → Setting} {ws rest : List Text} {x : Setting} :
    readLevelSetting write ws = some (x, rest) ↔ ∃ l v level value, ws = l :: v :: rest ∧
      (DecimalForm l level ∧ 1 ≤ level ∧ level ≤ 7) ∧ NumberForm 6 v value ∧ x = write level value := by
  unfold readLevelSetting
  split
  · simp only [Option.pure_def, Option.bind_eq_bind, Option.bind_eq_some_iff, readLevel_eq_some_iff,
      readNum_eq_some_iff, Option.some.injEq, Prod.mk.injEq, List.cons.injEq]
    constructor
    · rintro ⟨level, hl, value, hv, rfl, rfl⟩
      exact ⟨_, _, level, value, ⟨rfl, rfl, rfl⟩, hl, hv, rfl⟩
    · rintro ⟨_, _, level, value, ⟨rfl, rfl, rfl⟩, hl, hv, rfl⟩
      exact ⟨level, hl, value, hv, rfl, rfl⟩
  · rename_i short
    constructor
    · exact nofun
    · rintro ⟨l, v, _, _, rfl, -⟩
      exact absurd rfl (short l v rest)

/-- A keyword and one value are a setting where they stand in its form. -/
theorem readSimpleSetting_form {k : Kw} {v : Text} {x : Setting} (h : readSimpleSetting k v = some x) :
    SettingForm [k.text, v] x := by
  unfold readSimpleSetting at h
  split at h
  case h_7 => cases h
  all_goals
    obtain ⟨value, hv, rfl⟩ := Option.map_eq_some_iff.mp h
  case h_1 | h_2 | h_3 => exact ⟨v, rfl, readNum_eq_some_iff.mp hv⟩
  case h_4 => exact congrArg ([_, ·]) (readFitted_eq_some_iff.mp hv)
  case h_5 => exact congrArg ([_, ·]) (readPolarity_eq_some_iff.mp hv)
  case h_6 => exact congrArg ([_, ·]) (readOnOff_eq_some_iff.mp hv)

/-- R6: a setting is read from the front of the fields as its form gives it. -/
theorem readSetting_eq_some_iff {ws rest : List Text} {x : Setting} :
    readSetting ws = some (x, rest) ↔ ∃ piece, ws = piece ++ rest ∧ SettingForm piece x := by
  constructor
  · intro h
    unfold readSetting at h
    split at h
    case h_1 => cases h
    case h_2 w more =>
    split at h
    case h_1 => cases h
    case h_2 hk =>
      cases h
      exact ⟨[w], rfl, congrArg (· :: []) (readKw_eq_some_iff.mp hk)⟩
    case h_3 hk =>
      obtain rfl := readKw_eq_some_iff.mp hk
      obtain ⟨l, v, level, value, rfl, ⟨hl, h1, h7⟩, hv, rfl⟩ := readLevelSetting_eq_some_iff.mp h
      exact ⟨[_, l, v], rfl, l, v, rfl, hl, h1, h7, hv⟩
    case h_4 hk =>
      obtain rfl := readKw_eq_some_iff.mp hk
      obtain ⟨l, v, level, value, rfl, ⟨hl, h1, h7⟩, hv, rfl⟩ := readLevelSetting_eq_some_iff.mp h
      exact ⟨[_, l, v], rfl, l, v, rfl, hl, h1, h7, hv⟩
    case h_5 k _ _ _ hk =>
      obtain rfl := readKw_eq_some_iff.mp hk
      split at h
      case h_1 => cases h
      case h_2 v _ =>
      obtain ⟨y, hy, e⟩ := Option.map_eq_some_iff.mp h
      cases e
      exact ⟨[k.text, v], rfl, readSimpleSetting_form hy⟩
  · rintro ⟨piece, rfl, form⟩
    cases x with
    | pulse level value | flight level value =>
      obtain ⟨l, v, rfl, hl, h1, h7, hv⟩ := form
      simpa [readSetting] using readLevelSetting_eq_some_iff.mpr ⟨l, v, level, value, rfl, ⟨hl, h1, h7⟩, hv, rfl⟩
    | rearm value | heat value | duty value =>
      obtain ⟨v, rfl, hv⟩ := form
      simp [readSetting, readSimpleSetting, readNum_eq_some_iff.mpr hv]
    | sense b =>
      obtain rfl := form
      simp [readSetting, readSimpleSetting, readFitted_eq_some_iff]
    | pol p =>
      obtain rfl := form
      simp [readSetting, readSimpleSetting, readPolarity_eq_some_iff]
    | learn b =>
      obtain rfl := form
      simp [readSetting, readSimpleSetting, readOnOff_eq_some_iff]
    | default =>
      obtain rfl := form
      simp [readSetting]

theorem readSettingsFrom_eq_some_iff {fuel : Nat} {ws : List Text} {xs : List Setting} (enough : ws.length ≤ fuel) :
    readSettingsFrom fuel ws = some xs ↔ Spells SettingForm ws xs := by
  induction fuel generalizing ws xs with
  | zero =>
    obtain rfl := List.length_eq_zero_iff.mp (Nat.le_zero.mp enough)
    rw [Spells.nil_iff SettingForm.ne_nil]
    simp [readSettingsFrom, eq_comm]
  | succ fuel ih =>
    cases ws with
    | nil =>
      rw [Spells.nil_iff SettingForm.ne_nil]
      simp [readSettingsFrom, eq_comm]
    | cons w ws =>
      have shorter {piece rest : List Text} {x : Setting} (e : w :: ws = piece ++ rest) (form : SettingForm piece x) :
          rest.length ≤ fuel := by
        have := List.length_pos_iff.mpr form.ne_nil
        rw [e, List.length_append] at enough
        omega
      rw [Spells.cons_iff, readSettingsFrom]
      simp only [Option.pure_def, Option.bind_eq_bind, Option.bind_eq_some_iff, Option.some.injEq, Prod.exists,
        readSetting_eq_some_iff]
      constructor
      · rintro ⟨x, rest, ⟨piece, e, form⟩, more, hmore, rfl⟩
        exact ⟨piece, x, rest, more, e, form, (ih (shorter e form)).mp hmore, rfl⟩
      · rintro ⟨piece, x, rest, more, e, form, spelled, rfl⟩
        exact ⟨x, rest, ⟨piece, e, form⟩, more, (ih (shorter e form)).mpr spelled, rfl⟩

/-- R6: a BELL line's settings are read where its fields fall into settings, and there is one. -/
theorem readSettings_eq_some_iff {fields : List Text} {xs : List Setting} :
    readSettings fields = some xs ↔ fields ≠ [] ∧ Spells SettingForm fields xs := by
  rw [readSettings, Option.ite_none_left_eq_some, readSettingsFrom_eq_some_iff le_rfl]
  simp

/-! ## What one setting writes (R5 to R10, R75) -/

/-- One setting, less DEFAULT, as a change of the record: `timed` is what the stuck timer of a record becomes where it
is timed afresh. -/
def Bell.setOne (now : Nat) (timed : Bell → StuckTimer) (r : Bell) : Setting → Bell
  | .pulse level value => { r with cal := { r.cal with pulse := setSlot r.cal.pulse level (clamp 20 400 value) } }
  | .flight level value =>
    { r with
      cal := { r.cal with flight := setSlot r.cal.flight level (clamp 50 2000 value) }
      window := r.window.map (Window.blockedBy level) }
  | .rearm value => { r with cal := { r.cal with rearm := clamp 300 5000 value } }
  | .heat value =>
    { r with
      cal := { r.cal with heat := clamp 200 4000 value }
      bucket := min (r.refilled now) (clamp 200 4000 value * 100), stamp := now }
  | .duty value => { r with cal := { r.cal with duty := clamp 5 50 value }, bucket := r.refilled now, stamp := now }
  | .sense fitted =>
    let q : Bell := { r with cal := { r.cal with fitted := fitted } }
    if r.cal.fitted = fitted then r
    else if fitted then { q with stuck := timed q } else { q with window := none, stuck := .idle }
  | .pol polarity =>
    let q : Bell := { r with cal := { r.cal with polarity := polarity } }
    if r.cal.polarity = polarity then r else { q with stuck := timed q }
  | .learn on => { r with cal := { r.cal with learn := on } }
  | .default => r

/-- One setting as a change of the record, DEFAULT standing for the defaults. -/
def Bell.set (now : Nat) (timed : Bell → StuckTimer) (r : Bell) : Setting → Bell
  | .default => Setting.defaults.foldl (Bell.setOne now timed) r
  | x => r.setOne now timed x

/-- R75: what the stuck timer of bell `b` becomes where it is timed afresh, by the record it then has. -/
def State.timed (s : State) (b : Nat) (r : Bell) : StuckTimer := r.timedAt s.now s.bellCount b (s.senseLevel b)

section Settings

variable {s : State} {b : Nat}

theorem State.setBell_setBell (s : State) (b : Nat) (q r : Bell) : (s.setBell b q).setBell b r = s.setBell b r := by
  simp [State.setBell]

theorem State.setBell_self (s : State) (b : Nat) : s.setBell b (s.bell b) = s := by
  rw [State.setBell, State.bell, setSlot_self]

theorem State.modCal_restartStuck (h1 : 1 ≤ b) (h64 : b ≤ 64) (f : Calibration → Calibration) :
    (s.modCal b f).restartStuck b =
      s.setBell b
        { s.bell b with
          cal := f (s.bell b).cal, stuck := s.timed b { s.bell b with cal := f (s.bell b).cal } } := by
  have written : (s.modCal b f).bell b = { s.bell b with cal := f (s.bell b).cal } := by
    rw [State.modCal, State.bell_modBell, if_pos ⟨rfl, h1, h64⟩]
  rw [State.restartStuck, State.modBell, written, State.stuckFromNow_eq _ h1, written]
  exact s.setBell_setBell ..

/-- R5 to R10: one setting is one write of the record. -/
theorem State.applyOne_eq (h1 : 1 ≤ b) (h64 : b ≤ 64) (x : Setting) :
    s.applyOne b x = s.setBell b ((s.bell b).setOne s.now (s.timed b) x) := by
  cases x with
  | pulse | rearm | learn => rfl
  | flight | heat | duty =>
    simp only [State.applyOne, State.modCal, State.updateBucket, State.modBell_modBell]
    rfl
  | sense fitted =>
    simp only [State.applyOne, Bell.setOne]
    split
    · exact s.setBell_self b |>.symm
    · split
      · rename_i fit
        rw [fit]
        exact State.modCal_restartStuck h1 h64 _
      · rename_i absent
        rw [Bool.not_eq_true] at absent
        rw [absent]
        exact s.modBell_modBell ..
  | pol polarity =>
    simp only [State.applyOne, Bell.setOne]
    split
    · exact s.setBell_self b |>.symm
    · exact State.modCal_restartStuck h1 h64 _
  | default => exact s.setBell_self b |>.symm

/-- A run of edits that each write the record of one bell, by that record, is one write of it. -/
theorem State.foldl_setBell {α : Type} {apply : State → α → State}
    {set : Bell → α → Bell}
    (one : ∀ (r : Bell) x, apply (s.setBell b r) x = (s.setBell b r).setBell b (set r x)) (xs : List α) (r : Bell) :
    xs.foldl apply (s.setBell b r) = s.setBell b (xs.foldl set r) := by
  induction xs generalizing r with
  | nil => rfl
  | cons x rest ih => rw [List.foldl_cons, one, State.setBell_setBell, ih, List.foldl_cons]

theorem State.foldl_applyOne (h1 : 1 ≤ b) (h64 : b ≤ 64) (xs : List Setting) (r : Bell) :
    xs.foldl (State.applyOne b) (s.setBell b r) = s.setBell b (xs.foldl (Bell.setOne s.now (s.timed b)) r) := by
  refine State.foldl_setBell (fun r x => ?_) xs r
  rw [State.applyOne_eq h1 h64, State.bell_setBell, if_pos ⟨rfl, h1, h64⟩]
  rfl

/-- R6, R7: one setting, DEFAULT among them, is one write of the record. -/
theorem State.applySetting_setBell (h1 : 1 ≤ b) (h64 : b ≤ 64) (x : Setting) (r : Bell) :
    (s.setBell b r).applySetting b x = s.setBell b (r.set s.now (s.timed b) x) := by
  have one : (s.setBell b r).applyOne b x = s.setBell b (r.setOne s.now (s.timed b) x) :=
    State.foldl_applyOne h1 h64 [x] r
  cases x with
  | default => exact State.foldl_applyOne h1 h64 _ r
  | _ => exact one

theorem State.applySetting_eq (h1 : 1 ≤ b) (h64 : b ≤ 64) (x : Setting) :
    s.applySetting b x = s.setBell b ((s.bell b).set s.now (s.timed b) x) := by
  conv_lhs => rw [← s.setBell_self b]
  exact State.applySetting_setBell h1 h64 x _

/-- R6: the settings of a line, applied from left to right, are one write of the record. -/
theorem State.foldl_applySetting (h1 : 1 ≤ b) (h64 : b ≤ 64) (xs : List Setting) :
    xs.foldl (State.applySetting b) s = s.setBell b (xs.foldl (Bell.set s.now (s.timed b)) (s.bell b)) := by
  conv_lhs => rw [← s.setBell_self b]
  refine State.foldl_setBell (fun r x => ?_) xs _
  rw [State.applySetting_setBell h1 h64, State.setBell_setBell]

end Settings

/-! ## DEFAULT (R7) -/

/-- Two tables that read the same in every slot are equal. -/
theorem table_ext {α : Type} {n : Nat} {v w : Table α n} (d : α) (h : ∀ k, 1 ≤ k → k ≤ n → slot v k d = slot w k d) :
    v = w := by
  refine Vector.ext fun i hi => ?_
  have := h (i + 1) (by omega) (by omega)
  rwa [slot_inside _ _ _ (by omega) (by omega), slot_inside _ _ _ (by omega) (by omega)] at this

/-- What a slot reads after a run of writes, each by its number. -/
theorem slot_foldl_setSlot {α : Type} {n : Nat} (f : Nat → α) (ks : List Nat) (v : Table α n) (j : Nat) (d : α)
    (h1 : 1 ≤ j) (hn : j ≤ n) :
    slot (ks.foldl (fun v k => setSlot v k (f k)) v) j d = if j ∈ ks then f j else slot v j d := by
  induction ks generalizing v with
  | nil => simp
  | cons k rest ih =>
    rw [List.foldl_cons, ih, slot_setSlot]
    by_cases hk : j = k
    · subst hk
      simp [h1, hn]
    · simp [hk]

section Defaults

variable (now : Nat) (timed : Bell → StuckTimer) (r : Bell)

theorem Bell.setOne_pulses (f : Nat → Nat) (ls : List Nat) :
    (ls.map fun l => Setting.pulse l (f l)).foldl (Bell.setOne now timed) r =
      { r with
        cal := { r.cal with pulse := ls.foldl (fun v l => setSlot v l (clamp 20 400 (f l))) r.cal.pulse } } := by
  induction ls generalizing r with
  | nil => rfl
  | cons l rest ih => exact ih _

theorem Bell.setOne_flights (f : Nat → Nat) (ls : List Nat) :
    (ls.map fun l => Setting.flight l (f l)).foldl (Bell.setOne now timed) r =
      { r with
        cal := { r.cal with flight := ls.foldl (fun v l => setSlot v l (clamp 50 2000 (f l))) r.cal.flight }
        window := r.window.map fun w => if w.level ∈ ls then { w with blocked := true } else w } := by
  induction ls generalizing r with
  | nil => cases hw : r.window <;> simp [← hw]
  | cons l rest ih =>
    refine (ih _).trans ?_
    have window : ((r.window.map (Window.blockedBy l)).map fun w =>
        if w.level ∈ rest then { w with blocked := true } else w) =
        r.window.map fun w => if w.level ∈ l :: rest then { w with blocked := true } else w := by
      rw [Option.map_map]
      refine congrArg (Option.map · r.window) (funext fun w => ?_)
      by_cases e : w.level = l
      · by_cases hr : l ∈ rest <;> simp [Window.blockedBy, e, hr]
      · simp [Window.blockedBy, e]
    simp only [Bell.setOne, window]
    rfl

end Defaults

/-- R7: writing every level of a table at its default, where the clamp keeps it, makes it the table of defaults. -/
theorem foldl_setSlot_defaults (lo hi : Nat) (defaults v : Table Nat 7)
    (kept : ∀ l ∈ List.range' 1 7, clamp lo hi (slot defaults l 0) = slot defaults l 0) :
    (List.range' 1 7).foldl (fun v l => setSlot v l (clamp lo hi (slot defaults l 0))) v = defaults := by
  refine table_ext 0 fun k h1 h7 => ?_
  have mem : k ∈ List.range' 1 7 := List.mem_range'_1.mpr ⟨h1, by omega⟩
  rw [slot_foldl_setSlot (fun l => clamp lo hi (slot defaults l 0)) _ _ _ _ h1 h7, if_pos mem, kept k mem]

/-- R9: REARM, HEAT and DUTY in turn bring the bucket up to date once. -/
theorem Bell.setOne_rates (now : Nat) (timed : Bell → StuckTimer) (r : Bell) (rearm heat duty : Nat) :
    [Setting.rearm rearm, .heat heat, .duty duty].foldl (Bell.setOne now timed) r =
      { r with
        cal := { r.cal with rearm := clamp 300 5000 rearm, heat := clamp 200 4000 heat, duty := clamp 5 50 duty }
        bucket := min (r.refilled now) (clamp 200 4000 heat * 100), stamp := now } := by
  have again : ∀ (q : Bell), q.stamp = now → q.bucket ≤ q.cal.heat * 100 → q.refilled now = q.bucket := by
    rintro q rfl full
    simp [Bell.refilled, full]
  simp only [List.foldl_cons, List.foldl_nil, Bell.setOne]
  rw [again _ rfl (Nat.min_le_right ..)]
  rfl

/-- R10: SENSE FITTED and POL in turn time the stuck timer afresh where either is a change. -/
theorem Bell.setOne_sense_pol (now n b : Nat) (level : Bool) (r : Bell) (p : Polarity) :
    [Setting.sense true, .pol p].foldl (Bell.setOne now (·.timedAt now n b level)) r =
      { r with
        cal := { r.cal with fitted := true, polarity := p }
        stuck :=
          if r.cal.fitted = true ∧ r.cal.polarity = p then r.stuck
          else Bell.timedAt { r with cal := { r.cal with fitted := true, polarity := p } } now n b level } := by
  obtain ⟨⟨pulse, flight, rearm, heat, duty, fitted, polarity, learn⟩, _⟩ := r
  cases fitted <;> by_cases e : polarity = p <;> simp [Bell.setOne, Bell.timedAt, e]

/-- R7, R8, R9: DEFAULT writes the defaults, with the effects of each. -/
theorem Bell.set_default (r : Bell) (now n b : Nat) (level : Bool) :
    r.set now (·.timedAt now n b level) .default =
      { r with
        cal := Calibration.default, bucket := min (r.refilled now) (Calibration.default.heat * 100), stamp := now
        window := r.window.map fun w => if 1 ≤ w.level ∧ w.level ≤ 7 then { w with blocked := true } else w
        stuck :=
          if r.cal.fitted = true ∧ r.cal.polarity = Calibration.default.polarity then r.stuck
          else Bell.timedAt { r with cal := Calibration.default } now n b level } := by
  have pulse := foldl_setSlot_defaults 20 400 Calibration.default.pulse r.cal.pulse (by decide)
  have flight := foldl_setSlot_defaults 50 2000 Calibration.default.flight r.cal.flight (by decide)
  have rest : [Setting.rearm Calibration.default.rearm, .heat Calibration.default.heat,
      .duty Calibration.default.duty, .sense Calibration.default.fitted, .pol Calibration.default.polarity,
      .learn Calibration.default.learn] =
      [.rearm Calibration.default.rearm, .heat Calibration.default.heat, .duty Calibration.default.duty] ++
        ([.sense true, .pol Calibration.default.polarity] ++ [.learn Calibration.default.learn]) := rfl
  have levels : ∀ k, k ∈ List.range' 1 7 ↔ 1 ≤ k ∧ k ≤ 7 := fun k => by rw [List.mem_range'_1]; omega
  simp only [Bell.set, Setting.defaults, rest, List.foldl_append, Bell.setOne_pulses, Bell.setOne_flights, pulse,
    flight, levels, Bell.setOne_rates, Bell.setOne_sense_pol]
  rfl

/-! ## What no setting writes -/

/-- The record `q` has the runtime state of `r`, but for the bucket, the window and the stuck timer. -/
def Bell.SameRuntime (r q : Bell) : Prop :=
  q.ready = r.ready ∧ q.health = r.health ∧ q.disabledFlag = r.disabledFlag ∧ q.misses = r.misses ∧ q.hits = r.hits ∧
    q.counters = r.counters ∧ q.lastDrop = r.lastDrop

theorem Bell.SameRuntime.refl (r : Bell) : r.SameRuntime r := ⟨rfl, rfl, rfl, rfl, rfl, rfl, rfl⟩

theorem Bell.SameRuntime.trans {p q r : Bell} (h : p.SameRuntime q) (k : q.SameRuntime r) : p.SameRuntime r := by
  obtain ⟨h1, h2, h3, h4, h5, h6, h7⟩ := h
  obtain ⟨k1, k2, k3, k4, k5, k6, k7⟩ := k
  exact ⟨k1.trans h1, k2.trans h2, k3.trans h3, k4.trans h4, k5.trans h5, k6.trans h6, k7.trans h7⟩

theorem Bell.SameRuntime.foldl {set : Bell → Setting → Bell} (one : ∀ (r : Bell) x, r.SameRuntime (set r x))
    (xs : List Setting) (r : Bell) : r.SameRuntime (xs.foldl set r) := by
  induction xs generalizing r with
  | nil => exact .refl r
  | cons x rest ih => exact (one r x).trans (ih _)

section Runtime

variable (now : Nat) (timed : Bell → StuckTimer) (r : Bell)

theorem Bell.setOne_sameRuntime (x : Setting) : r.SameRuntime (r.setOne now timed x) := by
  cases x with
  | sense fitted =>
    simp only [Bell.setOne]
    split
    · exact .refl r
    · split <;> exact .refl r
  | pol polarity =>
    simp only [Bell.setOne]
    split <;> exact .refl r
  | _ => exact .refl r

theorem Bell.set_sameRuntime (x : Setting) : r.SameRuntime (r.set now timed x) := by
  cases x with
  | default => exact .foldl (Bell.setOne_sameRuntime now timed) _ r
  | _ => exact r.setOne_sameRuntime now timed _

/-! ## The settings of the sense line (R10) -/

theorem Bell.setOne_sense_absent (h : r.cal.fitted = true) :
    r.setOne now timed (.sense false) =
      { r with cal := { r.cal with fitted := false }, window := none, stuck := .idle } := by
  simp only [Bell.setOne, h, Bool.true_eq_false, if_false, Bool.false_eq_true]

theorem Bell.setOne_sense_fitted (h : r.cal.fitted = false) :
    r.setOne now timed (.sense true) =
      { r with
        cal := { r.cal with fitted := true }, stuck := timed { r with cal := { r.cal with fitted := true } } } := by
  simp only [Bell.setOne, h, Bool.false_eq_true, if_false, if_true]

theorem Bell.setOne_pol {p : Polarity} (h : r.cal.polarity ≠ p) :
    r.setOne now timed (.pol p) =
      { r with
        cal := { r.cal with polarity := p }, stuck := timed { r with cal := { r.cal with polarity := p } } } := by
  simp only [Bell.setOne, if_neg h]

end Runtime

/-- R6, R7: a line that ends with DEFAULT leaves the default calibration. -/
theorem Bell.foldl_set_cal_of_last (now n b : Nat) (level : Bool) {xs : List Setting} (h : .default ∈ xs.getLast?)
    (r : Bell) : (xs.foldl (Bell.set now (·.timedAt now n b level)) r).cal = Calibration.default := by
  obtain ⟨first, rfl⟩ := List.getLast?_eq_some_iff.mp h
  rw [List.foldl_append, List.foldl_cons, List.foldl_nil, Bell.set_default]

section Line

variable {s : State} {tag f : Text} {b : Nat} {fields : List Text}

theorem bellRequest_settings {settings : List Setting} (hb : s.readBell f = some b)
    (h : readSettings fields = some settings) :
    bellRequest tag (f :: fields) s = (settings.foldl (State.applySetting b) s).okBell tag b := by
  simp only [bellRequest, hb, h]

theorem bellRequest_refuses (h : readSettings fields = none) : bellRequest tag (f :: fields) s = s.err tag .arg := by
  simp only [bellRequest, h]
  cases s.readBell f <;> rfl

end Line

/-- Settles O28: each setting as one write of the record, and a line of them as the writes one after another. -/
theorem bellSettingsApplied : Obligations.BellSettingsApplied := by
  unfold Obligations.BellSettingsApplied
  refine ⟨fun s b h1 h64 => ?_, fun s tag f b fields hN can hb => ?_⟩
  · have one (x : Setting) : s.applySetting b x = s.setBell b ((s.bell b).set s.now (s.timed b) x) :=
      State.applySetting_eq h1 h64 x
    refine ⟨fun level v => one (.pulse level v), fun level v => one (.flight level v), fun v => one (.rearm v),
      fun v => one (.heat v), fun v => one (.duty v), fun on => one (.learn on), fun fitted same => if_pos same,
      fun fit => (one _).trans (congrArg _ (Bell.setOne_sense_absent s.now (s.timed b) _ fit)),
      fun absent => (one _).trans (congrArg _ (Bell.setOne_sense_fitted s.now (s.timed b) _ absent)),
      fun p same => if_pos same,
      fun p other => (one _).trans (congrArg _ (Bell.setOne_pol s.now (s.timed b) _ other)), rfl, _,
      (one .default).trans (congrArg _ (Bell.set_default _ _ _ _ _)), fun fit same => if_pos ⟨fit, same⟩,
      fun other => if_neg ?_⟩
    rintro ⟨fit, same⟩
    obtain absent | changed := other
    · rw [fit] at absent
      cases absent
    · exact changed same
  · obtain ⟨-, h1, hbN⟩ := State.readBell_eq_some_iff.mp hb
    have h64 : b ≤ 64 := by omega
    refine ⟨fun settings => readSettings_eq_some_iff, fun settings h => ?_, fun h =>
      exec_request_eq rfl can (bellRequest_refuses h)⟩
    have line := State.foldl_applySetting (s := s) h1 h64 settings
    obtain ⟨ready, health, flag, misses, hits, counters, lastDrop⟩ :=
      Bell.SameRuntime.foldl (Bell.set_sameRuntime s.now (s.timed b)) settings (s.bell b)
    exact ⟨_, line, exec_request_eq rfl can ((bellRequest_settings hb h).trans (by rw [line])), ready, health, flag,
      misses, hits, counters, lastDrop, fun last => Bell.foldl_set_cal_of_last _ _ _ _ last _⟩

end Sys2Proof.Machine
end

section
/-! SUPPORT. The readings: what STATUS and QUEUE? show (R191, R192), how the records are written (R19, R90, R142, R150,
R180), and what the requests that read one record answer and refuse. -/

namespace Sys2Proof.Machine

/-! ## STATUS (R191) -/

/-- R191: the fields of STATUS, the counts and the words among them written out. -/
theorem State.statusFields_eq (s : State) :
    s.statusFields =
      [.word .SYNC, syncWord s.time.sync, .word .WALL, if s.time.isSet then .wall s.wallSecond else .word .UNSET]
        ++ .word .TUNE :: laneFields (s.tune.map (fun l => (l.request.id, l.phase)))
        ++ .word .TOLL :: laneFields (s.toll.map (fun l => (l.request.id, l.phase)))
        ++ [.word .PLAYQ, .num s.playQueue.length, .word .STRIKEQ, .num s.queue.length, .word .WAIT,
          .num s.waiting.length, .word .COILS, .num s.coils.length, .word .REPORTQ,
          .num s.serial.reports.length, .word .SUPPLY, supplyWord s.supply, .word .HOLD,
          .word (if s.hold then .ON else .OFF), .word .STORE, storeWord s.store, .word .LATCHED]
        ++ kindList s.serial.latchedKinds := by
  simp [State.statusFields, State.wallField, State.countsFields, onOff]

theorem statusRequest_shows (tag : Text) (s : State) :
    statusRequest tag [] s =
      { s with
        serial :=
          { s.serial with
            made := s.serial.made + 1, latched := Vector.replicate 12 false
            executed := some ⟨s.serial.made, .ok tag s.statusFields⟩ } } := rfl

/-! ## QUEUE? (R192) -/

section Item

variable {α : Type} {q : Kw} {most : Nat} {items : List α} {shown : α → List Fld} {tag : Text} {s : State}

theorem itemRequest_shows {f : Text} {n : Nat} (h : readNat f = some n) (range : 1 ≤ n ∧ n ≤ most) :
    itemRequest q most items shown tag [f] s =
      s.ok tag (.word q :: .num n :: (items[n - 1]?.map shown).getD [.word .NONE]) := by
  simp only [itemRequest, readWithin_eq_some h range.1 range.2]
  cases items[n - 1]? <;> rfl

/-- R192: anything but one index within its range is refused. -/
theorem itemRequest_refuses {fields : List Text}
    (h : ∀ f n, fields = [f] → readNat f = some n → n = 0 ∨ most < n) :
    itemRequest q most items shown tag fields s = s.err tag .arg := by
  unfold itemRequest
  split
  · rw [(readWithin_eq_none fun n hn => h _ n rfl hn).1]
  · rfl

end Item

theorem modeWord_eq (m : TollMode) : modeWord m = .word m.word := by cases m <;> rfl

/-! ## One number, one record -/

section Record

variable {tag : Text} {s : State}

theorem bellReadRequest_shows {f : Text} {n : Nat} (h : readNat f = some n) (range : 1 ≤ n ∧ n ≤ s.bellCount) :
    bellReadRequest tag [f] s = s.ok tag (s.bellFields n) := by
  simp only [bellReadRequest, State.readBellAlone_nil, State.readBell_eq_some_iff.mpr ⟨h, range⟩]
  rfl

theorem bellReadRequest_refuses {fields : List Text}
    (h : ∀ f n, fields = [f] → readNat f = some n → n = 0 ∨ s.bellCount < n) :
    bellReadRequest tag fields s = s.err tag .arg := by
  match fields with
  | [] => rfl
  | [f] =>
    have none : s.readBell f = none := (readWithin_eq_none fun n hn => h f n rfl hn).1
    simp only [bellReadRequest, State.readBellAlone_nil, none]
  | _ :: _ :: _ => rfl

theorem melReadRequest_shows {f : Text} {n : Nat} (h : readNat f = some n) (range : 1 ≤ n ∧ n ≤ 64) :
    melReadRequest tag [f] s = s.ok tag (s.melodyFields n) := by
  simp only [melReadRequest, readMelody, readWithin_eq_some h range.1 range.2]

theorem melReadRequest_refuses {fields : List Text}
    (h : ∀ f n, fields = [f] → readNat f = some n → n = 0 ∨ 64 < n) : melReadRequest tag fields s = s.err tag .arg := by
  unfold melReadRequest
  split
  · rw [readMelody, (readWithin_eq_none fun n hn => h _ n rfl hn).1]
  · rfl

theorem quietReadRequest_shows {f : Text} {n : Nat} (h : readNat f = some n) (range : 1 ≤ n ∧ n ≤ 8) :
    quietReadRequest tag [f] s = s.ok tag (.num n :: quietFields (slot s.quiet n none)) := by
  simp only [quietReadRequest, readRuleNumber, readWithin_eq_some h range.1 range.2]
  rfl

theorem quietReadRequest_refuses {fields : List Text}
    (h : ∀ f n, fields = [f] → readNat f = some n → n = 0 ∨ 8 < n) :
    quietReadRequest tag fields s = s.err tag .arg := by
  unfold quietReadRequest
  split
  · rw [readRuleNumber, (readWithin_eq_none fun n hn => h _ n rfl hn).1]
  · rfl

theorem cueReadRequest_shows {f : Text} {n : Nat} (h : readNat f = some n) (range : 1 ≤ n ∧ n ≤ 4) :
    cueReadRequest tag [f] s = s.ok tag (s.cueFields n) := by
  simp only [cueReadRequest, readCue, readWithin_eq_some h range.1 range.2]
  rfl

theorem cueReadRequest_refuses {fields : List Text}
    (h : ∀ f n, fields = [f] → readNat f = some n → n = 0 ∨ 4 < n) : cueReadRequest tag fields s = s.err tag .arg := by
  unfold cueReadRequest
  split
  · rw [readCue, (readWithin_eq_none fun n hn => h _ n rfl hn).1]
  · rfl

theorem entryReadRequest_shows_live {f : Text} {n : Nat} (h : readNat f = some n) (range : 1 ≤ n ∧ n ≤ 48) :
    entryReadRequest tag [f, Kw.LIVE.text] s =
      s.ok tag (.num n :: .word .LIVE :: entryOrUnused (slot s.live n none) ++ stampFields (slot s.stamps n none)) := by
  simp only [entryReadRequest, readEntryNumber, readWithin_eq_some h range.1 range.2, readKw_text]

theorem entryReadRequest_shows_pending {f : Text} {n : Nat} (h : readNat f = some n) (range : 1 ≤ n ∧ n ≤ 48) :
    entryReadRequest tag [f, Kw.PENDING.text] s =
      s.ok tag (.num n :: .word .PENDING :: entryOrUnused (slot s.draft n none)) := by
  simp only [entryReadRequest, readEntryNumber, readWithin_eq_some h range.1 range.2, readKw_text]

/-- R142: anything but a number within 1..48 and the name of a table is refused. -/
theorem entryReadRequest_refuses {fields : List Text}
    (h : ∀ f g n, fields = [f, g] → readNat f = some n → (readKw g = some .LIVE ∨ readKw g = some .PENDING) →
      n = 0 ∨ 48 < n) : entryReadRequest tag fields s = s.err tag .arg := by
  unfold entryReadRequest
  split
  case h_2 => rfl
  case h_1 f g =>
    have outside {n : Nat} (number : readEntryNumber f = some n) :
        ¬ (readKw g = some .LIVE ∨ readKw g = some .PENDING) := by
      obtain ⟨hn, low, high⟩ := bind_within_eq_some_iff.mp number
      intro table
      have := h f g n rfl hn table
      omega
    split
    case h_1 number table => exact absurd (.inl table) (outside number)
    case h_2 number table => exact absurd (.inr table) (outside number)
    case h_3 => rfl

end Record

/-! ## The records as they are written -/

/-- R19: the record of a bell, in the groups of its table. -/
theorem State.bellFields_eq (s : State) (n : Nat) :
    s.bellFields n = .num n :: (healthFields (s.bell n).health
      ++ .word .PULSE :: (s.bell n).cal.pulse.toList.map Fld.num
      ++ .word .FLIGHT :: (s.bell n).cal.flight.toList.map Fld.num
      ++ [.word .REARM, .num (s.bell n).cal.rearm, .word .HEAT, .num (s.bell n).cal.heat,
        .word .DUTY, .num (s.bell n).cal.duty, .word .SENSE, .word (if (s.bell n).cal.fitted then .FITTED else .ABSENT),
        .word .POL, .word (if (s.bell n).cal.polarity = .rise then .RISE else .FALL),
        .word .LEARN, onOff (s.bell n).cal.learn]
      ++ [.word .READY, .num (s.bell n).ready, .word .BUCKET, .num (s.bell n).bucket,
        .word .STAMP, .num (s.bell n).stamp, .word .MISSES, .num (s.bell n).misses, .word .HITS, .num (s.bell n).hits,
        .word .LAST, (s.bell n).lastDrop.elim (.word .NONE) dropWord]) := by
  cases h : (s.bell n).lastDrop <;> simp [State.bellFields, h]

/-- Settles O23: each reading by the lemmas on what its request shows and refuses, and each word and record by the cases
of what it writes. -/
theorem readingsShowState : Obligations.ReadingsShowState := by
  unfold Obligations.ReadingsShowState
  refine ⟨fun s tag can => ⟨fun f more => exec_request_eq rfl can rfl, exec_request_eq rfl can ?_⟩,
    fun s tag can => ⟨exec_request_eq rfl can rfl, fun f n hn => ?_, fun fields odd => ?_⟩, ?_, ?_⟩
  · rw [← State.statusFields_eq]
    exact statusRequest_shows tag s
  · have outside {most : Nat} (out : n = 0 ∨ most < n) :
        ∀ g k, [f] = [g] → readNat g = some k → k = 0 ∨ most < k := by
      intro g k e hk
      cases e
      cases hn.symm.trans hk
      exact out
    exact ⟨fun range => exec_request_eq rfl can (itemRequest_shows hn range),
      fun range => exec_request_eq rfl can (itemRequest_shows hn range),
      fun range => exec_request_eq rfl can (itemRequest_shows hn range),
      fun out => exec_request_eq rfl can (itemRequest_refuses (outside out)),
      fun out => ⟨exec_request_eq rfl can (itemRequest_refuses (outside out)),
        exec_request_eq rfl can (itemRequest_refuses (outside out))⟩⟩
  · have out {most : Nat} : ∀ f n, fields = [f] → readNat f = some n → n = 0 ∨ most < n :=
      fun f n e hn => absurd hn (odd f n e)
    exact ⟨exec_request_eq rfl can (itemRequest_refuses out), exec_request_eq rfl can (itemRequest_refuses out),
      exec_request_eq rfl can (itemRequest_refuses out)⟩
  · refine ⟨fun r => ?_, fun e => ?_, fun _ _ => ⟨rfl, rfl, rfl, rfl⟩, fun _ _ => ⟨rfl, rfl, rfl, rfl⟩,
      fun _ => ⟨rfl, rfl, rfl, rfl⟩, ⟨rfl, rfl, rfl, rfl, rfl, rfl⟩, ⟨rfl, rfl, rfl⟩, rfl, rfl, rfl, rfl, rfl⟩
    · obtain ⟨id, source, play, start, arrival, latest, cap, slip, force, cutGiven⟩ := r
      cases play with
      | tune spec => cases source <;> cases start <;> rfl
      | toll spec =>
        obtain ⟨rule, bell, interval, level, mode⟩ := spec
        simp only [playItemFields, tollFields, modeWord_eq]
        cases source <;> cases rule <;> cases start <;> rfl
    · obtain ⟨fire, orig, onset, bell, level, origin, slip, serial, slipped⟩ := e
      cases origin <;> cases serial <;> rfl
  · refine ⟨fun s n => ⟨?_, fun h => ?_, fun h => ?_, fun h => ?_, rfl, ?_⟩, fun _ _ => rfl, fun spec => ?_,
      fun e => ?_, fun q => ⟨rfl, ?_⟩, fun s tag can => ⟨fun f n hn => ?_, fun fields => ?_⟩⟩
    · rw [State.bellFields_eq]
      refine congrArg (_ :: ·) (congrArg₂ (· ++ ·) (congrArg (· ++ _) (congrArg (· ++ _) (congrArg (· ++ _) ?_))) ?_)
      · cases (s.bell n).health with
        | faulted cause => cases cause <;> rfl
        | _ => rfl
      · cases (s.bell n).lastDrop with
        | none => rfl
        | some reason => cases reason <;> rfl
    · simp only [State.melodyFields, h]
    · simp only [State.melodyFields, h]
    · simp only [State.melodyFields, h]
    · refine congrArg₂ (· ++ ·) ?_ ?_
      · cases (s.cue n).config.edge <;> cases s.activeOf n <;> rfl
      · cases (s.cue n).config.action <;> rfl
    · obtain ⟨rule, bell, interval, level, mode⟩ := spec
      simp only [tollActionFields, modeWord_eq]
      cases rule <;> rfl
    · obtain ⟨hours, minutes, second, days, months, dates, action, expiry, force⟩ := e
      cases dates <;> cases action <;> rfl
    · obtain ⟨days, fromMin, toMin, tune, tollCap⟩ := q
      cases tune <;> rfl
    · exact ⟨fun range => exec_request_eq rfl can (bellReadRequest_shows hn range),
        fun range => exec_request_eq rfl can (melReadRequest_shows hn range),
        fun range => ⟨exec_request_eq rfl can (entryReadRequest_shows_live hn range),
          exec_request_eq rfl can (entryReadRequest_shows_pending hn range)⟩,
        fun range => exec_request_eq rfl can (quietReadRequest_shows hn range),
        fun range => exec_request_eq rfl can (cueReadRequest_shows hn range)⟩
    · exact ⟨fun out => exec_request_eq rfl can (bellReadRequest_refuses out),
        fun out => exec_request_eq rfl can (melReadRequest_refuses out),
        fun out => exec_request_eq rfl can (entryReadRequest_refuses out),
        fun out => exec_request_eq rfl can (quietReadRequest_refuses out),
        fun out => exec_request_eq rfl can (cueReadRequest_refuses out)⟩

end Sys2Proof.Machine
end

section
/-! SUPPORT. The load of an image that a SAVE wrote (R11, R96, R194): every melody finds the blocks its score needs, and
what a power-on reset leaves is what the snapshot records. -/

namespace Sys2Proof.Machine

/-! ## The blocks that scores need (R80, R81) -/

/-- R80: the blocks that a number of records takes. -/
def blocksFor (records : Nat) : Nat := (records + 31) / 32

/-- What each melody of a state has of something, taken together. -/
def overMelodies (f : Nat → Nat) : Nat := ((List.range' 1 64).map f).sum

theorem mem_melodies {m : Nat} : m ∈ List.range' 1 64 ↔ 1 ≤ m ∧ m ≤ 64 := by
  rw [List.mem_range'_1]
  omega

theorem overMelodies_le {f g : Nat → Nat} (h : ∀ k, 1 ≤ k → k ≤ 64 → f k ≤ g k) : overMelodies f ≤ overMelodies g :=
  List.sum_le_sum fun k hk => h k (mem_melodies.mp hk).1 (mem_melodies.mp hk).2

/-- Where one melody alone has more or less than before, so do all together. -/
theorem overMelodies_change {f g : Nat → Nat} {m : Nat} (h1 : 1 ≤ m) (h64 : m ≤ 64) (same : ∀ k, k ≠ m → g k = f k) :
    overMelodies g + f m = overMelodies f + g m := by
  have mem := mem_melodies.mpr ⟨h1, h64⟩
  have others : (((List.range' 1 64).erase m).map g).sum = (((List.range' 1 64).erase m).map f).sum := by
    refine congrArg List.sum (List.map_congr_left fun k hk => same k ?_)
    rintro rfl
    exact List.Nodup.not_mem_erase List.nodup_range' hk
  have hf := List.sum_map_erase f mem
  have hg := List.sum_map_erase g mem
  unfold overMelodies
  omega

theorem State.melodies_eq (s : State) : s.melodies.toList = (List.range' 1 64).map s.melody := by
  refine List.ext_getElem (by simp) fun i hi _ => ?_
  have : i < 64 := by simpa using hi
  simp only [List.getElem_map, List.getElem_range', Nat.one_mul, State.melody]
  rw [slot_inside _ _ _ (by omega) (by omega)]
  simp

/-- R80: the blocks of a sound melody are those its score needs. -/
theorem State.MelodySound.blocks_length {s : State} {m : Nat} (h : s.MelodySound m) :
    (s.melody m).blocks.length = blocksFor (s.score m).length := by
  rw [h.blocks, h.records, blocksFor]

/-- R81: the blocks in use are those the scores need. -/
theorem State.StoreSound.owned_length {s : State} (h : s.StoreSound) :
    s.ownedBlocks.length = overMelodies fun k => blocksFor (s.score k).length := by
  rw [State.ownedBlocks, s.melodies_eq, List.flatMap_map, List.length_flatMap, overMelodies]
  refine congrArg List.sum (List.map_congr_left fun k hk => ?_)
  exact (h.2 k (mem_melodies.mp hk).1 (mem_melodies.mp hk).2).blocks_length

/-- R81: no more blocks are in use than the pool has. -/
theorem State.PoolSound.owned_le {s : State} (h : s.PoolSound) : s.ownedBlocks.length ≤ 384 := by
  have inside : s.ownedBlocks ⊆ List.range' 1 384 := fun k hk => by
    obtain ⟨low, high⟩ := h.numbers k hk
    exact List.mem_range'_1.mpr ⟨low, by omega⟩
  simpa using (h.owners.subperm inside).length_le

/-- R81: with blocks left, there is a lowest free one. -/
theorem State.lowestFree_isSome {s : State} (h : s.ownedBlocks.length < 384) : ∃ k, s.lowestFree = some k := by
  by_contra none
  have full : List.range' 1 384 ⊆ s.ownedBlocks := by
    have := List.find?_eq_none.mp (Option.eq_none_iff_forall_ne_some.mpr fun k hk => none ⟨k, hk⟩)
    intro k hk
    simpa using this k hk
  have := (List.subperm_of_subset List.nodup_range' full).length_le
  simp only [List.length_range'] at this
  omega

/-! ## A score that fits (R86, R87) -/

/-- A record is appended where its melody has a block left in its limit, and the pool one block. -/
theorem State.StoreSound.appendRecord_fits {s : State} (h : s.StoreSound) {m : Nat} (h1 : 1 ≤ m) (h64 : m ≤ 64)
    (r : ScoreRecord) (limit : blocksFor ((s.score m).length + 1) ≤ 64)
    (room : s.ownedBlocks.length + blocksFor ((s.score m).length + 1) ≤ 384 + blocksFor (s.score m).length) :
    ∃ t, s.appendRecord m r = some t := by
  have sound := h.2 m h1 h64
  have length := sound.blocks_length
  unfold State.appendRecord
  split
  · rename_i whole
    rw [sound.records] at whole
    have next : blocksFor ((s.score m).length + 1) = blocksFor (s.score m).length + 1 := by
      unfold blocksFor
      omega
    obtain ⟨k, hk⟩ := State.lowestFree_isSome (s := s) (by omega)
    simp only [State.allocate, hk, if_neg (show ¬ 64 ≤ (s.melody m).blocks.length by omega)]
    exact ⟨_, rfl⟩
  · exact ⟨_, rfl⟩

/-- Records are appended where the blocks they need, with those in use, are within the limit and the pool. -/
theorem State.StoreSound.appendAll_fits {s : State} (h : s.StoreSound) {m : Nat} (h1 : 1 ≤ m) (h64 : m ≤ 64)
    (begun : (s.melody m).phase ≠ .empty) (rs : List ScoreRecord)
    (limit : blocksFor ((s.score m).length + rs.length) ≤ 64)
    (room : s.ownedBlocks.length + blocksFor ((s.score m).length + rs.length) ≤ 384 + blocksFor (s.score m).length) :
    ∃ t, State.appendAll m s rs = some t := by
  induction rs generalizing s with
  | nil => exact ⟨s, rfl⟩
  | cons r rest ih =>
    rw [List.length_cons] at limit room
    have grows : blocksFor ((s.score m).length + 1) ≤ blocksFor ((s.score m).length + (rest.length + 1)) := by
      unfold blocksFor
      omega
    obtain ⟨u, hu⟩ := h.appendRecord_fits h1 h64 r (by omega) (by omega)
    obtain ⟨sound, step⟩ := h.appendRecord h1 h64 begun hu
    have longer : (u.score m).length = (s.score m).length + 1 := by rw [step.score, List.length_append]; rfl
    have owned : u.ownedBlocks.length + blocksFor (s.score m).length =
        s.ownedBlocks.length + blocksFor ((s.score m).length + 1) := by
      have := overMelodies_change (f := fun k => blocksFor (s.score k).length)
        (g := fun k => blocksFor (u.score k).length) h1 h64 fun k hk => by rw [(step.others k hk).2]
      rw [← h.owned_length, ← sound.owned_length, longer] at this
      exact this
    have total : (u.score m).length + rest.length = (s.score m).length + (rest.length + 1) := by omega
    obtain ⟨x, y, z, w, header⟩ := step.header
    obtain ⟨t, ht⟩ := ih sound (by rw [header]; exact begun) (by rw [total]; exact limit)
      (by rw [total, longer]; omega)
    exact ⟨t, by rw [State.appendAll, hu]; exact ht⟩

/-! ## The load of a snapshot (R95, R96) -/

theorem slot_ofFn {α : Type} {n : Nat} (f : Fin n → α) (i : Fin n) (d : α) :
    slot (Vector.ofFn f) (i.val + 1) d = f i := by
  rw [slot_succ]
  exact Vector.getElem_ofFn i.isLt

theorem exists_fin_succ {n b : Nat} (h1 : 1 ≤ b) (hn : b ≤ n) : ∃ i : Fin n, b = i.val + 1 :=
  ⟨⟨b - 1, by omega⟩, by simp; omega⟩

/-- R95: what the snapshot records of a melody. -/
theorem State.snapshot_melody (s : State) {m : Nat} (h1 : 1 ≤ m) (h64 : m ≤ 64) :
    slot s.snapshot.melodies m none = s.savedMelody m := by
  obtain ⟨i, rfl⟩ := exists_fin_succ h1 h64
  exact slot_ofFn ..

/-- R96: melody `m` of `t` is what a load from a snapshot of `s` makes of it. -/
structure State.Restores (s t : State) (m : Nat) : Prop where
  ready : (s.melody m).phase = .ready →
    t.score m = s.score m ∧ (t.melody m).blocks.length = (s.melody m).blocks.length ∧
      t.melody m = { s.melody m with held := false, blocks := (t.melody m).blocks }
  empty : (s.melody m).phase ≠ .ready → t.melody m = {}

theorem State.score_of_empty {s : State} {m : Nat} (h : s.melody m = {}) : s.score m = [] := by
  rw [State.score, h]
  rfl

theorem State.Restores.score_length_le {s t : State} {m : Nat} (h : s.Restores t m) :
    (t.score m).length ≤ (s.score m).length := by
  by_cases ready : (s.melody m).phase = .ready
  · rw [(h.ready ready).1]
  · rw [State.score_of_empty (h.empty ready)]
    exact Nat.zero_le _

theorem State.Restores.congr {s t u : State} {m : Nat} (h : s.Restores t m) (melody : u.melody m = t.melody m)
    (score : u.score m = t.score m) : s.Restores u m where
  ready := by rw [melody, score]; exact h.ready
  empty := by rw [melody]; exact h.empty

/-- A melody that is begun keeps the score its blocks hold. -/
theorem State.score_setMelody {s : State} {m : Nat} {x : Melody} (blocks : x.blocks = (s.melody m).blocks) (k : Nat) :
    (s.setMelody m x).score k = s.score k := by
  refine State.score_congr ?_ fun _ _ => rfl
  rw [State.melody_setMelody]
  split
  · rename_i e
    rw [e.1, blocks]
  · rfl

/-- R96: the score of a melody fits the store, where every melody loaded before has no more records than it had. -/
theorem State.StoreSound.snapshot_fits {s t : State} (hs : s.StoreSound) (ht : t.StoreSound) {m : Nat} (h1 : 1 ≤ m)
    (h64 : m ≤ 64) (unused : t.score m = [])
    (less : ∀ k, 1 ≤ k → k ≤ 64 → (t.score k).length ≤ (s.score k).length) :
    blocksFor (s.score m).length ≤ 64 ∧ t.ownedBlocks.length + blocksFor (s.score m).length ≤ 384 := by
  have sound := hs.2 m h1 h64
  refine ⟨sound.blocks_length ▸ sound.limit, ?_⟩
  have filled := overMelodies_change (f := fun k => blocksFor (t.score k).length)
    (g := fun k => blocksFor (if k = m then s.score m else t.score k).length) h1 h64 fun k hk => by rw [if_neg hk]
  have within : overMelodies (fun k => blocksFor (if k = m then s.score m else t.score k).length) ≤
      overMelodies fun k => blocksFor (s.score k).length := by
    refine overMelodies_le fun k k1 k64 => ?_
    split
    · rename_i e
      rw [e]
    · have := less k k1 k64
      unfold blocksFor
      omega
  have pool := hs.1.owned_le
  rw [hs.owned_length] at pool
  rw [ht.owned_length]
  simp only [if_pos, unused, List.length_nil, show blocksFor 0 = 0 from rfl] at filled
  omega

/-- R96: one melody of a snapshot is loaded, where every melody loaded before has no more records than it had. -/
theorem State.StoreSound.loadMelody_restores {s t : State} (hs : s.StoreSound) (ht : t.StoreSound) {m : Nat}
    (h1 : 1 ≤ m) (h64 : m ≤ 64) (unused : t.melody m = {})
    (less : ∀ k, 1 ≤ k → k ≤ 64 → (t.score k).length ≤ (s.score k).length) :
    s.Restores (State.loadMelody s.snapshot t m) m ∧
      ∀ k, k ≠ m → (State.loadMelody s.snapshot t m).melody k = t.melody k ∧
        (State.loadMelody s.snapshot t m).score k = t.score k := by
  have soundAfter := (ht.loadMelody s.snapshot h1 h64 unused).1
  unfold State.loadMelody at soundAfter ⊢
  rw [s.snapshot_melody h1 h64, State.savedMelody] at soundAfter ⊢
  by_cases ready : (s.melody m).phase = .ready
  case neg =>
    rw [if_neg ready]
    exact ⟨⟨fun h => absurd h ready, fun _ => unused⟩, fun _ _ => ⟨rfl, rfl⟩⟩
  case pos =>
    have sound := hs.2 m h1 h64
    obtain ⟨named, beaten⟩ := sound.named (by rw [ready]; exact nofun)
    obtain ⟨name, hname⟩ := Option.isSome_iff_exists.mp named
    obtain ⟨beat, hbeat⟩ := Option.isSome_iff_exists.mp beaten
    simp only [if_pos ready, hname, hbeat, Option.getD_some] at soundAfter ⊢
    generalize hx : ({ phase := .opened, name := some name, beat := some beat } : Melody) = x at soundAfter ⊢
    have blocks : x.blocks = (t.melody m).blocks := by rw [← hx, unused]
    have opened : (t.setMelody m x).StoreSound := ht.retitle m x blocks (by rw [← hx, unused]) (by rw [← hx, unused])
      (by rw [← hx, unused]) (by rw [← hx]; exact nofun) (by simp [← hx])
    have header : (t.setMelody m x).melody m = x := by rw [State.melody_setMelody, if_pos ⟨rfl, h1, h64⟩]
    have score (k : Nat) : (t.setMelody m x).score k = t.score k := State.score_setMelody blocks k
    have begun : ((t.setMelody m x).melody m).phase ≠ .empty := by rw [header, ← hx]; exact nofun
    have none := State.score_of_empty unused
    obtain ⟨limit, room⟩ := hs.snapshot_fits opened h1 h64 ((score m).trans none)
      fun k k1 k64 => by rw [score]; exact less k k1 k64
    obtain ⟨v, hv⟩ := opened.appendAll_fits h1 h64 begun (s.score m)
      (by rw [score, none, List.length_nil, Nat.zero_add]; exact limit)
      (by rw [score, none, List.length_nil, Nat.zero_add]; exact Nat.le_add_right_of_le room)
    obtain ⟨-, whole, ⟨bs, records, notes, bars, vheader⟩, others⟩ := opened.appendAll h1 h64 _ begun hv
    simp only [hv] at soundAfter ⊢
    have final := soundAfter.2 m h1 h64
    have written : (v.setMelody m { v.melody m with phase := .ready }).melody m =
        { v.melody m with phase := .ready } := by rw [State.melody_setMelody, if_pos ⟨rfl, h1, h64⟩]
    have kept (k : Nat) : (v.setMelody m { v.melody m with phase := .ready }).score k = v.score k :=
      State.score_setMelody (x := { v.melody m with phase := .ready }) rfl k
    have restored : (v.setMelody m { v.melody m with phase := .ready }).score m = s.score m := by
      rw [kept, whole, score, none, List.nil_append]
    refine ⟨⟨fun _ => ⟨restored, ?_, ?_⟩, fun h => absurd ready h⟩, fun k hk => ⟨?_, ?_⟩⟩
    · rw [final.blocks_length, restored, sound.blocks_length]
    · have hrecords := final.records
      have hnotes := final.notes
      have hbars := final.bars
      rw [restored, ← sound.records] at hrecords
      rw [restored, ← sound.notes] at hnotes
      rw [restored, ← sound.bars] at hbars
      rw [written, vheader, header, ← hx] at hrecords hnotes hbars ⊢
      generalize s.melody m = h at *
      subst hrecords hnotes hbars
      obtain ⟨phase, _, _, _, _, _, _, held⟩ := h
      cases ready
      cases hname
      cases hbeat
      rfl
    · rw [State.melody_setMelody, if_neg fun e => hk e.1, (others k hk).1, State.melody_setMelody,
        if_neg fun e => hk e.1]
    · rw [kept, (others k hk).2, score]

/-- R96: the melodies of a snapshot are loaded, one after another. -/
theorem State.StoreSound.loadMelodies_restores {s : State} (hs : s.StoreSound) (ms : List Nat) {t : State}
    (ht : t.StoreSound) (range : ∀ m ∈ ms, 1 ≤ m ∧ m ≤ 64) (distinct : ms.Nodup)
    (unused : ∀ m ∈ ms, t.melody m = {})
    (less : ∀ k, 1 ≤ k → k ≤ 64 → (t.score k).length ≤ (s.score k).length) :
    (∀ m ∈ ms, s.Restores (ms.foldl (State.loadMelody s.snapshot) t) m) ∧
      ∀ k ∉ ms, (ms.foldl (State.loadMelody s.snapshot) t).melody k = t.melody k ∧
        (ms.foldl (State.loadMelody s.snapshot) t).score k = t.score k := by
  induction ms generalizing t with
  | nil => exact ⟨nofun, fun _ _ => ⟨rfl, rfl⟩⟩
  | cons m rest ih =>
    obtain ⟨apart, distinct⟩ := List.nodup_cons.mp distinct
    obtain ⟨⟨h1, h64⟩, range⟩ := List.forall_mem_cons.mp range
    obtain ⟨first, unused⟩ := List.forall_mem_cons.mp unused
    obtain ⟨restores, others⟩ := hs.loadMelody_restores ht h1 h64 first less
    have sound := (ht.loadMelody s.snapshot h1 h64 first).1
    obtain ⟨later, kept⟩ := ih sound range distinct
      (fun k hk => by rw [(others k fun e => apart (e ▸ hk)).1]; exact unused k hk)
      (fun k k1 k64 => by
        by_cases hk : k = m
        · rw [hk]
          exact restores.score_length_le
        · rw [(others k hk).2]
          exact less k k1 k64)
    refine ⟨List.forall_mem_cons.mpr ⟨?_, later⟩, fun k hk => ?_⟩
    · exact restores.congr (kept m apart).1 (kept m apart).2
    · obtain ⟨ne, out⟩ := not_or.mp (List.mem_cons.not.mp hk)
      exact ⟨(kept k out).1.trans (others k ne).1, (kept k out).2.trans (others k ne).2⟩

/-- R96: a load from a snapshot into an empty store restores every melody. -/
theorem State.StoreSound.loadContents_restores {s t : State} (hs : s.StoreSound)
    (melodies : t.melodies = Vector.replicate 64 {}) (pool : t.pool = Vector.replicate 384 []) {m : Nat} (h1 : 1 ≤ m)
    (h64 : m ≤ 64) : s.Restores (t.loadContents s.snapshot) m := by
  unfold State.loadContents
  dsimp only
  generalize hb : State.mk .. = base
  have header (k : Nat) : base.melody k = {} := by
    rw [← hb, State.melody, melodies, slot_replicate]
    split <;> rfl
  refine (hs.loadMelodies_restores (List.range' 1 64) (.none ?_ ?_) (fun k => mem_melodies.mp) List.nodup_range'
    (fun k _ => header k) fun k _ _ => ?_).1 m (mem_melodies.mpr ⟨h1, h64⟩)
  · rw [← hb]
    exact melodies
  · rw [← hb]
    exact pool
  · rw [State.score_of_empty (header k)]
    exact Nat.zero_le _

/-! ## The power-on reset over a snapshot (R11 to R17, R194 to R196) -/

/-- R11: the clamp leaves a calibration within its bounds as it is. -/
theorem Calibration.InBounds.clamped_eq {c : Calibration} (h : c.InBounds) : c.clamped = c := by
  have clamp_eq {lo hi n : Nat} (hn : lo ≤ n ∧ n ≤ hi) : clamp lo hi n = n := by
    unfold clamp
    omega
  have table {lo hi : Nat} {v : Table Nat 7} (hv : AllSlots v fun x => lo ≤ x ∧ x ≤ hi) : v.map (clamp lo hi) = v := by
    refine Vector.ext fun i hi => ?_
    rw [Vector.getElem_map]
    exact clamp_eq (hv _ (by simp))
  simp only [Calibration.clamped, table h.pulse, table h.flight, clamp_eq h.rearm, clamp_eq h.heat, clamp_eq h.duty]

/-- R12, R15, R78: the record of a bell at the start of a power-on reset that loads its calibration and flag. -/
def Bell.restarted (r : Bell) (n b : Nat) (level : Bool) : Bell :=
  { Bell.powerOn r.cal r.disabledFlag with stuck := (Bell.powerOn r.cal r.disabledFlag).timedAt 0 n b level }

theorem Bell.restarted_eq (r : Bell) (n b : Nat) (level : Bool) :
    r.restarted n b level =
      { cal := r.cal, disabledFlag := r.disabledFlag
        health := if r.disabledFlag then .disabled else .good
        bucket := r.cal.heat * 100, stamp := 0, ready := 0, misses := 0, hits := 0, lastDrop := none
        counters := { fired := 0, hit := 0, miss := 0, stray := 0, slip := 0, throttle := 0, drop := 0 }
        window := none
        stuck :=
          if b ≤ n ∧ r.cal.fitted = true ∧ r.disabledFlag = false ∧ level = (r.cal.polarity == .rise) then .running 0
          else .idle } := by
  cases h : r.disabledFlag <;> simp [Bell.restarted, Bell.powerOn, Bell.timedAt, h]

theorem SyncSource.startState_eq (x : SyncSource) : x.startState = if x = .pulse then .acquire else .free := by
  cases x <;> rfl

/-- R194: the power-on reset that finds an image with its sum starts the blocks over its contents. -/
theorem State.powerOn_of_good (pins : Pins) {u : State} {contents : StoreContents}
    (h : u.image = .written contents (imageSum contents)) :
    u.powerOn pins = (State.loadContents
      { State.blank with pending := u.pending, choices := u.choices, image := u.image } contents).start pins := by
  unfold State.powerOn State.load
  simp only [h, if_pos]

/-- R194: what a load into the blank state writes, but for what the melodies hold. -/
theorem State.loadContents_blank (u : State) (contents : StoreContents) :
    ∃ melodies pool,
      State.loadContents { State.blank with pending := u.pending, choices := u.choices, image := u.image } contents =
        { State.blank with
          pending := u.pending, choices := u.choices, image := u.image
          bells := contents.bells.map (fun (cal, flag) => Bell.powerOn cal.clamped flag)
          live := contents.schedule, draft := contents.schedule, quiet := contents.quiet
          cues := contents.cues.map (fun c => { config := c, settled := true })
          time := { State.blank.time with source := contents.source, sync := contents.source.startState }
          serial := { mask := contents.mask }
          store := .good, melodies := melodies, pool := pool } :=
  ⟨_, _, State.loadContents_frame _ _⟩

/-- R194 to R196: all that a power-on reset over a snapshot writes, but for what the melodies hold. -/
theorem State.powerOn_snapshot (pins : Pins) {s u : State} (hs : s.BellsSound)
    (h : u.image = .written s.snapshot (imageSum s.snapshot)) :
    ∃ melodies pool, u.powerOn pins =
      { State.blank with
        pending := u.pending, choices := u.choices, image := u.image, pins := pins, store := .good
        bellCount := bellCountOf pins.nsel, coilBudget := coilBudgetOf pins.csel, lineRate := lineRateOf pins.rate
        bells := Vector.ofFn fun i : Fin 64 => s.bells[i].restarted (bellCountOf pins.nsel) (i.val + 1) pins.sense[i]
        melodies := melodies, pool := pool
        live := s.live, draft := s.live, quiet := s.quiet
        cues := Vector.ofFn fun i : Fin 4 => { config := s.cues[i].config, settled := pins.cue[i] }
        supply := if pins.supgood then .recovering 0 else .dip 0
        time :=
          { State.blank.time with
            source := s.time.source, sync := if s.time.source = .pulse then .acquire else .free }
        serial :=
          { mask := s.serial.mask, made := 1
            reports := [⟨0, .report .start
              [.word .POWER, .word .GOOD, .word (if s.time.source = .pulse then .ACQUIRE else .FREE), .word .N,
                .num (bellCountOf pins.nsel), .word .C, .num (coilBudgetOf pins.csel)]⟩] } } := by
  have bell (i : Fin 64) : (s.snapshot.bells.map fun (cal, flag) => Bell.powerOn cal.clamped flag)[i] =
      Bell.powerOn s.bells[i].cal s.bells[i].disabledFlag := by
    have kept : s.bells[i.val].cal.clamped = s.bells[i.val].cal := (AllSlots.get hs i).cal.clamped_eq
    simp [State.snapshot, kept]
  have cue (i : Fin 4) : (s.snapshot.cues.map fun c => ({ config := c, settled := true } : Cue))[i] =
      { config := s.cues[i].config, settled := true } := by
    simp [State.snapshot]
  have word : syncWord (if s.time.source = .pulse then .acquire else .free) =
      .word (if s.time.source = .pulse then .ACQUIRE else .FREE) := by split <;> rfl
  obtain ⟨melodies, pool, loaded⟩ := u.loadContents_blank s.snapshot
  refine ⟨melodies, pool, ?_⟩
  rw [State.powerOn_of_good pins h, loaded, State.start_eq, State.wallSecond_zero rfl rfl]
  simp only [bell, cue, SyncSource.startState_eq]
  rw [show s.snapshot.source = s.time.source from rfl, word]
  rfl

/-- R78: the record of a bell after a power-on reset over a snapshot. -/
theorem State.bell_powerOn_snapshot (pins : Pins) {s u : State} (hs : s.BellsSound)
    (h : u.image = .written s.snapshot (imageSum s.snapshot)) {b : Nat} (h1 : 1 ≤ b) (h64 : b ≤ 64) :
    (u.powerOn pins).bell b = (s.bell b).restarted (bellCountOf pins.nsel) b ((u.powerOn pins).senseLevel b) := by
  obtain ⟨melodies, pool, whole⟩ := State.powerOn_snapshot pins hs h
  obtain ⟨i, rfl⟩ := exists_fin_succ h1 h64
  rw [whole]
  simp only [State.bell, State.senseLevel, slot_succ]
  exact Vector.getElem_ofFn i.isLt

/-- R96: the melodies and the pool after a power-on reset over a snapshot. -/
theorem State.StoreSound.powerOn_snapshot (pins : Pins) {s u : State} (hs : s.StoreSound)
    (h : u.image = .written s.snapshot (imageSum s.snapshot)) :
    (u.powerOn pins).StoreSound ∧ ∀ m, 1 ≤ m → m ≤ 64 → s.Restores (u.powerOn pins) m := by
  rw [State.powerOn_of_good pins h]
  generalize hv : ({ State.blank with pending := u.pending, choices := u.choices, image := u.image } : State) = v
  have melodies : v.melodies = Vector.replicate 64 {} := by rw [← hv]; rfl
  have pool : v.pool = Vector.replicate 384 [] := by rw [← hv]; rfl
  refine ⟨State.StoreSound.congr (.loadContents melodies pool s.snapshot) (by simp) (by simp), fun m h1 h64 => ?_⟩
  have header : ((v.loadContents s.snapshot).start pins).melody m = (v.loadContents s.snapshot).melody m :=
    State.melody_congr (by simp) m
  exact (hs.loadContents_restores melodies pool h1 h64).congr header
    (State.score_congr (congrArg _ header) fun _ _ => by simp)

/-- Settles O6: the fields by the reset written out over the snapshot, the bells by their restarted records, and the
melodies by the load that finds every score its blocks. -/
theorem loadRestoresSnapshot : Obligations.LoadRestoresSnapshot := by
  unfold Obligations.LoadRestoresSnapshot
  intro pins s u bells store image
  obtain ⟨melodies, pool, whole⟩ := State.powerOn_snapshot pins bells image
  obtain ⟨sound, restores⟩ := store.powerOn_snapshot pins image
  refine ⟨u.powerOn pins, rfl, by rw [whole], ?_, fun b h1 h64 => ?_, fun m h1 h64 => (restores m h1 h64).ready,
    fun m h1 h64 => (restores m h1 h64).empty, sound⟩
  · have stamps (k : Nat) : slot State.blank.stamps k none = none := by
      refine (slot_replicate 48 _ _ k).trans ?_
      split <;> rfl
    rw [whole]
    exact ⟨rfl, rfl, rfl, rfl, rfl, rfl, rfl, rfl, stamps, rfl, rfl, rfl, rfl, rfl, rfl⟩
  · rw [State.bell_powerOn_snapshot pins bells image h1 h64]
    exact Bell.restarted_eq ..

end Sys2Proof.Machine
end

section
/-! SUPPORT. The arithmetic of strikes: heat, learned flights, beats and onsets (R26, R27, R31, R36, R37, R40). -/

namespace Sys2Proof.Machine

/-! ## Heat (R36, R37) -/

/-- R37: a search that starts on a level the bucket covers ends there. -/
theorem Bell.affordable_of_cost_le {r : Bell} {bucket level : Nat} (h : r.cost (level + 1) ≤ bucket) :
    r.affordable bucket (level + 1) = some (level + 1) := by
  rw [Bell.affordable, if_pos h]

/-- R37: a search passes over a level the bucket does not cover. -/
theorem Bell.affordable_of_lt_cost {r : Bell} {bucket level : Nat} (h : bucket < r.cost (level + 1)) :
    r.affordable bucket (level + 1) = r.affordable bucket level := by
  rw [Bell.affordable, if_neg (Nat.not_le.mpr h)]

/-- R37: the search finds the highest level, not above the entry's, whose cost the bucket covers. -/
theorem Bell.affordable_eq_some_iff {r : Bell} {bucket level l : Nat} :
    r.affordable bucket level = some l ↔
      1 ≤ l ∧ l ≤ level ∧ r.cost l ≤ bucket ∧ ∀ k, l < k → k ≤ level → bucket < r.cost k := by
  induction level with
  | zero =>
    refine ⟨fun h => (by cases h), fun ⟨h1, h0, _⟩ => ?_⟩
    omega
  | succ level ih =>
    by_cases covers : r.cost (level + 1) ≤ bucket
    · rw [Bell.affordable_of_cost_le covers, Option.some.injEq]
      constructor
      · rintro rfl
        exact ⟨by omega, Nat.le_refl _, covers, fun k above top => by omega⟩
      · rintro ⟨-, top, -, above⟩
        by_contra other
        have := above (level + 1) (by omega) (Nat.le_refl _)
        omega
    · have short := Nat.not_le.mp covers
      rw [Bell.affordable_of_lt_cost short, ih]
      constructor
      · rintro ⟨h1, top, cost, above⟩
        refine ⟨h1, by omega, cost, fun k hk htop => ?_⟩
        obtain rfl | below : k = level + 1 ∨ k ≤ level := by omega
        · exact short
        · exact above k hk below
      · rintro ⟨h1, top, cost, above⟩
        have : l ≠ level + 1 := fun e => covers (e ▸ cost)
        exact ⟨h1, by omega, cost, fun k hk htop => above k hk (by omega)⟩

/-- R37: the search finds no level exactly where the bucket covers none. -/
theorem Bell.affordable_eq_none_iff {r : Bell} {bucket level : Nat} :
    r.affordable bucket level = none ↔ ∀ k, 1 ≤ k → k ≤ level → bucket < r.cost k := by
  induction level with
  | zero => exact ⟨fun _ k h1 h0 => by omega, fun _ => rfl⟩
  | succ level ih =>
    by_cases covers : r.cost (level + 1) ≤ bucket
    · rw [Bell.affordable_of_cost_le covers]
      refine ⟨fun h => (by cases h), fun h => ?_⟩
      have := h (level + 1) (by omega) (Nat.le_refl _)
      omega
    · have short := Nat.not_le.mp covers
      rw [Bell.affordable_of_lt_cost short, ih]
      refine ⟨fun h k h1 top => ?_, fun h k h1 top => h k h1 (by omega)⟩
      obtain rfl | below : k = level + 1 ∨ k ≤ level := by omega
      · exact short
      · exact h k h1 below

/-- R36: two refills back to back are one refill over the joined interval. -/
theorem Bell.refilled_refilled (r : Bell) {t u : Nat} (ht : r.stamp ≤ t) (hu : t ≤ u) :
    { r with bucket := r.refilled t, stamp := t }.refilled u = r.refilled u := by
  have joined : (u - r.stamp) * r.cal.duty = (t - r.stamp) * r.cal.duty + (u - t) * r.cal.duty := by
    rw [← Nat.add_mul]
    congr 1
    omega
  simp only [Bell.refilled, joined]
  omega

/-- Settles O29: the search by induction on the level, and the refills by the sum of their intervals. -/
theorem heatLimitsLevel : Obligations.HeatLimitsLevel := by
  unfold Obligations.HeatLimitsLevel
  exact ⟨fun r bucket level => ⟨fun l => Bell.affordable_eq_some_iff, Bell.affordable_eq_none_iff⟩,
    fun r t u ht hu => ⟨r.refilled_refilled ht hu, rfl⟩⟩

/-! ## Learned flights (R40) -/

/-- R40: a flight measured at or above the held one raises it. -/
theorem learnedFlight_of_le {held measured : Nat} (low : 50 ≤ held) (h : held ≤ measured) :
    learnedFlight held measured = min 2000 (held + (measured - held + 4) / 8) := by
  unfold learnedFlight clampInt
  dsimp only
  rw [if_neg (by omega)]
  omega

/-- R40: a flight measured below the held one lowers it. -/
theorem learnedFlight_of_lt {held measured : Nat} (high : held ≤ 2000) (h : measured < held) :
    learnedFlight held measured = max 50 (held - (held - measured + 4) / 8) := by
  unfold learnedFlight clampInt
  dsimp only
  rw [if_pos (by omega)]
  omega

/-- Settles O30: the flight by the side on which the measured one lies, and the manual's examples by evaluation. -/
theorem learnedFlight_holds : Obligations.LearnedFlight := by
  unfold Obligations.LearnedFlight
  refine ⟨fun held measured low high => ?_, by decide, by decide, by decide⟩
  split
  next h => exact learnedFlight_of_le low h
  next h => exact learnedFlight_of_lt high (Nat.not_le.mp h)

/-! ## Beats and onsets (R26, R27, R31) -/

/-- R27: 48 divisions take one beat, with nothing lost to rounding. -/
theorem Timing.onset_beats (t : Timing) (n : Nat) : t.onset (t.segDivision + 48 * n) = t.segOrigin + n * t.eff := by
  have grains : (t.segDivision + 48 * n - t.segDivision) * t.eff + 24 = 24 + 48 * (n * t.eff) := by
    rw [Nat.add_sub_cancel_left, Nat.mul_assoc, Nat.add_comm]
  rw [Timing.onset, grains, Nat.add_mul_div_left _ _ (by decide), Nat.zero_add]

/-- R27: a later division has no earlier onset. -/
theorem Timing.onset_mono (t : Timing) {d e : Nat} (h : d ≤ e) : t.onset d ≤ t.onset e := by
  unfold Timing.onset
  gcongr

/-- Settles O31: the formulas are the model's own, the beats by `Timing.onset_beats`, and the tables by evaluation. -/
theorem beatAndOnset : Obligations.BeatAndOnset := by
  unfold Obligations.BeatAndOnset
  exact ⟨fun _ _ => rfl, by decide, fun _ _ => rfl, Timing.onset_beats, fun t _ _ => t.onset_mono,
    fun t => by simp [Timing.onset], fun _ _ => rfl⟩

end Sys2Proof.Machine
end

section
/-! SUPPORT. The expansion of records and strokes (R109 to R112, R121, R132, R133): what an offer writes, what the end
of a pass and a bar stop make of the lane, and when the rows of the two lanes are due. -/

namespace Sys2Proof.Machine

/-! ## Slots and lanes -/

/-- R42: a slot is free while fewer than 64 entries stand in the queue and the list. -/
theorem State.slotFree_iff {s : State} : s.slotFree = true ↔ s.queue.length + s.waiting.length < 64 :=
  decide_eq_true_iff

theorem State.slotFree_eq_false_iff {s : State} : s.slotFree = false ↔ 64 ≤ s.queue.length + s.waiting.length :=
  decide_eq_false_iff_not.trans Nat.not_lt

/-- R111: a lane that runs is PLAYING once an entry of it is accepted. -/
theorem LanePhase.onAccepted_of_runs {p : LanePhase} (h : p.runs = true) : p.onAccepted = .playing := by
  cases p with
  | armed => rfl
  | playing => rfl
  | draining reason => cases h

/-- A change of the TUNE lane's record, where the record is known. -/
theorem State.modTune_eq {s : State} {l : TuneLane} (hl : s.tune = some l) (f : TuneLane → TuneLane) :
    s.modTune f = { s with tune := some (f l) } := by
  rw [State.modTune, hl]
  rfl

/-- A change of the TOLL lane's record, where the record is known. -/
theorem State.modToll_eq {s : State} {l : TollLane} (hl : s.toll = some l) (f : TollLane → TollLane) :
    s.modToll f = { s with toll := some (f l) } := by
  rw [State.modToll, hl]
  rfl

/-! ## Strokes of the TOLL lane (7.4) -/

section Strokes

variable {s : State} {l : TollLane}

/-- R132: a lane that is IDLE or DRAINING expands no stroke. -/
theorem State.expandToll_of_stopped (hl : s.toll = some l) (stopped : l.phase.runs = false) : s.expandToll = s := by
  simp [State.expandToll, hl, stopped]

/-- R33: a stroke of a bell that is not fitted is counted RANGE. -/
theorem State.expandToll_range (hl : s.toll = some l) (runs : l.phase.runs = true)
    (out : l.spec.bell < 1 ∨ s.bellCount < l.spec.bell) :
    s.expandToll =
      { s with
        toll := some { l with summary := { l.summary with range := l.summary.range + 1 } }.passStroke } := by
  have unfitted : ¬(1 ≤ l.spec.bell ∧ l.spec.bell ≤ s.bellCount) := by omega
  simp only [State.expandToll, hl, runs, unfitted, if_false]
  exact State.modToll_eq hl _

/-- R34, R132: with a slot free a stroke becomes an entry, and the lane is PLAYING. -/
theorem State.expandToll_queued (hl : s.toll = some l) (runs : l.phase.runs = true) (low : 1 ≤ l.spec.bell)
    (high : l.spec.bell ≤ s.bellCount) (free : s.queue.length + s.waiting.length < 64) :
    s.expandToll =
      { s.enqueue (s.makeEntry l.nextOnset l.spec.bell (min l.spec.level l.requestCap) .toll l.request.slip
          (l.next + 1)) with
        toll := some
          { l with
            phase := .playing, summary := { l.summary with queued := l.summary.queued + 1 } }.passStroke } := by
  simp only [State.expandToll, hl, runs, low, high, State.slotFree_iff.mpr free, and_self, if_true]
  rw [← LanePhase.onAccepted_of_runs runs]
  exact State.modToll_eq (s := s.enqueue _) hl _

/-- R111: with no slot free the offer is refused and the lane lags. -/
theorem State.expandToll_refused (hl : s.toll = some l) (runs : l.phase.runs = true) (low : 1 ≤ l.spec.bell)
    (high : l.spec.bell ≤ s.bellCount) (full : 64 ≤ s.queue.length + s.waiting.length) :
    s.expandToll = { s with toll := some { l with lag := true } } := by
  simp only [State.expandToll, hl, runs, low, high, State.slotFree_eq_false_iff.mpr full, and_self, if_true]
  exact State.modToll_eq hl _

/-- R132: when the next stroke is due. -/
theorem State.strokeDue_iff (hl : s.toll = some l) :
    s.strokeDue = true ↔ s.held = false ∧ l.phase.runs = true ∧ l.lag = false ∧ l.nextOnset ≤ s.now + 5000 := by
  simp [State.strokeDue, hl, and_assoc]

theorem exec_expandStroke_due (due : s.strokeDue = true) {t : State} (h : s.expandToll = t) :
    exec .expandStroke s = .next t.settle := by
  subst h
  exact if_pos due

theorem exec_expandStroke_idle (h : s.strokeDue = false) : exec .expandStroke s = .next s :=
  if_neg (Bool.eq_false_iff.mp h)

end Strokes

/-- Settles O47: a stroke that is due is expanded, and what that writes is said by the lemmas on `State.expandToll`. -/
theorem strokesExpand : Obligations.StrokesExpand := by
  unfold Obligations.StrokesExpand
  refine ⟨fun s idle => exec_expandStroke_idle ?_, fun s l hl => ⟨fun wait => exec_expandStroke_idle ?_, ?_⟩⟩
  · obtain held | idle := idle
    · simp [State.strokeDue, held]
    · simp [State.strokeDue, idle]
  · refine Bool.eq_false_iff.mpr fun due => ?_
    obtain ⟨-, runs, lag, near⟩ := (State.strokeDue_iff hl).mp due
    obtain stopped | lags | far := wait
    · exact absurd runs (Bool.eq_false_iff.mp stopped)
    · exact absurd lags (Bool.eq_false_iff.mp lag)
    · exact absurd near (Nat.not_le.mpr far)
  · intro held runs lag near
    have due := (State.strokeDue_iff hl).mpr ⟨held, runs, lag, near⟩
    refine ⟨fun out => ?_, fun low high => ⟨fun free => ?_, fun full => ?_⟩⟩
    · exact exec_expandStroke_due due (State.expandToll_range hl runs out)
    · exact exec_expandStroke_due due (State.expandToll_queued hl runs low high free)
    · exact exec_expandStroke_due due (State.expandToll_refused hl runs low high full)

/-! ## The tests that follow a record (R112, R121) -/

section Records

variable {s : State} {l : TuneLane}

/-- R121: with no bar stop under way in a lane that runs there is nothing to test. -/
theorem State.testBarStop_of_none (h : ∀ l, s.tune = some l → l.phase.runs = false ∨ l.barStop = none) :
    s.testBarStop = s := by
  unfold State.testBarStop
  split
  · rfl
  · rename_i l hl
    obtain stopped | none := h l hl
    · simp [stopped]
    · simp [none]

/-- R109: the onset of the next record, where the melody holds one. -/
theorem State.nextOnset_eq {r : Option ScoreRecord} (hr : s.record l.spec.melody l.cursor = r) :
    s.nextOnset l = r.map fun r => l.timing.onset (l.timing.division + r.delta) := by
  rw [State.nextOnset, State.nextRecord, hr]

section BarStops

variable {stop : BarStop} (hl : s.tune = some l) (runs : l.phase.runs = true) (hs : l.barStop = some stop)
include hl runs hs

/-- R121: with no BAR in the melody, or the next record beyond the limit, a bar stop acts as a stop NOW. -/
theorem State.testBarStop_stops
    (h : (s.melody l.spec.melody).bars = 0 ∨ ∃ onset, s.nextOnset l = some onset ∧ stop.limit < onset) :
    s.testBarStop = s.stopTuneNow stop.reason := by
  simp only [State.testBarStop, hl, runs, hs, State.barless, beq_iff_eq]
  split
  · rfl
  · obtain barless | ⟨onset, next, beyond⟩ := h
    · contradiction
    · rw [next]
      exact if_pos beyond

/-- R121: with a BAR in the melody and no record beyond the limit, a bar stop waits. -/
theorem State.testBarStop_waits (bars : 0 < (s.melody l.spec.melody).bars)
    (h : ∀ onset, s.nextOnset l = some onset → onset ≤ stop.limit) : s.testBarStop = s := by
  simp only [State.testBarStop, hl, runs, hs, State.barless, beq_iff_eq]
  rw [if_neg (by omega)]
  split
  · rfl
  · rename_i onset next
    exact if_neg (Nat.not_lt.mpr (h onset next))

end BarStops

/-- R112: the end of a pass after the last record alone, in a lane that runs. -/
theorem State.afterRecord_eq (hl : s.tune = some l) (onset : Nat) :
    s.afterRecord onset =
      { s with
        tune := some
          (if l.phase.runs = true ∧ (s.melody l.spec.melody).records < l.cursor then
            l.endPass onset ((s.melody l.spec.melody).beat.getD 6000) ((s.melody l.spec.melody).bars == 0)
          else l) } := by
  rw [State.afterRecord, State.modTune_eq hl]
  simp only [Bool.and_eq_true, decide_eq_true_eq]

theorem State.afterRecord_of_not_last (hl : s.tune = some l)
    (h : l.phase.runs = false ∨ l.cursor ≤ (s.melody l.spec.melody).records) (onset : Nat) :
    s.afterRecord onset = s := by
  rw [State.afterRecord_eq hl, if_neg, ← hl]
  rintro ⟨runs, last⟩
  obtain stopped | more := h
  · exact absurd runs (Bool.eq_false_iff.mp stopped)
  · omega

theorem State.afterRecord_of_last (hl : s.tune = some l) (runs : l.phase.runs = true)
    (last : (s.melody l.spec.melody).records < l.cursor) (onset : Nat) :
    s.afterRecord onset =
      { s with
        tune := some
          (l.endPass onset ((s.melody l.spec.melody).beat.getD 6000) ((s.melody l.spec.melody).bars == 0)) } := by
  rw [State.afterRecord_eq hl, if_pos ⟨runs, last⟩]

/-- R112: after the last pass the lane drains, with the reason of its bar stop if one is under way. -/
theorem TuneLane.endPass_last (h : l.spec.repeats ≤ l.timing.pass) (onset beat : Nat) (barless : Bool) :
    l.endPass onset beat barless = { l with phase := .draining ((l.barStop.map (·.reason)).getD .done) } := by
  rw [TuneLane.endPass, if_neg (Nat.not_lt.mpr h)]
  cases l.barStop <;> rfl

/-- R30: before the last pass the next begins. -/
theorem TuneLane.endPass_next (h : l.timing.pass < l.spec.repeats) (onset beat : Nat) (barless : Bool) :
    l.endPass onset beat barless = l.nextPass onset beat barless := by
  rw [TuneLane.endPass, if_pos h]

/-! ## Records of the TUNE lane (6.5) -/

/-- R109: a lane that is DRAINING, or stands beyond its melody, expands no record. -/
theorem State.expandTune_of_stopped (hl : s.tune = some l)
    (stopped : l.phase.runs = false ∨ s.record l.spec.melody l.cursor = none) : s.expandTune = s := by
  obtain stopped | none := stopped
  · simp [State.expandTune, hl, stopped]
  · simp [State.expandTune, hl, State.nextRecord, none]

/-- R110: what the expansion of a record itself writes, before the tests of R112 and R121. -/
def State.expandOne (s : State) (l : TuneLane) (onset division : Nat) : ScoreRecord → State
  | .note _ bell level => s.expandNote l onset division bell level
  | r => s.expandPlain onset division r

/-- R110 to R112, R121: the record is expanded, and unless its offer was refused the tests follow. -/
theorem State.expandTune_eq (hl : s.tune = some l) (runs : l.phase.runs = true) {r : ScoreRecord}
    (hr : s.record l.spec.melody l.cursor = some r) :
    let division := l.timing.division + r.delta
    let onset := l.timing.onset division
    s.expandTune =
      if (s.expandOne l onset division r).tuneLags = true then s.expandOne l onset division r
      else ((s.expandOne l onset division r).afterRecord onset).testBarStop := by
  unfold State.expandTune
  simp only [hl, runs, State.nextRecord, hr]
  cases r <;> rfl

/-- R110: where the offer was not refused the tests follow. -/
theorem State.expandTune_written (hl : s.tune = some l) (runs : l.phase.runs = true) {r : ScoreRecord}
    (hr : s.record l.spec.melody l.cursor = some r) {t : State}
    (written : s.expandOne l (l.timing.onset (l.timing.division + r.delta)) (l.timing.division + r.delta) r = t)
    (clear : t.tuneLags = false) :
    s.expandTune = (t.afterRecord (l.timing.onset (l.timing.division + r.delta))).testBarStop := by
  rw [State.expandTune_eq hl runs hr, written, if_neg (Bool.eq_false_iff.mp clear)]

section Notes

variable {delta bell level : Nat}

/-- R33: a NOTE whose bell is not fitted is counted RANGE. -/
theorem State.expandTune_range (hl : s.tune = some l) (runs : l.phase.runs = true)
    (hr : s.record l.spec.melody l.cursor = some (.note delta bell level))
    (out : (bell : Int) + l.timing.transpose < 1 ∨ (s.bellCount : Int) < (bell : Int) + l.timing.transpose) :
    let division := l.timing.division + delta
    let onset := l.timing.onset division
    s.expandTune =
      (State.afterRecord
        { s with
          tune := some
            { l.passRecord onset division with
              serial := l.serial + 1, summary := { l.summary with range := l.summary.range + 1 } } }
        onset).testBarStop := by
  intro division onset
  have unfitted : ¬(1 ≤ (bell : Int) + l.timing.transpose ∧ (bell : Int) + l.timing.transpose ≤ s.bellCount) := by
    omega
  refine State.expandTune_written hl runs hr ?_ rfl
  simp only [State.expandOne, State.expandNote, unfitted, if_false]
  exact State.modTune_eq hl _

/-- R34, R111: with a slot free a NOTE becomes an entry, and the lane is PLAYING. -/
theorem State.expandTune_queued (hl : s.tune = some l) (runs : l.phase.runs = true)
    (hr : s.record l.spec.melody l.cursor = some (.note delta bell level))
    (low : 1 ≤ (bell : Int) + l.timing.transpose) (high : (bell : Int) + l.timing.transpose ≤ (s.bellCount : Int))
    (free : s.queue.length + s.waiting.length < 64) :
    let division := l.timing.division + delta
    let onset := l.timing.onset division
    s.expandTune =
      (State.afterRecord
        { s.enqueue (s.makeEntry onset ((bell : Int) + l.timing.transpose).toNat (l.timing.levelOf level) .tune
            l.request.slip (l.serial + 1)) with
          tune := some
            { l.passRecord onset division with
              serial := l.serial + 1, phase := .playing
              summary := { l.summary with queued := l.summary.queued + 1 } } }
        onset).testBarStop := by
  intro division onset
  refine State.expandTune_written hl runs hr ?_ rfl
  simp only [State.expandOne, State.expandNote, low, high, State.slotFree_iff.mpr free, and_self, if_true]
  rw [← LanePhase.onAccepted_of_runs runs]
  exact State.modTune_eq (s := s.enqueue _) hl _

/-- R111: with no slot free the offer is refused and the lane lags. -/
theorem State.expandTune_refused (hl : s.tune = some l) (runs : l.phase.runs = true)
    (hr : s.record l.spec.melody l.cursor = some (.note delta bell level))
    (low : 1 ≤ (bell : Int) + l.timing.transpose) (high : (bell : Int) + l.timing.transpose ≤ (s.bellCount : Int))
    (full : 64 ≤ s.queue.length + s.waiting.length) :
    s.expandTune = { s with tune := some { l with lag := true } } := by
  have written (onset division : Nat) :
      s.expandOne l onset division (.note delta bell level) = { s with tune := some { l with lag := true } } := by
    simp only [State.expandOne, State.expandNote, low, high, State.slotFree_eq_false_iff.mpr full, and_self, if_true]
    exact State.modTune_eq hl _
  rw [State.expandTune_eq hl runs hr, written]
  rfl

end Notes

/-- R28: a TEMPO record begins a segment. -/
theorem State.expandTune_tempo (hl : s.tune = some l) (runs : l.phase.runs = true) {delta beat : Nat}
    (hr : s.record l.spec.melody l.cursor = some (.tempo delta beat)) :
    let division := l.timing.division + delta
    let onset := l.timing.onset division
    s.expandTune =
      (State.afterRecord
        { s with
          tune := some
            { l.passRecord onset division with
              timing := (l.passRecord onset division).timing.tempo onset division beat } }
        onset).testBarStop :=
  State.expandTune_written hl runs hr (State.modTune_eq hl _) rfl

/-- R110: a REST only moves the lane on. -/
theorem State.expandTune_rest (hl : s.tune = some l) (runs : l.phase.runs = true) {delta : Nat}
    (hr : s.record l.spec.melody l.cursor = some (.rest delta)) :
    let division := l.timing.division + delta
    let onset := l.timing.onset division
    s.expandTune = (State.afterRecord { s with tune := some (l.passRecord onset division) } onset).testBarStop :=
  State.expandTune_written hl runs hr (State.modTune_eq hl _) rfl

/-- R29, R117: the pending values of a lane, if it has any, begin a segment at a BAR. -/
theorem TuneLane.liveAtBar_eq (l : TuneLane) (onset division : Nat) :
    l.liveAtBar onset division =
      if l.pendingTempo.isSome = true ∨ l.pendingCap.isSome = true then
        { l with
          timing := l.timing.adjusted onset division l.pendingTempo l.pendingCap, pendingTempo := none
          pendingCap := none }
      else l := by
  simp only [TuneLane.liveAtBar, Bool.or_eq_true]

/-- What is pending at a BAR leaves a bar stop under way. -/
theorem TuneLane.liveAtBar_barStop (l : TuneLane) (onset division : Nat) :
    (l.liveAtBar onset division).barStop = l.barStop := by
  rw [TuneLane.liveAtBar_eq]
  split <;> rfl

theorem TuneLane.liveAtBar_lag (l : TuneLane) (onset division : Nat) :
    (l.liveAtBar onset division).lag = l.lag := by
  rw [TuneLane.liveAtBar_eq]
  split <;> rfl

/-- R120: a BAR ends the expansion of a lane with a bar stop under way. -/
theorem TuneLane.stopAtBar_eq {l : TuneLane} {b : Option BarStop} :
    l.barStop = b → l.stopAtBar =
      match b with
      | none => l
      | some stop => { l with phase := .draining stop.reason } := by
  rintro rfl
  rfl

theorem TuneLane.stopAtBar_lag (l : TuneLane) : l.stopAtBar.lag = l.lag := by
  unfold TuneLane.stopAtBar
  split <;> rfl

/-- R29, R120: a BAR makes the pending values live, and ends a lane with a bar stop under way. -/
theorem State.expandTune_bar (hl : s.tune = some l) (runs : l.phase.runs = true) {delta : Nat}
    (hr : s.record l.spec.melody l.cursor = some (.bar delta)) :
    let division := l.timing.division + delta
    let onset := l.timing.onset division
    s.expandTune =
      (State.afterRecord
        { s with tune := some ((l.passRecord onset division).liveAtBar onset division).stopAtBar }
        onset).testBarStop := by
  refine State.expandTune_written hl runs hr (State.modTune_eq hl _) ?_
  exact (TuneLane.stopAtBar_lag _).trans (TuneLane.liveAtBar_lag ..)

/-- R109: when the next record is due. -/
theorem State.recordDue_iff (hl : s.tune = some l) {r : ScoreRecord}
    (hr : s.record l.spec.melody l.cursor = some r) :
    s.recordDue = true ↔ s.held = false ∧ l.phase.runs = true ∧ l.lag = false
      ∧ l.timing.onset (l.timing.division + r.delta) ≤ s.now + 5000 := by
  simp [State.recordDue, hl, State.nextOnset_eq hr, and_assoc]

/-- R109: with RESET held, the lane IDLE or no record left, none is due. -/
theorem State.recordDue_of_idle (h : s.held = true ∨ s.tune = none) : s.recordDue = false := by
  obtain held | idle := h
  · simp [State.recordDue, held]
  · simp [State.recordDue, idle]

theorem State.recordDue_of_end (hl : s.tune = some l) (hr : s.record l.spec.melody l.cursor = none) :
    s.recordDue = false := by
  simp [State.recordDue, hl, State.nextOnset_eq hr]

theorem exec_expandRecord_due (due : s.recordDue = true) {t : State} (h : s.expandTune = t) :
    exec .expandRecord s = .next t.settle := by
  subst h
  exact if_pos due

theorem exec_expandRecord_idle (h : s.recordDue = false) : exec .expandRecord s = .next s :=
  if_neg (Bool.eq_false_iff.mp h)

end Records

/-- Settles O46: the test of a bar stop, the record that is due by its kind, and the end of a pass. -/
theorem recordsAndPassesExpand : Obligations.RecordsAndPassesExpand := by
  unfold Obligations.RecordsAndPassesExpand
  refine ⟨⟨fun s => State.testBarStop_of_none, ?_, fun s idle =>
    exec_expandRecord_idle (State.recordDue_of_idle idle), ?_⟩, ?_⟩
  · intro s l stop hl runs hs
    refine ⟨fun barless => State.testBarStop_stops hl runs hs (.inl barless), fun bars => ⟨fun end_ => ?_, ?_⟩⟩
    · refine State.testBarStop_waits hl runs hs bars fun onset next => ?_
      rw [State.nextOnset_eq end_] at next
      cases next
    · intro rec hr
      have next := State.nextOnset_eq hr
      refine ⟨fun beyond => State.testBarStop_stops hl runs hs (.inr ⟨_, next, beyond⟩), fun within => ?_⟩
      refine State.testBarStop_waits hl runs hs bars fun onset h => ?_
      cases next.symm.trans h
      exact within
  · intro s l rec hl
    refine ⟨fun hr => exec_expandRecord_idle (State.recordDue_of_end hl hr), fun hr => ⟨fun wait => ?_, ?_⟩⟩
    · refine exec_expandRecord_idle (Bool.eq_false_iff.mpr fun due => ?_)
      obtain ⟨-, runs, lag, near⟩ := (State.recordDue_iff hl hr).mp due
      obtain stopped | lags | far := wait
      · exact absurd runs (Bool.eq_false_iff.mp stopped)
      · exact absurd lags (Bool.eq_false_iff.mp lag)
      · exact absurd near (Nat.not_le.mpr far)
    · intro held runs lag near
      have due := (State.recordDue_iff hl hr).mpr ⟨held, runs, lag, near⟩
      refine ⟨?_, ?_, ?_, ?_⟩
      · rintro delta bell level rfl
        refine ⟨fun out => ?_, fun low high => ⟨fun free => ?_, fun full => ?_⟩⟩
        · exact exec_expandRecord_due due (State.expandTune_range hl runs hr out)
        · exact exec_expandRecord_due due (State.expandTune_queued hl runs hr low high free)
        · exact exec_expandRecord_due due (State.expandTune_refused hl runs hr low high full)
      · rintro delta rfl
        exact exec_expandRecord_due due (State.expandTune_rest hl runs hr)
      · rintro delta beat rfl
        exact exec_expandRecord_due due (State.expandTune_tempo hl runs hr)
      · rintro delta rfl
        have lane := State.expandTune_bar hl runs hr
        dsimp only at lane
        rw [TuneLane.stopAtBar_eq (TuneLane.liveAtBar_barStop ..), TuneLane.liveAtBar_eq] at lane
        exact exec_expandRecord_due due lane
  · intro s l onset hl
    refine ⟨fun h => State.afterRecord_of_not_last hl h onset, fun runs last => ?_⟩
    rw [State.afterRecord_of_last hl runs last]
    refine ⟨fun done => ?_, fun more => ?_⟩
    · rw [TuneLane.endPass_last done]
    · rw [TuneLane.endPass_next more]
      refine ⟨fun barless => ?_, fun bars => ?_⟩
      · rw [beq_iff_eq.mpr barless]
        rfl
      · rw [beq_eq_false_iff_ne.mpr (Nat.ne_of_gt bars)]
        rfl

end Sys2Proof.Machine
end

section
/-! SUPPORT. The settling that ends every event of the lanes (R111, R113, R178): what it leaves of the bells, the
melodies, the cues and the serial line, when it does nothing, and what each of its parts does. -/

namespace Sys2Proof.Machine

/-! ## What the edits of the lanes leave alone -/

/-- R59: the two records differ in their drop count and last drop reason alone. -/
def Bell.SameButDrops (r q : Bell) : Prop :=
  ∃ counters last, q = { r with counters := counters, lastDrop := last } ∧
    { counters with drop := 0 } = { r.counters with drop := 0 }

theorem Bell.SameButDrops.refl (r : Bell) : r.SameButDrops r := ⟨_, _, rfl, rfl⟩

theorem Bell.SameButDrops.trans {p q r : Bell} (h : p.SameButDrops q) (k : q.SameButDrops r) : p.SameButDrops r := by
  obtain ⟨c, last, rfl, hc⟩ := h
  obtain ⟨c', last', rfl, hc'⟩ := k
  exact ⟨c', last', rfl, hc'.trans hc⟩

/-- R58: a summary is no matter of the bells. -/
theorem State.bell_tally (s : State) (o : Origin) (f : Summary → Summary) (b : Nat) : (s.tally o f).bell b = s.bell b :=
  State.bell_congr (by simp) b

/-- R56: a drop counts on the bell of its entry. -/
theorem State.bell_drop (s : State) (e : Entry) (reason : DropReason) (b : Nat) :
    (s.drop e reason).bell b =
      if b = e.bell ∧ 1 ≤ e.bell ∧ e.bell ≤ 64 then
        { s.bell e.bell with
          counters := { (s.bell e.bell).counters with drop := bump16 (s.bell e.bell).counters.drop }
          lastDrop := some reason }
      else s.bell b :=
  (State.bell_tally ..).trans (State.bell_modBell ..)

/-- What the edits of the lanes leave: the coil-wait list but for removed entries, the bells but for their drops, the
melodies but for their holds, and the cues but for their latches. -/
structure State.Spares (s t : State) : Prop where
  waiting : t.waiting.Sublist s.waiting
  bell : ∀ b, (s.bell b).SameButDrops (t.bell b)
  melody : ∀ m, ∃ held, t.melody m = { s.melody m with held := held }
  cue : ∀ c, ∃ latch, t.cue c = { s.cue c with latch := latch }

namespace State.Spares

variable {s t u : State}

theorem refl (s : State) : s.Spares s where
  waiting := .refl _
  bell := fun _ => .refl _
  melody := fun _ => ⟨_, rfl⟩
  cue := fun _ => ⟨_, rfl⟩

theorem trans (h : s.Spares t) (k : t.Spares u) : s.Spares u where
  waiting := k.waiting.trans h.waiting
  bell := fun b => (h.bell b).trans (k.bell b)
  melody := by
    intro m
    obtain ⟨x, hx⟩ := h.melody m
    obtain ⟨y, hy⟩ := k.melody m
    exact ⟨y, by rw [hy, hx]⟩
  cue := by
    intro c
    obtain ⟨x, hx⟩ := h.cue c
    obtain ⟨y, hy⟩ := k.cue c
    exact ⟨y, by rw [hy, hx]⟩

/-- A change of none of the four. -/
theorem of_eq (waiting : t.waiting = s.waiting) (bells : t.bells = s.bells) (melodies : t.melodies = s.melodies)
    (cues : t.cues = s.cues) : s.Spares t where
  waiting := waiting ▸ .refl _
  bell := fun b => State.bell_congr bells b ▸ .refl _
  melody := fun m => ⟨_, State.melody_congr melodies m⟩
  cue := fun c => ⟨_, State.cue_congr cues c⟩

/-- R56: a drop counts on its bell alone. -/
theorem drop (s : State) (e : Entry) (reason : DropReason) : s.Spares (s.drop e reason) where
  waiting := by
    rw [show (s.drop e reason).waiting = s.waiting by simp]
  bell := by
    intro b
    rw [State.bell_drop]
    split
    next here =>
      rw [here.1]
      exact ⟨_, _, rfl, rfl⟩
    next => exact .refl _
  melody := fun m => ⟨_, State.melody_congr (by simp) m⟩
  cue := fun c => ⟨_, State.cue_congr (by simp) c⟩

theorem dropAll (gone : List Entry) (s : State) : s.Spares (gone.foldl (fun s e => s.drop e .stop) s) := by
  induction gone generalizing s with
  | nil => exact .refl _
  | cons e rest ih => exact .trans (.drop s e .stop) (ih _)

/-- R59: the entries of an origin leave the list, each as a drop. -/
theorem removeOrigin (s : State) (o : Origin) : s.Spares (s.removeOrigin o) := by
  have left : s.Spares
      { s with
        queue := s.queue.filter (fun e => e.origin != o)
        waiting := s.waiting.filter (fun e => e.origin != o) } :=
    { refl s with waiting := List.filter_sublist }
  exact left.trans (.dropAll ..)

/-- R113: the end of the TUNE lane releases a hold. -/
theorem drainTune (s : State) : s.Spares s.drainTune := by
  obtain e | ⟨l, reason, -, -, -, e⟩ := s.drainTune_cases
  · rw [e]
    exact .refl _
  · rw [e]
    refine { refl s with melody := fun m => ?_ }
    show ∃ held, (State.setMelody _ l.spec.melody { s.melody l.spec.melody with held := false }).melody m = _
    rw [State.melody_setMelody]
    split
    next here =>
      rw [here.1]
      exact ⟨_, rfl⟩
    next => exact ⟨_, rfl⟩

theorem drainToll (s : State) : s.Spares s.drainToll := .of_eq (by simp) (by simp) (by simp) (by simp)

/-- R178: a cue that acts clears its latch. -/
theorem clearLatch (s : State) (c : Nat) : s.Spares (s.clearLatch c) := by
  refine { refl s with cue := fun k => ?_ }
  rw [State.clearLatch, State.cue_setCue]
  split
  next here =>
    rw [here.1]
    exact ⟨_, rfl⟩
  next => exact ⟨_, rfl⟩

/-- Every edit leaves them. -/
theorem edits (e : s.Edits t) : s.Spares t := by
  refine State.Edits.keeps (P := s.Spares) e ?_ ?_ ?_ ?_ ?_ ?_ ?_ ?_ ?_ ?_ ?_ ?_ ?_ ?_ ?_ (.refl s)
  · exact fun _ h => h.trans (.of_eq rfl rfl rfl rfl)
  · exact fun _ _ _ h => h.trans (.of_eq rfl rfl rfl rfl)
  · exact fun _ _ _ h => h.trans (.of_eq rfl rfl rfl rfl)
  · exact fun _ _ _ _ h => h.trans (.of_eq rfl rfl rfl rfl)
  · exact fun _ o h => h.trans (.removeOrigin _ o)
  · exact fun _ h => h.trans (.drainTune _)
  · exact fun _ h => h.trans (.drainToll _)
  · exact fun _ _ _ h => h.trans (.of_eq rfl rfl rfl rfl)
  · exact fun _ c h => h.trans (.clearLatch _ c)
  · exact fun _ _ h => h.trans (.of_eq (by simp) (by simp) (by simp) (by simp))
  · exact fun _ _ _ h => h.trans (.of_eq rfl rfl rfl rfl)
  · exact fun _ _ _ h => h.trans (.of_eq rfl rfl rfl rfl)
  · exact fun _ _ _ h => h.trans (.of_eq rfl rfl rfl rfl)
  · exact fun _ h => h.trans (.of_eq rfl rfl rfl rfl)
  · exact fun _ _ _ h => h.trans (.of_eq rfl rfl rfl rfl)

end State.Spares

/-! ## The reply and the lines that wait (R186) -/

/-- The reply that waits and the lines that wait to be executed are the same. -/
def Serial.SameRequests (l m : Serial) : Prop := m.executed = l.executed ∧ m.input = l.input

theorem Serial.SameRequests.trans {l m n : Serial} (h : l.SameRequests m) (k : m.SameRequests n) : l.SameRequests n :=
  ⟨k.1.trans h.1, k.2.trans h.2⟩

/-- R188: a report touches neither. -/
theorem Serial.sameRequests_post (l : Serial) (kind : ReportKind) (fields : List Fld) :
    l.SameRequests (l.post kind fields) := by
  obtain ⟨k, -, -, e⟩ | ⟨-, e⟩ | ⟨-, e⟩ := l.post_cases kind fields <;> rw [e] <;> exact ⟨rfl, rfl⟩

section Requests

variable (s : State)

theorem State.drainTune_sameRequests : s.serial.SameRequests s.drainTune.serial := by
  obtain e | ⟨l, reason, -, -, -, e⟩ := s.drainTune_cases
  · rw [e]
    exact ⟨rfl, rfl⟩
  · rw [e]
    exact Serial.sameRequests_post ..

theorem State.drainToll_sameRequests : s.serial.SameRequests s.drainToll.serial := by
  obtain e | ⟨l, reason, -, -, -, e⟩ := s.drainToll_cases
  · rw [e]
    exact ⟨rfl, rfl⟩
  · rw [e]
    exact Serial.sameRequests_post ..

theorem State.settleLanes_sameRequests : s.serial.SameRequests s.settleLanes.serial := by
  have tune := (s.retryLags 2).drainTune_sameRequests
  rw [show (s.retryLags 2).serial = s.serial by simp] at tune
  exact tune.trans (State.drainToll_sameRequests _)

theorem State.offerReported_sameRequests (r : PlayRequest) : s.serial.SameRequests (s.offerReported r).serial := by
  have reported (a : Admission) : s.serial.SameRequests ((s.offer r).1.reportOffer r a).serial := by
    rw [← show (s.offer r).1.serial = s.serial by simp]
    cases a <;> exact Serial.sameRequests_post ..
  exact reported (s.offer r).2

theorem State.offerQuiet_sameRequests (r : PlayRequest) (instant : Nat) :
    s.serial.SameRequests (s.offerQuiet r instant).serial := by
  unfold State.offerQuiet
  dsimp only
  split
  · exact Serial.sameRequests_post ..
  · exact State.offerReported_sameRequests ..

theorem State.cueAct_sameRequests (c : Nat) : s.serial.SameRequests (s.cueAct c).serial := by
  unfold State.cueAct
  dsimp only
  split
  · exact ⟨rfl, rfl⟩
  · exact State.offerQuiet_sameRequests (s.clearLatch c) ..
  · exact State.offerQuiet_sameRequests (s.clearLatch c) ..
  · have := State.settleLanes_sameRequests ((s.clearLatch c).barStopTune .stop)
    rwa [show ((s.clearLatch c).barStopTune .stop).serial = s.serial by simp] at this

theorem State.settleCues_sameRequests (fuel : Nat) : s.serial.SameRequests (s.settleCues fuel).serial := by
  induction fuel generalizing s with
  | zero => exact ⟨rfl, rfl⟩
  | succ fuel ih =>
    unfold State.settleCues
    split
    · exact ⟨rfl, rfl⟩
    · rename_i c t choice
      have serial : t.serial = s.serial := by
        obtain ⟨-, rfl | rfl⟩ := choose_frame choice <;> rfl
      rw [← serial]
      exact (t.cueAct_sameRequests c).trans (ih _)

theorem State.settle_sameRequests : s.serial.SameRequests s.settle.serial :=
  s.settleLanes_sameRequests.trans (State.settleCues_sameRequests _ 4)

end Requests

/-! ## The retry of a refused record (R44, R111) -/

section Retries

variable {s : State}

theorem State.tuneLags_iff : s.tuneLags = true ↔ ∃ l, s.tune = some l ∧ l.lag = true := by
  rw [State.tuneLags_eq]
  cases s.tune <;> simp

theorem State.tollLags_iff : s.tollLags = true ↔ ∃ l, s.toll = some l ∧ l.lag = true := by
  rw [State.tollLags_eq]
  cases s.toll <;> simp

/-- R111: with every slot in use, or no lane that lags, nothing is expanded again. -/
theorem State.retryLags_of_none (h : s.slotFree = false ∨ s.tuneLags = false ∧ s.tollLags = false) (fuel : Nat) :
    s.retryLags fuel = s := by
  cases fuel with
  | zero => rfl
  | succ fuel =>
    unfold State.retryLags
    split
    · rfl
    next free =>
      obtain full | ⟨tune, toll⟩ := h
      · simp [full] at free
      · simp [tune, toll, choose]

/-- R111: where the TUNE lane is chosen, its record is expanded again. -/
theorem State.retryLags_of_tune {t : State} {l : TuneLane} (free : s.slotFree = true) (ht : t.tune = some l)
    (chosen : choose s ((if s.tuneLags then [Origin.tune] else []) ++ (if s.tollLags then [Origin.toll] else [])) =
      some (.tune, t)) (fuel : Nat) :
    s.retryLags (fuel + 1) = (State.expandTune { t with tune := some { l with lag := false } }).retryLags fuel := by
  rw [State.retryLags, if_neg (by simp [free]), chosen]
  dsimp only
  rw [State.modTune_eq ht]

/-- R111: where the TOLL lane is chosen, its stroke is expanded again. -/
theorem State.retryLags_of_toll {t : State} {l : TollLane} (free : s.slotFree = true) (ht : t.toll = some l)
    (chosen : choose s ((if s.tuneLags then [Origin.tune] else []) ++ (if s.tollLags then [Origin.toll] else [])) =
      some (.toll, t)) (fuel : Nat) :
    s.retryLags (fuel + 1) = (State.expandToll { t with toll := some { l with lag := false } }).retryLags fuel := by
  rw [State.retryLags, if_neg (by simp [free]), chosen]
  dsimp only
  rw [State.modToll_eq ht]

/-- A free choice of two takes the one or the other. -/
theorem choose_pair {α : Type} (s : State) (x y : α) :
    choose s [x, y] = some (x, { s with choices := s.choices + 1 }) ∨
      choose s [x, y] = some (y, { s with choices := s.choices + 1 }) := by
  obtain first | second : Config.arbiter s.choices % 2 = 0 ∨ Config.arbiter s.choices % 2 = 1 := by omega
  · left
    simp [choose, first]
  · right
    simp [choose, second]

end Retries

/-! ## The ends of the lanes and the cues (R113, R178) -/

section Ends

variable {s : State}

/-- R113: a lane that runs, or has an entry or a coil left, does not end. -/
theorem State.drainTune_of_left (h : ∀ l, s.tune = some l → l.phase.runs = false → s.laneDrained .tune = false) :
    s.drainTune = s := by
  obtain e | ⟨l, reason, hl, hp, drained, -⟩ := s.drainTune_cases
  · exact e
  · exact absurd drained (Bool.eq_false_iff.mp (h l hl (by rw [hp]; rfl)))

theorem State.drainToll_of_left (h : ∀ l, s.toll = some l → l.phase.runs = false → s.laneDrained .toll = false) :
    s.drainToll = s := by
  obtain e | ⟨l, reason, hl, hp, drained, -⟩ := s.drainToll_cases
  · exact e
  · exact absurd drained (Bool.eq_false_iff.mp (h l hl (by rw [hp]; rfl)))

/-- R113: a DRAINING TUNE lane with nothing left becomes IDLE, with its END and its hold released. -/
theorem State.drainTune_of_drained {l : TuneLane} {reason : EndReason} (hl : s.tune = some l)
    (hp : l.phase = .draining reason) (drained : s.laneDrained .tune = true) :
    s.drainTune =
      { (s.post .ended ([.num l.request.id, endWord reason] ++ summaryFields l.summary)).setMelody l.spec.melody
          { s.melody l.spec.melody with held := false } with tune := none } := by
  simp only [State.drainTune, hl, hp, drained, if_true]
  rfl

/-- R113: a DRAINING TOLL lane with nothing left becomes IDLE, with its END. -/
theorem State.drainToll_of_drained {l : TollLane} {reason : EndReason} (hl : s.toll = some l)
    (hp : l.phase = .draining reason) (drained : s.laneDrained .toll = true) :
    s.drainToll =
      { s.post .ended ([.num l.request.id, endWord reason] ++ summaryFields l.summary) with toll := none } := by
  simp only [State.drainToll, hl, hp, drained, if_true]

/-- R178: with no cue ready none acts. -/
theorem State.settleCues_of_none (h : ∀ c ∈ [1, 2, 3, 4], s.cueReady c = false) (fuel : Nat) :
    s.settleCues fuel = s := by
  have none : (List.range' 1 4).filter s.cueReady = [] :=
    List.filter_eq_nil_iff.mpr fun c hc => Bool.eq_false_iff.mp (h c hc)
  cases fuel with
  | zero => rfl
  | succ fuel =>
    rw [State.settleCues, none]
    rfl

/-- With no lag, nothing drained and no cue ready there is nothing to settle. -/
theorem State.settle_of_settled (tune : s.tuneLags = false) (toll : s.tollLags = false) (settled : s.LanesSettled)
    (cues : ∀ c ∈ [1, 2, 3, 4], s.cueReady c = false) : s.settle = s := by
  have lanes : s.settleLanes = s := by
    rw [State.settleLanes, State.retryLags_of_none (.inr ⟨tune, toll⟩), State.drainTune_of_left settled.tuneDrains,
      State.drainToll_of_left settled.tollDrains]
  rw [State.settle, lanes, State.settleCues_of_none cues]

end Ends

/-- Settles O51: what settling leaves alone by the edits it is made of, the retries by the lane that is chosen, and the
expansions by the lemmas on `State.expandTune` and `State.expandToll`. -/
theorem settlingFrees : Obligations.SettlingFrees := by
  unfold Obligations.SettlingFrees
  refine ⟨?settling, ?expansion, fun _ => rfl, rfl, rfl, rfl, rfl⟩
  case settling =>
    refine ⟨fun s => ⟨rfl, rfl⟩, fun s fuel h => ?_, fun s => ?_, fun s => State.settle_of_settled,
      fun s l reason hl hp => ⟨fun left => ?_, State.drainTune_of_drained hl hp⟩,
      fun s l reason hl hp => ⟨fun left => ?_, State.drainToll_of_drained hl hp⟩⟩
    · exact State.retryLags_of_none (h.imp_left State.slotFree_eq_false_iff.mpr) fuel
    · have kept := State.Spares.edits (.settle s)
      obtain ⟨executed, input⟩ := s.settle_sameRequests
      simp only [State.settle_frame, true_and]
      exact ⟨s.settle_settled, kept.waiting, executed, input, kept.bell, kept.melody, kept.cue⟩
    · exact State.drainTune_of_left fun _ _ _ => left
    · exact State.drainToll_of_left fun _ _ _ => left
  case expansion =>
    refine ⟨fun s fuel => ⟨rfl, fun room => ⟨?_, ?_, ?_⟩⟩, fun s => ⟨State.tuneLags_iff, State.tollLags_iff⟩,
      fun s l hl => ⟨State.expandTune_of_stopped hl, fun delta bell level runs hr => ?_⟩,
      fun s l hl => ⟨State.expandToll_of_stopped hl, fun runs => ?_⟩⟩
    · intro l hl lag toll
      refine State.retryLags_of_tune (State.slotFree_iff.mpr room) hl ?_ fuel
      rw [State.tuneLags_iff.mpr ⟨l, hl, lag⟩, toll]
      rfl
    · intro l hl lag tune
      refine State.retryLags_of_toll (State.slotFree_iff.mpr room) hl ?_ fuel
      rw [tune, State.tollLags_iff.mpr ⟨l, hl, lag⟩]
      rfl
    · intro l m hl hm tuneLag tollLag u
      have candidates : (if s.tuneLags then [Origin.tune] else []) ++ (if s.tollLags then [Origin.toll] else []) =
          [.tune, .toll] := by
        rw [State.tuneLags_iff.mpr ⟨l, hl, tuneLag⟩, State.tollLags_iff.mpr ⟨m, hm, tollLag⟩]
        rfl
      refine (choose_pair s Origin.tune Origin.toll).imp (fun chosen => ?_) (fun chosen => ?_)
      · exact State.retryLags_of_tune (State.slotFree_iff.mpr room) (t := u) hl (by rw [candidates, chosen]) fuel
      · exact State.retryLags_of_toll (State.slotFree_iff.mpr room) (t := u) hm (by rw [candidates, chosen]) fuel
    · exact ⟨State.expandTune_range hl runs hr, fun low high =>
        ⟨State.expandTune_queued hl runs hr low high, State.expandTune_refused hl runs hr low high⟩⟩
    · exact ⟨State.expandToll_range hl runs, fun low high =>
        ⟨State.expandToll_queued hl runs low high, State.expandToll_refused hl runs low high⟩⟩

end Sys2Proof.Machine
end

section
/-! SUPPORT. Every step keeps the dispatcher's bounds, and a held RESET keeps the blocks at rest: the few commands that
are taken while RESET is low, the requests, and the events. -/

namespace Sys2Proof

/-! ## The rows that touch the dispatcher or a held RESET -/

/-- The commands of the pins that RESET held low does not shut out: a power-on reset, the rise of RESET, and the changes
of the levels of the lines. -/
def Instr.passesHeld : Instr → Bool
  | .powerOnReset _ => true
  | .resetLineRise _ => true
  | .senseActiveEdge _ => true
  | .senseReleaseEdge _ => true
  | .cueLineChange _ => true
  | .supgoodFall => true
  | .supgoodRise => true
  | _ => false

/-- The rows of the dispatcher itself. -/
def Instr.dispatches : Instr → Bool
  | .dispatch => true
  | .coilRelease _ => true
  | .coilWaitDeadline _ => true
  | _ => false

/-- The rows of the resets. -/
def Instr.resets : Instr → Bool
  | .powerOnReset _ => true
  | .resetLineFall => true
  | .resetLineRise _ => true
  | .warmResetCommand _ => true
  | _ => false

/-- R60, R61: the requests that make an entry of their own. -/
def Instr.strikes : Instr → Bool
  | .strike _ _ => true
  | .test _ _ => true
  | _ => false

namespace Machine

/-! ## While RESET is held low (R195) -/

/-- No other command is taken while RESET is held low. -/
theorem passesHeld_of_conditionOf {i : Instr} {s : State} (held : s.held = true) (h : conditionOf i s = true) :
    i.passesHeld = true := by
  have shut : s.canExecute = false := by simp [State.canExecute, held]
  cases i <;>
    simp [conditionOf, Instr.passesHeld, held, shut, State.warmResetDue, State.lineDue, State.transmitDue,
      State.dispatchDue, State.coilDue, State.deadlineDue, State.windowDue, State.stuckDue, State.expiryDue,
      State.tuneTakeDue, State.recordDue, State.tollTakeDue, State.strokeDue, State.cutDue, State.boundaryDue,
      State.tickDue, State.rangeEndDue, State.pulseLossDue, State.debounceDue, State.lossDue, State.recoveryDue,
      State.saveRunning, State.saveLate] at h ⊢

theorem runRequest_held (i : Instr) (s : State) : (runRequest i s).held = s.held := by
  cases i <;> simp [runRequest]

/-- R185, R186: the execution of a line is a request, or touches the serial line alone. -/
theorem State.executeLine_cases (s : State) :
    ∃ l : Serial, s.executeLine = { s with serial := l } ∨ ∃ i, s.executeLine = runRequest i { s with serial := l } := by
  unfold State.executeLine
  split
  · exact ⟨s.serial, .inl rfl⟩
  · unfold State.runLine
    split
    · exact ⟨_, .inr ⟨_, rfl⟩⟩
    all_goals exact ⟨_, .inl rfl⟩

theorem State.executeLine_held (s : State) : s.executeLine.held = s.held := by
  obtain ⟨l, e | ⟨i, e⟩⟩ := s.executeLine_cases
  · rw [e]
  · rw [e, runRequest_held]

/-- Of all commands the fall of RESET alone can leave it held low where it was high. -/
theorem effectOf_held {i : Instr} {s : State} (high : s.held = false) (h : i ≠ .resetLineFall) :
    (effectOf i s).held = false := by
  cases i
  case resetLineFall => exact absurd rfl h
  case lineExecute => exact s.executeLine_held.trans high
  case senseActiveEdge | senseReleaseEdge | windowEnd | cueLineChange | supgoodFall | supgoodRise =>
    simp only [effectOf, State.activeEdge, State.releaseEdge, State.endWindow, State.changeCueLine]
    split <;> simp [high]
  case powerOnReset | resetLineRise | warmResetCommand | lineReceived | transmitLine | dispatch | coilRelease
    | coilWaitDeadline | stuckTimeout | expired | tuneTake | expandRecord | tollTake | expandStroke | cutOrder
    | secondBoundary | slewTick | wallClockRangeEnd | secpulseEdge | pulseLoss | cueDebounceExpire | supplyLost
    | supplyGood | saveComplete | saveTimeout | characterReceived =>
    simp [effectOf, State.powerOn, high]
  all_goals exact (runRequest_held _ s).trans high

/-- While RESET is held low a change of a line changes levels alone. -/
theorem State.AtRest.effectOf {s : State} (h : s.AtRest) (held : s.held = true) {i : Instr}
    (pass : i.passesHeld = true) (low : (effectOf i s).held = true) : (effectOf i s).AtRest := by
  cases i
  case powerOnReset | resetLineRise => cases low
  case senseActiveEdge | senseReleaseEdge | cueLineChange | supgoodFall | supgoodRise =>
    refine h.congr ?_ ?_ ?_ ?_ ?_ ?_ ?_ ?_ <;>
      simp [Machine.effectOf, State.activeEdge, State.releaseEdge, State.changeCueLine, held]
  all_goals cases pass

/-- R195: a command leaves RESET high, or the blocks at rest. -/
theorem State.RestsWhileHeld.effectOf {s : State} (h : s.RestsWhileHeld) {i : Instr} (taken : conditionOf i s = true) :
    (effectOf i s).RestsWhileHeld := by
  intro low
  by_cases held : s.held = true
  · exact (h held).effectOf held (passesHeld_of_conditionOf held taken) low
  · by_cases fall : i = .resetLineFall
    · subst fall
      exact (State.AtRest.warm s .line).congr rfl rfl rfl rfl rfl rfl rfl rfl
    · rw [effectOf_held (by simpa using held) fall] at low
      cases low

/-! ## Events that end in edits of the lanes

Every command but the dispatcher's own rows and the live strikes leaves the dispatcher alone and then, at most, makes
the edits of the lanes and the cues. -/

/-- The dispatcher of two states is the same. -/
structure State.SameDispatcher (s t : State) : Prop where
  queue : t.queue = s.queue
  waiting : t.waiting = s.waiting
  coils : t.coils = s.coils
  coilBudget : t.coilBudget = s.coilBudget
  bellCount : t.bellCount = s.bellCount

/-- R194: a load from the image leaves the dispatcher alone. -/
theorem State.load_sameDispatcher (s : State) : s.SameDispatcher s.load := by
  unfold State.load
  split
  · exact ⟨rfl, rfl, rfl, rfl, rfl⟩
  · exact ⟨rfl, rfl, rfl, rfl, rfl⟩
  · split
    · rw [State.loadContents_frame]
      exact ⟨rfl, rfl, rfl, rfl, rfl⟩
    · exact ⟨rfl, rfl, rfl, rfl, rfl⟩

/-- A change that leaves the dispatcher alone, and then edits of the lanes and the cues. -/
def State.LeadsTo (s t : State) : Prop := ∃ u, s.SameDispatcher u ∧ u.Edits t

namespace State.LeadsTo

theorem of_same {s t : State} (h : s.SameDispatcher t) : s.LeadsTo t := ⟨t, h, .refl t⟩

theorem edits_after {s u t : State} (e : u.Edits t) (h : s.SameDispatcher u) : s.LeadsTo t := ⟨u, h, e⟩

theorem of_edits {s t : State} (h : s.Edits t) : s.LeadsTo t := edits_after h ⟨rfl, rfl, rfl, rfl, rfl⟩

theorem cancelRequest (tag : Text) (fields : List Text) (s : State) : s.LeadsTo (cancelRequest tag fields s) := by
  unfold Machine.cancelRequest
  repeat' split
  case h_2.isTrue => exact edits_after (.settle _) ⟨rfl, rfl, rfl, rfl, rfl⟩
  all_goals exact of_same ⟨rfl, rfl, rfl, rfl, rfl⟩

theorem stopNowRequest (tag lane : Text) (more : List Text) (s : State) :
    s.LeadsTo (stopNowRequest tag lane more s) := by
  refine of_edits ?_
  unfold Machine.stopNowRequest
  repeat' split
  · exact .err ..
  · exact .err ..
  · exact .trans (.stopTuneNow ..) (.replyTuneStop ..)
  · exact .trans (.stopTollNow ..) (.replyTollStop ..)

theorem stopBarRequest (tag lane : Text) (more : List Text) (s : State) :
    s.LeadsTo (stopBarRequest tag lane more s) := by
  refine of_edits ?_
  unfold Machine.stopBarRequest
  repeat' split
  · exact .err ..
  · exact .err ..
  · exact .trans (.barStopTune ..) (.replyTuneStop ..)
  · exact .trans (.barStopToll ..) (.replyTollStop ..)

theorem cueEnableRequest (tag c : Text) (more : List Text) (s : State) :
    s.LeadsTo (cueEnableRequest tag c more s) := by
  unfold Machine.cueEnableRequest
  repeat' split
  case h_2.isFalse.isFalse => exact edits_after (.settleCues ..) ⟨rfl, rfl, rfl, rfl, rfl⟩
  all_goals exact of_same ⟨rfl, rfl, rfl, rfl, rfl⟩

/-- Every request but a live strike. -/
theorem runRequest {i : Instr} (strikes : i.strikes = false) (s : State) : s.LeadsTo (runRequest i s) := by
  cases i
  case strike | test => cases strikes
  case cancel => exact cancelRequest ..
  case stopNow => exact stopNowRequest ..
  case stopBar => exact stopBarRequest ..
  case cueEnable => exact cueEnableRequest ..
  all_goals exact of_same (by constructor <;> simp [Machine.runRequest])

theorem expire (id : Nat) (s : State) : s.LeadsTo (s.expire id) := by
  unfold State.expire
  split
  · exact of_edits (.refl s)
  · exact edits_after (.settle _) ⟨rfl, rfl, rfl, rfl, rfl⟩

theorem takeFirstTune (s : State) : s.LeadsTo s.takeFirstTune := by
  unfold State.takeFirstTune
  repeat' split
  · exact of_edits (.refl s)
  · exact edits_after (.settle _) (by constructor <;> simp)
  · exact of_edits (.refl s)

theorem cutOrder (id : Nat) (s : State) : s.LeadsTo (s.cutOrder id) :=
  ⟨s.markCut id, ⟨rfl, rfl, rfl, rfl, rfl⟩, .trans (.post ..) (.trans (.barStopTune ..) (.settle _))⟩

theorem loseSupply (s : State) : s.LeadsTo s.loseSupply :=
  ⟨{ s with supply := .lost }, ⟨rfl, rfl, rfl, rfl, rfl⟩,
    .trans (.post ..) (.trans (.stopTuneNow ..) (.trans (.stopTollNow ..) (.settle _)))⟩

end State.LeadsTo

theorem effectOf_leadsTo {i : Instr} (dispatches : i.dispatches = false) (resets : i.resets = false)
    (strikes : i.strikes = false) (line : i ≠ .lineExecute) (s : State) : s.LeadsTo (effectOf i s) := by
  cases i
  case powerOnReset | resetLineFall | resetLineRise | warmResetCommand => cases resets
  case dispatch | coilRelease | coilWaitDeadline => cases dispatches
  case strike | test => cases strikes
  case lineExecute => exact absurd rfl line
  case expired id => exact .expire id s
  case tuneTake => exact .takeFirstTune s
  case expandRecord => exact .of_edits (.trans (.expandTune s) (.settle _))
  case expandStroke => exact .of_edits (.trans (.expandToll s) (.settle _))
  case cutOrder id => exact .cutOrder id s
  case cueDebounceExpire c => exact ⟨s.acceptChange c, by constructor <;> simp, .settleCues 4 _⟩
  case supplyLost => exact .loseSupply s
  case senseActiveEdge | senseReleaseEdge | windowEnd | cueLineChange | supgoodFall | supgoodRise =>
    refine .of_same ?_
    simp only [effectOf, State.activeEdge, State.releaseEdge, State.endWindow, State.changeCueLine]
    split <;> constructor <;> simp
  case lineReceived | transmitLine | stuckTimeout | tollTake | secondBoundary | slewTick | wallClockRangeEnd
    | secpulseEdge | pulseLoss | supplyGood | saveComplete | saveTimeout | characterReceived =>
    exact .of_same (by constructor <;> simp [effectOf])
  all_goals exact .runRequest strikes s

/-! ## The dispatcher (R42, R43, R49, R53, R54) -/

namespace State.DispatcherSound

theorem same {s t : State} (h : s.DispatcherSound) (e : s.SameDispatcher t) : t.DispatcherSound :=
  h.congr e.queue e.waiting e.coils e.coilBudget e.bellCount

theorem leadsTo {s t : State} (h : s.DispatcherSound) (k : s.LeadsTo t) : t.DispatcherSound := by
  obtain ⟨u, same, edits⟩ := k
  exact (h.same same).edits edits

/-- R60: a live strike takes a free slot, for a fitted bell. -/
theorem liveRequest {s : State} (h : s.DispatcherSound) (o : Origin) (tag : Text) (fields : List Text) :
    (liveRequest o tag fields s).DispatcherSound := by
  have refused (code : ErrCode) : (s.err tag code).DispatcherSound := h.congr rfl rfl rfl rfl rfl
  unfold Machine.liveRequest
  split
  · split
    · rename_i b level bell _
      split
      · rename_i free
        obtain ⟨-, low, high⟩ := State.readBell_eq_some_iff.mp bell
        exact (h.enqueue (s.liveEntry b (clampLevel level) o) (State.slotFree_iff.mp free) ⟨low, high⟩).congr
          rfl rfl rfl rfl rfl
      · exact refused _
    · exact refused _
  · exact refused _

theorem runRequest {s : State} (h : s.DispatcherSound) (i : Instr) : (runRequest i s).DispatcherSound := by
  cases strikes : i.strikes
  · exact h.leadsTo (.runRequest strikes s)
  · cases i
    case strike tag fields => exact h.liveRequest .strike tag fields
    case test tag fields => exact h.liveRequest .test tag fields
    all_goals cases strikes

theorem executeLine {s : State} (h : s.DispatcherSound) : s.executeLine.DispatcherSound := by
  have same (l : Serial) : { s with serial := l }.DispatcherSound := h.same ⟨rfl, rfl, rfl, rfl, rfl⟩
  obtain ⟨l, e | ⟨i, e⟩⟩ := s.executeLine_cases
  · exact e ▸ same l
  · exact e ▸ (same l).runRequest i

/-- A reset ends with nothing at the dispatcher, whose bounds the straps may then change. -/
theorem of_resets {s : State} (rest : s.RestsWhileHeld) {i : Instr}
    (resets : i.resets = true) (taken : conditionOf i s = true) : (effectOf i s).DispatcherSound := by
  cases i
  case powerOnReset pins =>
    obtain ⟨queue, waiting, coils, -, -⟩ := State.load_sameDispatcher
      { State.blank with pending := s.pending, choices := s.choices, image := s.image }
    exact .empty queue waiting coils
  case resetLineFall => exact .empty rfl rfl rfl
  case resetLineRise pins => exact .empty (rest taken).queue (rest taken).waiting (rest taken).coils
  case warmResetCommand pins => exact .empty rfl rfl rfl
  all_goals cases resets

/-- Every command keeps the dispatcher's bounds, where a held RESET keeps the blocks at rest. -/
theorem effectOf {s : State} (h : s.DispatcherSound) (rest : s.RestsWhileHeld) {i : Instr}
    (taken : conditionOf i s = true) : (effectOf i s).DispatcherSound := by
  cases i
  case powerOnReset | resetLineFall | resetLineRise | warmResetCommand => exact of_resets rest rfl taken
  case dispatch => exact h.dispatchHead.edits (.settle _)
  case coilRelease b => exact (h.releaseCoil b taken).edits (.settle _)
  case coilWaitDeadline p => exact (h.dropAtDeadline p).edits (.settle _)
  case strike tag fields => exact h.liveRequest .strike tag fields
  case test tag fields => exact h.liveRequest .test tag fields
  case lineExecute => exact h.executeLine
  all_goals exact h.leadsTo (effectOf_leadsTo rfl rfl rfl (by simp) s)

end State.DispatcherSound

/-- What every step keeps: the rest under a held RESET, and with it the dispatcher's bounds. -/
def State.DispatcherKept (s : State) : Prop := s.RestsWhileHeld ∧ s.DispatcherSound

/-- Settles O9: every command's effect keeps a held RESET's blocks at rest and the dispatcher's bounds, and nothing else
in a step touches them. -/
theorem dispatcherStaysSound : Obligations.DispatcherStaysSound := by
  unfold Obligations.DispatcherStaysSound
  have grain (s : State) (f : Timebase → Timebase) : s.AtRest → (s.modTime f).AtRest :=
    fun h => h.congr rfl rfl rfl rfl rfl rfl rfl rfl
  have queue (s : State) (cs : List Instr) : s.AtRest → { s with pending := cs }.AtRest :=
    fun h => h.congr rfl rfl rfl rfl rfl rfl rfl rfl
  have choice (s : State) : s.AtRest → { s with choices := s.choices + 1 }.AtRest :=
    fun h => h.congr rfl rfl rfl rfl rfl rfl rfl rfl
  refine ⟨fun s t rest hstep => ?_, fun s t rest h hstep => ?_⟩
  · refine step_keeps (P := State.RestsWhileHeld) hstep rest ?_ ?_ ?_ ?_
    · exact fun i s t rest he => exec_keeps he rest rest.effectOf
    · exact fun s rest low => grain s _ (rest low)
    · exact fun s cs rest low => queue s cs (rest low)
    · exact fun s rest low => choice s (rest low)
  · refine (step_keeps (P := State.DispatcherKept) hstep ⟨rest, h⟩ ?_ ?_ ?_ ?_).2
    · exact fun i s t ⟨rest, h⟩ he => exec_keeps (P := State.DispatcherKept) he ⟨rest, h⟩ fun taken =>
        ⟨rest.effectOf taken, h.effectOf rest taken⟩
    · exact fun s ⟨rest, h⟩ => ⟨fun low => grain s _ (rest low), h.same ⟨rfl, rfl, rfl, rfl, rfl⟩⟩
    · exact fun s cs ⟨rest, h⟩ => ⟨fun low => queue s cs (rest low), h.same ⟨rfl, rfl, rfl, rfl, rfl⟩⟩
    · exact fun s ⟨rest, h⟩ => ⟨fun low => choice s (rest low), h.same ⟨rfl, rfl, rfl, rfl, rfl⟩⟩

end Machine

end Sys2Proof
end

section
/-! SUPPORT. Live strikes (R60, R61): what STRIKE and TEST queue, reply and refuse, and where an entry stands (R43). -/

namespace Sys2Proof.Machine

/-- R43, R53: an element is put behind all that it does not stand before, up to the first that it stands before. -/
theorem exists_insertBy_eq {α : Type} (before : α → α → Bool) (e : α) (xs : List α) :
    ∃ front back, xs = front ++ back ∧ insertBy before e xs = front ++ e :: back ∧
      (∀ x ∈ front, before e x = false) ∧ ∀ x ∈ back.head?, before e x = true := by
  induction xs with
  | nil => exact ⟨[], [], rfl, rfl, by simp, by simp⟩
  | cons y rest ih =>
    unfold insertBy
    split
    next stands => exact ⟨[], y :: rest, rfl, rfl, by simp, by simpa using stands⟩
    next behind =>
      obtain ⟨front, back, rfl, inserted, low, high⟩ := ih
      exact ⟨y :: front, back, rfl, by rw [inserted]; rfl, by simpa [behind] using low, high⟩

/-- R43: the order of the strike queue. -/
theorem Entry.firesBefore_iff (a b : Entry) :
    a.firesBefore b = true ↔
      a.fire < b.fire ∨ (a.fire = b.fire ∧
        (a.origin.rank < b.origin.rank ∨ (a.origin.rank = b.origin.rank ∧ a.bell < b.bell))) := by
  simp [Entry.firesBefore]

/-- R46: step 1 turns away a DISABLED bell, and a FAULTED bell unless for a TEST. -/
theorem healthBars_iff (h : Health) (o : Origin) :
    healthBars h o = true ↔ h = .disabled ∨ ((∃ cause, h = .faulted cause) ∧ o ≠ .test) := by
  cases h <;> simp [healthBars]

section Live

variable {s : State} {tag f g : Text} {b n : Nat} {o : Origin}

/-- R60: with a slot free the entry is queued. -/
theorem liveRequest_queued (hb : s.readBell f = some b) (hn : readNat g = some n) (free : s.slotFree = true) :
    liveRequest o tag [f, g] s =
      (s.enqueue (s.liveEntry b (clampLevel n) o)).ok tag [.num b, .num (clampLevel n)] := by
  simp only [liveRequest, hb, hn, free, if_true]

/-- R60: with every slot in use the request is refused. -/
theorem liveRequest_full (hb : s.readBell f = some b) (hn : readNat g = some n) (full : s.slotFree = false) :
    liveRequest o tag [f, g] s = s.err tag .qfull := by
  simp only [liveRequest, hb, hn, full, Bool.false_eq_true, if_false]

/-- R60: a line of any other form than a bell and a number is refused. -/
theorem liveRequest_malformed {fields : List Text}
    (h : ∀ f g b n, fields = [f, g] → s.readBell f = some b → readNat g ≠ some n) :
    liveRequest o tag fields s = s.err tag .arg := by
  unfold liveRequest
  split
  next f g =>
    split
    next bell number => exact absurd number (h f g _ _ rfl bell)
    next => rfl
  next => rfl

end Live

/-- Settles O32: the three outcomes of a live strike by its form and the free slots, and the place of its entry by the
insertion. -/
theorem liveStrikesQueued : Obligations.LiveStrikesQueued := by
  unfold Obligations.LiveStrikesQueued
  refine ⟨fun s tag f g b n can hb hn =>
      ⟨fun free => ?_, fun full => ?_, fun _ => ⟨rfl, rfl⟩, fun _ => ⟨rfl, rfl, rfl⟩⟩,
    fun s tag fields can malformed => ?_, Entry.firesBefore_iff, rfl, fun s e => ?_⟩
  · have queued (o : Origin) := liveRequest_queued (o := o) (tag := tag) hb hn (State.slotFree_iff.mpr free)
    exact ⟨exec_request_eq rfl can (queued .strike), exec_request_eq rfl can (queued .test)⟩
  · have refused (o : Origin) := liveRequest_full (o := o) (tag := tag) hb hn (State.slotFree_eq_false_iff.mpr full)
    exact ⟨exec_request_eq rfl can (refused .strike), exec_request_eq rfl can (refused .test)⟩
  · have refused (o : Origin) := liveRequest_malformed (o := o) (tag := tag) malformed
    exact ⟨exec_request_eq rfl can (refused .strike), exec_request_eq rfl can (refused .test)⟩
  · obtain ⟨front, back, split, inserted, low, high⟩ := exists_insertBy_eq Entry.firesBefore e s.queue
    exact ⟨front, back, split, by rw [State.enqueue, inserted], low, high⟩

end Sys2Proof.Machine
end

section
/-! SUPPORT. The dispatcher's decisions (R45 to R55, R65): the six steps in order, what each makes of an entry that has
left its list, and the rows of the dispatch, the grant and the deadline. -/

namespace Sys2Proof.Machine

/-- A command whose condition holds takes its effect. -/
theorem exec_taken {i : Instr} {s : State} (h : conditionOf i s = true) : exec i s = .next (effectOf i s) := by
  rw [exec_event, event_taken h]

/-- A command whose condition does not hold changes nothing. -/
theorem exec_idle {i : Instr} {s : State} (h : conditionOf i s = false) : exec i s = .next s := by
  rw [exec_event, event_idle h]

/-! ## The six steps -/

/-- R46 to R50, R55: the decision, step by step. -/
theorem State.decide_eq (s : State) (e : Entry) (granted : Bool) :
    s.decide e granted =
      if healthBars (s.bell e.bell).health e.origin then .drop .fault
      else if s.supply ≠ .good then .drop .supply
      else if s.now < (s.bell e.bell).ready then
        if (s.bell e.bell).ready - e.orig ≤ e.slip then .reinsert else .drop .repeated
      else if granted = false ∧ s.coilBudget ≤ s.coils.length then
        if s.now < e.orig + e.slip then .wait else .drop .power
      else
        (((s.bell e.bell).affordable ((s.bell e.bell).refilled s.now) e.level).map Decision.fire).getD (.drop .heat) := by
  simp only [State.decide, State.supplyGood, Bool.not_eq_true', beq_eq_false_iff_ne, Bool.and_eq_true,
    decide_eq_true_eq, Entry.deadline]
  cases (s.bell e.bell).affordable ((s.bell e.bell).refilled s.now) e.level <;> rfl

/-- What becomes of an entry that has left its list, with what follows unless it fires. An entry decided to fire finds
an open window of its bell judged first, and is dropped where the health that leaves bars it (R65; assumption 16). -/
def State.resolve (s : State) (e : Entry) (next : State → State) : Decision → State
  | .fire level =>
    if healthBars ((s.closeOldWindow e.bell).bell e.bell).health e.origin then
      next ((s.closeOldWindow e.bell).drop e .fault)
    else (s.closeOldWindow e.bell).fire e level
  | d => next (s.carryOut e d)

/-- A decision carried out, with what follows unless it fires. -/
def State.carryOutThen (s : State) (e : Entry) (next : State → State) : Decision → State
  | .fire level => s.fire e level
  | d => next (s.carryOut e d)

/-- The judgement of the old window and then the decision resolve an entry as it was first decided. -/
theorem State.judgeFirst_carryOutThen (s : State) (e : Entry) (next : State → State) (granted : Bool) :
    (s.judgeFirst e granted).carryOutThen e next ((s.judgeFirst e granted).decide e granted) =
      s.resolve e next (s.decide e granted) := by
  obtain ⟨stays, judged⟩ | ⟨level, fires, judged, again⟩ := s.judgeFirst_cases e granted
  · rw [judged]
    generalize s.decide e granted = d at stays
    cases d with
    | fire level => cases stays
    | _ => rfl
  · rw [judged, again, fires, State.resolve]
    split <;> rfl

/-! ## Dispatch (R45) -/

theorem State.dispatchHead_eq {s : State} {e : Entry} {rest : List Entry} (h : s.queue = e :: rest) :
    s.dispatchHead = State.resolve { s with queue := rest } e id (s.decide e false) := by
  refine Eq.trans ?_ (State.judgeFirst_carryOutThen { s with queue := rest } e id false)
  simp only [State.dispatchHead, h]
  generalize State.decide _ e false = d
  cases d <;> rfl

theorem State.dispatchDue_iff {s : State} :
    s.dispatchDue = true ↔ s.held = false ∧ ∃ e ∈ s.queue.head?, e.fire ≤ s.now := by
  cases h : s.queue <;> simp [State.dispatchDue, h]

/-- Settles O33: the row is due by the head entry, and the decision resolves it. -/
theorem dispatchDecides : Obligations.DispatchDecides := by
  unfold Obligations.DispatchDecides
  refine ⟨healthBars_iff, fun s => ⟨fun idle => exec_idle ?_, fun e rest high hq =>
    ⟨fun early => exec_idle ?_, fun come => ?_⟩⟩⟩
  · refine Bool.eq_false_iff.mpr fun due => ?_
    obtain ⟨high, e, he, -⟩ := State.dispatchDue_iff.mp due
    obtain held | empty := idle
    · exact absurd held (by simp [high])
    · simp [empty] at he
  · refine Bool.eq_false_iff.mpr fun due => ?_
    obtain ⟨-, x, hx, come⟩ := State.dispatchDue_iff.mp due
    rw [hq] at hx
    cases hx
    omega
  · have due : s.dispatchDue = true := State.dispatchDue_iff.mpr ⟨high, e, by simp [hq], come⟩
    refine (exec_taken (i := .dispatch) due).trans (congrArg (fun t : State => Host.Outcome.next t.settle) ?_)
    rw [State.dispatchHead_eq hq, State.decide_eq]
    simp only [true_and, apply_ite (State.resolve _ e _)]
    cases (s.bell e.bell).affordable ((s.bell e.bell).refilled s.now) e.level
    · rfl
    · rfl

/-! ## Release and grant (R52 to R55) -/

theorem State.coilDue_iff {s : State} {b : Nat} :
    s.coilDue b = true ↔ s.held = false ∧ ∃ c ∈ s.coils, c.bell = b ∧ c.release ≤ s.now := by
  simp [State.coilDue]

/-- R54, R55: the place is offered to a waiting entry, and to the next unless it fires. -/
theorem State.grantFrom_cons (s : State) (e : Entry) (rest : List Entry) :
    s.grantFrom (e :: rest) =
      State.resolve { s with waiting := rest } e (fun t => t.grantFrom rest) (s.decide e true) := by
  refine Eq.trans ?_ (State.judgeFirst_carryOutThen { s with waiting := rest } e (fun t => t.grantFrom rest) true)
  simp only [State.grantFrom]
  generalize State.decide _ e true = d
  cases d <;> rfl

theorem State.deadlineDue_iff {s : State} {place : Nat} :
    s.deadlineDue place = true ↔ s.held = false ∧ ∃ e ∈ s.waiting[place]?, e.orig + e.slip ≤ s.now := by
  cases h : s.waiting[place]? <;> simp [State.deadlineDue, h, Entry.deadline]
  exact fun _ => decide_eq_true_iff

/-- Settles O36: the release and the deadline are due by their times, and each waiting entry is resolved as it was
decided. -/
theorem coilPlacesGranted : Obligations.CoilPlacesGranted := by
  unfold Obligations.CoilPlacesGranted
  refine ⟨⟨fun s b due => exec_taken (i := .coilRelease b) due, fun s b => State.coilDue_iff,
    fun s b idle => exec_idle (i := .coilRelease b) idle, fun s => rfl, fun s e rest => ?_⟩,
    fun s place => ⟨fun idle => exec_idle ?_, fun e he => ⟨fun early => exec_idle ?_, fun high come => ?_⟩⟩⟩
  · rw [State.grantFrom_cons, State.decide_eq]
    simp only [reduceCtorEq, false_and, if_false, apply_ite (State.resolve _ e _)]
    cases (s.bell e.bell).affordable ((s.bell e.bell).refilled s.now) e.level
    · rfl
    · rfl
  · refine Bool.eq_false_iff.mpr fun due => ?_
    obtain ⟨high, e, he, -⟩ := State.deadlineDue_iff.mp due
    obtain held | empty := idle
    · exact absurd held (by simp [high])
    · simp [empty] at he
  · refine Bool.eq_false_iff.mpr fun due => ?_
    obtain ⟨-, x, hx, come⟩ := State.deadlineDue_iff.mp due
    rw [he] at hx
    cases hx
    omega
  · have due : s.deadlineDue place = true := State.deadlineDue_iff.mpr ⟨high, e, he, come⟩
    refine (exec_taken (i := .coilWaitDeadline place) due).trans ?_
    simp only [effectOf, State.dropAtDeadline, he, State.deadlineReason, State.supplyGood, Bool.not_eq_true',
      beq_eq_false_iff_ne]

end Sys2Proof.Machine
end

section
/-! SUPPORT. Every coil that a command energises is that of a sound firing (R46 to R55): the dispatch and the grant alone
energise a coil, and an entry that does not fire leaves its bell no fitter to fire than it was. -/

namespace Sys2Proof.Machine

/-! ## What an entry that does not fire leaves of a bell -/

/-- A record that pays no firing: as ready and as able to afford a level now as before, and barred where it was. -/
structure Bell.NoFitter (now : Nat) (r q : Bell) : Prop where
  cal : q.cal = r.cal
  ready : q.ready = r.ready
  refilled : q.refilled now = r.refilled now
  bars : ∀ o, healthBars r.health o = true → healthBars q.health o = true

theorem Bell.NoFitter.refl (now : Nat) (r : Bell) : r.NoFitter now r := ⟨rfl, rfl, rfl, fun _ => id⟩

theorem Bell.NoFitter.trans {now : Nat} {p q r : Bell} (h : p.NoFitter now q) (k : q.NoFitter now r) :
    p.NoFitter now r :=
  ⟨k.cal.trans h.cal, k.ready.trans h.ready, k.refilled.trans h.refilled, fun o => k.bars o ∘ h.bars o⟩

/-- The counters, the last drop reason and the window are no matter of a firing. -/
theorem Bell.NoFitter.counted (now : Nat) (r : Bell) (counters : Counters) (last : Option DropReason)
    (window : Option Window) :
    r.NoFitter now { r with counters := counters, lastDrop := last, window := window } :=
  ⟨rfl, rfl, rfl, fun _ => id⟩

/-- R36: a refill to now is what a second refill to now would give. -/
theorem Bell.NoFitter.refill (now : Nat) (r : Bell) :
    r.NoFitter now { r with bucket := r.refilled now, stamp := now } where
  cal := rfl
  ready := rfl
  refilled := by simp [Bell.refilled]
  bars := fun _ => id

/-- R74: a miss lifts no bar. -/
theorem Bell.NoFitter.afterMiss (now : Nat) (r : Bell) : r.NoFitter now r.afterMiss := by
  obtain ⟨cal, ready, bucket, stamp, -⟩ := r.afterMiss_frame
  refine ⟨cal, ready, by rw [Bell.refilled, Bell.refilled, cal, bucket, stamp], fun o bars => ?_⟩
  unfold Bell.afterMiss
  split
  next good => simp [healthBars, good] at bars
  next suspect => simp [healthBars, suspect] at bars
  next => exact bars
  next => exact bars

/-- No coil has been energised since, and no bell is fitter to fire than it was. -/
structure State.NoFitter (s t : State) : Prop where
  time : t.time = s.time
  supply : t.supply = s.supply
  coils : t.coils = s.coils
  bell : ∀ b, (s.bell b).NoFitter s.now (t.bell b)

namespace State.NoFitter

variable {s t u : State}

theorem of_bells (time : t.time = s.time) (supply : t.supply = s.supply) (coils : t.coils = s.coils)
    (bells : t.bells = s.bells) : s.NoFitter t :=
  ⟨time, supply, coils, fun b => State.bell_congr bells b ▸ .refl ..⟩

theorem trans (h : s.NoFitter t) (k : t.NoFitter u) : s.NoFitter u where
  time := k.time.trans h.time
  supply := k.supply.trans h.supply
  coils := k.coils.trans h.coils
  bell := fun b => (h.bell b).trans (State.now_congr h.time ▸ k.bell b)

theorem modBell {f : Bell → Bell} (s : State) (b : Nat) (h : (s.bell b).NoFitter s.now (f (s.bell b))) :
    s.NoFitter (s.modBell b f) where
  time := rfl
  supply := rfl
  coils := rfl
  bell := by
    intro a
    rw [State.bell_modBell]
    split
    next here => exact here.1 ▸ h
    next => exact .refl ..

theorem tally (s : State) (o : Origin) (f : Summary → Summary) : s.NoFitter (s.tally o f) :=
  of_bells (by simp) (by simp) (by simp) (by simp)

theorem drop (s : State) (e : Entry) (reason : DropReason) : s.NoFitter (s.drop e reason) := by
  unfold State.drop
  refine .trans (modBell s e.bell ?_) (tally ..)
  exact .counted ..

theorem countSlip (s : State) (e : Entry) : s.NoFitter (s.countSlip e) := by
  unfold State.countSlip
  split
  · exact of_bells rfl rfl rfl rfl
  · refine .trans (modBell s e.bell ?_) (tally ..)
    exact .counted ..

theorem closeOldWindow (s : State) (b : Nat) : s.NoFitter (s.closeOldWindow b) where
  time := by simp
  supply := by simp
  coils := by simp
  bell := by
    intro a
    unfold State.closeOldWindow
    split
    · exact .refl ..
    next w _ =>
      rw [State.bell_miss]
      split
      next here =>
        rw [here.1]
        have missed : (s.bell b).NoFitter s.now
            { s.bell b with
              counters := { (s.bell b).counters with miss := bump16 (s.bell b).counters.miss }, window := none } :=
          .counted ..
        dsimp only
        split
        · exact missed.trans (.afterMiss ..)
        · exact missed
      next => exact .refl ..

/-- A decision not to fire. -/
theorem carryOut (s : State) (e : Entry) {d : Decision} (stays : d.fires = false) : s.NoFitter (s.carryOut e d) := by
  cases d with
  | fire level => cases stays
  | drop reason =>
    cases reason
    case heat => exact (modBell s e.bell (.refill ..)).trans (drop ..)
    all_goals exact drop ..
  | reinsert => exact (countSlip s e).trans (of_bells rfl rfl rfl rfl)
  | wait => exact (countSlip s e).trans (of_bells rfl rfl rfl rfl)

end State.NoFitter

/-! ## Sound firings -/

/-- The coil `c` is that of a sound firing of the entry `e` at `level`. -/
structure State.Fires (s : State) (e : Entry) (level : Nat) (c : Coil) : Prop where
  supply : s.supply = .good
  bell : c.bell = e.bell
  origin : c.origin = e.origin
  low : 1 ≤ level
  high : level ≤ e.level
  health : healthBars (s.bell e.bell).health e.origin = false
  ready : (s.bell e.bell).ready ≤ s.now
  cost : (s.bell e.bell).cost level ≤ (s.bell e.bell).refilled s.now
  release : c.release = s.now + (s.bell e.bell).pulse level

/-- What fires once others have not was fit to fire before. -/
theorem State.Fires.of_noFitter {s t : State} {e : Entry} {level : Nat} {c : Coil} (h : s.NoFitter t)
    (k : t.Fires e level c) : s.Fires e level c := by
  obtain ⟨cal, ready, refilled, bars⟩ := h.bell e.bell
  have now : t.now = s.now := State.now_congr h.time
  have pulse : (t.bell e.bell).pulse level = (s.bell e.bell).pulse level := by rw [Bell.pulse, Bell.pulse, cal]
  exact
    { supply := h.supply ▸ k.supply
      bell := k.bell
      origin := k.origin
      low := k.low
      high := k.high
      health := Bool.eq_false_iff.mpr fun barred => Bool.eq_false_iff.mp k.health (bars _ barred)
      ready := by have := k.ready; rwa [ready, now] at this
      cost := by have := k.cost; rwa [Bell.cost, pulse, now, refilled] at this
      release := by rw [k.release, now, pulse] }

/-- R51: a decision to fire, carried out on a bell that is no fitter, energises the coil of a sound firing. -/
theorem State.Fires.of_decide {s : State} {e : Entry} {granted : Bool} {level : Nat}
    (h : s.decide e granted = .fire level) :
    s.Fires e level ⟨e.bell, s.now + (s.bell e.bell).pulse level, e.origin⟩ := by
  obtain ⟨health, supply, ready, -, affords⟩ := State.decide_fire h
  obtain ⟨low, high, cost, -⟩ := Bell.affordable_some affords
  exact ⟨supply, rfl, rfl, low, high, health, ready, cost, rfl⟩

/-- The coils are those of before, and at most one more of a sound firing of an entry of the list. -/
def State.AddsSound (s : State) (es : List Entry) (coils : List Coil) : Prop :=
  coils = s.coils ∨ ∃ e ∈ es, ∃ level c, s.Fires e level c ∧ coils = s.coils ++ [c]

theorem State.AddsSound.of_noFitter {s t : State} {e : Entry} {rest : List Entry} {coils : List Coil}
    (k : t.AddsSound rest coils) (h : s.NoFitter t) : s.AddsSound (e :: rest) coils := by
  obtain same | ⟨x, hx, level, c, fires, more⟩ := k
  · exact .inl (same.trans h.coils)
  · exact .inr ⟨x, List.mem_cons_of_mem e hx, level, c, fires.of_noFitter h, h.coils ▸ more⟩

/-- An entry that is resolved fires soundly, or what follows begins with bells no fitter to fire. -/
theorem State.resolve_cases (s : State) (e : Entry) (granted : Bool) (next : State → State) :
    (∃ t, s.NoFitter t ∧ s.resolve e next (s.decide e granted) = next t) ∨
      ∃ level c, s.decide e granted = .fire level ∧ s.Fires e level c ∧
        (s.resolve e next (s.decide e granted)).coils = s.coils ++ [c] := by
  cases h : s.decide e granted with
  | fire level =>
    have judged := State.NoFitter.closeOldWindow s e.bell
    rw [State.resolve]
    split
    · exact .inl ⟨_, judged.trans (.drop ..), rfl⟩
    · refine .inr ⟨level, _, rfl, .of_decide h, ?_⟩
      rw [State.fire_coils, State.refill_pulse, judged.coils, State.now_congr judged.time, Bell.pulse,
        (judged.bell e.bell).cal]
      rfl
  | drop reason => exact .inl ⟨_, .carryOut s e rfl, rfl⟩
  | reinsert => exact .inl ⟨_, .carryOut s e rfl, rfl⟩
  | wait => exact .inl ⟨_, .carryOut s e rfl, rfl⟩

/-- R54: a grant energises at most one coil, that of a sound firing. -/
theorem State.grantFrom_addsSound (es : List Entry) (s : State) : s.AddsSound es (s.grantFrom es).coils := by
  induction es generalizing s with
  | nil => exact .inl rfl
  | cons e rest ih =>
    have left : s.NoFitter { s with waiting := rest } := .of_bells rfl rfl rfl rfl
    rw [State.grantFrom_cons]
    obtain ⟨t, since, resolved⟩ | ⟨level, c, -, fires, coils⟩ :=
      State.resolve_cases { s with waiting := rest } e true fun t => t.grantFrom rest
    · rw [show s.decide e true = State.decide { s with waiting := rest } e true from rfl, resolved]
      exact (ih t).of_noFitter (left.trans since)
    · exact .inr ⟨e, by simp, level, c, fires.of_noFitter left, coils⟩

/-- R45: a dispatch energises at most one coil, that of a sound firing of the head entry in a free place. -/
theorem State.dispatchHead_coils {s : State} {e : Entry} {rest : List Entry} (hq : s.queue = e :: rest) :
    s.dispatchHead.coils = s.coils ∨
      ∃ level c, s.coils.length < s.coilBudget ∧ s.Fires e level c ∧ s.dispatchHead.coils = s.coils ++ [c] := by
  have left : s.NoFitter { s with queue := rest } := .of_bells rfl rfl rfl rfl
  rw [State.dispatchHead_eq hq]
  obtain ⟨t, since, resolved⟩ | ⟨level, c, decided, fires, coils⟩ :=
    State.resolve_cases { s with queue := rest } e false id
  · exact .inl ((congrArg State.coils resolved).trans (left.trans since).coils)
  · obtain ⟨-, -, -, granted | free, -⟩ := State.decide_fire decided
    · cases granted
    · exact .inr ⟨level, c, free, fires.of_noFitter left, coils⟩

/-- R52, R54: a release energises at most one coil, that of a sound firing of a waiting entry. -/
theorem State.releaseCoil_coils (s : State) (b : Nat) :
    (∀ c ∈ (s.releaseCoil b).coils, c ∈ s.coils) ∨
      ∃ e ∈ s.waiting, ∃ level c, s.Fires e level c ∧ ∀ x ∈ (s.releaseCoil b).coils, x ∈ s.coils ∨ x = c := by
  have fewer (c : Coil) : c ∈ s.coils.eraseP (fun c => c.bell == b && c.release ≤ s.now) → c ∈ s.coils :=
    List.mem_of_mem_eraseP
  obtain (same : (s.releaseCoil b).coils = s.coils.eraseP _) | ⟨e, he, level, c, fires, coils⟩ :=
    State.grantFrom_addsSound s.waiting { s with coils := s.coils.eraseP (fun c => c.bell == b && c.release ≤ s.now) }
  · exact .inl fun c hc => fewer c (same ▸ hc)
  · obtain ⟨supply, bell, origin, low, high, health, ready, cost, release⟩ := fires
    refine .inr ⟨e, he, level, c, ⟨supply, bell, origin, low, high, health, ready, cost, release⟩, fun x hx => ?_⟩
    exact (List.mem_append.mp (coils ▸ hx)).imp (fewer x) List.mem_singleton.mp

/-! ## The commands that energise no coil -/

theorem State.Edits.coils {s t : State} (h : s.Edits t) : t.coils = s.coils := by
  refine h.keeps (P := fun u => u.coils = s.coils) ?_ ?_ ?_ ?_ ?_ ?_ ?_ ?_ ?_ ?_ ?_ ?_ ?_ ?_ ?_ rfl
  all_goals intros; simpa

theorem State.LeadsTo.coils {s t : State} (h : s.LeadsTo t) : t.coils = s.coils := by
  obtain ⟨u, same, edits⟩ := h
  exact edits.coils.trans same.coils

theorem runRequest_coils (i : Instr) (s : State) : (runRequest i s).coils = s.coils := by
  cases i <;> simp [runRequest]

/-- R45, R54: the dispatch and the grant alone energise a coil. -/
theorem effectOf_coils {i : Instr} (dispatch : i ≠ .dispatch) (release : ∀ b, i ≠ .coilRelease b) (s : State) :
    (effectOf i s).coils = [] ∨ (effectOf i s).coils = s.coils := by
  cases i
  case dispatch => exact absurd rfl dispatch
  case coilRelease b => exact absurd rfl (release b)
  case powerOnReset pins =>
    exact .inl (State.load_sameDispatcher
      { State.blank with pending := s.pending, choices := s.choices, image := s.image }).coils
  case resetLineFall | warmResetCommand => exact .inl rfl
  case resetLineRise => exact .inr rfl
  case coilWaitDeadline => exact .inr (by simp [effectOf])
  case strike | test => exact .inr (runRequest_coils _ s)
  case lineExecute =>
    obtain ⟨l, e | ⟨i, e⟩⟩ := s.executeLine_cases
    · exact .inr (by rw [effectOf, e])
    · exact .inr (by rw [effectOf, e, runRequest_coils])
  all_goals exact .inr (effectOf_leadsTo rfl rfl rfl (by simp) s).coils

/-- Settles O35: a new coil comes from the dispatch or the grant, and each energises that of a sound firing alone. -/
theorem coilsOnlyFromSoundFirings : Obligations.CoilsOnlyFromSoundFirings := by
  unfold Obligations.CoilsOnlyFromSoundFirings
  intro i s t h c hc fresh
  obtain ⟨taken, rfl⟩ | ⟨-, rfl⟩ := exec_inv h
  swap
  · exact absurd hc fresh
  by_cases dispatch : i = .dispatch
  · subst dispatch
    obtain ⟨high, e, he, come⟩ := State.dispatchDue_iff.mp taken
    obtain ⟨rest, hq⟩ : ∃ rest, s.queue = e :: rest := List.head?_eq_some_iff.mp he
    rw [effectOf, (State.Edits.settle _).coils] at hc
    obtain same | ⟨level, d, free, fires, coils⟩ := State.dispatchHead_coils hq
    · exact absurd (same ▸ hc) fresh
    · obtain old | new := List.mem_append.mp (coils ▸ hc)
      · exact absurd old fresh
      · obtain rfl := List.mem_singleton.mp new
        exact ⟨e, level, .inl ⟨rfl, he, come, free⟩, high, fires.supply, fires.bell, fires.origin, fires.low,
          fires.high, fires.health, fires.ready, fires.cost, fires.release⟩
  by_cases release : ∃ b, i = .coilRelease b
  · obtain ⟨b, rfl⟩ := release
    obtain ⟨high, -⟩ := State.coilDue_iff.mp taken
    rw [effectOf, (State.Edits.settle _).coils] at hc
    obtain fewer | ⟨e, he, level, d, fires, coils⟩ := s.releaseCoil_coils b
    · exact absurd (fewer c hc) fresh
    · obtain rfl := (coils c hc).resolve_left fresh
      exact ⟨e, level, .inr ⟨⟨b, rfl, taken⟩, he⟩, high, fires.supply, fires.bell, fires.origin, fires.low,
        fires.high, fires.health, fires.ready, fires.cost, fires.release⟩
  · obtain none | same := effectOf_coils dispatch (by simpa using release) s
    · rw [none] at hc
      cases hc
    · exact absurd (same ▸ hc) fresh

end Sys2Proof.Machine
end

section
/-! SUPPORT. The stops and the cut order (R59, R119 to R122, R134): what the removal of a lane's entries writes, what a
stop NOW and a bar stop make of the lane, and when a cut order is due. -/

namespace Sys2Proof.Machine

/-! ## The removal of a lane's entries (R59) -/

/-- R59: the record of a bell after the drop of `n` of its entries with reason STOP. -/
def Bell.dropped (r : Bell) (n : Nat) : Bell :=
  if n = 0 then r
  else { r with counters := { r.counters with drop := min (r.counters.drop + n) 65535 }, lastDrop := some .stop }

/-- One drop and then `n` more are `n + 1`. -/
theorem Bell.dropped_succ (r : Bell) (n : Nat) :
    Bell.dropped { r with counters := { r.counters with drop := bump16 r.counters.drop }, lastDrop := some .stop } n =
      r.dropped (n + 1) := by
  unfold Bell.dropped bump16
  split
  next none =>
    subst none
    rfl
  next =>
    rw [if_neg (by omega), show min (min (r.counters.drop + 1) 65535 + n) 65535 = min (r.counters.drop + (n + 1)) 65535 by
      omega]

/-- R56, R59: the drops count on the bell of each entry. -/
theorem State.bell_dropAll (gone : List Entry) (s : State) {b : Nat} (h1 : 1 ≤ b) (h64 : b ≤ 64) :
    (gone.foldl (fun s e => s.drop e .stop) s).bell b = (s.bell b).dropped (gone.countP (fun e => e.bell == b)) := by
  induction gone generalizing s with
  | nil => rfl
  | cons e rest ih =>
    rw [List.foldl_cons, ih, State.bell_drop, List.countP_cons]
    by_cases here : e.bell = b
    · rw [if_pos (by omega), here, Bell.dropped_succ]
      simp
    · rw [if_neg (by omega)]
      simp [here]

theorem State.tally_tally (s : State) (o : Origin) (f g : Summary → Summary) :
    (s.tally o f).tally o g = s.tally o fun m => g (f m) := by
  cases o with
  | tune => simp [State.tally, State.modTune, Function.comp_def]
  | toll => simp [State.tally, State.modToll, Function.comp_def]
  | strike => rfl
  | test => rfl

/-- R58: the count of a drop touches no bell. -/
theorem State.tally_bells (s : State) (o : Origin) (f : Summary → Summary) (bells : Table Bell 64) :
    { s.tally o f with bells := bells } = State.tally { s with bells := bells } o f := by
  cases o <;> rfl

/-- R56, R59: the drops of entries of one origin write bells, and count in the summary of the play of that origin. -/
theorem State.dropAll_eq {o : Origin} (gone : List Entry) (of : ∀ e ∈ gone, e.origin = o) (s : State) :
    ∃ bells, gone.foldl (fun s e => s.drop e .stop) s =
      State.tally { s with bells := bells } o fun m => { m with stop := m.stop + gone.length } := by
  induction gone generalizing s with
  | nil => exact ⟨s.bells, by cases o <;> simp [State.tally, State.modTune, State.modToll]⟩
  | cons e rest ih =>
    obtain ⟨rfl, others⟩ := List.forall_mem_cons.mp of
    obtain ⟨bells, dropped⟩ := ih others (s.drop e .stop)
    refine ⟨bells, dropped.trans ?_⟩
    rw [State.drop, State.tally_bells, State.tally_tally]
    simp [Summary.countDrop, State.modBell, State.setBell, Nat.add_comm, Nat.add_left_comm]

/-- R59: the removal leaves the entries of other origins, and counts each entry removed. -/
theorem State.removeOrigin_eq (s : State) (o : Origin) :
    ∃ bells, s.removeOrigin o =
      State.tally
        { s with
          queue := s.queue.filter (fun e => e.origin != o), waiting := s.waiting.filter (fun e => e.origin != o)
          bells := bells }
        o fun m => { m with stop := m.stop + s.entriesOf o } := by
  have number : ((s.queue ++ s.waiting).filter (fun e => e.origin == o)).length = s.entriesOf o := by
    rw [← List.countP_eq_length_filter, List.countP_append, State.entriesOf]
  rw [← number]
  exact State.dropAll_eq _ (fun e he => by simpa using (List.mem_filter.mp he).2) _

/-- R56, R59: on each bell the entries removed count as drops. -/
theorem State.bell_removeOrigin (s : State) (o : Origin) {b : Nat} (h1 : 1 ≤ b) (h64 : b ≤ 64) :
    (s.removeOrigin o).bell b =
      (s.bell b).dropped ((s.queue ++ s.waiting).filter (fun e => e.origin == o && e.bell == b)).length := by
  refine (State.bell_dropAll _ _ h1 h64).trans ?_
  rw [List.countP_filter, List.countP_eq_length_filter]
  simp only [Bool.and_comm]
  rfl

/-! ## Stops NOW (R119) -/

theorem State.stopTuneNow_eq {s : State} {l : TuneLane} (hl : s.tune = some l) (reason : EndReason) :
    ∃ bells, s.stopTuneNow reason =
      { s with
        queue := s.queue.filter (fun e => e.origin != .tune), waiting := s.waiting.filter (fun e => e.origin != .tune)
        bells := bells
        tune := some
          { l with
            phase := .draining reason, lag := false, barStop := none
            summary := { l.summary with stop := l.summary.stop + s.entriesOf .tune } } } := by
  obtain ⟨bells, removed⟩ := s.removeOrigin_eq .tune
  exact ⟨bells, by simp [State.stopTuneNow, hl, removed, State.tally, State.modTune]⟩

theorem State.stopTollNow_eq {s : State} {l : TollLane} (hl : s.toll = some l) (reason : EndReason) :
    ∃ bells, s.stopTollNow reason =
      { s with
        queue := s.queue.filter (fun e => e.origin != .toll), waiting := s.waiting.filter (fun e => e.origin != .toll)
        bells := bells
        toll := some
          { l with
            phase := .draining reason, lag := false
            summary := { l.summary with stop := l.summary.stop + s.entriesOf .toll } } } := by
  obtain ⟨bells, removed⟩ := s.removeOrigin_eq .toll
  exact ⟨bells, by simp [State.stopTollNow, hl, removed, State.tally, State.modToll]⟩

theorem State.bell_stopTuneNow {s : State} {l : TuneLane} (hl : s.tune = some l) (reason : EndReason) (b : Nat) :
    (s.stopTuneNow reason).bell b = (s.removeOrigin .tune).bell b := by
  simp only [State.stopTuneNow, hl]
  rfl

theorem State.bell_stopTollNow {s : State} {l : TollLane} (hl : s.toll = some l) (reason : EndReason) (b : Nat) :
    (s.stopTollNow reason).bell b = (s.removeOrigin .toll).bell b := by
  simp only [State.stopTollNow, hl]
  rfl

/-! ## Bar stops (R120, R121) -/

/-- R120: a bar stop sets its search limit, or keeps the one already set, and is tested at once. -/
theorem State.barStopTune_eq {s : State} {l : TuneLane} (hl : s.tune = some l) (runs : l.phase.runs = true)
    (reason : EndReason) :
    s.barStopTune reason =
      State.testBarStop
        { s with
          tune := some
            { l with
              barStop := some
                { reason := reason
                  limit := (l.barStop.map (·.limit)).getD (l.lastOnset.getD l.origin + 80000) } } } := by
  simp only [State.barStopTune, hl, runs, if_true]
  rw [State.modTune_eq hl]
  cases l.barStop <;> rfl

/-! ## Cut orders (R134) -/

theorem PlayRequest.hasMode_iff {r : PlayRequest} {m : TollMode} :
    r.hasMode m = true ↔ ∃ spec, r.play = .toll spec ∧ spec.mode = m := by
  unfold PlayRequest.hasMode
  cases h : r.play <;> simp

theorem State.tuneRuns_iff {s : State} : s.tuneRuns = true ↔ ∃ l, s.tune = some l ∧ l.phase.runs = true := by
  unfold State.tuneRuns
  cases h : s.tune <;> simp

theorem State.cutDue_iff {s : State} {id : Nat} :
    s.cutDue id = true ↔ s.held = false ∧ (∃ l, s.tune = some l ∧ l.phase.runs = true) ∧
      ∃ r ∈ s.playQueue, r.id = id ∧ r.cutGiven = false ∧ r.effective ≤ (s.now : Int) + 5000 ∧
        ∃ spec, r.play = .toll spec ∧ spec.mode = .cut := by
  simp only [State.cutDue, Bool.and_eq_true, Bool.not_eq_true', State.tuneRuns_iff, List.any_eq_true, beq_iff_eq,
    PlayRequest.hasMode_iff, State.inReach, decide_eq_true_eq]
  constructor
  · rintro ⟨⟨high, runs⟩, r, hr, ⟨⟨rfl, cut⟩, near⟩, fresh⟩
    exact ⟨high, runs, r, hr, rfl, fresh, near, cut⟩
  · rintro ⟨high, runs, r, hr, rfl, fresh, near, cut⟩
    exact ⟨⟨high, runs⟩, r, hr, ⟨⟨rfl, cut⟩, near⟩, fresh⟩

/-- R134: the report of a cut order names the tune that is cut. -/
theorem State.cutOrder_eq {s : State} {l : TuneLane} (hl : s.tune = some l) (id : Nat) :
    s.cutOrder id =
      (((s.markCut id).post .play [.num id, .word .CUT, .num l.request.id]).barStopTune .cut).settle := by
  rw [State.cutOrder, hl]
  rfl

/-- Settles O50: what a stop NOW writes by the removal of the lane's entries, a bar stop by the test that follows it,
and a cut order by its condition. -/
theorem stopsAndCutOrders : Obligations.StopsAndCutOrders := by
  unfold Obligations.StopsAndCutOrders
  refine ⟨fun s reason => ?stops, fun s id => ⟨State.cutDue_iff, exec_idle (i := .cutOrder id), fun l due hl => ?cut⟩⟩
  case cut =>
    exact (exec_taken (i := .cutOrder id) due).trans (congrArg Host.Outcome.next (State.cutOrder_eq hl id))
  case stops =>
    intro gone dropped
    refine ⟨fun idle => ⟨?_, ?_⟩, fun idle => ?_, fun l hl => ?_, fun l hl => ?_⟩
    · simp only [State.stopTuneNow, idle]
    · simp only [State.barStopTune, idle]
    · simp only [State.stopTollNow, idle]
    · intro u
      obtain ⟨bells, e⟩ := State.stopTuneNow_eq hl reason
      have bell : ∀ b, 1 ≤ b → b ≤ 64 → u.bell b = dropped .tune b := fun b h1 h64 =>
        (State.bell_stopTuneNow hl reason b).trans (s.bell_removeOrigin .tune h1 h64)
      refine ⟨?queue, ?waiting, ?coils, ?toll, ?playQueue, ?serial, ?lane, bell, ?frame, fun stopped => ?still,
        fun runs => ?barStop⟩
      case still => simp only [State.barStopTune, hl, stopped, Bool.false_eq_true, if_false]
      case barStop =>
        intro stop v
        rw [State.barStopTune_eq hl runs]
        refine ⟨fun barless => ?_, fun bars rec hr => ⟨fun beyond => ?_, fun within => ?_⟩⟩
        · exact State.testBarStop_stops (s := v) rfl runs rfl (.inl barless)
        · exact State.testBarStop_stops (s := v) rfl runs rfl (.inr ⟨_, State.nextOnset_eq hr, beyond⟩)
        · refine State.testBarStop_waits (s := v) rfl runs rfl bars fun onset next => ?_
          obtain rfl := Option.some.inj ((State.nextOnset_eq (s := v) hr).symm.trans next)
          exact within
      all_goals
        dsimp only [u]
        rw [e]
    · intro u
      obtain ⟨bells, e⟩ := State.stopTollNow_eq hl reason
      have bell : ∀ b, 1 ≤ b → b ≤ 64 → u.bell b = dropped .toll b := fun b h1 h64 =>
        (State.bell_stopTollNow hl reason b).trans (s.bell_removeOrigin .toll h1 h64)
      refine ⟨?_, ?_, ?_, ?_, ?_, ?_, ?_, bell, ?_⟩ <;> (dsimp only [u]; rw [e])

end Sys2Proof.Machine
end

section
/-! SUPPORT. The warm resets (R63, R79, R97, R125, R174, R183, R195, R196): all that one writes, by the RESET line and by
a RESET request. -/

namespace Sys2Proof.Machine

/-- R193: a SAVE under way is cut short, and any other state of the store stays. -/
theorem StoreState.cut_eq (x : StoreState) : x.cut = if x.writing.isSome then .bad else x := by
  cases x <;> rfl

/-- R195: all that the beginning of a warm reset writes. -/
theorem State.warm_eq (s : State) (cause : ResetCause) :
    s.warm cause =
      { s with
        cause := cause
        time :=
          { s.time with
            slew := 0, pendingTime := none, qualified := 0, lastPulse := none
            sync := if s.time.source = .pulse then .acquire else .free }
        bells := s.bells.map (fun r => { r with window := none, stuck := .idle })
        queue := [], waiting := [], coils := [], playQueue := [], tune := none, toll := none
        melodies := s.melodies.map (fun h => { h with held := false })
        cues := s.cues.map (fun c => { c with timer := none, latch := false })
        supply := .recovering s.now
        serial := { mask := s.serial.mask }
        store := if s.store.writing.isSome then .bad else s.store } := by
  rw [State.warm, Timebase.warm, SyncSource.startState_eq, StoreState.cut_eq]

/-- R195: what an event of a RESET request waits for. -/
theorem State.warmResetDue_iff {s : State} {finish : Nat} (high : s.held = false)
    (sending : s.serial.resetWait = .replySending finish) : s.warmResetDue = true ↔ finish ≤ s.now := by
  simp [State.warmResetDue, high, sending]

/-- R195: a warm reset from its beginning to its end. -/
theorem State.warm_start_eq (pins : Pins) (s : State) :
    let sync : SyncState := if s.time.source = .pulse then .acquire else .free
    let store : StoreState := if s.store.writing.isSome then .bad else s.store
    (s.warm .command).start pins =
      { s with
        held := false, cause := .command, pins := pins, store := store
        bellCount := bellCountOf pins.nsel, coilBudget := coilBudgetOf pins.csel, lineRate := lineRateOf pins.rate
        time :=
          { s.time with
            slew := 0, pendingTime := none, qualified := 0, lastPulse := none, sync := sync
            crossed := s.wallSecond }
        bells := Vector.ofFn fun i : Fin 64 =>
          { s.bells[i] with
            window := none
            stuck := s.bells[i].timedAt s.now (bellCountOf pins.nsel) (i.val + 1) pins.sense[i] }
        queue := [], waiting := [], coils := [], playQueue := [], tune := none, toll := none
        melodies := s.melodies.map (fun h => { h with held := false })
        cues := Vector.ofFn fun i : Fin 4 =>
          { s.cues[i] with settled := pins.cue[i], timer := none, latch := false }
        supply := if pins.supgood then .recovering s.now else .dip s.now
        serial :=
          { mask := s.serial.mask, made := 1
            reports := [⟨0, .report .start
              [.word .COMMAND, storeWord store, syncWord sync, .word .N, .num (bellCountOf pins.nsel), .word .C,
                .num (coilBudgetOf pins.csel)]⟩] } } := by
  have bell (i : Fin 64) : (s.warm .command).bells[i] = { s.bells[i] with window := none, stuck := .idle } :=
    Vector.getElem_map ..
  have cue (i : Fin 4) : (s.warm .command).cues[i] = { s.cues[i] with timer := none, latch := false } :=
    Vector.getElem_map ..
  intro sync store
  rw [State.start_eq]
  simp only [bell, cue]
  rw [State.warm_eq]
  rfl

/-- Settles O7: the fall of RESET by `State.warm_eq`, its rise by `State.start_eq`, and the warm reset of a RESET request
by both; taken in two rows it is the same. -/
theorem warmResetsKeepAndClear : Obligations.WarmResetsKeepAndClear := by
  unfold Obligations.WarmResetsKeepAndClear
  refine ⟨⟨fun s high => ?_, fun pins s held => ?_, fun s held => ?_, fun pins s high => ?_⟩,
    fun s tag can => ?_, fun s tag f more can => ?_, fun s waits => ?_, fun pins s finish high sending come => ?_,
    fun pins s m finish high sending => ⟨fun come fall => ?_, fun early => ?_⟩⟩
  · refine (exec_taken (i := .resetLineFall) (by simp [conditionOf, high])).trans ?_
    rw [effectOf, State.warm_eq]
  · exact (exec_taken (i := .resetLineRise pins) held).trans (congrArg _ (s.start_eq pins))
  · exact exec_idle (by simp [conditionOf, held])
  · exact exec_idle high
  · exact exec_request_eq rfl can rfl
  · exact exec_request_eq rfl can rfl
  · simp [State.canExecute, waits]
  · have due := (State.warmResetDue_iff high sending).mpr come
    refine (exec_taken (i := .warmResetCommand pins) due).trans ?_
    rw [effectOf, State.warm_start_eq, ← high]
    rfl
  · have due := (State.warmResetDue_iff high sending).mpr come
    have fallen : exec .resetLineFall s = .next { s.warm .line with held := true } :=
      exec_taken (by simp [conditionOf, high])
    obtain rfl := Host.Outcome.next.inj (fall.symm.trans fallen)
    exact ⟨_, exec_taken (i := .warmResetCommand pins) due, exec_taken (i := .resetLineRise pins) rfl⟩
  · refine exec_idle (Bool.eq_false_iff.mpr fun due => ?_)
    have := (State.warmResetDue_iff high sending).mp due
    omega

end Sys2Proof.Machine
end

section
/-! SUPPORT. What the part does of its own accord (assumptions 3, 5): which rows are due, and what a step with no command
waiting takes. -/

namespace Sys2Proof.Machine

/-! ## The conditions of the rows, read off the state -/

section Conditions

variable {s : State} {b id : Nat}

theorem State.windowDue_iff :
    s.windowDue b = true ↔ s.held = false ∧ ∃ w ∈ (s.bell b).window, w.closes ≤ s.now := by
  unfold State.windowDue
  cases (s.bell b).window <;> simp

theorem State.stuckDue_iff :
    s.stuckDue b = true ↔ s.held = false ∧ ∃ start, (s.bell b).stuck = .running start ∧ start + 2000 ≤ s.now := by
  unfold State.stuckDue
  cases (s.bell b).stuck <;> simp

theorem State.expiryDue_iff :
    s.expiryDue id = true ↔ s.held = false ∧ ∃ r ∈ s.playQueue, r.id = id ∧ r.latest < (s.now : Int) := by
  simp [State.expiryDue, State.expiredRequest]

/-- R109: the TUNE lane runs, does not lag, and the onset of its next record is near. -/
theorem State.recordDue_iff_exists :
    s.recordDue = true ↔ s.held = false ∧ ∃ l ∈ s.tune, ∃ rec ∈ s.record l.spec.melody l.cursor,
      l.phase.runs = true ∧ l.lag = false ∧
        l.timing.onset (l.timing.division + rec.delta) ≤ s.now + 5000 := by
  cases hl : s.tune with
  | none => simp [State.recordDue, hl]
  | some l =>
    cases hr : s.record l.spec.melody l.cursor with
    | none => simp [State.recordDue_of_end hl hr, hr]
    | some r => simp [State.recordDue_iff hl hr, hr]

theorem State.strokeDue_iff_exists :
    s.strokeDue = true ↔ s.held = false ∧ ∃ l ∈ s.toll, l.phase.runs = true ∧ l.lag = false ∧
      l.origin + l.next * l.spec.interval ≤ s.now + 5000 := by
  cases hl : s.toll with
  | none => simp [State.strokeDue, hl]
  | some l => simp [State.strokeDue_iff hl, TollLane.nextOnset]

theorem State.lossDue_iff :
    s.lossDue = true ↔ s.held = false ∧ ∃ start, s.supply = .dip start ∧ start + 20000 ≤ s.now := by
  unfold State.lossDue
  cases s.supply <;> simp

theorem State.recoveryDue_iff :
    s.recoveryDue = true ↔ s.held = false ∧ ∃ start, s.supply = .recovering start ∧ start + 10000 ≤ s.now := by
  unfold State.recoveryDue
  cases s.supply <;> simp

theorem State.lineDue_iff :
    s.lineDue = true ↔ s.held = false ∧ s.canExecute = true ∧ s.serial.input ≠ [] := by
  simp [State.lineDue, State.canExecute, and_assoc]

theorem earlier_isSome (a b : Option (Waiting × MadeLine)) :
    (earlier a b).isSome = (a.isSome || b.isSome) := by
  unfold earlier
  split
  · split <;> rfl
  · rfl
  · simp

/-- R187: a line waits exactly where one of the three queues holds one. -/
theorem Serial.earliest_isSome_iff (l : Serial) :
    l.earliest.isSome = true ↔ l.executed ≠ none ∨ l.refusals ≠ [] ∨ l.reports ≠ [] := by
  simp [Serial.earliest, earlier_isSome, Option.isSome_iff_ne_none, or_assoc]

theorem ResetWait.isSending_eq_false_iff {x : ResetWait} :
    x.isSending = false ↔ ∀ finish, x ≠ .replySending finish := by
  cases x <;> simp [ResetWait.isSending]

theorem State.transmitDue_iff :
    s.transmitDue = true ↔ s.held = false ∧ s.transmitterIdle = true ∧
      (∀ finish, s.serial.resetWait ≠ .replySending finish) ∧
        (s.serial.executed ≠ none ∨ s.serial.refusals ≠ [] ∨ s.serial.reports ≠ []) := by
  simp only [State.transmitDue, Bool.and_eq_true, Bool.not_eq_true', ResetWait.isSending_eq_false_iff,
    Serial.earliest_isSome_iff, and_assoc]

theorem State.saveLate_iff :
    s.saveLate = true ↔ s.held = false ∧
      ∃ since contents, s.store = .busy since contents ∧ since + 30000 ≤ s.now := by
  unfold State.saveLate
  cases s.store <;> simp [StoreState.writing]

theorem State.warmResetDue_iff_exists :
    s.warmResetDue = true ↔ s.held = false ∧
      ∃ finish, s.serial.resetWait = .replySending finish ∧ finish ≤ s.now := by
  unfold State.warmResetDue
  cases s.serial.resetWait <;> simp

/-- Assumption 12: while RESET is held low none of the rows whose condition the model names is due. -/
theorem State.named_due_imp_not_held (s : State) :
    (∀ id, s.cutDue id = true → s.held = false) ∧ (s.tuneTakeDue = true → s.held = false) ∧
      (s.tollTakeDue = true → s.held = false) ∧ (s.tickDue = true → s.held = false) ∧
      (s.boundaryDue = true → s.held = false) ∧ (s.rangeEndDue = true → s.held = false) ∧
      (s.pulseLossDue = true → s.held = false) ∧ (∀ c, s.debounceDue c = true → s.held = false) := by
  simp +contextual [State.cutDue, State.tuneTakeDue, State.tollTakeDue, State.tickDue, State.boundaryDue,
    State.rangeEndDue, State.pulseLossDue, State.debounceDue]

end Conditions

/-! ## Which rows are due -/

theorem mem_when {condition : Bool} {i j : Instr} : i ∈ when condition j ↔ i = j ∧ condition = true := by
  unfold when
  split <;> simp_all

/-- A row that falls on one of some numbers is due on those of them on which its condition holds. -/
theorem mem_rows {ns : List Nat} {condition : Nat → Bool} {row : Nat → Instr} {i : Instr} :
    i ∈ ns.filterMap (fun n => if condition n then some (row n) else none) ↔
      ∃ n, i = row n ∧ n ∈ ns ∧ condition n = true := by
  simp only [List.mem_filterMap, Option.ite_none_right_eq_some, Option.some.injEq]
  exact ⟨fun ⟨n, mem, holds, e⟩ => ⟨n, e.symm, mem, holds⟩, fun ⟨n, e, mem, holds⟩ => ⟨n, mem, holds, e.symm⟩⟩

theorem State.mem_due_iff {s : State} {i : Instr} :
    i ∈ s.due ↔
      (i = .dispatch ∧ s.dispatchDue = true) ∨
      (∃ b, i = .coilRelease b ∧ s.coilDue b = true) ∨
      (∃ place, i = .coilWaitDeadline place ∧ s.deadlineDue place = true) ∨
      (∃ b, i = .windowEnd b ∧ (1 ≤ b ∧ b ≤ 64) ∧ s.windowDue b = true) ∨
      (∃ b, i = .stuckTimeout b ∧ (1 ≤ b ∧ b ≤ 64) ∧ s.stuckDue b = true) ∨
      (∃ id, i = .expired id ∧ s.expiryDue id = true) ∨
      (∃ id, i = .cutOrder id ∧ s.cutDue id = true) ∨
      (i = .tuneTake ∧ s.tuneTakeDue = true) ∨
      (i = .expandRecord ∧ s.recordDue = true) ∨
      (i = .tollTake ∧ s.tollTakeDue = true) ∨
      (i = .expandStroke ∧ s.strokeDue = true) ∨
      (i = .slewTick ∧ s.tickDue = true) ∨
      (i = .secondBoundary ∧ s.boundaryDue = true) ∨
      (i = .wallClockRangeEnd ∧ s.rangeEndDue = true) ∨
      (i = .pulseLoss ∧ s.pulseLossDue = true) ∨
      (∃ c, i = .cueDebounceExpire c ∧ (1 ≤ c ∧ c ≤ 4) ∧ s.debounceDue c = true) ∨
      (i = .supplyLost ∧ s.lossDue = true) ∨
      (i = .supplyGood ∧ s.recoveryDue = true) ∨
      (i = .lineExecute ∧ s.lineDue = true) ∨
      (i = .transmitLine ∧ s.transmitDue = true) ∨
      (i = .saveTimeout ∧ s.saveLate = true) ∨
      (i = .warmResetCommand s.pins ∧ s.warmResetDue = true) := by
  have bells (b : Nat) : b ∈ List.range' 1 64 ↔ 1 ≤ b ∧ b ≤ 64 := mem_melodies
  have cues (c : Nat) : c ∈ List.range' 1 4 ↔ 1 ≤ c ∧ c ≤ 4 := by
    rw [List.mem_range'_1]
    omega
  have coils (b : Nat) : (b ∈ s.coils.map (·.bell) ∧ s.coilDue b = true) ↔ s.coilDue b = true := by
    refine and_iff_right_of_imp fun due => ?_
    obtain ⟨-, c, hc, here, -⟩ := State.coilDue_iff.mp due
    exact List.mem_map.mpr ⟨c, hc, here⟩
  have places (p : Nat) : (p ∈ List.range s.waiting.length ∧ s.deadlineDue p = true) ↔ s.deadlineDue p = true := by
    refine and_iff_right_of_imp fun due => ?_
    obtain ⟨-, e, he, -⟩ := State.deadlineDue_iff.mp due
    exact List.mem_range.mpr (List.getElem?_eq_some_iff.mp he).1
  have expired (id : Nat) : (id ∈ s.playQueue.map (·.id) ∧ s.expiryDue id = true) ↔ s.expiryDue id = true := by
    refine and_iff_right_of_imp fun due => ?_
    obtain ⟨-, r, hr, here, -⟩ := State.expiryDue_iff.mp due
    exact List.mem_map.mpr ⟨r, hr, here⟩
  have cuts (id : Nat) : (id ∈ s.playQueue.map (·.id) ∧ s.cutDue id = true) ↔ s.cutDue id = true := by
    refine and_iff_right_of_imp fun due => ?_
    obtain ⟨-, -, r, hr, here, -⟩ := State.cutDue_iff.mp due
    exact List.mem_map.mpr ⟨r, hr, here⟩
  unfold State.due
  simp only [List.mem_append, mem_when, mem_rows, bells, cues, coils, places, expired, cuts, or_assoc]

/-! ## What a step with no command waiting takes -/

theorem State.idle_of_none_due {s : State} (none_due : s.due = []) : s.idle = s.passGrain := by
  simp [State.idle, none_due, choose]

theorem State.idle_of_one_due {s : State} {i : Instr} (one : s.due = [i]) : s.idle = exec i s := by
  simp [State.idle, one, choose]

/-- Assumption 3: of several rows that are due the arbiter picks one, and the choice is counted. -/
theorem State.idle_of_several_due {s : State} (several : 2 ≤ s.due.length) :
    ∃ i ∈ s.due, s.idle = exec i { s with choices := s.choices + 1 } := by
  unfold State.idle
  match h : s.due, several with
  | i :: j :: rest, _ =>
    have within : Config.arbiter s.choices % (i :: j :: rest).length < (i :: j :: rest).length :=
      Nat.mod_lt _ (by simp)
    exact ⟨_, List.getElem_mem within, by simp only [choose, List.getD_eq_getElem _ _ within]⟩

/-- Settles O2: the rows that are due, each by its condition, and what a step takes of them. -/
theorem idleStepGoesOn : Obligations.IdleStepGoesOn := by
  unfold Obligations.IdleStepGoesOn
  refine ⟨fun s i => ?_, fun s idle => ?_⟩
  · obtain ⟨cut, tune, toll, tick, boundary, range, pulse, debounce⟩ := s.named_due_imp_not_held
    rw [State.mem_due_iff]
    cases i with
    | dispatch => simp [State.dispatchDue_iff]
    | coilRelease b => simp [State.coilDue_iff]
    | coilWaitDeadline place => simp [State.deadlineDue_iff]
    | windowEnd b => simp [State.windowDue_iff, and_assoc, and_left_comm]
    | stuckTimeout b => simp [State.stuckDue_iff, and_assoc, and_left_comm]
    | expired id => simp [State.expiryDue_iff]
    | cutOrder id => simpa using cut id
    | tuneTake => simpa using tune
    | expandRecord => simp [State.recordDue_iff_exists]
    | tollTake => simpa using toll
    | expandStroke => simp [State.strokeDue_iff_exists]
    | slewTick => simpa using tick
    | secondBoundary => simpa using boundary
    | wallClockRangeEnd => simpa using range
    | pulseLoss => simpa using pulse
    | cueDebounceExpire c => simpa [and_assoc, and_left_comm] using fun _ _ => debounce c
    | supplyLost => simp [State.lossDue_iff]
    | supplyGood => simp [State.recoveryDue_iff]
    | lineExecute => simp [State.lineDue_iff]
    | transmitLine => simp [State.transmitDue_iff]
    | saveTimeout => simp [State.saveLate_iff]
    | warmResetCommand pins => simp [State.warmResetDue_iff_exists, and_left_comm]
    | _ => simp
  · have go : step s = s.idle := by simp [step, idle]
    rw [go]
    refine ⟨fun none_due low => ?_, fun none_due high => ?_, fun i => State.idle_of_one_due,
      State.idle_of_several_due⟩
    · rw [State.idle_of_none_due none_due]
      exact if_pos low
    · rw [State.idle_of_none_due none_due]
      exact if_neg (Nat.not_lt.mpr high)

end Sys2Proof.Machine
end

section
/-! SUPPORT. Strike sensing and flight learning (R64 to R76): the table of the health row by row, what a judgement
writes and reports, and the edges and timers of the sense lines. -/

namespace Sys2Proof.Machine

/-! ## The health of a bell (R73, R74) -/

section Health

variable {r : Bell}

theorem Bell.afterHit_good (good : r.health = .good) (test : Bool) :
    r.afterHit test = { r with misses := 0, hits := 0 } := by
  simp only [Bell.afterHit, good]

theorem Bell.afterHit_suspect (suspect : r.health = .suspect) (few : r.hits ≤ 2) (test : Bool) :
    r.afterHit test = { r with misses := 0, hits := r.hits + 1 } := by
  simp only [Bell.afterHit, suspect, if_pos (Nat.lt_succ_of_le few)]

theorem Bell.afterHit_suspect_fourth (suspect : r.health = .suspect) (three : r.hits = 3) (test : Bool) :
    r.afterHit test = { r with misses := 0, hits := 0, health := .good } := by
  simp only [Bell.afterHit, suspect, three, Nat.lt_irrefl, if_false]

theorem Bell.afterHit_faulted {cause : FaultCause} (faulted : r.health = .faulted cause) (test : Bool) :
    r.afterHit test = if test then { r with misses := 0, hits := 0, health := .suspect } else r := by
  simp only [Bell.afterHit, faulted]

theorem Bell.afterMiss_good (good : r.health = .good) :
    r.afterMiss = { r with misses := 1, hits := 0, health := .suspect } := by
  simp only [Bell.afterMiss, good]

theorem Bell.afterMiss_suspect (suspect : r.health = .suspect) (few : r.misses ≤ 1) :
    r.afterMiss = { r with misses := r.misses + 1, hits := 0 } := by
  simp only [Bell.afterMiss, suspect, if_pos (Nat.lt_succ_of_le few)]

theorem Bell.afterMiss_suspect_third (suspect : r.health = .suspect) (two : r.misses = 2) :
    r.afterMiss = { r with misses := 3, hits := 0, health := .faulted .misses } := by
  simp only [Bell.afterMiss, suspect, two, Nat.lt_irrefl, if_false]

theorem Bell.afterMiss_faulted {cause : FaultCause} (faulted : r.health = .faulted cause) : r.afterMiss = r := by
  simp only [Bell.afterMiss, faulted]

/-- R74: the misses of a GOOD bell, one after the other. -/
theorem Bell.health_after_three_misses (good : r.health = .good) :
    r.afterMiss.afterMiss.afterMiss.health = .faulted .misses := by
  have two : r.afterMiss.afterMiss = { r with misses := 2, hits := 0, health := .suspect } := by
    rw [Bell.afterMiss_good good]
    exact Bell.afterMiss_suspect rfl (Nat.le_refl 1)
  rw [two]
  exact congrArg Bell.health (Bell.afterMiss_suspect_third rfl rfl)

/-- R73: the hits of a SUSPECT bell, counted from none. -/
theorem Bell.health_after_hits (suspect : r.health = .suspect) (fresh : r.hits = 0) (test : Bool) :
    (((r.afterHit test).afterHit test).afterHit test).health = .suspect ∧
      ((((r.afterHit test).afterHit test).afterHit test).afterHit test).health = .good := by
  have one : r.afterHit test = { r with misses := 0, hits := 1 } := by
    rw [Bell.afterHit_suspect suspect (by omega), fresh]
  have two : (r.afterHit test).afterHit test = { r with misses := 0, hits := 2 } := by
    rw [one]
    exact Bell.afterHit_suspect (r := { r with misses := 0, hits := 1 }) suspect (Nat.le_succ 1) test
  have three : ((r.afterHit test).afterHit test).afterHit test = { r with misses := 0, hits := 3 } := by
    rw [two]
    exact Bell.afterHit_suspect (r := { r with misses := 0, hits := 2 }) suspect (Nat.le_refl 2) test
  rw [three]
  exact ⟨suspect, congrArg Bell.health
    (Bell.afterHit_suspect_fourth (r := { r with misses := 0, hits := 3 }) suspect rfl test)⟩

/-- R73, R74: a miss disables no bell and enables none. -/
theorem Bell.afterMiss_disabled_iff : r.afterMiss.health = .disabled ↔ r.health = .disabled := by
  unfold Bell.afterMiss
  split
  next good => simp [good]
  next suspect => split <;> simp [suspect]
  next => rfl
  next => rfl

/-- R76: the stuck timer of a GOOD or SUSPECT bell faults it. -/
theorem Bell.afterStuck_faults (sound : r.health = .good ∨ r.health = .suspect) :
    r.afterStuck = { r with stuck := .expired, hits := 0, health := .faulted .stuck } := by
  obtain good | suspect := sound
  · simp only [Bell.afterStuck, good]
  · simp only [Bell.afterStuck, suspect]

theorem Bell.afterStuck_faulted {cause : FaultCause} (faulted : r.health = .faulted cause) :
    r.afterStuck = { r with stuck := .expired } := by
  simp only [Bell.afterStuck, faulted]

end Health

/-- Settles O37: the table row by row, and the runs of misses and hits through it. -/
theorem healthMoves : Obligations.HealthMoves := by
  unfold Obligations.HealthMoves
  refine ⟨fun r => ⟨fun good => ?good, fun suspect => ?suspect, fun cause faulted => ?faulted⟩,
    fun r => ⟨Bell.health_after_three_misses, fun cause faulted test => ?restored⟩⟩
  case good => exact ⟨Bell.afterHit_good good _, Bell.afterHit_good good _, Bell.afterMiss_good good⟩
  case suspect =>
    exact ⟨fun test few => Bell.afterHit_suspect suspect few test,
      fun test three => Bell.afterHit_suspect_fourth suspect three test,
      Bell.afterMiss_suspect suspect, Bell.afterMiss_suspect_third suspect⟩
  case faulted =>
    exact ⟨Bell.afterHit_faulted faulted _, Bell.afterHit_faulted faulted _, Bell.afterMiss_faulted faulted⟩
  case restored =>
    have restored : r.afterHit true = { r with misses := 0, hits := 0, health := .suspect } :=
      Bell.afterHit_faulted faulted true
    rw [restored]
    exact ⟨rfl, Bell.health_after_hits rfl rfl test⟩

/-! ## What a judgement writes (R68 to R70) -/

section Judgements

variable {s : State} {b : Nat}

/-- R14: the record is written, and a change of its health is reported. -/
theorem State.moveBell_eq (h1 : 1 ≤ b) (h64 : b ≤ 64) (r : Bell) :
    s.moveBell b r =
      if r.health = (s.bell b).health then s.setBell b r
      else (s.setBell b r).post .health (.num b :: healthFields r.health) := by
  simp only [State.moveBell, State.reportHealth, State.bell_setBell, true_and, h1, h64, if_true]

/-- A change of a record that has just been moved is written with it; the report was made before. -/
theorem State.modBell_moveBell (h1 : 1 ≤ b) (h64 : b ≤ 64) (r : Bell) (f : Bell → Bell) :
    (s.moveBell b r).modBell b f =
      if r.health = (s.bell b).health then s.setBell b (f r)
      else (s.setBell b (f r)).post .health (.num b :: healthFields r.health) := by
  have written : (s.setBell b r).bell b = r := by rw [State.bell_setBell, if_pos ⟨rfl, h1, h64⟩]
  have changed : (s.setBell b r).modBell b f = s.setBell b (f r) := by
    rw [State.modBell, written, State.setBell_setBell]
  rw [State.moveBell_eq h1 h64]
  split
  · exact changed
  · rw [← changed]
    rfl

/-- R69: all that a miss leaves of what the sense unit reads of the bell. -/
theorem State.bell_miss_frame (s : State) (b : Nat) (w : Window) :
    ((s.miss b w).bell b).cal = (s.bell b).cal ∧
      (((s.miss b w).bell b).health = .disabled ↔ (s.bell b).health = .disabled) := by
  rw [State.bell_miss]
  split
  · dsimp only
    split
    · exact ⟨by rw [(Bell.afterMiss_frame _).1], Bell.afterMiss_disabled_iff⟩
    · exact ⟨rfl, Iff.rfl⟩
  · exact ⟨rfl, Iff.rfl⟩

/-- R64, R69: a miss closes the window. -/
theorem State.window_miss (h1 : 1 ≤ b) (h64 : b ≤ 64) (w : Window) : ((s.miss b w).bell b).window = none := by
  rw [State.bell_miss, if_pos ⟨rfl, h1, h64⟩]
  dsimp only
  split
  · rw [(Bell.afterMiss_frame _).2.2.2.2]
  · rfl

theorem State.watched_miss (s : State) (b : Nat) (w : Window) : (s.miss b w).watched b = s.watched b := by
  obtain ⟨cal, disabled⟩ := s.bell_miss_frame b w
  rw [Bool.eq_iff_iff]
  simp [State.watched, cal, disabled]

theorem State.lineActive_miss (s : State) (b : Nat) (w : Window) : (s.miss b w).lineActive b = s.lineActive b := by
  simp [State.lineActive, State.senseLevel, (s.bell_miss_frame b w).1]

/-- The level of a line is no matter of a move of the health. -/
theorem State.setSense_moveBell (s : State) (b : Nat) (high : Bool) (r : Bell) :
    (s.setSense b high).moveBell b r = (s.moveBell b r).setSense b high := by
  unfold State.moveBell State.reportHealth
  rw [apply_ite (fun t : State => t.setSense b high)]
  rfl

theorem State.setSense_miss (s : State) (b : Nat) (w : Window) (high : Bool) :
    (s.setSense b high).miss b w = (s.miss b w).setSense b high :=
  s.setSense_moveBell ..

end Judgements

/-! ## The timers (R69, R75, R76) -/

section Timers

variable {s : State} {b : Nat}

theorem State.windowDue_iff_of_open {w : Window} (opened : (s.bell b).window = some w) :
    s.windowDue b = true ↔ s.held = false ∧ w.closes ≤ s.now := by
  simp [State.windowDue_iff, opened]

/-- R69: an open window is ended at its end. -/
theorem exec_windowEnd {w : Window} (high : s.held = false) (opened : (s.bell b).window = some w)
    (come : w.closes ≤ s.now) : exec (.windowEnd b) s = .next (s.miss b w) := by
  refine (exec_taken (i := .windowEnd b) ((State.windowDue_iff_of_open opened).mpr ⟨high, come⟩)).trans ?_
  simp only [effectOf, State.endWindow, opened]

end Timers

/-- Settles O39: the rows are due by their times, and each moves the health by the table. -/
theorem timersJudge : Obligations.TimersJudge := by
  unfold Obligations.TimersJudge
  refine ⟨fun s b h1 h64 => ⟨fun closed => ?closed, fun w opened => ⟨fun early => ?opened, fun high come => ?ended⟩⟩,
    fun s b still => ?idle, fun s b start h1 h64 runs => ⟨fun early => ?running, fun high come => ?expires⟩⟩
  case closed =>
    refine exec_idle (Bool.eq_false_iff.mpr fun due => ?_)
    obtain ⟨high, w, opened, -⟩ := State.windowDue_iff.mp due
    obtain held | shut := closed
    · exact absurd held (by simp [high])
    · simp [shut] at opened
  case opened =>
    refine exec_idle (Bool.eq_false_iff.mpr fun due => ?_)
    have := ((State.windowDue_iff_of_open opened).mp due).2
    omega
  case ended =>
    rw [exec_windowEnd high opened come, State.miss, State.moveBell_eq h1 h64]
    rfl
  case idle =>
    refine exec_idle (Bool.eq_false_iff.mpr fun due => ?_)
    obtain ⟨-, start, runs, -⟩ := State.stuckDue_iff.mp due
    exact still start runs
  case running =>
    refine exec_idle (Bool.eq_false_iff.mpr fun due => ?_)
    obtain ⟨high, begun, since, come⟩ := State.stuckDue_iff.mp due
    obtain rfl : start = begun := StuckTimer.running.inj (runs.symm.trans since)
    obtain held | early := early
    · exact absurd held (by simp [high])
    · omega
  case expires =>
    have due : s.stuckDue b = true := State.stuckDue_iff.mpr ⟨high, start, runs, come⟩
    have taken : exec (.stuckTimeout b) s = .next (s.moveBell b (s.bell b).afterStuck) :=
      exec_taken (i := .stuckTimeout b) due
    rw [taken, State.moveBell_eq h1 h64]
    refine ⟨fun sound => ?_, fun cause faulted => ?_⟩
    · have moved : Health.faulted .stuck ≠ (s.bell b).health := by
        obtain good | suspect := sound
        · simp [good]
        · simp [suspect]
      rw [Bell.afterStuck_faults sound, if_neg moved]
      rfl
    · rw [Bell.afterStuck_faulted faulted, if_pos rfl]

/-! ## The edges (R64 to R68, R70, R72, R75) -/

/-- R37: the bucket covers a level, not above the one asked for, exactly where the search finds one. -/
theorem Bell.exists_affordable_iff {r : Bell} {bucket top : Nat} :
    (∃ level, r.affordable bucket top = some level) ↔ ∃ level, 1 ≤ level ∧ level ≤ top ∧ r.cost level ≤ bucket := by
  rw [← Option.ne_none_iff_exists', Ne, Bell.affordable_eq_none_iff]
  simp only [not_forall, Nat.not_lt, exists_prop]

/-- R46 to R50, R55: an entry granted a place fires where it passes every other check. -/
theorem State.decide_granted_fires_iff {s : State} {e : Entry} :
    (s.decide e true).fires = true ↔
      healthBars (s.bell e.bell).health e.origin = false ∧ s.supply = .good ∧ (s.bell e.bell).ready ≤ s.now ∧
        ∃ level, 1 ≤ level ∧ level ≤ e.level ∧ (s.bell e.bell).cost level ≤ (s.bell e.bell).refilled s.now := by
  rw [← Bell.exists_affordable_iff]
  constructor
  · intro fires
    cases h : s.decide e true with
    | fire level =>
      obtain ⟨bars, supply, ready, -, heat⟩ := State.decide_fire h
      exact ⟨bars, supply, ready, level, heat⟩
    | _ => simp [h, Decision.fires] at fires
  · rintro ⟨bars, supply, ready, level, heat⟩
    rw [State.decide_eq]
    simp [bars, supply, Nat.not_lt.mpr ready, heat, Decision.fires]

theorem State.mayFire_iff (s : State) (b : Nat) :
    s.mayFire b = true ↔
      (s.coils.length < s.coilBudget ∨ ∃ c ∈ s.coils, c.release ≤ s.now) ∧
        ∃ e, ((e ∈ s.queue ∧ e.fire ≤ s.now) ∨ e ∈ s.waiting) ∧ e.bell = b ∧
          healthBars (s.bell b).health e.origin = false ∧ s.supply = .good ∧ (s.bell b).ready ≤ s.now ∧
            ∃ level, 1 ≤ level ∧ level ≤ e.level ∧ (s.bell b).cost level ≤ (s.bell b).refilled s.now := by
  simp only [State.mayFire, Bool.and_eq_true, Bool.or_eq_true, decide_eq_true_eq, List.any_eq_true, List.mem_append,
    List.mem_filter, beq_iff_eq, State.decide_granted_fires_iff]
  refine and_congr_right fun _ => exists_congr fun e => and_congr_right fun _ => and_congr_right fun same => ?_
  rw [same]

theorem State.watched_iff (s : State) {b : Nat} (h1 : 1 ≤ b) :
    s.watched b = true ↔ b ≤ s.bellCount ∧ (s.bell b).cal.fitted = true ∧ (s.bell b).health ≠ .disabled := by
  simp [State.watched, h1, and_assoc]

section Judging

variable {s : State} {b : Nat} {w : Window}

/-! What an edge judged now meets (R65, R67): a window ended, the band of an open window, or neither. -/

theorem State.judgeEdge_of_closed (closed : (s.bell b).window = none) : s.judgeEdge b = s.stray b := by
  simp only [State.judgeEdge, closed]

theorem State.judgeEdge_of_ended (opened : (s.bell b).window = some w) (ended : s.meetsEnded b w = true) :
    s.judgeEdge b = (s.miss b w).stray b := by
  simp only [State.judgeEdge, opened, ended, if_true]

theorem State.judgeEdge_before_band (opened : (s.bell b).window = some w) (lasts : s.meetsEnded b w = false)
    (early : s.now < w.bandStart) : s.judgeEdge b = s.stray b := by
  simp only [State.judgeEdge, opened, lasts, Bool.false_eq_true, if_false, if_neg (Nat.not_le.mpr early)]

theorem State.judgeEdge_in_band (opened : (s.bell b).window = some w) (lasts : s.meetsEnded b w = false)
    (come : w.bandStart ≤ s.now) : s.judgeEdge b = s.hit b w := by
  simp only [State.judgeEdge, opened, lasts, Bool.false_eq_true, if_false, if_pos come]

theorem State.meetsEnded_iff :
    s.meetsEnded b w = true ↔ w.closes < s.now ∨ (w.closes = s.now ∧ s.mayFire b = true) := by
  simp [State.meetsEnded]

theorem State.meetsEnded_eq_false (within : s.now ≤ w.closes) (last : s.now = w.closes → s.mayFire b = false) :
    s.meetsEnded b w = false := by
  rw [Bool.eq_false_iff, Ne, State.meetsEnded_iff]
  rintro (past | ⟨now, fires⟩)
  · omega
  · simp [last now.symm] at fires

/-- R72: learning applies where LEARN is ON and the window clean and not blocked. -/
theorem Bell.learn_eq (r : Bell) (w : Window) (now : Nat) :
    r.learn w now =
      if r.cal.learn = true ∧ w.clean = true ∧ w.blocked = false then
        { r with
          cal :=
            { r.cal with
              flight :=
                setSlot r.cal.flight w.level (learnedFlight (slot r.cal.flight w.level 0) (now - w.firedAt)) } }
      else r := by
  simp only [Bell.learn, Bell.learns, Bell.flight, Bool.and_eq_true, Bool.not_eq_true', and_assoc]

/-- R68, R72, R73: the record that a hit in the window `w` leaves. -/
def Bell.struck (r : Bell) (w : Window) (now : Nat) : Bell :=
  let counted : Bell := { r with counters := { r.counters with hit := bump16 r.counters.hit }, window := none }
  if w.clean then (counted.learn w now).afterHit w.test else counted.learn w now

/-- A hit is no matter of the stuck timer. -/
theorem Bell.struck_stuck (r : Bell) (w : Window) (now : Nat) : (r.struck w now).stuck = r.stuck := by
  have learn (q : Bell) : (q.learn w now).stuck = q.stuck := by
    unfold Bell.learn
    split <;> rfl
  have afterHit (q : Bell) : (q.afterHit w.test).stuck = q.stuck := by
    unfold Bell.afterHit
    split
    next => rfl
    next => split <;> rfl
    next => split <;> rfl
    next => rfl
  unfold Bell.struck
  dsimp only
  split
  · rw [afterHit, learn]
  · rw [learn]

/-- R68: a hit moves the record, and reports a change of its health. -/
theorem State.hit_eq (s : State) (b : Nat) (w : Window) : s.hit b w = s.moveBell b ((s.bell b).struck w s.now) := rfl

end Judging

section Edges

variable {s : State} {b : Nat} {w : Window}

/-- R66: the sense unit would capture an active edge of the line of bell `b` now. -/
structure State.SeesActive (s : State) (b : Nat) : Prop where
  one_le : 1 ≤ b
  le_64 : b ≤ 64
  running : s.held = false
  inactive : s.lineActive b = false
  watched : s.watched b = true

theorem exec_activeEdge (h1 : 1 ≤ b) (h64 : b ≤ 64) (inactive : s.lineActive b = false) :
    exec (.senseActiveEdge b) s = .next (s.activeEdge b) :=
  exec_taken (i := .senseActiveEdge b) (by simp [conditionOf, isBellNumber, h1, h64, inactive])

theorem exec_releaseEdge (h1 : 1 ≤ b) (h64 : b ≤ 64) (active : s.lineActive b = true) :
    exec (.senseReleaseEdge b) s = .next (s.releaseEdge b) :=
  exec_taken (i := .senseReleaseEdge b) (by simp [conditionOf, isBellNumber, h1, h64, active])

/-- R66, R67, R75: an edge that is captured is judged, and starts an idle stuck timer. -/
theorem exec_activeEdge_seen (sees : s.SeesActive b) :
    exec (.senseActiveEdge b) s =
      .next (((s.setSense b (!s.senseLevel b)).judgeEdge b).modBell b
        fun r => { r with stuck := r.stuck.onActive s.now }) := by
  have captured : (!s.held && s.watched b) = true := by simp [sees.running, sees.watched]
  exact (exec_activeEdge sees.one_le sees.le_64 sees.inactive).trans (congrArg Host.Outcome.next (if_pos captured))

/-- R70, R75: a stray counts, and starts an idle stuck timer. -/
theorem exec_activeEdge_stray (sees : s.SeesActive b)
    (judged : (s.setSense b (!s.senseLevel b)).judgeEdge b = (s.setSense b (!s.senseLevel b)).stray b) :
    exec (.senseActiveEdge b) s =
      .next ((s.setSense b (!s.senseLevel b)).setBell b
        { s.bell b with
          counters := { (s.bell b).counters with stray := bump16 (s.bell b).counters.stray }
          stuck := (s.bell b).stuck.onActive s.now }) := by
  rw [exec_activeEdge_seen sees, judged, State.stray, State.modBell_modBell]
  rfl

/-- R68, R75: a hit moves the record and reports a change of its health, and starts an idle stuck timer. -/
theorem exec_activeEdge_hit (sees : s.SeesActive b) (opened : (s.bell b).window = some w)
    (lasts : s.meetsEnded b w = false) (come : w.bandStart ≤ s.now) :
    let moved := (s.bell b).struck w s.now
    let judged := (s.setSense b (!s.senseLevel b)).setBell b
      { moved with stuck := (s.bell b).stuck.onActive s.now }
    exec (.senseActiveEdge b) s =
      .next (if moved.health = (s.bell b).health then judged
        else judged.post .health (.num b :: healthFields moved.health)) := by
  have hit := State.judgeEdge_in_band (s := s.setSense b (!s.senseLevel b)) opened lasts come
  intro moved judged
  rw [exec_activeEdge_seen sees, hit, State.hit_eq, State.modBell_moveBell sees.one_le sees.le_64, Bell.struck_stuck]
  rfl

/-- R65, R67: an edge that meets an ended window finds the state in which that window has been judged. -/
theorem exec_activeEdge_ended (sees : s.SeesActive b) (opened : (s.bell b).window = some w)
    (ended : s.meetsEnded b w = true) :
    exec (.senseActiveEdge b) s = exec (.senseActiveEdge b) (s.miss b w) := by
  have level : (s.miss b w).senseLevel b = s.senseLevel b := by simp [State.senseLevel]
  have now : (s.miss b w).now = s.now := State.now_congr (by simp)
  have sees' : (s.miss b w).SeesActive b :=
    { sees with
      running := by simp [sees.running]
      inactive := by rw [State.lineActive_miss, sees.inactive]
      watched := by rw [State.watched_miss, sees.watched] }
  have before := State.judgeEdge_of_ended (s := s.setSense b (!s.senseLevel b)) opened ended
  have after := State.judgeEdge_of_closed (s := (s.miss b w).setSense b (!s.senseLevel b))
    (State.window_miss sees.one_le sees.le_64 w)
  rw [exec_activeEdge_seen sees, exec_activeEdge_seen sees', before, level, now, after, State.setSense_miss]

/-- R66: with RESET low, or on a line that is not watched, no edge is captured. -/
theorem State.not_captured (unseen : s.held = true ∨ s.watched b = false) : ¬(!s.held && s.watched b) = true := by
  obtain held | watched := unseen
  · simp [held]
  · simp [watched]

/-- R66: an edge that is not captured changes the level of its line only. -/
theorem State.activeEdge_unseen (unseen : s.held = true ∨ s.watched b = false) :
    s.activeEdge b = s.setSense b (!s.senseLevel b) :=
  if_neg (State.not_captured unseen)

theorem State.releaseEdge_unseen (unseen : s.held = true ∨ s.watched b = false) :
    s.releaseEdge b = s.setSense b (!s.senseLevel b) :=
  if_neg (State.not_captured unseen)

/-- R75: a release edge of a watched line makes its stuck timer idle. -/
theorem State.releaseEdge_seen (running : s.held = false) (watched : s.watched b = true) :
    s.releaseEdge b = (s.setSense b (!s.senseLevel b)).setBell b { s.bell b with stuck := .idle } := by
  have captured : (!s.held && s.watched b) = true := by simp [running, watched]
  exact if_pos captured

end Edges

/-- Settles O38: a captured edge by what it meets, and every other edge by the level it finds. -/
theorem edgesJudged : Obligations.EdgesJudged := by
  unfold Obligations.EdgesJudged
  refine ⟨fun s b h1 h64 running inactive watched => ?captured, State.mayFire_iff, fun s b h1 h64 => ?others⟩
  case captured =>
    have sees : s.SeesActive b := ⟨h1, h64, running, inactive, watched⟩
    intro u r stuck stray
    have timer : stuck = (s.bell b).stuck.onActive s.now := by
      dsimp only [stuck, r]
      cases (s.bell b).stuck <;> rfl
    clear_value stuck
    subst timer
    refine ⟨fun closed => ?_, fun w opened => ⟨fun ended => ?_, fun early within last => ?_,
      fun come within last => ?_⟩⟩
    · exact exec_activeEdge_stray sees (State.judgeEdge_of_closed (s := u) closed)
    · have come : w.closes ≤ s.now := by omega
      exact ⟨_, exec_windowEnd running opened come, exec_activeEdge_ended sees opened (State.meetsEnded_iff.mpr ended)⟩
    · have lasts := State.meetsEnded_eq_false within last
      exact exec_activeEdge_stray sees (State.judgeEdge_before_band (s := u) opened lasts early)
    · intro counted taught moved judged
      have learned : taught = counted.learn w s.now := (counted.learn_eq w s.now).symm
      have struck : moved = (s.bell b).struck w s.now := by
        dsimp only [moved]
        rw [learned]
        rfl
      dsimp only [judged]
      rw [struck]
      exact exec_activeEdge_hit sees opened (State.meetsEnded_eq_false within last) come
  case others =>
    refine ⟨fun active => exec_idle (by simp [conditionOf, active]),
      fun inactive => exec_idle (by simp [conditionOf, inactive]),
      fun inactive unseen => ?_, fun active unseen => ?_, fun active running watched => ?_, s.watched_iff h1⟩
    · rw [exec_activeEdge h1 h64 inactive, State.activeEdge_unseen unseen]
    · rw [exec_releaseEdge h1 h64 active, State.releaseEdge_unseen unseen]
    · rw [exec_releaseEdge h1 h64 active, State.releaseEdge_seen running watched]

end Sys2Proof.Machine
end

section
/-! SUPPORT. The coil-supply monitor (R71, R181, R182): what each change of SUPGOOD does in each of its states. -/

namespace Sys2Proof.Machine

section Changes

variable {s : State}

theorem exec_supgoodFall (was : s.pins.supgood = true) :
    exec .supgoodFall s =
      .next (if s.held then s.setSupgood false else (s.setSupgood false).supplyFalls) :=
  exec_taken (i := .supgoodFall) was

theorem exec_supgoodRise (was : s.pins.supgood = false) :
    exec .supgoodRise s =
      .next (if s.held then s.setSupgood true else (s.setSupgood true).supplyRises) :=
  exec_taken (i := .supgoodRise) (by simp [conditionOf, was])

/-- R181: a fall of SUPGOOD in DIP or LOST is no move of the monitor. -/
theorem State.supplyFalls_of_out (out : s.supply = .lost ∨ ∃ start, s.supply = .dip start) : s.supplyFalls = s := by
  obtain lost | ⟨start, dip⟩ := out
  · simp only [State.supplyFalls, lost]
  · simp only [State.supplyFalls, dip]
    rw [← dip]

/-- R181: a rise of SUPGOOD in GOOD or RECOVERING is no move of the monitor. -/
theorem State.supplyRises_of_in (has : s.supply = .good ∨ ∃ start, s.supply = .recovering start) :
    s.supplyRises = s := by
  obtain good | ⟨start, recovering⟩ := has
  · simp only [State.supplyRises, good]
  · simp only [State.supplyRises, recovering]
    rw [← recovering]

/-- R181: a rise of SUPGOOD in DIP or LOST begins the recovery. -/
theorem State.supplyRises_of_out (out : s.supply = .lost ∨ ∃ start, s.supply = .dip start) :
    s.supplyRises = { s with supply := .recovering s.now } := by
  obtain lost | ⟨start, dip⟩ := out
  · simp only [State.supplyRises, lost]
  · simp only [State.supplyRises, dip]

/-- R71, R181: a fall of SUPGOOD in GOOD begins the dip, and soils the open windows. -/
theorem State.supplyFalls_of_good (good : s.supply = .good) :
    s.supplyFalls = State.post (State.soilWindows { s with supply := .dip s.now }) .supply [.word .DIP] := by
  simp only [State.supplyFalls, good]

/-- R181: a fall of SUPGOOD in RECOVERING begins a new dip. -/
theorem State.supplyFalls_of_recovering {start : Nat} (recovering : s.supply = .recovering start) :
    s.supplyFalls = { s with supply := .dip s.now } := by
  simp only [State.supplyFalls, recovering]

end Changes

/-- Settles O60: each change of SUPGOOD by the monitor's state, and the two expiries by their times. -/
theorem supplyMonitorMoves : Obligations.SupplyMonitorMoves := by
  unfold Obligations.SupplyMonitorMoves
  intro s low high soiled
  refine ⟨fun was => exec_idle was, fun was => exec_idle (by simp [conditionOf, was]), fun was => ?falls,
    fun was => ?rises, fun early => ?dips, fun start running dip come => ?lost, fun early => ?recovers,
    fun start running recovering come => ?regained⟩
  case falls =>
    rw [exec_supgoodFall was]
    refine ⟨fun held => congrArg _ (if_pos held), fun running => ?_⟩
    rw [if_neg (by simp [running])]
    refine ⟨fun good => ?_, fun start recovering => ?_, fun out => ?_⟩
    · exact congrArg _ (State.supplyFalls_of_good (s := low) good)
    · exact congrArg _ (State.supplyFalls_of_recovering (s := low) recovering)
    · exact congrArg _ (State.supplyFalls_of_out (s := low) out)
  case rises =>
    rw [exec_supgoodRise was]
    refine ⟨fun held => congrArg _ (if_pos held), fun running => ?_⟩
    rw [if_neg (by simp [running])]
    refine ⟨fun out => ?_, fun has => ?_⟩
    · exact congrArg _ (State.supplyRises_of_out (s := high) out)
    · exact congrArg _ (State.supplyRises_of_in (s := high) has)
  case dips =>
    refine exec_idle (Bool.eq_false_iff.mpr fun due => ?_)
    obtain ⟨running, start, dip, come⟩ := State.lossDue_iff.mp due
    obtain held | early := early
    · exact absurd held (by simp [running])
    · exact absurd come (Nat.not_le.mpr (early start dip))
  case lost => exact exec_taken (i := .supplyLost) (State.lossDue_iff.mpr ⟨running, start, dip, come⟩)
  case recovers =>
    refine exec_idle (Bool.eq_false_iff.mpr fun due => ?_)
    obtain ⟨running, start, recovering, come⟩ := State.recoveryDue_iff.mp due
    obtain held | early := early
    · exact absurd held (by simp [running])
    · exact absurd come (Nat.not_le.mpr (early start recovering))
  case regained => exact exec_taken (i := .supplyGood) (State.recoveryDue_iff.mpr ⟨running, start, recovering, come⟩)

end Sys2Proof.Machine
end

section
/-! SUPPORT. What the commands leave of what the lanes ask for and of the melody store: most of them leave it alone,
make at most the edits of the lanes and the cues, and end with the lanes settled (R107, R111, R113). -/

namespace Sys2Proof

/-- R84 to R89: the requests that write the melody store. -/
def Instr.writesMelody : Instr → Bool
  | .melOpen _ _ _ => true
  | .melAdd _ _ _ => true
  | .melClose _ _ _ => true
  | .melDelete _ _ _ => true
  | _ => false

/-- R107, R130: the takes of the two lanes. -/
def Instr.takes : Instr → Bool
  | .tuneTake => true
  | .tollTake => true
  | _ => false

namespace Machine

/-! ## Commands that leave the store, and what the lanes ask for, to the edits -/

/-- The melody store is the same, and the lanes ask for the same. -/
structure State.SamePlaying (s t : State) : Prop where
  melodies : t.melodies = s.melodies
  pool : t.pool = s.pool
  tune : t.tune.map (·.spec) = s.tune.map (·.spec)
  toll : t.toll.map (·.spec) = s.toll.map (·.spec)

/-- The melody store, the lanes, the entries and the coils are the same. -/
structure State.SameLanes (s t : State) : Prop where
  melodies : t.melodies = s.melodies
  pool : t.pool = s.pool
  tune : t.tune = s.tune
  toll : t.toll = s.toll
  queue : t.queue = s.queue
  waiting : t.waiting = s.waiting
  coils : t.coils = s.coils

theorem State.SameLanes.playing {s t : State} (h : s.SameLanes t) : s.SamePlaying t :=
  ⟨h.melodies, h.pool, by rw [h.tune], by rw [h.toll]⟩

theorem State.Tallied.samePlaying {s t : State} (h : s.Tallied t) (melodies : t.melodies = s.melodies)
    (pool : t.pool = s.pool) : s.SamePlaying t :=
  ⟨melodies, pool, h.specs.1, h.specs.2⟩

theorem State.LanesSettled.same {s t : State} (h : s.LanesSettled) (e : s.SameLanes t) : t.LanesSettled :=
  h.congr e.tune e.toll e.queue e.waiting e.coils

/-- The store and the lanes are left to the edits of the lanes and the cues, and lanes that were settled end settled. -/
structure State.GoesOn (s t : State) : Prop where
  playing : ∃ u, s.SamePlaying u ∧ u.Edits t
  settled : s.LanesSettled → t.LanesSettled

/-- R60: an entry takes a slot only where one is free, so no lane lagged, and it leaves no lane drained. -/
theorem State.LanesSettled.enqueue {s : State} (h : s.LanesSettled) (free : s.slotFree = true) (e : Entry) :
    (s.enqueue e).LanesSettled := by
  have left (o : Origin) (h : s.laneDrained o = false) : (s.enqueue e).laneDrained o = false := by
    have more : (s.enqueue e).entriesOf o = s.entriesOf o + if e.origin == o then 1 else 0 := by
      simp only [State.entriesOf, State.enqueue, countP_insertBy, List.countP_cons]
      omega
    have coils : (s.enqueue e).coilsOf o = s.coilsOf o := rfl
    simp only [State.laneDrained, Bool.and_eq_false_iff, beq_eq_false_iff_ne] at h ⊢
    omega
  refine ⟨fun lag => ?_, fun l hl runs => left _ (h.tuneDrains l hl runs),
    fun l hl runs => left _ (h.tollDrains l hl runs)⟩
  have full := h.lag lag
  rw [free] at full
  cases full

namespace State.GoesOn

theorem of_playing {s t : State} (h : s.SamePlaying t) (settled : s.LanesSettled → t.LanesSettled) : s.GoesOn t :=
  ⟨⟨t, h, .refl t⟩, settled⟩

theorem of_same {s t : State} (h : s.SameLanes t) : s.GoesOn t := of_playing h.playing fun k => k.same h

/-- An event that ends in a settling leaves the lanes settled, whatever it did. -/
theorem of_edits_settle {s u v : State} (h : s.SamePlaying u) (e : u.Edits v) : s.GoesOn v.settle :=
  ⟨⟨u, h, e.trans (.settle v)⟩, fun _ => v.settle_settled⟩

theorem of_settle {s u : State} (h : s.SamePlaying u) : s.GoesOn u.settle := of_edits_settle h (.refl u)

theorem of_settleCues {s u : State} (h : s.SameLanes u) (fuel : Nat) : s.GoesOn (u.settleCues fuel) :=
  ⟨⟨u, h.playing, .settleCues fuel u⟩, fun k => (k.same h).settleCues fuel⟩

/-! ### The requests -/

theorem err (s : State) (tag : Text) (code : ErrCode) : s.GoesOn (s.err tag code) :=
  of_same ⟨rfl, rfl, rfl, rfl, rfl, rfl, rfl⟩

theorem cancelRequest (tag : Text) (fields : List Text) (s : State) : s.GoesOn (cancelRequest tag fields s) := by
  unfold Machine.cancelRequest
  repeat' split
  case h_2.isTrue => exact of_settle ⟨rfl, rfl, rfl, rfl⟩
  all_goals exact err ..

theorem stopNowRequest (tag lane : Text) (more : List Text) (s : State) :
    s.GoesOn (stopNowRequest tag lane more s) := by
  unfold Machine.stopNowRequest
  repeat' split
  · exact err ..
  · exact err ..
  · exact of_edits_settle ⟨rfl, rfl, rfl, rfl⟩ (.trans (.stopTuneNow s _) (.ok ..))
  · exact of_edits_settle ⟨rfl, rfl, rfl, rfl⟩ (.trans (.stopTollNow s _) (.ok ..))

theorem stopBarRequest (tag lane : Text) (more : List Text) (s : State) :
    s.GoesOn (stopBarRequest tag lane more s) := by
  unfold Machine.stopBarRequest
  repeat' split
  · exact err ..
  · exact err ..
  · exact of_edits_settle ⟨rfl, rfl, rfl, rfl⟩ (.trans (.barStopTune s _) (.ok ..))
  · exact of_edits_settle ⟨rfl, rfl, rfl, rfl⟩ (.trans (.barStopToll s _) (.ok ..))

theorem cueEnableRequest (tag c : Text) (more : List Text) (s : State) : s.GoesOn (cueEnableRequest tag c more s) := by
  unfold Machine.cueEnableRequest
  repeat' split
  case h_2.isFalse.isFalse => exact of_settleCues (by constructor <;> simp) 4
  all_goals exact of_same ⟨rfl, rfl, rfl, rfl, rfl, rfl, rfl⟩

/-- R116: an ADJUST writes the pending values alone. -/
theorem adjustRequest (tag : Text) (fields : List Text) (s : State) : s.GoesOn (adjustRequest tag fields s) := by
  unfold Machine.adjustRequest
  split
  · exact err ..
  · rename_i o _
    split
    · exact err ..
    · rename_i l hl
      split
      · refine of_playing ⟨rfl, rfl, by rw [hl]; rfl, rfl⟩ fun k =>
          ⟨fun lag => k.lag (lag.imp_left ?_), ?_, k.tollDrains⟩
        · exact fun on => State.tuneLags_iff.mpr ⟨l, hl, on⟩
        · rintro _ ⟨⟩ runs
          exact k.tuneDrains l hl runs
      · exact err ..

theorem liveRequest (o : Origin) (tag : Text) (fields : List Text) (s : State) :
    s.GoesOn (liveRequest o tag fields s) := by
  unfold Machine.liveRequest
  repeat' split
  case h_1.isTrue free =>
    exact of_playing ⟨rfl, rfl, rfl, rfl⟩ fun k => (k.enqueue free _).congr rfl rfl rfl rfl rfl
  all_goals exact err ..

theorem runRequest {i : Instr} (writes : i.writesMelody = false) (s : State) : s.GoesOn (runRequest i s) := by
  cases i
  case melOpen | melAdd | melClose | melDelete => cases writes
  case strike tag fields => exact liveRequest .strike tag fields s
  case test tag fields => exact liveRequest .test tag fields s
  case adjust => exact adjustRequest ..
  case cancel => exact cancelRequest ..
  case stopNow => exact stopNowRequest ..
  case stopBar => exact stopBarRequest ..
  case cueEnable => exact cueEnableRequest ..
  all_goals exact of_same (by constructor <;> simp [Machine.runRequest])

/-! ### The events -/

theorem expire (id : Nat) (s : State) : s.GoesOn (s.expire id) := by
  unfold State.expire
  split
  · exact of_same ⟨rfl, rfl, rfl, rfl, rfl, rfl, rfl⟩
  · exact of_settle ⟨rfl, rfl, rfl, rfl⟩

theorem cutOrder (id : Nat) (s : State) : s.GoesOn (s.cutOrder id) :=
  of_edits_settle (u := s.markCut id) ⟨rfl, rfl, rfl, rfl⟩ (.trans (.post ..) (.barStopTune ..))

theorem loseSupply (s : State) : s.GoesOn s.loseSupply :=
  of_edits_settle (u := { s with supply := .lost }) ⟨rfl, rfl, rfl, rfl⟩
    (.trans (.post ..) (.trans (.stopTuneNow ..) (.stopTollNow ..)))

end State.GoesOn

/-- Every command but the resets, the takes, the MEL requests that write, and the execution of a line. -/
theorem effectOf_goesOn {i : Instr} (resets : i.resets = false) (takes : i.takes = false)
    (writes : i.writesMelody = false) (line : i ≠ .lineExecute) (s : State) : s.GoesOn (effectOf i s) := by
  cases i
  case powerOnReset | resetLineFall | resetLineRise | warmResetCommand => cases resets
  case tuneTake | tollTake => cases takes
  case lineExecute => exact absurd rfl line
  case dispatch => exact .of_settle ((State.Tallied.dispatchHead s).samePlaying (by simp) (by simp))
  case coilRelease b => exact .of_settle ((State.Tallied.releaseCoil s b).samePlaying (by simp) (by simp))
  case coilWaitDeadline p =>
    exact .of_settle ((State.Tallied.dropAtDeadline s p).samePlaying (by simp) (by simp))
  case expandRecord => exact .of_edits_settle ⟨rfl, rfl, rfl, rfl⟩ (.expandTune s)
  case expandStroke => exact .of_edits_settle ⟨rfl, rfl, rfl, rfl⟩ (.expandToll s)
  case expired id => exact .expire id s
  case cutOrder id => exact .cutOrder id s
  case cueDebounceExpire c => exact .of_settleCues (by constructor <;> simp) 4
  case supplyLost => exact .loseSupply s
  case senseActiveEdge | senseReleaseEdge | windowEnd | cueLineChange | supgoodFall | supgoodRise =>
    refine .of_same ?_
    simp only [effectOf, State.activeEdge, State.releaseEdge, State.endWindow, State.changeCueLine]
    split <;> constructor <;> simp
  case lineReceived | transmitLine | stuckTimeout | secondBoundary | slewTick | wallClockRangeEnd
    | secpulseEdge | pulseLoss | supplyGood | saveComplete | saveTimeout | characterReceived =>
    exact .of_same (by constructor <;> simp [effectOf])
  all_goals exact .runRequest writes s

end Machine

end Sys2Proof
end

section
/-! SUPPORT. Every step keeps the melody store sound (R80, R81, R86): the requests that write it, the take of the TUNE
lane, and the resets; all other commands leave it to the edits of the lanes. -/

namespace Sys2Proof.Machine

namespace State.StoreSound

/-! ## The requests -/

theorem melOpenRequest {s : State} (h : s.StoreSound) (tag m : Text) (args : List Text) :
    (melOpenRequest tag m args s).StoreSound := by
  unfold Machine.melOpenRequest
  split
  · split
    · exact h.congr rfl rfl
    · refine State.StoreSound.congr (s := (s.discardBlocks _).setMelody _ _) ?_ rfl rfl
      exact h.begin _ _ rfl rfl rfl rfl nofun fun _ => ⟨rfl, rfl⟩
  · exact h.congr rfl rfl

theorem melAddRequest {s : State} (h : s.StoreSound) (tag m : Text) (args : List Text) :
    (melAddRequest tag m args s).StoreSound := by
  unfold Machine.melAddRequest
  split
  · exact h.congr rfl rfl
  · rename_i n hn
    obtain ⟨low, high⟩ := readWithin_bounds hn
    repeat' split
    · exact h.congr rfl rfl
    · exact h.congr rfl rfl
    · exact h.congr rfl rfl
    · rename_i opened _ records _ _ t ht
      have begun : (s.melody n).phase ≠ .empty := by rw [not_not.mp opened]; exact nofun
      exact (h.appendAll low high records begun ht).1.congr rfl rfl

theorem melCloseRequest {s : State} (h : s.StoreSound) (tag m : Text) (more : List Text) :
    (melCloseRequest tag m more s).StoreSound := by
  unfold Machine.melCloseRequest
  split
  · exact h.congr rfl rfl
  · rename_i n hn
    obtain ⟨low, high⟩ := readWithin_bounds hn
    dsimp only
    repeat' split
    · exact h.congr rfl rfl
    · exact h.congr rfl rfl
    · exact h.congr rfl rfl
    · rename_i opened _
      have named := (h.2 n low high).named (by rw [not_not.mp opened]; exact nofun)
      refine State.StoreSound.congr (s := s.setMelody n _) ?_ rfl rfl
      exact h.retitle n _ rfl rfl rfl rfl nofun fun _ => named

theorem melDeleteRequest {s : State} (h : s.StoreSound) (tag m : Text) (more : List Text) :
    (melDeleteRequest tag m more s).StoreSound := by
  unfold Machine.melDeleteRequest
  repeat' split
  · exact h.congr rfl rfl
  · exact h.congr rfl rfl
  · exact h.congr rfl rfl
  · exact (h.begin _ {} rfl rfl rfl rfl (fun _ => rfl) (absurd rfl)).congr rfl rfl

theorem goesOn {s t : State} (h : s.StoreSound) (k : s.GoesOn t) : t.StoreSound := by
  obtain ⟨⟨u, same, edits⟩, -⟩ := k
  exact (h.congr same.melodies same.pool).edits edits

theorem runRequest {s : State} (h : s.StoreSound) (i : Instr) : (runRequest i s).StoreSound := by
  cases writes : i.writesMelody
  · exact h.goesOn (.runRequest writes s)
  · cases i
    case melOpen tag m args => exact h.melOpenRequest tag m args
    case melAdd tag m args => exact h.melAddRequest tag m args
    case melClose tag m more => exact h.melCloseRequest tag m more
    case melDelete tag m more => exact h.melDeleteRequest tag m more
    all_goals cases writes

theorem executeLine {s : State} (h : s.StoreSound) : s.executeLine.StoreSound := by
  have same (l : Serial) : { s with serial := l }.StoreSound := h.congr rfl rfl
  obtain ⟨l, e | ⟨i, e⟩⟩ := s.executeLine_cases
  · exact e ▸ same l
  · exact e ▸ (same l).runRequest i

/-! ## The takes and the resets -/

theorem takeTune {s : State} (h : s.StoreSound) (r : PlayRequest) (spec : TuneSpec) :
    (s.takeTune r spec).StoreSound := by
  have left : (s.unqueue r.id).StoreSound := h.congr rfl rfl
  unfold State.takeTune
  dsimp only
  split
  · exact (left.setHold spec.melody true).congr rfl rfl
  · exact left.congr rfl rfl

theorem takeFirstTune {s : State} (h : s.StoreSound) : s.takeFirstTune.StoreSound := by
  unfold State.takeFirstTune
  repeat' split
  · exact h
  · exact (h.takeTune _ _).edits (.settle _)
  · exact h

theorem load {s : State} (melodies : s.melodies = Vector.replicate 64 {}) (pool : s.pool = Vector.replicate 384 []) :
    s.load.StoreSound := by
  have blank : s.StoreSound := .none melodies pool
  unfold State.load
  split
  · exact blank.congr rfl rfl
  · exact blank.congr rfl rfl
  · split
    · exact .loadContents melodies pool _
    · exact blank.congr rfl rfl

theorem warm {s : State} (h : s.StoreSound) (cause : ResetCause) : (s.warm cause).StoreSound := h.release rfl rfl

theorem start {s : State} (h : s.StoreSound) (pins : Pins) : (s.start pins).StoreSound := h.congr rfl rfl

/-- What a command does where its condition holds keeps the melody store sound. -/
theorem effectOf {s : State} (h : s.StoreSound) (i : Instr) : (effectOf i s).StoreSound := by
  cases i
  case powerOnReset pins => exact (load rfl rfl).start pins
  case resetLineFall => exact (h.warm .line).congr rfl rfl
  case resetLineRise pins => exact h.start pins
  case warmResetCommand pins => exact (h.warm .command).start pins
  case tuneTake => exact h.takeFirstTune
  case tollTake => exact h.congr (by simp [Machine.effectOf]) (by simp [Machine.effectOf])
  case lineExecute => exact h.executeLine
  case melOpen tag m args => exact h.melOpenRequest tag m args
  case melAdd tag m args => exact h.melAddRequest tag m args
  case melClose tag m more => exact h.melCloseRequest tag m more
  case melDelete tag m more => exact h.melDeleteRequest tag m more
  all_goals exact h.goesOn (effectOf_goesOn rfl rfl rfl (by simp) s)

end State.StoreSound

/-- Settles O13: every command's effect keeps the melody store sound, and nothing else in a step touches it. -/
theorem storeStaysSound : Obligations.StoreStaysSound := by
  unfold Obligations.StoreStaysSound
  intro s t h hstep
  refine step_keeps (P := State.StoreSound) hstep h ?_ ?_ ?_ ?_
  · exact fun i s t hs he => exec_keeps he hs fun _ => hs.effectOf i
  · exact fun s hs => hs.congr rfl rfl
  · exact fun s cs hs => hs.congr rfl rfl
  · exact fun s hs => hs.congr rfl rfl

end Sys2Proof.Machine
end

section
/-! SUPPORT. Every step keeps the lanes sound and settled (R92, R107, R111, R113, R130): the MEL requests leave the
holds as they are, the takes find the lanes as R107 and R130 ask, and the resets leave both lanes IDLE. -/

namespace Sys2Proof.Machine

/-! ## The holds on melodies (R92) -/

theorem State.held_setMelody {s : State} {m : Nat} {x : Melody} (same : x.held = (s.melody m).held) (k : Nat) :
    ((s.setMelody m x).melody k).held = (s.melody k).held := by
  rw [State.melody_setMelody]
  split
  · rename_i mine
    rw [same, mine.1]
  · rfl

/-- R86: a record that is placed changes the pool and one header, which keeps its blocks and its hold. -/
theorem State.place_eq (s : State) (m : Nat) (r : ScoreRecord) :
    ∃ pool x, x.blocks = (s.melody m).blocks ∧ x.held = (s.melody m).held ∧
      s.place m r = State.setMelody { s with pool := pool } m x := by
  refine ⟨_, _, ?_, ?_, rfl⟩
  · rfl
  · rfl

theorem State.held_place (s : State) (m : Nat) (r : ScoreRecord) (k : Nat) :
    ((s.place m r).melody k).held = (s.melody k).held := by
  obtain ⟨pool, x, -, held, e⟩ := s.place_eq m r
  rw [e]
  exact State.held_setMelody (s := { s with pool := pool }) held k

/-- R86: an append gives no hold and takes none. -/
theorem State.held_appendRecord {s t : State} {m : Nat} {r : ScoreRecord} (e : s.appendRecord m r = some t) (k : Nat) :
    (t.melody k).held = (s.melody k).held := by
  unfold State.appendRecord at e
  split at e
  · simp only [State.allocate] at e
    split at e
    · cases e
    · simp only [Option.map_map, Option.map_eq_some_iff] at e
      obtain ⟨b, -, rfl⟩ := e
      exact (State.held_place _ m r k).trans (State.held_setMelody (by rfl) k)
  · obtain rfl := Option.some.inj e
    exact s.held_place m r k

theorem State.held_appendAll {s t : State} {m : Nat} {rs : List ScoreRecord} (e : State.appendAll m s rs = some t)
    (k : Nat) : (t.melody k).held = (s.melody k).held := by
  induction rs generalizing s with
  | nil =>
    obtain rfl := Option.some.inj e
    rfl
  | cons r rest ih =>
    obtain ⟨u, hu, ht⟩ := Option.bind_eq_some_iff.mp e
    exact (ih ht).trans (State.held_appendRecord hu k)

/-- No melody is held. -/
def State.Unheld (s : State) : Prop := ∀ k, (s.melody k).held = false

theorem State.Unheld.setMelody {s : State} (h : s.Unheld) {m : Nat} {x : Melody} (free : x.held = false) :
    (s.setMelody m x).Unheld := fun k => (State.held_setMelody (free.trans (h m).symm) k).trans (h k)

/-- R96: a melody that is loaded is not held. -/
theorem State.Unheld.loadMelody {s : State} (h : s.Unheld) (contents : StoreContents) (m : Nat) :
    (State.loadMelody contents s m).Unheld := by
  unfold State.loadMelody
  split
  · exact h
  · split
    · exact h
    · rename_i t ht
      have opened : t.Unheld := fun k => (State.held_appendAll ht k).trans (h.setMelody (by rfl) k)
      exact opened.setMelody (opened m)

theorem State.Unheld.load {s : State} (h : s.Unheld) : s.load.Unheld := by
  have all (contents : StoreContents) (ms : List Nat) :
      ∀ s : State, s.Unheld → (ms.foldl (State.loadMelody contents) s).Unheld := by
    induction ms with
    | nil => exact fun _ h => h
    | cons m rest ih => exact fun s h => ih _ (h.loadMelody contents m)
  unfold State.load
  repeat' split
  · exact h
  · exact h
  · exact all _ _ _ h
  · exact h

/-- R194: a load from the image leaves the lanes alone. -/
theorem State.load_lanes (s : State) : s.load.tune = s.tune ∧ s.load.toll = s.toll := by
  unfold State.load
  repeat' split
  · exact ⟨rfl, rfl⟩
  · exact ⟨rfl, rfl⟩
  · rw [State.loadContents_frame]
    exact ⟨rfl, rfl⟩
  · exact ⟨rfl, rfl⟩

theorem State.Unheld.warm (s : State) (cause : ResetCause) : (s.warm cause).Unheld := by
  intro k
  by_cases inside : 1 ≤ k ∧ k ≤ 64
  · show (slot (s.melodies.map fun h : Melody => { h with held := false }) k {}).held = false
    rw [slot_map _ _ _ ({} : Melody) inside.1 inside.2]
  · unfold State.melody
    rw [slot_outside _ _ _ (by omega)]

namespace State.LanesSound

/-! ## The requests -/

theorem held_same {s t : State} (h : s.LanesSound) (tune : t.tune = s.tune) (toll : t.toll = s.toll)
    (held : ∀ m, (t.melody m).held = (s.melody m).held) : t.LanesSound := h.congr (by rw [tune]) (by rw [toll]) held

theorem melOpenRequest {s : State} (h : s.LanesSound) (tag m : Text) (args : List Text) :
    (melOpenRequest tag m args s).LanesSound := by
  refine h.held_same (by simp) (by simp) fun k => ?_
  unfold Machine.melOpenRequest
  split
  · rename_i n _ _ _ _
    split
    · rfl
    · rename_i free
      exact State.held_setMelody (s := s.discardBlocks _) (Bool.eq_false_iff.mpr free).symm k
  · rfl

theorem melAddRequest {s : State} (h : s.LanesSound) (tag m : Text) (args : List Text) :
    (melAddRequest tag m args s).LanesSound := by
  refine h.held_same (by simp) (by simp) fun k => ?_
  unfold Machine.melAddRequest
  repeat' split
  · rfl
  · rfl
  · rfl
  · rfl
  · rename_i ht
    exact State.held_appendAll ht k

theorem melCloseRequest {s : State} (h : s.LanesSound) (tag m : Text) (more : List Text) :
    (melCloseRequest tag m more s).LanesSound := by
  refine h.held_same (by simp) (by simp) fun k => ?_
  unfold Machine.melCloseRequest
  split
  · rfl
  · dsimp only
    repeat' split
    · rfl
    · rfl
    · rfl
    · exact State.held_setMelody (by rfl) k

theorem melDeleteRequest {s : State} (h : s.LanesSound) (tag m : Text) (more : List Text) :
    (melDeleteRequest tag m more s).LanesSound := by
  refine h.held_same (by simp) (by simp) fun k => ?_
  unfold Machine.melDeleteRequest
  repeat' split
  · rfl
  · rfl
  · rfl
  · rename_i free
    exact State.held_setMelody (s := s.discardBlocks _) (Bool.eq_false_iff.mpr free).symm k

theorem goesOn {s t : State} (h : s.LanesSound) (k : s.GoesOn t) : t.LanesSound := by
  obtain ⟨⟨u, same, edits⟩, -⟩ := k
  refine (h.congr same.tune same.toll fun m => ?_).edits edits
  rw [State.melody, State.melody, same.melodies]

theorem runRequest {s : State} (h : s.LanesSound) (i : Instr) : (runRequest i s).LanesSound := by
  cases writes : i.writesMelody
  · exact h.goesOn (.runRequest writes s)
  · cases i
    case melOpen tag m args => exact h.melOpenRequest tag m args
    case melAdd tag m args => exact h.melAddRequest tag m args
    case melClose tag m more => exact h.melCloseRequest tag m more
    case melDelete tag m more => exact h.melDeleteRequest tag m more
    all_goals cases writes

theorem executeLine {s : State} (h : s.LanesSound) : s.executeLine.LanesSound := by
  have same (l : Serial) : { s with serial := l }.LanesSound := h.held_same rfl rfl fun _ => rfl
  obtain ⟨l, e | ⟨i, e⟩⟩ := s.executeLine_cases
  · exact e ▸ same l
  · exact e ▸ (same l).runRequest i

/-! ## The takes (R107, R108, R130, R131) -/

/-- R92, R107: the IDLE TUNE lane takes a tune beside no AFTER or CUT toll, and holds its melody. -/
theorem takeTune {s : State} (h : s.LanesSound) (idle : s.tune = none) (allows : s.tollLaneAllowsTune = true)
    (r : PlayRequest) (spec : TuneSpec) : (s.takeTune r spec).LanesSound := by
  have unheld : s.Unheld := fun m => Bool.eq_false_iff.mpr fun held => by
    obtain ⟨l, hl, -⟩ := h.held m held
    rw [idle] at hl
    cases hl
  unfold State.takeTune
  dsimp only
  split
  · rename_i ready
    have inside : 1 ≤ spec.melody ∧ spec.melody ≤ 64 := by
      by_contra out
      have : (s.unqueue r.id).melody spec.melody = {} := slot_outside _ _ _ (by omega)
      rw [this] at ready
      cases ready
    have held (k : Nat) : (((s.unqueue r.id).setHold spec.melody true).melody k).held = true ↔ k = spec.melody := by
      unfold State.setHold
      rw [State.melody_setMelody]
      by_cases mine : k = spec.melody
      · rw [if_pos ⟨mine, inside⟩]
        simp [mine]
      · rw [if_neg fun c => mine c.1]
        exact iff_of_false (Bool.eq_false_iff.mp (unheld k)) mine
    refine ⟨fun l hl mode => ?_, fun m hm => ⟨_, rfl, ?_⟩, ?_⟩
    · have hl : s.toll = some l := hl
      simp only [State.tollLaneAllowsTune, hl, beq_iff_eq] at allows
      exact absurd allows mode
    · exact ((held m).mp hm).symm
    · rintro _ ⟨⟩
      exact (held spec.melody).mpr rfl
  · exact h.held_same rfl rfl fun _ => rfl

theorem takeFirstTune {s : State} (h : s.LanesSound) (taken : s.tuneTakeDue = true) : s.takeFirstTune.LanesSound := by
  simp only [State.tuneTakeDue, Bool.and_eq_true, Option.isNone_iff_eq_none] at taken
  obtain ⟨⟨⟨⟨⟨-, idle⟩, -⟩, allows⟩, -⟩, -⟩ := taken
  unfold State.takeFirstTune
  repeat' split
  · exact h
  · exact (h.takeTune idle allows _ _).edits (.settle _)
  · exact h

/-- R130: the TOLL lane takes an AFTER or CUT toll only beside an IDLE TUNE lane. -/
theorem takeFirstToll {s : State} (h : s.LanesSound) : s.takeFirstToll.LanesSound := by
  unfold State.takeFirstToll
  split
  · exact h
  · rename_i r hr
    split
    · exact h
    · rename_i spec asks
      refine ⟨?_, h.held, h.holds⟩
      rintro _ ⟨⟩ mode
      have found := List.find?_some hr
      simp only [State.eligible, Bool.and_eq_true, Bool.or_eq_true, Option.isNone_iff_eq_none,
        PlayRequest.hasMode_iff] at found
      obtain ⟨-, ⟨spec', asks', isOver⟩ | idle⟩ := found
      · rw [asks] at asks'
        cases asks'
        exact absurd isOver mode
      · exact idle

/-! ## The resets -/

theorem powerOn (s : State) (pins : Pins) : (s.powerOn pins).LanesSound := by
  have blank : State.Unheld { State.blank with pending := s.pending, choices := s.choices, image := s.image } :=
    fun m => congrArg Melody.held (State.melody_reset m)
  exact .idle (State.load_lanes _).1 blank.load

/-- What a command does where its condition holds keeps the lanes sound. -/
theorem effectOf {s : State} (h : s.LanesSound) {i : Instr} (taken : conditionOf i s = true) :
    (effectOf i s).LanesSound := by
  cases i
  case powerOnReset pins => exact powerOn s pins
  case resetLineFall => exact .idle rfl (Unheld.warm s .line)
  case resetLineRise pins => exact h.held_same rfl rfl fun _ => rfl
  case warmResetCommand pins => exact .idle rfl (Unheld.warm s .command)
  case tuneTake => exact h.takeFirstTune taken
  case tollTake => exact h.takeFirstToll
  case lineExecute => exact h.executeLine
  case melOpen tag m args => exact h.melOpenRequest tag m args
  case melAdd tag m args => exact h.melAddRequest tag m args
  case melClose tag m more => exact h.melCloseRequest tag m more
  case melDelete tag m more => exact h.melDeleteRequest tag m more
  all_goals exact h.goesOn (effectOf_goesOn rfl rfl rfl (by simp) s)

end State.LanesSound

/-! ## Lanes that are settled (R111, R113) -/

namespace State.LanesSettled

theorem runRequest {s : State} (h : s.LanesSettled) (i : Instr) : (runRequest i s).LanesSettled := by
  cases writes : i.writesMelody
  · exact (State.GoesOn.runRequest writes s).settled h
  · cases i
    case melOpen | melAdd | melClose | melDelete =>
      refine h.congr ?_ ?_ ?_ ?_ ?_ <;> simp [Machine.runRequest]
    all_goals cases writes

theorem executeLine {s : State} (h : s.LanesSettled) : s.executeLine.LanesSettled := by
  have same (l : Serial) : { s with serial := l }.LanesSettled := h.congr rfl rfl rfl rfl rfl
  obtain ⟨l, e | ⟨i, e⟩⟩ := s.executeLine_cases
  · exact e ▸ same l
  · exact e ▸ (same l).runRequest i

theorem takeFirstTune {s : State} (h : s.LanesSettled) : s.takeFirstTune.LanesSettled := by
  unfold State.takeFirstTune
  repeat' split
  · exact h
  · exact State.settle_settled _
  · exact h

/-- R131: a toll that has just been taken is ARMED and does not lag. -/
theorem takeFirstToll {s : State} (h : s.LanesSettled) : s.takeFirstToll.LanesSettled := by
  unfold State.takeFirstToll
  repeat' split
  · exact h
  · exact h
  · refine ⟨fun lag => h.lag (.inl (lag.resolve_right nofun)), h.tuneDrains, ?_⟩
    rintro _ ⟨⟩ stopped
    cases stopped

/-- What a command does keeps the lanes settled. -/
theorem effectOf {s : State} (h : s.LanesSettled) (i : Instr) : (effectOf i s).LanesSettled := by
  cases i
  case powerOnReset pins =>
    obtain ⟨tune, toll⟩ := State.load_lanes
      { State.blank with pending := s.pending, choices := s.choices, image := s.image }
    exact .idle tune toll
  case resetLineFall => exact .idle rfl rfl
  case resetLineRise pins => exact h.congr rfl rfl rfl rfl rfl
  case warmResetCommand pins => exact .idle rfl rfl
  case tuneTake => exact h.takeFirstTune
  case tollTake => exact h.takeFirstToll
  case lineExecute => exact h.executeLine
  case melOpen tag m args => exact h.runRequest (.melOpen tag m args)
  case melAdd tag m args => exact h.runRequest (.melAdd tag m args)
  case melClose tag m more => exact h.runRequest (.melClose tag m more)
  case melDelete tag m more => exact h.runRequest (.melDelete tag m more)
  all_goals exact (effectOf_goesOn rfl rfl rfl (by simp) s).settled h

end State.LanesSettled

/-- Settles O11: every command's effect keeps the lanes sound and settled, and nothing else in a step touches them. -/
theorem lanesStaySound : Obligations.LanesStaySound := by
  unfold Obligations.LanesStaySound
  refine ⟨fun s t h hstep => ?_, fun s t h hstep => ?_⟩
  · refine step_keeps (P := State.LanesSound) hstep h ?_ ?_ ?_ ?_
    · exact fun i s t hs he => exec_keeps he hs hs.effectOf
    · exact fun s hs => hs.held_same rfl rfl fun _ => rfl
    · exact fun s cs hs => hs.held_same rfl rfl fun _ => rfl
    · exact fun s hs => hs.held_same rfl rfl fun _ => rfl
  · refine step_keeps (P := State.LanesSettled) hstep h ?_ ?_ ?_ ?_
    · exact fun i s t hs he => exec_keeps he hs fun _ => hs.effectOf i
    · exact fun s hs => hs.congr rfl rfl rfl rfl rfl
    · exact fun s cs hs => hs.congr rfl rfl rfl rfl rfl
    · exact fun s hs => hs.congr rfl rfl rfl rfl rfl

end Sys2Proof.Machine
end

section
/-! SUPPORT. MEL ADD (R81, R83, R85 to R87): the fields it reads, the blocks an append takes, and what a whole line of
records writes. -/

namespace Sys2Proof.Machine

/-! ## Record fields (R83, R85) -/

theorem splitOn_eq_three_iff {sep : Char} {t a b c : Text} :
    splitOn sep t = [a, b, c] ↔ t = a ++ sep :: (b ++ sep :: c) ∧ sep ∉ a ∧ sep ∉ b ∧ sep ∉ c := by
  rw [splitOn_eq_cons_iff]
  simp only [List.cons_ne_nil, false_and, false_or, splitOn_eq_two_iff]
  constructor
  · rintro ⟨ha, u, rfl, rfl, hb, hc⟩
    exact ⟨rfl, ha, hb, hc⟩
  · rintro ⟨rfl, ha, hb, hc⟩
    exact ⟨ha, _, rfl, rfl, hb, hc⟩

theorem splitOn_eq_four_iff {sep : Char} {t a b c d : Text} :
    splitOn sep t = [a, b, c, d] ↔
      t = a ++ sep :: (b ++ sep :: (c ++ sep :: d)) ∧ sep ∉ a ∧ sep ∉ b ∧ sep ∉ c ∧ sep ∉ d := by
  rw [splitOn_eq_cons_iff]
  simp only [List.cons_ne_nil, false_and, false_or, splitOn_eq_three_iff]
  constructor
  · rintro ⟨ha, u, rfl, rfl, hb, hc, hd⟩
    exact ⟨rfl, ha, hb, hc, hd⟩
  · rintro ⟨rfl, ha, hb, hc, hd⟩
    exact ⟨ha, _, rfl, rfl, hb, hc, hd⟩

/-- R83: a record field is read exactly where it has the form of its record. -/
theorem readRecord_eq_some_iff {t : Text} {r : ScoreRecord} : readRecord t = some r ↔ RecordForm t r := by
  constructor
  · intro h
    unfold readRecord at h
    split at h
    · rename_i k d b l hs
      obtain ⟨rfl, -⟩ := splitOn_eq_four_iff.mp hs
      simp only [Option.ite_none_right_eq_some, Option.pure_def, Option.bind_eq_bind, Option.bind_eq_some_iff,
        readWithin6_eq_some_iff, Option.some.injEq] at h
      obtain ⟨rfl, delta, hd, bell, hb, level, hl, rfl⟩ := h
      exact ⟨d, b, l, by simp, hd, hb, hl⟩
    · rename_i k d b hs
      obtain ⟨rfl, -⟩ := splitOn_eq_three_iff.mp hs
      simp only [Option.ite_none_right_eq_some, Option.pure_def, Option.bind_eq_bind, Option.bind_eq_some_iff,
        readWithin6_eq_some_iff, Option.some.injEq] at h
      obtain ⟨rfl, delta, hd, beat, hb, rfl⟩ := h
      exact ⟨d, b, by simp, hd, hb⟩
    · rename_i k d hs
      obtain ⟨rfl, -⟩ := splitOn_eq_two_iff.mp hs
      split at h
      · obtain ⟨delta, hd, rfl⟩ := Option.map_eq_some_iff.mp h
        rename_i rest
        exact ⟨d, by rw [rest]; rfl, readWithin6_eq_some_iff.mp hd⟩
      · simp only [Option.ite_none_right_eq_some, Option.map_eq_some_iff, readWithin6_eq_some_iff] at h
        obtain ⟨rfl, delta, hd, rfl⟩ := h
        exact ⟨d, rfl, hd⟩
    · cases h
  · have slash : isDigit '/' = false := by decide
    intro h
    cases r with
    | note delta bell level =>
      obtain ⟨d, b, l, rfl, hd, hb, hl⟩ := h
      have pieces : splitOn '/' ('N' :: '/' :: d ++ '/' :: b ++ '/' :: l) = [['N'], d, b, l] :=
        splitOn_eq_four_iff.mpr
          ⟨by simp, by decide, hd.not_mem slash, hb.not_mem slash, hl.not_mem slash⟩
      rw [readRecord, pieces]
      simp [readWithin6_eq_some_iff.mpr hd, readWithin6_eq_some_iff.mpr hb, readWithin6_eq_some_iff.mpr hl]
    | rest delta =>
      obtain ⟨d, rfl, hd⟩ := h
      have pieces : splitOn '/' ('R' :: '/' :: d) = [['R'], d] :=
        splitOn_eq_two_iff.mpr ⟨rfl, by decide, hd.not_mem slash⟩
      rw [readRecord, pieces]
      simp [readWithin6_eq_some_iff.mpr hd]
    | bar delta =>
      obtain ⟨d, rfl, hd⟩ := h
      have pieces : splitOn '/' ('B' :: '/' :: d) = [['B'], d] :=
        splitOn_eq_two_iff.mpr ⟨rfl, by decide, hd.not_mem slash⟩
      rw [readRecord, pieces]
      simp [readWithin6_eq_some_iff.mpr hd]
    | tempo delta beat =>
      obtain ⟨d, b, rfl, hd, hb⟩ := h
      have pieces : splitOn '/' ('T' :: '/' :: d ++ '/' :: b) = [['T'], d, b] :=
        splitOn_eq_three_iff.mpr ⟨by simp, by decide, hd.not_mem slash, hb.not_mem slash⟩
      rw [readRecord, pieces]
      simp [readWithin6_eq_some_iff.mpr hd, readWithin6_eq_some_iff.mpr hb]

/-- R85: a line of 1 to 12 records is read whole. -/
theorem readRecords_eq_some_iff {fields : List Text} {records : List ScoreRecord} :
    readRecords fields = some records ↔
      1 ≤ fields.length ∧ fields.length ≤ 12 ∧ List.Forall₂ RecordForm fields records := by
  simp only [readRecords, Option.ite_none_right_eq_some, mapM_eq_some_iff, readRecord_eq_some_iff, and_assoc]

/-! ## The blocks that are taken (R81) -/

/-- R81: the lowest free block is below every other free block. -/
theorem State.lowestFree_le {s : State} {k j : Nat} (h : s.lowestFree = some k) (low : 1 ≤ j)
    (free : j ∉ s.ownedBlocks) : k ≤ j := by
  obtain ⟨-, -, before⟩ := List.find?_range'_eq_some.mp h
  by_contra lower
  have := before j low (by omega)
  simp [free] at this

/-- Melody `m` takes blocks, the lowest free ones, lowest first. -/
structure State.TakesLowest (s t : State) (m : Nat) (taken : List Nat) : Prop where
  blocks : (t.melody m).blocks = (s.melody m).blocks ++ taken
  owned : ∀ k, k ∈ t.ownedBlocks ↔ k ∈ s.ownedBlocks ∨ k ∈ taken
  ascending : taken.Pairwise (· < ·)
  free : ∀ k ∈ taken, 1 ≤ k ∧ k ≤ 384 ∧ k ∉ s.ownedBlocks
  lowest : ∀ k, 1 ≤ k → k ≤ 384 → k ∉ s.ownedBlocks → k ∉ taken → ∀ j ∈ taken, j < k

namespace State.TakesLowest

variable {s t u : State} {m : Nat}

/-- A new header with the blocks that it had takes none. -/
theorem retitle (low : 1 ≤ m) (high : m ≤ 64) {x : Melody} (blocks : x.blocks = (s.melody m).blocks) :
    s.TakesLowest (s.setMelody m x) m [] := by
  obtain ⟨before, after, e⟩ := s.ownedBlocks_split m low high
  obtain ⟨new, old⟩ := e x
  refine ⟨?_, fun k => ?_, .nil, nofun, fun _ _ _ _ _ => nofun⟩
  · rw [State.melody_setMelody, if_pos ⟨rfl, low, high⟩, blocks, List.append_nil]
  · rw [new, old, blocks]
    simp

theorem trans {xs ys : List Nat} (first : s.TakesLowest t m xs) (second : t.TakesLowest u m ys) :
    s.TakesLowest u m (xs ++ ys) where
  blocks := by rw [second.blocks, first.blocks, List.append_assoc]
  owned := fun k => by rw [second.owned, first.owned, List.mem_append, or_assoc]
  ascending := by
    refine List.pairwise_append.mpr ⟨first.ascending, second.ascending, fun j hj k hk => ?_⟩
    obtain ⟨low, high, free⟩ := second.free k hk
    rw [first.owned, not_or] at free
    exact first.lowest k low high free.1 free.2 j hj
  free := by
    intro k hk
    obtain hk | hk := List.mem_append.mp hk
    · exact first.free k hk
    · obtain ⟨low, high, free⟩ := second.free k hk
      exact ⟨low, high, fun owned => free ((first.owned k).mpr (.inl owned))⟩
  lowest := by
    intro k low high free other j hj
    obtain ⟨otherFirst, otherSecond⟩ := not_or.mp (mt List.mem_append.mpr other)
    obtain hj | hj := List.mem_append.mp hj
    · exact first.lowest k low high free otherFirst j hj
    · exact second.lowest k low high (mt (first.owned k).mp (not_or.mpr ⟨free, otherFirst⟩)) otherSecond j hj

/-- R81, R87: an allocation takes the lowest free block. -/
theorem allocate (low : 1 ≤ m) (high : m ≤ 64) (e : s.allocate m = some t) : ∃ k, s.TakesLowest t m [k] := by
  simp only [State.allocate] at e
  split at e
  · cases e
  · obtain ⟨k, hk, rfl⟩ := Option.map_eq_some_iff.mp e
    obtain ⟨kLow, kHigh, kFree⟩ := State.lowestFree_spec hk
    obtain ⟨before, after, split⟩ := s.ownedBlocks_split m low high
    obtain ⟨new, old⟩ := split { s.melody m with blocks := (s.melody m).blocks ++ [k] }
    refine ⟨k, ?_, fun j => ?_, List.pairwise_singleton .., ?_, ?_⟩
    · rw [State.melody_setMelody, if_pos ⟨rfl, low, high⟩]
    · rw [new, old]
      simp only [List.mem_append]
      tauto
    · rintro _ (_ | ⟨_, ⟨⟩⟩)
      exact ⟨kLow, kHigh, kFree⟩
    · rintro j jLow - jFree jOther _ (_ | ⟨_, ⟨⟩⟩)
      exact Nat.lt_of_le_of_ne (State.lowestFree_le hk jLow jFree) fun e => jOther (e ▸ List.mem_singleton_self k)

/-- R86: a record that is placed takes no block. -/
theorem place (low : 1 ≤ m) (high : m ≤ 64) (r : ScoreRecord) : s.TakesLowest (s.place m r) m [] := by
  obtain ⟨pool, x, blocks, -, e⟩ := s.place_eq m r
  obtain ⟨blocks, owned, ascending, free, lowest⟩ := retitle (s := { s with pool := pool }) low high blocks
  rw [e]
  exact ⟨blocks, owned, ascending, free, lowest⟩

theorem appendRecord (low : 1 ≤ m) (high : m ≤ 64) {r : ScoreRecord} (e : s.appendRecord m r = some t) :
    ∃ taken, s.TakesLowest t m taken := by
  unfold State.appendRecord at e
  split at e
  · obtain ⟨u, hu, rfl⟩ := Option.map_eq_some_iff.mp e
    obtain ⟨k, hk⟩ := allocate low high hu
    exact ⟨_, hk.trans (place low high r)⟩
  · obtain rfl := Option.some.inj e
    exact ⟨_, place low high r⟩

theorem appendAll (low : 1 ≤ m) (high : m ≤ 64) {rs : List ScoreRecord} (e : State.appendAll m s rs = some t) :
    ∃ taken, s.TakesLowest t m taken := by
  induction rs generalizing s with
  | nil =>
    obtain rfl := Option.some.inj e
    exact ⟨[], by simp, by simp, .nil, nofun, fun _ _ _ _ _ => nofun⟩
  | cons r rest ih =>
    obtain ⟨u, hu, ht⟩ := Option.bind_eq_some_iff.mp e
    obtain ⟨xs, first⟩ := appendRecord low high hu
    obtain ⟨ys, second⟩ := ih ht
    exact ⟨_, first.trans second⟩

end State.TakesLowest

/-! ## A whole line (R85 to R87) -/

/-- R81: the blocks in use, melody by melody. -/
theorem State.owned_eq_overMelodies (s : State) :
    s.ownedBlocks.length = overMelodies fun k => (s.melody k).blocks.length := by
  rw [State.ownedBlocks, s.melodies_eq, List.flatMap_map, List.length_flatMap, overMelodies]

/-- R81: where one melody's header alone changes, the free blocks change by the blocks it takes or gives back. -/
theorem State.freeBlocks_change {s t : State} {m : Nat} (low : 1 ≤ m) (high : m ≤ 64) (hs : s.PoolSound)
    (ht : t.PoolSound) (others : ∀ k, k ≠ m → t.melody k = s.melody k) :
    t.freeBlocks + (t.melody m).blocks.length = s.freeBlocks + (s.melody m).blocks.length := by
  have change := overMelodies_change (f := fun k => (s.melody k).blocks.length)
    (g := fun k => (t.melody k).blocks.length) low high fun k hk => by rw [others k hk]
  rw [← s.owned_eq_overMelodies, ← t.owned_eq_overMelodies] at change
  have := hs.owned_le
  have := ht.owned_le
  unfold State.freeBlocks
  omega

/-- R86: the header of a melody that has been given records is that of its longer score. -/
theorem State.StoreSound.appendAll_header {s t : State} (h : s.StoreSound) {m : Nat} (low : 1 ≤ m) (high : m ≤ 64)
    {rs : List ScoreRecord} (begun : (s.melody m).phase ≠ .empty) (e : State.appendAll m s rs = some t) :
    t.melody m =
      { s.melody m with
        records := (s.melody m).records + rs.length
        notes := (s.melody m).notes + rs.countP ScoreRecord.isNote
        bars := (s.melody m).bars + rs.countP ScoreRecord.isBar, blocks := (t.melody m).blocks } := by
  obtain ⟨sound, score, ⟨blocks, records, notes, bars, header⟩, -⟩ := h.appendAll low high rs begun e
  have old := h.2 m low high
  have new := sound.2 m low high
  have hrecords : (t.melody m).records = (s.melody m).records + rs.length := by
    rw [new.records, old.records, score, List.length_append]
  have hnotes : (t.melody m).notes = (s.melody m).notes + rs.countP ScoreRecord.isNote := by
    rw [new.notes, old.notes, score, List.countP_append]
  have hbars : (t.melody m).bars = (s.melody m).bars + rs.countP ScoreRecord.isBar := by
    rw [new.bars, old.bars, score, List.countP_append]
  rw [← hrecords, ← hnotes, ← hbars, header]

/-- R87: a line of records that is appended has the blocks it needs within the limit and the pool. -/
theorem State.StoreSound.appendAll_blocks {s t : State} (h : s.StoreSound) {m : Nat} (low : 1 ≤ m) (high : m ≤ 64)
    {rs : List ScoreRecord} (begun : (s.melody m).phase ≠ .empty) (e : State.appendAll m s rs = some t) :
    (t.melody m).blocks.length = ((s.melody m).records + rs.length + 31) / 32 ∧ (t.melody m).blocks.length ≤ 64 ∧
      t.freeBlocks + (t.melody m).blocks.length = s.freeBlocks + (s.melody m).blocks.length := by
  obtain ⟨sound, -, -, others⟩ := h.appendAll low high rs begun e
  have new := sound.2 m low high
  refine ⟨?_, new.limit, State.freeBlocks_change low high h.1 sound.1 fun k hk => (others k hk).1⟩
  rw [new.blocks, h.appendAll_header low high begun e]

/-- R87: a line of records is appended exactly where the blocks it needs can be had. -/
theorem State.StoreSound.appendAll_isSome_iff {s : State} (h : s.StoreSound) {m : Nat} (low : 1 ≤ m) (high : m ≤ 64)
    (rs : List ScoreRecord) (begun : (s.melody m).phase ≠ .empty) :
    (∃ t, State.appendAll m s rs = some t) ↔
      ((s.melody m).records + rs.length + 31) / 32 ≤ 64 ∧
        ((s.melody m).records + rs.length + 31) / 32 ≤ (s.melody m).blocks.length + s.freeBlocks := by
  constructor
  · rintro ⟨t, ht⟩
    obtain ⟨length, limit, free⟩ := h.appendAll_blocks low high begun ht
    omega
  · rintro ⟨limit, room⟩
    have sound := h.2 m low high
    have length := sound.blocks_length
    have owned := h.1.owned_le
    rw [sound.records] at limit room
    unfold State.freeBlocks at room
    refine h.appendAll_fits low high begun rs limit ?_
    change _ + ((s.score m).length + rs.length + 31) / 32 ≤ _
    omega

/-! ## The request -/

section Request

variable {s : State} {f : Text} {m : Nat} (number : readMelody f = some m) (tag : Text) {args : List Text}

include number

theorem melAddRequest_notready (closed : (s.melody m).phase ≠ .opened) :
    melAddRequest tag f args s = s.err tag .notready := by
  simp [melAddRequest, number, closed]

theorem melAddRequest_malformed (opened : (s.melody m).phase = .opened) (refused : readRecords args = none) :
    melAddRequest tag f args s = s.err tag .arg := by
  simp [melAddRequest, number, opened, refused]

theorem melAddRequest_full {records : List ScoreRecord} (opened : (s.melody m).phase = .opened)
    (read : readRecords args = some records) (full : State.appendAll m s records = none) :
    melAddRequest tag f args s = s.err tag .full := by
  simp [melAddRequest, number, opened, read, full]

theorem melAddRequest_appends {records : List ScoreRecord} {t : State} (opened : (s.melody m).phase = .opened)
    (read : readRecords args = some records) (appended : State.appendAll m s records = some t) :
    melAddRequest tag f args s =
      t.ok tag [.num m, .word .RECORDS, .num (t.melody m).records, .word .FREE, .num t.freeBlocks] := by
  simp [melAddRequest, number, opened, read, appended]

end Request

/-- Settles O41: the fields by their form, FULL by the blocks that can be had, and the rest by what an append of a whole
line leaves. -/
theorem addAppendsWholeLine : Obligations.AddAppendsWholeLine := by
  unfold Obligations.AddAppendsWholeLine
  refine ⟨fun fields records => readRecords_eq_some_iff, fun s tag f m args sound can hf low high => ?_⟩
  have number : readMelody f = some m := readWithin_eq_some hf low high
  refine ⟨fun closed => ?_, fun opened refused => ?_, fun records opened read => ?_⟩
  · exact exec_request_eq rfl can (melAddRequest_notready number tag closed)
  · exact exec_request_eq rfl can (melAddRequest_malformed number tag opened refused)
  have begun : (s.melody m).phase ≠ .empty := by simp [opened]
  have iff := sound.appendAll_isSome_iff low high records begun
  refine ⟨fun full => ?_, fun fits => ?_⟩
  · have none : State.appendAll m s records = none :=
      Option.eq_none_iff_forall_ne_some.mpr fun t ht => full (iff.mp ⟨t, ht⟩)
    exact exec_request_eq rfl can (melAddRequest_full number tag opened read none)
  · obtain ⟨t, ht⟩ := iff.mpr fits
    obtain ⟨-, score, -, others⟩ := sound.appendAll low high records begun ht
    obtain ⟨taken, lowest⟩ := State.TakesLowest.appendAll low high ht
    obtain ⟨length, -, free⟩ := sound.appendAll_blocks low high begun ht
    have header := sound.appendAll_header low high begun ht
    refine ⟨_, exec_request_eq rfl can (melAddRequest_appends number tag opened read ht), score, header,
      ⟨taken, lowest.blocks, lowest.ascending, lowest.free, lowest.lowest⟩, length, others, ?_, ?_⟩
    · rw [← length]
      exact free
    · conv => lhs; rw [appendAll_frame _ _ _ _ ht]
      rfl

end Sys2Proof.Machine
end

section
/-! SUPPORT. MEL OPEN, CLOSE and DELETE (R84, R88, R89, R93): the name and the beat of an OPEN, and what each request
does and refuses. -/

namespace Sys2Proof.Machine

/-! ## The name and the beat (R84) -/

theorem readName_eq_some_iff {t name : Text} :
    readName t = some name ↔
      (1 ≤ t.length ∧ t.length ≤ 16 ∧ ∀ c ∈ t, 33 ≤ c.toNat ∧ c.toNat ≤ 126) ∧ name = t := by
  simp [readName, eq_comm (a := name)]

theorem readName_eq_none_iff {t : Text} :
    readName t = none ↔ ¬ (1 ≤ t.length ∧ t.length ≤ 16 ∧ ∀ c ∈ t, 33 ≤ c.toNat ∧ c.toNat ≤ 126) := by
  simp [readName]

theorem readOpen_name {t : Text} : readOpen [t] = (readName t).map (·, 6000) := rfl

theorem readOpen_name_beat {t beat : Text} :
    readOpen [t, beat] = (readName t).bind fun name => (readWithin 2500 30000 beat).map (name, ·) := by
  simp only [readOpen, Option.map_eq_bind]
  rfl

/-! ## The requests -/

section Request

variable {s : State} {f : Text} {m : Nat} (number : readMelody f = some m) (tag : Text)

include number

theorem melOpenRequest_malformed {args : List Text} (refused : readOpen args = none) :
    melOpenRequest tag f args s = s.err tag .arg := by
  simp [melOpenRequest, number, refused]

theorem melOpenRequest_locked {args : List Text} {name : Text} {beat : Nat} (read : readOpen args = some (name, beat))
    (held : (s.melody m).held = true) : melOpenRequest tag f args s = s.err tag .locked := by
  simp [melOpenRequest, number, read, held]

theorem melOpenRequest_opens {args : List Text} {name : Text} {beat : Nat} (read : readOpen args = some (name, beat))
    (free : (s.melody m).held = false) :
    melOpenRequest tag f args s =
      ((s.discardBlocks (s.melody m).blocks).setMelody m { phase := .opened, name := some name, beat := some beat }).ok
        tag [.num m, .word .OPEN] := by
  simp [melOpenRequest, number, read, free]

theorem melCloseRequest_notready (closed : (s.melody m).phase ≠ .opened) :
    melCloseRequest tag f [] s = s.err tag .notready := by
  simp [melCloseRequest, number, closed]

theorem melCloseRequest_noteless (opened : (s.melody m).phase = .opened) (none : (s.melody m).notes = 0) :
    melCloseRequest tag f [] s = s.err tag .arg := by
  simp [melCloseRequest, number, opened, none]

theorem melCloseRequest_closes (opened : (s.melody m).phase = .opened) (some : 0 < (s.melody m).notes) :
    melCloseRequest tag f [] s =
      (s.setMelody m { s.melody m with phase := .ready }).ok tag
        [.num m, .word .READY, .word .RECORDS, .num (s.melody m).records] := by
  simp [melCloseRequest, number, opened, Nat.pos_iff_ne_zero.mp some]

theorem melCloseRequest_malformed (g : Text) (more : List Text) :
    melCloseRequest tag f (g :: more) s = s.err tag .arg := by
  simp [melCloseRequest, number]

theorem melDeleteRequest_locked (held : (s.melody m).held = true) :
    melDeleteRequest tag f [] s = s.err tag .locked := by
  simp [melDeleteRequest, number, held]

theorem melDeleteRequest_deletes (free : (s.melody m).held = false) :
    melDeleteRequest tag f [] s =
      let t := (s.discardBlocks (s.melody m).blocks).setMelody m {}
      t.ok tag [.num m, .word .EMPTY, .word .FREE, .num t.freeBlocks] := by
  simp [melDeleteRequest, number, free]

theorem melDeleteRequest_malformed (g : Text) (more : List Text) :
    melDeleteRequest tag f (g :: more) s = s.err tag .arg := by
  simp [melDeleteRequest, number]

end Request

/-- Settles O40: each request by the melody it finds, and the name and the beat by their readers. -/
theorem melodiesOpenCloseDelete : Obligations.MelodiesOpenCloseDelete := by
  unfold Obligations.MelodiesOpenCloseDelete
  refine ⟨fun s tag f m can hf low high => ?_, fun name beat => ?_⟩
  · have number : readMelody f = some m := readWithin_eq_some hf low high
    refine ⟨fun args name beat read => ⟨fun held => ?_, fun free => ?_⟩, fun args refused => ?_, fun closed => ?_,
      fun opened none => ?_, fun opened some => ?_, fun held => ?_, fun free => ?_, fun g more => ⟨?_, ?_⟩, rfl,
      fun k _ _ => slot_discard ..⟩
    · exact exec_request_eq rfl can (melOpenRequest_locked number tag read held)
    · exact exec_request_eq rfl can (melOpenRequest_opens number tag read free)
    · exact exec_request_eq rfl can (melOpenRequest_malformed number tag refused)
    · exact exec_request_eq rfl can (melCloseRequest_notready number tag closed)
    · exact exec_request_eq rfl can (melCloseRequest_noteless number tag opened none)
    · exact exec_request_eq rfl can (melCloseRequest_closes number tag opened some)
    · exact exec_request_eq rfl can (melDeleteRequest_locked number tag held)
    · exact exec_request_eq rfl can (melDeleteRequest_deletes number tag free)
    · exact exec_request_eq rfl can (melCloseRequest_malformed number tag g more)
    · exact exec_request_eq rfl can (melDeleteRequest_malformed number tag g more)
  · refine ⟨rfl, fun named => ?_, fun unnamed => ?_, fun n named hn low high => ?_, fun n hn out => ?_, fun bad => ?_,
      fun x more => rfl⟩
    · rw [readOpen_name, readName_eq_some_iff.mpr ⟨named, rfl⟩]
      rfl
    · rw [readOpen_name, readName_eq_none_iff.mpr unnamed]
      rfl
    · rw [readOpen_name_beat, readName_eq_some_iff.mpr ⟨named, rfl⟩, readWithin_eq_some hn low high]
      rfl
    · have outside : readWithin 2500 30000 beat = none := by
        rw [readWithin, hn, Option.bind_some, within, if_neg (by omega)]
      rw [readOpen_name_beat, outside]
      simp
    · rw [readOpen_name_beat]
      obtain none | unnamed := bad
      · simp [readWithin, none]
      · rw [readName_eq_none_iff.mpr unnamed]
        rfl

end Sys2Proof.Machine
end

section
/-! SUPPORT. SAVE (R95, R193, R194): the acceptance with its snapshot, the two ends of the write, and the sum of an
image. -/

namespace Sys2Proof.Machine

/-! ## The sum (R194) -/

theorem toNat_foldl_addBytes (bytes : List (BitVec 8)) (start : BitVec 16) :
    (bytes.foldl (fun sum byte => sum + byte.zeroExtend 16) start).toNat =
      (start.toNat + (bytes.map (·.toNat)).sum) % 65536 := by
  induction bytes generalizing start with
  | nil => simpa using (Nat.mod_eq_of_lt start.isLt).symm
  | cons byte rest ih =>
    have small : byte.toNat < 256 := byte.isLt
    rw [List.foldl_cons, ih, List.map_cons, List.sum_cons, BitVec.toNat_add, BitVec.toNat_setWidth]
    omega

/-! ## The request (R193) -/

theorem StoreState.writing_eq_none {x : StoreState} (h : x = .good ∨ x = .bad ∨ x = .empty) : x.writing = none := by
  obtain rfl | rfl | rfl := h <;> rfl

section Request

variable {s : State} (tag : Text)

theorem saveRequest_malformed (f : Text) (more : List Text) : saveRequest tag (f :: more) s = s.err tag .arg := rfl

theorem saveRequest_busy {since : Nat} {contents : StoreContents} (busy : s.store = .busy since contents) :
    saveRequest tag [] s = s.err tag .busy := by
  simp [saveRequest, busy, StoreState.writing]

theorem saveRequest_begins (h : s.store = .good ∨ s.store = .bad ∨ s.store = .empty) :
    saveRequest tag [] s = s.beginSave tag := by
  simp [saveRequest, StoreState.writing_eq_none h]

end Request

/-! ## The end of the write (R193) -/

theorem State.saveRunning_iff {s : State} :
    s.saveRunning = true ↔ s.held = false ∧
      ∃ since contents, s.store = .busy since contents ∧ s.now ≤ since + 30000 := by
  unfold State.saveRunning
  cases s.store <;> simp [StoreState.writing]

/-- Settles O24: the acceptance by the store's state, the two rows by their times, and the sum by induction on the
bytes. -/
theorem saveWritesSnapshot : Obligations.SaveWritesSnapshot := by
  unfold Obligations.SaveWritesSnapshot
  refine ⟨fun s tag can => ⟨fun f more => ?_, fun since contents busy => ?_, fun rests => ?_⟩, fun contents => ?_,
    fun s since contents high busy => ⟨fun inTime => ⟨?_, ?_⟩, fun late => ?_, fun early => ?_, fun late ok => ?_⟩,
    fun s rests => ⟨fun ok => ?_, ?_⟩⟩
  · exact exec_request_eq rfl can (saveRequest_malformed tag f more)
  · exact exec_request_eq rfl can (saveRequest_busy tag busy)
  · exact exec_request_eq rfl can (saveRequest_begins tag rests)
  · rw [imageSum, toNat_foldl_addBytes]
    simp
  · rw [exec_taken (i := .saveComplete true) (State.saveRunning_iff.mpr ⟨high, since, contents, busy, inTime⟩)]
    simp only [effectOf, busy, StoreState.writing]
    rfl
  · exact exec_taken (i := .saveComplete false) (State.saveRunning_iff.mpr ⟨high, since, contents, busy, inTime⟩)
  · exact exec_taken (i := .saveTimeout) (State.saveLate_iff.mpr ⟨high, since, contents, busy, late⟩)
  · refine exec_idle (Bool.eq_false_iff.mpr fun due => ?_)
    obtain ⟨-, since', contents', busy', late⟩ := State.saveLate_iff.mp due
    cases busy.symm.trans busy'
    omega
  · refine exec_idle (Bool.eq_false_iff.mpr fun due => ?_)
    obtain ⟨-, since', contents', busy', inTime⟩ := State.saveRunning_iff.mp due
    cases busy.symm.trans busy'
    omega
  · refine exec_idle (Bool.eq_false_iff.mpr fun due => ?_)
    obtain ⟨-, since, contents, busy, -⟩ := State.saveRunning_iff.mp due
    simp [busy] at rests
  · refine exec_idle (Bool.eq_false_iff.mpr fun due => ?_)
    obtain ⟨-, since, contents, busy, -⟩ := State.saveLate_iff.mp due
    simp [busy] at rests

end Sys2Proof.Machine
end

section
/-! SUPPORT. Every step keeps the play queue sound (R99, R101, R102): offers and removals, the requests that leave the
queue for a lane, and the resets; all other commands leave the queue and the lanes' requests to the edits. -/

namespace Sys2Proof.Machine

/-! ## Requests that make edits alone -/

theorem playRequest_edits (tag : Text) (fields : List Text) (s : State) : s.Edits (playRequest tag fields s) := by
  unfold playRequest
  split
  · exact .err ..
  · split
    · split
      · exact .err ..
      · exact .offerLine ..
    · exact .err ..

theorem tollRequest_edits (tag : Text) (fields : List Text) (s : State) : s.Edits (tollRequest tag fields s) := by
  unfold tollRequest
  split
  · exact .err ..
  · split
    · exact .err ..
    · exact .offerLine ..

theorem stopNowRequest_edits (tag lane : Text) (more : List Text) (s : State) :
    s.Edits (stopNowRequest tag lane more s) := by
  unfold stopNowRequest
  repeat' split
  · exact .err ..
  · exact .err ..
  · exact .trans (.stopTuneNow ..) (.replyTuneStop ..)
  · exact .trans (.stopTollNow ..) (.replyTollStop ..)

theorem stopBarRequest_edits (tag lane : Text) (more : List Text) (s : State) :
    s.Edits (stopBarRequest tag lane more s) := by
  unfold stopBarRequest
  repeat' split
  · exact .err ..
  · exact .err ..
  · exact .trans (.barStopTune ..) (.replyTuneStop ..)
  · exact .trans (.barStopToll ..) (.replyTollStop ..)

theorem timeRequest_edits (tag : Text) (fields : List Text) (s : State) : s.Edits (timeRequest tag fields s) := by
  unfold timeRequest
  split
  · split
    · exact .err ..
    · split
      · refine .trans (.time s _ ?_) (.ok ..)
        exact fun _ => rfl
      · exact .trans (.ok ..) (.applyTime ..)
  · exact .err ..

theorem syncFreeRequest_edits (tag : Text) (more : List Text) (s : State) : s.Edits (syncFreeRequest tag more s) := by
  unfold syncFreeRequest
  repeat' split
  · exact .err ..
  · exact .ok ..
  · refine .trans (.time s _ ?_) (.trans (.ok ..) (.trans (.post ..) (.applyPending _)))
    exact fun _ => rfl

/-- The play queue, the requests the lanes hold and the id last given are the same. -/
structure State.SamePlays (s t : State) : Prop where
  queue : t.playQueue = s.playQueue
  tune : t.tune.map (·.request) = s.tune.map (·.request)
  toll : t.toll.map (·.request) = s.toll.map (·.request)
  last : t.lastId = s.lastId

theorem State.Tallied.samePlays {s t : State} (h : s.Tallied t) (queue : t.playQueue = s.playQueue)
    (last : t.lastId = s.lastId) : s.SamePlays t :=
  ⟨queue, h.requests.1, h.requests.2, last⟩

namespace State.PlaysSound

theorem same {s t : State} (h : s.PlaysSound) (e : s.SamePlays t) : t.PlaysSound := h.congr e.queue e.tune e.toll e.last

/-! ## The requests -/

/-- R104: a request is cancelled out of the queue. -/
theorem cancelRequest {s : State} (h : s.PlaysSound) (tag : Text) (fields : List Text) :
    (cancelRequest tag fields s).PlaysSound := by
  unfold Machine.cancelRequest
  repeat' split
  case h_2.isTrue =>
    exact State.PlaysSound.edits (h.unqueue _) (.trans (.ok ..) (.settle _))
  all_goals exact h.edits (.err ..)

theorem adjustRequest {s : State} (h : s.PlaysSound) (tag : Text) (fields : List Text) :
    (adjustRequest tag fields s).PlaysSound := by
  unfold Machine.adjustRequest
  split
  · exact h.edits (.err ..)
  · split
    · exact h.edits (.err ..)
    · rename_i l hl
      split
      · exact h.same ⟨rfl, by rw [hl]; rfl, rfl, rfl⟩
      · exact h.edits (.err ..)

theorem cueEnableRequest {s : State} (h : s.PlaysSound) (tag c : Text) (more : List Text) :
    (cueEnableRequest tag c more s).PlaysSound := by
  unfold Machine.cueEnableRequest
  repeat' split
  case h_2.isFalse.isFalse => exact State.PlaysSound.edits (h.same (by constructor <;> simp)) (.settleCues ..)
  all_goals exact h.same ⟨rfl, rfl, rfl, rfl⟩

theorem runRequest {s : State} (h : s.PlaysSound) (i : Instr) : (runRequest i s).PlaysSound := by
  cases i
  case play => exact h.edits (playRequest_edits ..)
  case toll => exact h.edits (tollRequest_edits ..)
  case stopNow => exact h.edits (stopNowRequest_edits ..)
  case stopBar => exact h.edits (stopBarRequest_edits ..)
  case time => exact h.edits (timeRequest_edits ..)
  case syncFree => exact h.edits (syncFreeRequest_edits ..)
  case cancel => exact h.cancelRequest ..
  case adjust => exact h.adjustRequest ..
  case cueEnable => exact h.cueEnableRequest ..
  all_goals exact h.same (by constructor <;> simp [Machine.runRequest])

theorem executeLine {s : State} (h : s.PlaysSound) : s.executeLine.PlaysSound := by
  have same (l : Serial) : { s with serial := l }.PlaysSound := h.same ⟨rfl, rfl, rfl, rfl⟩
  obtain ⟨l, e | ⟨i, e⟩⟩ := s.executeLine_cases
  · exact e ▸ same l
  · exact e ▸ (same l).runRequest i

/-! ## The events -/

theorem expire {s : State} (h : s.PlaysSound) (id : Nat) : (s.expire id).PlaysSound := by
  unfold State.expire
  split
  · exact h
  · exact State.PlaysSound.edits (h.unqueue id) (.trans (.post ..) (.settle _))

/-- R107, R108: the request that the TUNE lane takes keeps its id in the lane, or ends. -/
theorem takeFirstTune {s : State} (h : s.PlaysSound) (idle : s.tune = none) : s.takeFirstTune.PlaysSound := by
  unfold State.takeFirstTune
  split
  · exact h
  · rename_i r first
    have queued : r ∈ s.playQueue := List.mem_of_find?_eq_some first
    split
    · refine State.PlaysSound.edits ?_ (.settle _)
      unfold State.takeTune
      dsimp only
      split
      · exact h.toTune queued idle rfl rfl rfl rfl
      · exact (h.unqueue r.id).edits (.post ..)
    · exact h

/-- R130, R131: the request that the TOLL lane takes keeps its id in the lane. -/
theorem takeFirstToll {s : State} (h : s.PlaysSound) (idle : s.toll = none) : s.takeFirstToll.PlaysSound := by
  unfold State.takeFirstToll
  split
  · exact h
  · rename_i r first
    split
    · exact h
    · exact h.toToll (List.mem_of_find?_eq_some first) idle rfl rfl rfl rfl

theorem cutOrder {s : State} (h : s.PlaysSound) (id : Nat) : (s.cutOrder id).PlaysSound :=
  (h.markCut id).edits (.trans (.post ..) (.trans (.barStopTune ..) (.settle _)))

theorem loseSupply {s : State} (h : s.PlaysSound) : s.loseSupply.PlaysSound :=
  State.PlaysSound.edits (h.same (t := { s with supply := .lost }) ⟨rfl, rfl, rfl, rfl⟩)
    (.trans (.post ..) (.trans (.stopTuneNow ..) (.trans (.stopTollNow ..) (.settle _))))

/-! ## The resets -/

/-- R194: a load from the image leaves the play queue and the lanes alone. -/
theorem load_samePlays (s : State) : s.SamePlays s.load := by
  unfold State.load
  split
  · exact ⟨rfl, rfl, rfl, rfl⟩
  · exact ⟨rfl, rfl, rfl, rfl⟩
  · split
    · rw [State.loadContents_frame]
      exact ⟨rfl, rfl, rfl, rfl⟩
    · exact ⟨rfl, rfl, rfl, rfl⟩

theorem powerOn (s : State) (pins : Pins) : (s.powerOn pins).PlaysSound := by
  have blank : State.PlaysSound { State.blank with pending := s.pending, choices := s.choices, image := s.image } :=
    .empty rfl rfl rfl (Nat.zero_le _)
  exact State.PlaysSound.same (blank.same (load_samePlays _)) ⟨rfl, rfl, rfl, rfl⟩

/-- What a command does where its condition holds keeps the play queue sound. -/
theorem effectOf {s : State} (h : s.PlaysSound) {i : Instr} (taken : conditionOf i s = true) :
    (effectOf i s).PlaysSound := by
  cases i
  case powerOnReset pins => exact powerOn s pins
  case resetLineFall => exact .empty rfl rfl rfl h.last
  case resetLineRise pins => exact h.same ⟨rfl, rfl, rfl, rfl⟩
  case warmResetCommand pins => exact .empty rfl rfl rfl h.last
  case lineExecute => exact h.executeLine
  case dispatch =>
    exact State.PlaysSound.edits (h.same ((State.Tallied.dispatchHead s).samePlays (by simp) (by simp))) (.settle _)
  case coilRelease b =>
    exact State.PlaysSound.edits (h.same ((State.Tallied.releaseCoil s b).samePlays (by simp) (by simp))) (.settle _)
  case coilWaitDeadline p =>
    exact State.PlaysSound.edits (h.same ((State.Tallied.dropAtDeadline s p).samePlays (by simp) (by simp))) (.settle _)
  case expired id => exact h.expire id
  case tuneTake => exact h.takeFirstTune (by simp_all [conditionOf, State.tuneTakeDue])
  case tollTake => exact h.takeFirstToll (by simp_all [conditionOf, State.tollTakeDue])
  case expandRecord => exact h.edits (.trans (.expandTune s) (.settle _))
  case expandStroke => exact h.edits (.trans (.expandToll s) (.settle _))
  case cutOrder id => exact h.cutOrder id
  case secondBoundary => exact h.edits (.crossBoundary s)
  case secpulseEdge => exact h.edits (.takePulse s)
  case pulseLoss => exact h.edits (.losePulse s)
  case cueDebounceExpire c =>
    exact State.PlaysSound.edits (h.same (by constructor <;> simp)) (.settleCues 4 (s.acceptChange c))
  case supplyLost => exact h.loseSupply
  case senseActiveEdge | senseReleaseEdge | windowEnd | cueLineChange | supgoodFall | supgoodRise =>
    refine h.same ?_
    simp only [Machine.effectOf, State.activeEdge, State.releaseEdge, State.endWindow, State.changeCueLine]
    split <;> constructor <;> simp
  case lineReceived | transmitLine | stuckTimeout | slewTick | wallClockRangeEnd | supplyGood | saveComplete
    | saveTimeout | characterReceived =>
    exact h.same (by constructor <;> simp [Machine.effectOf])
  all_goals
    rw [(request_parts rfl s).2]
    exact h.runRequest _

end State.PlaysSound

/-- Settles O10: every command's effect keeps the play queue sound, and nothing else in a step touches it. -/
theorem playsStaySound : Obligations.PlaysStaySound := by
  unfold Obligations.PlaysStaySound
  intro s t h hstep
  refine step_keeps (P := State.PlaysSound) hstep h ?_ ?_ ?_ ?_
  · exact fun i s t hs he => exec_keeps he hs hs.effectOf
  · exact fun s hs => hs.same ⟨rfl, rfl, rfl, rfl⟩
  · exact fun s cs hs => hs.same ⟨rfl, rfl, rfl, rfl⟩
  · exact fun s hs => hs.same ⟨rfl, rfl, rfl, rfl⟩

end Sys2Proof.Machine
end

section
/-! SUPPORT. What is offered to the play queue (R99 to R102): the id a request is given, its place, and the reports of
the schedule and of the cues. -/

namespace Sys2Proof.Machine

/-! ## Merging and order (R101, R102) -/

theorem PlayRequest.mergesWith_iff (a b : PlayRequest) :
    a.mergesWith b = true ↔ a.source = b.source ∧
      ((∃ x, a.start = some x ∧ b.start = some x) ∨ (a.start = none ∧ b.start = none ∧ a.arrival = b.arrival)) := by
  unfold PlayRequest.mergesWith
  cases a.start <;> cases b.start <;> simp [@eq_comm Int]

/-- R101: a request that stands between two others in the order has one of them before or behind it. -/
theorem PlayRequest.queuedBefore_or (a b c : PlayRequest) (h : a.queuedBefore b = true) :
    a.queuedBefore c = true ∨ c.queuedBefore b = true := by
  rw [queuedBefore_iff] at h
  rw [queuedBefore_iff, queuedBefore_iff]
  cases ha : a.isToll <;> cases hb : b.isToll <;> cases hc : c.isToll <;> simp [ha, hb] at h ⊢
  · omega
  · omega

/-- R101: what an element is put before in an ordered queue, it stands before all of. -/
theorem PlayRequest.queuedBefore_all {r : PlayRequest} {queue : List PlayRequest}
    (order : InOrder PlayRequest.queuedBefore queue) (first : ∀ x ∈ queue.head?, r.queuedBefore x = true) :
    ∀ x ∈ queue, r.queuedBefore x = true := by
  cases queue with
  | nil => exact nofun
  | cons y rest =>
    have head : r.queuedBefore y = true := first y rfl
    obtain ⟨behind, -⟩ := List.pairwise_cons.mp order
    intro x hx
    rcases List.mem_cons.mp hx with rfl | hx
    · exact head
    · exact (r.queuedBefore_or y x head).resolve_right (Bool.eq_false_iff.mp (behind x hx))

/-! ## Request ids (R99) -/

/-- R99: with few ids in use the next id is the first after the last assigned that is not in use. -/
theorem State.nextId_eq {s : State} {n : Nat} (few : s.idsInUse.length < n) (small : n ≤ 255) :
    ∃ i, i < n ∧ s.nextId = (s.lastId + i) % 255 + 1 ∧ (s.lastId + i) % 255 + 1 ∉ s.idsInUse ∧
      ∀ j, j < i → (s.lastId + j) % 255 + 1 ∈ s.idsInUse := by
  obtain ⟨k, hk, free⟩ : ∃ k, k < n ∧ (s.lastId + k) % 255 + 1 ∉ s.idsInUse := by
    by_contra! used
    have distinct : ((List.range n).map fun i => (s.lastId + i) % 255 + 1).Nodup := by
      refine List.Nodup.map_on (fun a ha b hb e => ?_) List.nodup_range
      simp only [List.mem_range] at ha hb
      omega
    have inside : ((List.range n).map fun i => (s.lastId + i) % 255 + 1) ⊆ s.idsInUse := by
      intro id hid
      obtain ⟨i, hi, rfl⟩ := List.mem_map.mp hid
      exact used i (List.mem_range.mp hi)
    have := (List.subperm_of_subset distinct inside).length_le
    simp only [List.length_map, List.length_range] at this
    omega
  classical
  have exists_free : ∃ i, (s.lastId + i) % 255 + 1 ∉ s.idsInUse := ⟨k, free⟩
  have before : Nat.find exists_free ≤ k := Nat.find_le free
  have taken : ∀ j, j < Nat.find exists_free → (s.lastId + j) % 255 + 1 ∈ s.idsInUse := fun j hj =>
    not_not.mp (Nat.find_min exists_free hj)
  refine ⟨Nat.find exists_free, by omega, ?_, Nat.find_spec exists_free, taken⟩
  have found : (List.range 255).find? (fun i => !s.idsInUse.contains ((s.lastId + i) % 255 + 1)) =
      some (Nat.find exists_free) := by
    rw [List.find?_range_eq_some]
    refine ⟨by simpa using Nat.find_spec exists_free, List.mem_range.mpr (by omega), fun j hj => ?_⟩
    simpa using taken j hj
  rw [State.nextId, List.find?_map]
  simp only [Function.comp_def, found, Option.map_some, Option.getD_some]

/-- R99: a queue that is not full leaves fewer than 19 ids in use. -/
theorem State.idsInUse_length (s : State) : s.idsInUse.length ≤ s.playQueue.length + 2 := by
  have tune : s.tune.toList.length ≤ 1 := by cases s.tune <;> simp
  have toll : s.toll.toList.length ≤ 1 := by cases s.toll <;> simp
  simp only [State.idsInUse, List.length_append, List.length_map]
  omega

/-! ## Offers (R102) -/

theorem classWord_eq (r : PlayRequest) : classWord r = .word (if r.isToll then .TOLL else .TUNE) :=
  (apply_ite Fld.word ..).symm

theorem State.offer_merges {s : State} {q r : PlayRequest}
    (merges : s.playQueue.find? (fun q => q.mergesWith r) = some q) : s.offer r = (s, .merged q) := by
  simp only [State.offer, merges]

/-- R102: an admitted request is put behind all that it does not stand before, and before all others. -/
theorem State.PlaysSound.insert_eq {s : State} (h : s.PlaysSound) (r : PlayRequest) (id : Nat) :
    ∃ before after, s.playQueue = before ++ after ∧
      insertBy PlayRequest.queuedBefore { r with id := id } s.playQueue = before ++ { r with id := id } :: after ∧
      (∀ x ∈ before, r.queuedBefore x = false) ∧ ∀ x ∈ after, r.queuedBefore x = true := by
  obtain ⟨before, after, parts, inserted, low, high⟩ :=
    exists_insertBy_eq PlayRequest.queuedBefore { r with id := id } s.playQueue
  have order : InOrder PlayRequest.queuedBefore after := by
    have := h.order
    rw [parts] at this
    exact this.sublist (List.sublist_append_right ..)
  exact ⟨before, after, parts, inserted, low, PlayRequest.queuedBefore_all order high⟩

/-- Settles O42: the merge and the order by their definitions, the id by the first one free, and the place by the
insertion into an ordered queue. -/
theorem offersAdmitted : Obligations.OffersAdmitted := by
  unfold Obligations.OffersAdmitted
  refine ⟨PlayRequest.mergesWith_iff, PlayRequest.queuedBefore_iff, fun _ => rfl, fun s t r => ?reports,
    fun s r sound => ⟨fun q => State.offer_merges, fun apart => ?_⟩⟩
  case reports =>
    intro source kind
    have sources : sourceFields r.source = source := by
      unfold sourceFields
      rfl
    have classes : classWord r = kind := classWord_eq r
    refine ⟨fun q merged => ?_, fun full => ?_, fun id admitted => ?_⟩
    · simp only [State.offerReported, merged, State.reportOffer, sources]
    · simp only [State.offerReported, full, State.reportOffer, sources, classes]
    · simp only [State.offerReported, admitted, State.reportOffer, sources, classes]
  · have unmerged (q : PlayRequest) (hq : q ∈ s.playQueue) : q.mergesWith r ≠ true :=
      Bool.eq_false_iff.mp (apart q hq)
    obtain ⟨q, hq, merges, -⟩ | ⟨-, full, e⟩ | ⟨-, room, e⟩ := s.offer_cases r
    · exact absurd merges (unmerged q hq)
    · exact ⟨fun _ => e, fun room => absurd room (by omega)⟩
    · refine ⟨fun full => absurd room (by omega), fun _ => ?_⟩
      have few := s.idsInUse_length
      obtain ⟨i, small, next, free, taken⟩ := State.nextId_eq (s := s) (n := 19) (by omega) (by decide)
      obtain ⟨before, after, parts, inserted, low, high⟩ := sound.insert_eq r s.nextId
      rw [inserted] at e
      rw [next] at e
      exact ⟨i, before, after, small, free, taken, parts, e, low, high⟩

end Sys2Proof.Machine
end

section
/-! SUPPORT. CANCEL and the expiry of a queued request (R103, R104). -/

namespace Sys2Proof.Machine

/-! ## CANCEL (R104) -/

section Cancel

variable {s : State} {tag f : Text} {id : Nat}

theorem State.idsInLanes_iff :
    s.idsInLanes.contains id = true ↔
      (∃ l, s.tune = some l ∧ l.request.id = id) ∨ ∃ l, s.toll = some l ∧ l.request.id = id := by
  simp [State.idsInLanes]

theorem cancelRequest_cancels (number : readWithin 1 255 f = some id) (queued : ∃ r ∈ s.playQueue, r.id = id) :
    cancelRequest tag [f] s = ((s.unqueue id).ok tag [.num id, .word .CANCELLED]).settle := by
  have stands : s.playQueue.any (fun r => r.id == id) = true := by simpa using queued
  simp only [cancelRequest, number, stands, if_true]

theorem cancelRequest_unqueued (number : readWithin 1 255 f = some id) (absent : ∀ r ∈ s.playQueue, r.id ≠ id) :
    cancelRequest tag [f] s = s.err tag (if s.idsInLanes.contains id then .busy else .arg) := by
  have gone : s.playQueue.any (fun r => r.id == id) = false := by simpa using absent
  simp only [cancelRequest, number, gone, Bool.false_eq_true, if_false]
  split <;> rfl

theorem cancelRequest_malformed {fields : List Text}
    (h : ∀ f id, fields = [f] → readNat f = some id → id = 0 ∨ 255 < id) :
    cancelRequest tag fields s = s.err tag .arg := by
  unfold cancelRequest
  split
  next f => rw [readWithin_eq_none (h f · rfl) |>.1]
  next => rfl

end Cancel

/-! ## Expiry (R103) -/

/-- R99: no two requests of the queue have one id, so the request with an id is the one that is found. -/
theorem State.PlaysSound.eq_of_id {s : State} (h : s.PlaysSound) {q r : PlayRequest} (hq : q ∈ s.playQueue)
    (hr : r ∈ s.playQueue) (same : q.id = r.id) : q = r := by
  have apart : (s.playQueue.map (·.id)).Nodup := h.distinct.of_append_left.of_append_left
  exact List.inj_on_of_nodup_map apart hq hr same

theorem State.PlaysSound.expire_eq {s : State} (h : s.PlaysSound) {r : PlayRequest} (queued : r ∈ s.playQueue)
    (late : r.latest < (s.now : Int)) :
    s.expire r.id =
      ((s.unqueue r.id).post .expired (.num r.id :: sourceFields r.source ++ [classWord r])).settle := by
  have found : s.expiredRequest r.id = some r := by
    cases found : s.expiredRequest r.id with
    | none => exact absurd (List.find?_eq_none.mp found r queued) (by simp [late])
    | some q =>
      have same : q.id = r.id := by
        have := List.find?_some found
        simp only [Bool.and_eq_true, beq_iff_eq] at this
        exact this.1
      rw [h.eq_of_id (List.mem_of_find?_eq_some found) queued same]
  rw [State.expire, found]

/-- Settles O44: CANCEL by what holds the id, and the expiry by the one queued request that has it. -/
theorem cancelAndExpiryRemove : Obligations.CancelAndExpiryRemove := by
  unfold Obligations.CancelAndExpiryRemove
  refine ⟨fun s tag f id can number low high => ?cancel, fun s tag fields can malformed => ?malformed,
    fun s id => ⟨fun idle => ?idle, fun r high sound queued hid late => ?expires⟩⟩
  case cancel =>
    have number := readWithin_eq_some number low high
    refine ⟨fun queued => exec_request_eq rfl can (cancelRequest_cancels number queued), fun absent =>
      ⟨fun held => exec_request_eq rfl can ?_, fun tune toll => exec_request_eq rfl can ?_⟩⟩
    · exact (cancelRequest_unqueued number absent).trans (by rw [if_pos (State.idsInLanes_iff.mpr held)])
    · have unheld : ¬ s.idsInLanes.contains id = true := fun held => by
        obtain ⟨l, hl, hid⟩ | ⟨l, hl, hid⟩ := State.idsInLanes_iff.mp held
        · exact tune l hl hid
        · exact toll l hl hid
      exact (cancelRequest_unqueued number absent).trans (by rw [if_neg unheld])
  case malformed => exact exec_request_eq rfl can (cancelRequest_malformed malformed)
  case idle =>
    refine exec_idle (i := .expired id) (Bool.eq_false_iff.mpr fun due => ?_)
    obtain ⟨high, r, queued, hid, late⟩ := State.expiryDue_iff.mp due
    obtain held | early := idle
    · rw [high] at held
      cases held
    · exact absurd late (Int.not_lt.mpr (early r queued hid))
  case expires =>
    subst hid
    have due : s.expiryDue r.id = true := State.expiryDue_iff.mpr ⟨high, r, queued, rfl, late⟩
    rw [exec_taken (i := .expired r.id) due]
    refine congrArg Host.Outcome.next ((sound.expire_eq queued late).trans ?_)
    rw [classWord_eq]
    rfl

end Sys2Proof.Machine
end

section
/-! SUPPORT. ADJUST and STOP (R116, R118 to R122, R138): the fields each reads, the pending values, and the reply of a
STOP by the state of the lane after it. -/

namespace Sys2Proof.Machine

/-! ## STOP (R118) -/

section Stop

variable {s : State} {tag f : Text}

theorem readLane_tune (h : readKw f = some .TUNE) : readLane f = some .tune := by rw [readLane, h]

theorem readLane_toll (h : readKw f = some .TOLL) : readLane f = some .toll := by rw [readLane, h]

theorem readLane_eq_none (tune : readKw f ≠ some .TUNE) (toll : readKw f ≠ some .TOLL) : readLane f = none := by
  unfold readLane
  split
  next h => exact absurd h tune
  next h => exact absurd h toll
  next => rfl

/-- R118: the reply shows a lane that runs, drains, or is IDLE or about to be. -/
theorem State.replyTuneStop_eq (s : State) (tag : Text) :
    s.replyTuneStop tag = (s.ok tag (match s.tune with
      | none => [.word .TUNE, .word .IDLE]
      | some l =>
        if l.phase.runs then [.word .TUNE, .num l.request.id, .word .STOPPING]
        else if s.laneDrained .tune then [.word .TUNE, .word .IDLE]
        else [.word .TUNE, .num l.request.id, .word .DRAINING])).settle := by
  unfold State.replyTuneStop
  cases s.tune with
  | none => rfl
  | some l => cases phase : l.phase <;> simp [stopFields, LanePhase.runs, phase]

/-- R118, R138: a TOLL lane that does not run drains, or is IDLE or about to be. -/
theorem State.replyTollStop_eq (tag : Text) (stopped : ∀ l, s.toll = some l → l.phase.runs = false) :
    s.replyTollStop tag = (s.ok tag (match s.toll with
      | none => [.word .TOLL, .word .IDLE]
      | some l =>
        if s.laneDrained .toll then [.word .TOLL, .word .IDLE]
        else [.word .TOLL, .num l.request.id, .word .DRAINING])).settle := by
  unfold State.replyTollStop
  cases lane : s.toll with
  | none => rfl
  | some l =>
    have stopped := stopped l lane
    cases phase : l.phase <;> simp [stopFields, LanePhase.runs, phase] at stopped ⊢

/-- R119: a stop NOW leaves the TOLL lane draining, or IDLE as it was. -/
theorem State.stopTollNow_stopped (s : State) (reason : EndReason) :
    ∀ l, (s.stopTollNow reason).toll = some l → l.phase.runs = false := by
  intro l hl
  cases lane : s.toll with
  | none =>
    simp only [State.stopTollNow, lane] at hl
    cases hl
  | some k =>
    obtain ⟨bells, e⟩ := State.stopTollNow_eq lane reason
    rw [e] at hl
    cases hl
    rfl

theorem State.tollRuns_eq_false_iff : s.tollRuns = false ↔ ∀ l, s.toll = some l → l.phase.runs = false := by
  unfold State.tollRuns
  cases s.toll <;> simp

theorem stopRequests_tune (h : readKw f = some .TUNE) :
    stopNowRequest tag f [] s = (s.stopTuneNow .stop).replyTuneStop tag ∧
      stopBarRequest tag f [] s = (s.barStopTune .stop).replyTuneStop tag := by
  simp [stopNowRequest, stopBarRequest, readLane_tune h]

theorem stopRequests_toll (h : readKw f = some .TOLL) :
    stopNowRequest tag f [] s = (s.stopTollNow .stop).replyTollStop tag ∧
      stopBarRequest tag f [] s = (s.barStopToll .stop).replyTollStop tag := by
  simp [stopNowRequest, stopBarRequest, readLane_toll h]

theorem stopRequests_malformed {more : List Text}
    (h : more ≠ [] ∨ (readKw f ≠ some .TUNE ∧ readKw f ≠ some .TOLL)) :
    stopNowRequest tag f more s = s.err tag .arg ∧ stopBarRequest tag f more s = s.err tag .arg := by
  cases more with
  | cons g more => exact ⟨rfl, rfl⟩
  | nil =>
    obtain ⟨tune, toll⟩ := h.resolve_left (absurd rfl)
    simp [stopNowRequest, stopBarRequest, readLane_eq_none tune toll]

end Stop

/-- Settles O49: the lane by its name, what the stop does by the model's own stops, and the reply by the lane's state
after it. -/
theorem stopsActByState : Obligations.StopsActByState := by
  unfold Obligations.StopsActByState
  intro s tag f can tuneReply tollReply
  refine ⟨fun tune => ?tune, fun toll => ?toll, fun more malformed => ?malformed⟩
  case tune =>
    obtain ⟨now, bar⟩ := stopRequests_tune (s := s) (tag := tag) tune
    exact ⟨exec_request_eq rfl can (now.trans (State.replyTuneStop_eq _ tag)),
      exec_request_eq rfl can (bar.trans (State.replyTuneStop_eq _ tag))⟩
  case toll =>
    obtain ⟨now, bar⟩ := stopRequests_toll (s := s) (tag := tag) toll
    have stopped := State.replyTollStop_eq tag (s.stopTollNow_stopped .stop)
    refine ⟨exec_request_eq rfl can (now.trans stopped), fun runs => exec_request_eq rfl can (bar.trans ?_),
      fun ended => exec_request_eq rfl can (bar.trans ?_)⟩
    · rw [State.barStopToll, if_pos runs]
      exact stopped
    · rw [State.barStopToll, if_neg (by simp [ended])]
      exact State.replyTollStop_eq tag (State.tollRuns_eq_false_iff.mp ended)
  case malformed =>
    obtain ⟨now, bar⟩ := stopRequests_malformed (s := s) (tag := tag) malformed
    exact ⟨exec_request_eq rfl can now, exec_request_eq rfl can bar⟩

end Sys2Proof.Machine
end

section
/-! SUPPORT. ADJUST (R116): the options it reads, and the pending values it sets. -/

namespace Sys2Proof.Machine

/-! ## The options -/

theorem Spells.one_iff {α : Type} {form : List Text → α → Prop} {fields : List Text} {x : α} :
    Spells form fields [x] ↔ form fields x := by
  constructor
  · rintro ⟨_, rfl, spelled⟩
    obtain ⟨piece, _, form, ends, rfl⟩ := List.forall₂_cons_right_iff.mp spelled
    obtain rfl := List.forall₂_nil_right_iff.mp ends
    simpa using form
  · exact fun form => ⟨[fields], by simp, .cons form .nil⟩

theorem Spells.two_iff {α : Type} {form : List Text → α → Prop} {fields : List Text} {x y : α} :
    Spells form fields [x, y] ↔ ∃ u v, fields = u ++ v ∧ form u x ∧ form v y := by
  constructor
  · rintro ⟨_, rfl, spelled⟩
    obtain ⟨u, _, first, next, rfl⟩ := List.forall₂_cons_right_iff.mp spelled
    obtain ⟨v, _, second, ends, rfl⟩ := List.forall₂_cons_right_iff.mp next
    obtain rfl := List.forall₂_nil_right_iff.mp ends
    exact ⟨u, v, by simp, first, second⟩
  · rintro ⟨u, v, rfl, first, second⟩
    exact ⟨[u, v], by simp, .cons first (.cons second .nil)⟩

theorem optionForm_tempo_iff {most n : Nat} {piece : List Text} :
    OptionForm most piece (.tempo n) ↔
      ∃ k v, piece = [k, v] ∧ readKw k = some .TEMPO ∧ readNum most v = some n := by
  simp [OptionForm, readKw_eq_some_iff, readNum_eq_some_iff]

theorem optionForm_cap_iff {most n : Nat} {piece : List Text} :
    OptionForm most piece (.cap n) ↔
      ∃ k v, piece = [k, v] ∧ readKw k = some .CAP ∧ readNum most v = some n := by
  simp [OptionForm, readKw_eq_some_iff, readNum_eq_some_iff]

/-- R116: TEMPO and CAP, neither of them twice: one of the two, or both in either order. -/
theorem tempoCap_values {values : List OptionValue} (given : values ≠ [])
    (apart : (values.map OptionValue.key).Nodup) (named : ∀ v ∈ values, v.key ∈ [Kw.TEMPO, Kw.CAP]) :
    (∃ p, values = [.tempo p]) ∨ (∃ c, values = [.cap c]) ∨
      ∃ p c, values = [.tempo p, .cap c] ∨ values = [.cap c, .tempo p] := by
  have one {v : OptionValue} (hv : v ∈ values) : (∃ p, v = .tempo p) ∨ ∃ c, v = .cap c := by
    have := named v hv
    cases v <;> simp [OptionValue.key] at this ⊢
  match values with
  | [] => exact absurd rfl given
  | [v] =>
    obtain ⟨p, rfl⟩ | ⟨c, rfl⟩ := one (v := v) (by simp)
    · exact .inl ⟨p, rfl⟩
    · exact .inr (.inl ⟨c, rfl⟩)
  | [v, w] =>
    obtain ⟨p, rfl⟩ | ⟨c, rfl⟩ := one (v := v) (by simp) <;> obtain ⟨q, rfl⟩ | ⟨d, rfl⟩ := one (v := w) (by simp)
    · simp [OptionValue.key] at apart
    · exact .inr (.inr ⟨p, d, .inl rfl⟩)
    · exact .inr (.inr ⟨q, c, .inr rfl⟩)
    · simp [OptionValue.key] at apart
  | u :: v :: w :: more =>
    have inside : ((u :: v :: w :: more).map OptionValue.key) ⊆ [Kw.TEMPO, Kw.CAP] := by
      intro k hk
      obtain ⟨v, hv, rfl⟩ := List.mem_map.mp hk
      exact named v hv
    have := (List.subperm_of_subset apart inside).length_le
    simp at this

/-- R116: the options of an ADJUST, each a keyword and a number. -/
theorem optionsForm_tempoCap_iff {most : Nat} {fields : List Text} {o : Options} (given : fields ≠ []) :
    OptionsForm most [.TEMPO, .CAP] fields o ↔
      (∃ k v p, fields = [k, v] ∧ readKw k = some .TEMPO ∧ readNum most v = some p ∧ o = { tempo := some p }) ∨
        (∃ k v c, fields = [k, v] ∧ readKw k = some .CAP ∧ readNum most v = some c ∧ o = { cap := some c }) ∨
        ∃ k v p k' v' c, (fields = [k, v, k', v'] ∨ fields = [k', v', k, v]) ∧ readKw k = some .TEMPO ∧
          readNum most v = some p ∧ readKw k' = some .CAP ∧ readNum most v' = some c ∧
            o = { tempo := some p, cap := some c } := by
  constructor
  · rintro ⟨values, spelled, apart, named, -, rfl⟩
    have read : values ≠ [] := by
      rintro rfl
      obtain ⟨_, rfl, spelled⟩ := spelled
      obtain rfl := List.forall₂_nil_right_iff.mp spelled
      exact given rfl
    obtain ⟨p, rfl⟩ | ⟨c, rfl⟩ | ⟨p, c, rfl | rfl⟩ := tempoCap_values read apart named
    · obtain ⟨k, v, rfl, word, number⟩ := optionForm_tempo_iff.mp (Spells.one_iff.mp spelled)
      exact .inl ⟨k, v, p, rfl, word, number, rfl⟩
    · obtain ⟨k, v, rfl, word, number⟩ := optionForm_cap_iff.mp (Spells.one_iff.mp spelled)
      exact .inr (.inl ⟨k, v, c, rfl, word, number, rfl⟩)
    · obtain ⟨_, _, rfl, first, second⟩ := Spells.two_iff.mp spelled
      obtain ⟨k, v, rfl, word, number⟩ := optionForm_tempo_iff.mp first
      obtain ⟨k', v', rfl, word', number'⟩ := optionForm_cap_iff.mp second
      exact .inr (.inr ⟨k, v, p, k', v', c, .inl rfl, word, number, word', number', rfl⟩)
    · obtain ⟨_, _, rfl, first, second⟩ := Spells.two_iff.mp spelled
      obtain ⟨k', v', rfl, word', number'⟩ := optionForm_cap_iff.mp first
      obtain ⟨k, v, rfl, word, number⟩ := optionForm_tempo_iff.mp second
      exact .inr (.inr ⟨k, v, p, k', v', c, .inr rfl, word, number, word', number', rfl⟩)
  · rintro (⟨k, v, p, rfl, word, number, rfl⟩ | ⟨k, v, c, rfl, word, number, rfl⟩ |
      ⟨k, v, p, k', v', c, order, word, number, word', number', rfl⟩)
    · exact ⟨[.tempo p], Spells.one_iff.mpr (optionForm_tempo_iff.mpr ⟨k, v, rfl, word, number⟩),
        by simp [OptionValue.key], by simp [OptionValue.key], by simp [OptionValue.key], rfl⟩
    · exact ⟨[.cap c], Spells.one_iff.mpr (optionForm_cap_iff.mpr ⟨k, v, rfl, word, number⟩),
        by simp [OptionValue.key], by simp [OptionValue.key], by simp [OptionValue.key], rfl⟩
    · have tempo := optionForm_tempo_iff.mpr ⟨k, v, rfl, word, number⟩
      have cap := optionForm_cap_iff.mpr ⟨k', v', rfl, word', number'⟩
      obtain rfl | rfl := order
      · exact ⟨[.tempo p, .cap c], Spells.two_iff.mpr ⟨[k, v], [k', v'], rfl, tempo, cap⟩,
          by simp [OptionValue.key], by simp [OptionValue.key], by simp [OptionValue.key], rfl⟩
      · exact ⟨[.cap c, .tempo p], Spells.two_iff.mpr ⟨[k', v'], [k, v], rfl, cap, tempo⟩,
          by simp [OptionValue.key], by simp [OptionValue.key], by simp [OptionValue.key], rfl⟩

theorem readAdjust_eq_some_iff {fields : List Text} {o : Options} :
    readAdjust fields = some o ↔ ∃ lane rest, fields = lane :: rest ∧ readKw lane = some .TUNE ∧
      rest ≠ [] ∧ OptionsForm 120 [.TEMPO, .CAP] rest o := by
  cases fields with
  | nil => simp [readAdjust]
  | cons lane rest =>
    have form := readOptions_eq_some_iff_of_not_mem (most := 120) (allowed := [.TEMPO, .CAP]) (by decide) (ws := rest)
      (o := o)
    simp [readAdjust, form, and_assoc]

/-! ## The request -/

section Request

variable {s : State} {tag : Text} {fields : List Text} {o : Options}

theorem adjustRequest_idle (read : readAdjust fields = some o)
    (idle : ∀ l, s.tune = some l → l.phase.runs = false) : adjustRequest tag fields s = s.err tag .notready := by
  cases lane : s.tune with
  | none => simp only [adjustRequest, read, lane]
  | some l => simp only [adjustRequest, read, lane, idle l lane, Bool.false_eq_true, if_false]

theorem adjustRequest_sets {l : TuneLane} (read : readAdjust fields = some o) (lane : s.tune = some l)
    (runs : l.phase.runs = true) :
    adjustRequest tag fields s = State.ok { s with tune := some (l.adjust o) } tag
      [.word .TUNE, .num l.request.id, .word .PENDING, .word .TEMPO, numOrNone (l.adjust o).pendingTempo, .word .CAP,
        numOrNone (l.adjust o).pendingCap] := by
  simp only [adjustRequest, read, lane, runs, if_true]
  rfl

end Request

/-- Settles O48: the fields by the options that can stand on the line, and the request by the state of the lane. -/
theorem adjustSetsPending : Obligations.AdjustSetsPending := by
  unfold Obligations.AdjustSetsPending
  refine ⟨fun fields o => ?reads, fun s tag fields can => ⟨fun refused => ?_, fun o read => ⟨fun idle => ?_,
    fun l lane => ⟨fun ended => ?_, fun runs => ?_⟩⟩⟩⟩
  case reads =>
    rw [readAdjust_eq_some_iff]
    refine exists_congr fun lane => exists_congr fun rest => and_congr_right fun _ => and_congr_right fun _ => ?_
    constructor
    · exact fun ⟨given, form⟩ => (optionsForm_tempoCap_iff given).mp form
    · intro form
      have given : rest ≠ [] := by
        rintro rfl
        simp at form
      exact ⟨given, (optionsForm_tempoCap_iff given).mpr form⟩
  · exact exec_request_eq rfl can (by simp only [runRequest, adjustRequest, refused])
  · exact exec_request_eq rfl can (adjustRequest_idle read (by simp [idle]))
  · exact exec_request_eq rfl can (adjustRequest_idle read fun k hk => by rwa [← Option.some.inj (lane.symm.trans hk)])
  · refine exec_request_eq rfl can ((adjustRequest_sets read lane runs).trans ?_)
    unfold TuneLane.adjust
    cases o.tempo <;> cases o.cap <;> rfl

end Sys2Proof.Machine
end

section
/-! SUPPORT. The takes of the two lanes (R107, R108, R130, R131, R134): when each is due, the lane's record, and the
strokes of a toll. -/

namespace Sys2Proof.Machine

/-! ## The take of the TUNE lane (R107, R108, R134) -/

section Due

variable {s : State} {r : PlayRequest}

theorem State.supplyGood_iff : s.supplyGood = true ↔ s.supply = .good := by simp [State.supplyGood]

theorem State.inReach_iff : s.inReach r = true ↔ r.effective ≤ (s.now : Int) + 5000 := by simp [State.inReach]

theorem State.tollLaneAllowsTune_iff :
    s.tollLaneAllowsTune = true ↔ ∀ l, s.toll = some l → l.spec.mode = .over := by
  unfold State.tollLaneAllowsTune
  cases s.toll <;> simp

/-- R107, R134: a queued request leaves the TUNE lane its take at `now`, unless it is a CUT toll within its reach; at
the instant it comes within its reach, either may be first. -/
def PlayRequest.LeavesTake (q : PlayRequest) (now : Nat) : Prop :=
  ∀ spec, q.play = .toll spec → spec.mode = .cut → (now : Int) + 5000 < q.effective ∨
    (q.effective = (now : Int) + 5000 ∧ q.arrival < now ∧ q.cutGiven = false ∧ Config.reachFirst now q.id = false)

theorem State.barsTune_eq_false_iff : s.barsTune r = false ↔ r.LeavesTake s.now := by
  unfold State.barsTune PlayRequest.LeavesTake
  by_cases cut : r.hasMode .cut = true
  · obtain ⟨spec, asks, mode⟩ := PlayRequest.hasMode_iff.mp cut
    have asked {p : Prop} : (∀ spec, r.play = .toll spec → spec.mode = .cut → p) ↔ p :=
      ⟨fun h => h spec asks mode, fun h _ _ _ => h⟩
    rw [asked, ← not_le (a := r.effective), ← imp_iff_not_or]
    simp [cut, State.inReach, and_assoc]
  · refine iff_of_true (by simp [cut]) fun spec asks mode => ?_
    exact absurd (PlayRequest.hasMode_iff.mpr ⟨spec, asks, mode⟩) cut

theorem State.tuneTakeDue_iff :
    s.tuneTakeDue = true ↔
      s.held = false ∧ s.tune = none ∧ s.supply = .good ∧ (∀ l, s.toll = some l → l.spec.mode = .over) ∧
        (∀ q ∈ s.playQueue, q.LeavesTake s.now) ∧
        ∃ r, s.firstTune = some r ∧ r.effective ≤ (s.now : Int) + 5000 := by
  have unbarred : s.playQueue.any (fun r => s.barsTune r) = false ↔ ∀ q ∈ s.playQueue, q.LeavesTake s.now := by
    simp [State.barsTune_eq_false_iff]
  unfold State.tuneTakeDue
  cases s.firstTune <;>
    simp [State.supplyGood_iff, State.tollLaneAllowsTune_iff, State.inReach_iff, ← unbarred, and_assoc]

/-- R130: the TOLL lane takes a request where some toll within its reach is eligible by its mode. -/
theorem State.tollTakeDue_iff :
    s.tollTakeDue = true ↔
      s.held = false ∧ s.toll = none ∧ s.supply = .good ∧
        ∃ r ∈ s.playQueue, ∃ spec, r.play = .toll spec ∧ r.effective ≤ (s.now : Int) + 5000 ∧
          (spec.mode = .over ∨ s.tune = none) := by
  have one (r : PlayRequest) : (r.isToll && s.inReach r && s.eligible r) = true ↔
      ∃ spec, r.play = .toll spec ∧ r.effective ≤ (s.now : Int) + 5000 ∧ (spec.mode = .over ∨ s.tune = none) := by
    unfold State.eligible PlayRequest.isToll PlayRequest.hasMode
    cases r.play <;> simp [State.inReach_iff]
  simp only [State.tollTakeDue, State.firstToll, Bool.and_eq_true, Bool.not_eq_true', Option.isNone_iff_eq_none,
    State.supplyGood_iff, List.find?_isSome, one, and_assoc]

end Due

section Takes

variable {s : State} {r : PlayRequest}

/-- R108: a melody that is not READY ends the request. -/
theorem State.takeTune_noscore {spec : TuneSpec} (unready : (s.melody spec.melody).phase ≠ .ready) :
    s.takeTune r spec = (s.unqueue r.id).post .ended ([.num r.id, .word .NOSCORE] ++ summaryFields {}) :=
  if_neg unready

theorem exec_tuneTake {spec : TuneSpec} (due : s.tuneTakeDue = true) (first : s.firstTune = some r)
    (asks : r.play = .tune spec) : exec .tuneTake s = .next (s.takeTune r spec).settle := by
  rw [exec_taken (i := .tuneTake) due]
  simp only [effectOf, State.takeFirstTune, first, asks]

theorem exec_tollTake {spec : TollSpec} (due : s.tollTakeDue = true) (first : s.firstToll = some r)
    (asks : r.play = .toll spec) : exec .tollTake s = .next (s.takeToll r spec) := by
  rw [exec_taken (i := .tollTake) due]
  simp only [effectOf, State.takeFirstToll, first, asks]

end Takes

/-! ## The strokes of a toll (R131) -/

theorem State.nearestSecond_eq {s : State} {origin second : Nat}
    (low : (second : Int) * 10000 ≤ (origin : Int) + s.time.offset + 5000)
    (high : (origin : Int) + s.time.offset + 5000 < ((second : Int) + 1) * 10000) :
    s.nearestSecond origin = second := by
  unfold State.nearestSecond
  omega

/-- Settles O45: the takes by their conditions and the lane's record, and the strokes by the nearest second. -/
theorem lanesTakeRequests : Obligations.LanesTakeRequests := by
  unfold Obligations.LanesTakeRequests
  refine ⟨⟨fun s => State.tuneTakeDue_iff, fun s => exec_idle (i := .tuneTake), fun s => State.tollTakeDue_iff,
    fun s => exec_idle (i := .tollTake), fun s r => ?takes⟩, fun s origin => ⟨fun n => rfl, fun unset => ?_,
    fun second isSet low high => ?_⟩⟩
  case takes =>
    intro q origin
    refine ⟨fun spec due first asks => ?tune, fun spec due first asks => ?toll⟩
    case tune =>
      intro h
      refine ⟨fun unready => ?_, fun ready => ?_⟩
      · rw [exec_tuneTake due first asks, State.takeTune_noscore unready]
        rfl
      · rw [exec_tuneTake due first asks]
        have taken : s.takeTune r spec = _ := if_pos ready
        rw [taken]
        rfl
    case toll =>
      exact exec_tollTake due first asks
  · constructor <;> simp only [State.strokeCount, unset, Bool.false_eq_true, if_false]
  · intro hour
    have nearest : (civil (s.nearestSecond origin)).hour = hour := by
      rw [State.nearestSecond_eq low high]
      rfl
    constructor <;> simp only [State.strokeCount, isSet, if_true, nearest]

end Sys2Proof.Machine
end

section
/-! SUPPORT. Wall instants on the line (R105, R160, R163): the civil calendar to and from dates, and a date and time
read exactly where they are those of an instant of the clock's range. -/

namespace Sys2Proof.Machine

/-! ## Numbers with leading zeros -/

/-- Digits of one length and one value are the same digits. -/
theorem digits_ext {t u : Text} (ht : t.all isDigit = true) (hu : u.all isDigit = true) (length : t.length = u.length)
    (value : digitsValue t = digitsValue u) : t = u := by
  induction t using List.reverseRecOn generalizing u with
  | nil => exact (List.length_eq_zero_iff.mp length.symm).symm
  | append_singleton t c ih =>
    obtain rfl | ⟨u, d, rfl⟩ := List.eq_nil_or_concat' u
    · simp at length
    · simp only [List.all_append, List.all_cons, List.all_nil, Bool.and_true, Bool.and_eq_true] at ht hu
      obtain ⟨ht, hc⟩ := ht
      obtain ⟨hu, hd⟩ := hu
      rw [digitsValue_append, digitsValue_append] at value
      have low := isDigit_iff.mp hc
      have high := isDigit_iff.mp hd
      have last : c = d := by
        rw [isDigit_eq_digitChar low, isDigit_eq_digitChar high, show c.toNat - 48 = d.toNat - 48 by omega]
      rw [ih ht hu (by simpa using length) (by omega), last]

theorem digitsValue_lt {t : Text} (ht : t.all isDigit = true) : digitsValue t < 10 ^ t.length := by
  induction t using List.reverseRecOn with
  | nil => exact Nat.one_pos
  | append_singleton t c ih =>
    simp only [List.all_append, List.all_cons, List.all_nil, Bool.and_true, Bool.and_eq_true] at ht
    obtain ⟨ht, hc⟩ := ht
    have digit := isDigit_iff.mp hc
    have before := ih ht
    rw [digitsValue_append, List.length_append, List.length_singleton, Nat.pow_succ]
    omega

theorem digitsValue_zeros (k : Nat) (t : Text) : digitsValue (List.replicate k '0' ++ t) = digitsValue t := by
  induction k with
  | zero => rfl
  | succ k ih => exact ih

/-- A number of at most `width` digits is written with leading zeros in exactly that many. -/
theorem padded_digits {width n : Nat} (wide : 0 < width) (small : n < 10 ^ width) :
    (padded width n).length = width ∧ (padded width n).all isDigit = true ∧ digitsValue (padded width n) = n := by
  obtain ⟨digits, -, value⟩ := decimal_digits n
  have fits : (decimal n).length ≤ width := (Nat.length_toDigits_le_iff (by decide) wide).mpr small
  unfold padded
  refine ⟨?_, ?_, ?_⟩
  · simp only [List.length_append, List.length_replicate]
    omega
  · rw [List.all_append, digits, Bool.and_true]
    exact List.all_eq_true.mpr fun c hc => by rw [(List.mem_replicate.mp hc).2]; decide
  · rw [digitsValue_zeros, value]

/-- A number of exactly `width` digits is read from its text with leading zeros. -/
theorem readFixed_eq_some_iff {width n : Nat} (wide : 0 < width) {t : Text} :
    readFixed width t = some n ↔ n < 10 ^ width ∧ t = padded width n := by
  have read : readFixed width t = some n ↔ t.length = width ∧ t.all isDigit = true ∧ digitsValue t = n := by
    rw [readFixed, Option.ite_none_right_eq_some, readNat, Option.ite_none_right_eq_some]
    simp only [Bool.and_eq_true, Bool.not_eq_true', List.isEmpty_eq_false_iff, Option.some.injEq]
    refine and_congr_right fun length => ?_
    have held : t ≠ [] := List.ne_nil_of_length_pos (by omega)
    simp [held]
  rw [read]
  constructor
  · rintro ⟨rfl, digits, rfl⟩
    have small := digitsValue_lt digits
    obtain ⟨length, padding, value⟩ := padded_digits wide small
    exact ⟨small, digits_ext digits padding length.symm value.symm⟩
  · rintro ⟨small, rfl⟩
    exact padded_digits wide small

theorem not_mem_padded {width n : Nat} (wide : 0 < width) (small : n < 10 ^ width) {c : Char} (hc : isDigit c = false) :
    c ∉ padded width n := by
  obtain ⟨-, digits, -⟩ := padded_digits wide small
  intro mem
  rw [List.all_eq_true.mp digits c mem] at hc
  cases hc

/-! ## Days and months (R147, R160) -/

section Months

variable {lengths : List Nat} {m d : Nat}

/-- The day `d + 1` of the month that stands `m` months after the first. -/
theorem monthOfDay_eq (first : Nat) (month : m < lengths.length) (day : d < lengths.getD m 0) :
    monthOfDay lengths first ((lengths.take m).sum + d) = (first + m, d + 1) := by
  induction lengths generalizing first m with
  | nil => simp at month
  | cons length rest ih =>
    rw [monthOfDay]
    cases m with
    | zero =>
      rw [List.getD_cons_zero] at day
      simp [day]
    | succ m =>
      rw [List.getD_cons_succ] at day
      have later := ih (first + 1) (Nat.lt_of_succ_lt_succ month) day
      rw [List.take_succ_cons, List.sum_cons, if_neg (by omega),
        show length + (rest.take m).sum + d - length = (rest.take m).sum + d by omega, later, Nat.add_assoc,
        Nat.add_comm 1 m]

/-- A day of a month lies within the months. -/
theorem sum_take_add_lt (month : m < lengths.length) (day : d < lengths.getD m 0) :
    (lengths.take m).sum + d < lengths.sum := by
  induction lengths generalizing m with
  | nil => simp at month
  | cons length rest ih =>
    cases m with
    | zero =>
      rw [List.getD_cons_zero] at day
      simp only [List.take_zero, List.sum_nil, List.sum_cons]
      omega
    | succ m =>
      rw [List.getD_cons_succ] at day
      have later := ih (Nat.lt_of_succ_lt_succ month) day
      simp only [List.take_succ_cons, List.sum_cons]
      omega

/-- A day within the months is a day of one of them. -/
theorem exists_month_day {day : Nat} (inside : day < lengths.sum) :
    ∃ m d, m < lengths.length ∧ d < lengths.getD m 0 ∧ day = (lengths.take m).sum + d := by
  induction lengths generalizing day with
  | nil => simp at inside
  | cons length rest ih =>
    by_cases within : day < length
    · exact ⟨0, day, Nat.succ_pos _, by simpa using within, by simp⟩
    · rw [List.sum_cons] at inside
      obtain ⟨m, d, month, less, e⟩ := ih (day := day - length) (by omega)
      exact ⟨m + 1, d, Nat.succ_lt_succ month, by simpa using less, by
        rw [List.take_succ_cons, List.sum_cons]
        omega⟩

end Months

theorem monthLengths_length (leap : Bool) : (monthLengths leap).length = 12 := rfl

/-! ## The civil calendar (R147, R160) -/

/-- The days before a year, by the cycle of four years it falls in and its place there. -/
theorem daysBeforeYear_cycle (c : Nat) {q : Nat} (hq : q < 4) :
    daysBeforeYear (2000 + 4 * c + q) = 1461 * c + (365 * q + if q = 0 then 0 else 1) := by
  unfold daysBeforeYear
  split <;> omega

theorem isLeap_cycle (c : Nat) {q : Nat} (hq : q < 4) : isLeap (2000 + 4 * c + q) = (q == 0) := by
  rw [isLeap, show (2000 + 4 * c + q) % 4 = q by omega]

/-- A year of 2000 and after stands in a cycle of four. -/
theorem exists_cycle {year : Nat} (from2000 : 2000 ≤ year) : ∃ c q, q < 4 ∧ year = 2000 + 4 * c + q :=
  ⟨(year - 2000) / 4, (year - 2000) % 4, Nat.mod_lt _ (by decide), by omega⟩

theorem sum_monthLengths (leap : Bool) : (monthLengths leap).sum = 365 + if leap then 1 else 0 := by
  cases leap <;> decide

/-- The date of a day counted from the first of its year. -/
theorem civil_date {instant year day : Nat} (from2000 : 2000 ≤ year) (e : instant / 86400 = daysBeforeYear year + day)
    (inside : day < (monthLengths (isLeap year)).sum) :
    (civil instant).year = year ∧
      ((civil instant).month, (civil instant).day) = monthOfDay (monthLengths (isLeap year)) 1 day := by
  obtain ⟨c, q, hq, rfl⟩ := exists_cycle from2000
  rw [daysBeforeYear_cycle c hq] at e
  rw [isLeap_cycle c hq, sum_monthLengths] at inside
  rw [isLeap_cycle c hq]
  simp only [beq_iff_eq] at inside
  have cycle : instant / 86400 / 1461 = c := by split at inside <;> split at e <;> omega
  have place : instant / 86400 % 1461 = (365 * q + if q = 0 then 0 else 1) + day := by
    split at inside <;> split at e <;> split <;> omega
  have year : (if (365 * q + if q = 0 then 0 else 1) + day < 366 then 0
      else 1 + ((365 * q + if q = 0 then 0 else 1) + day - 366) / 365) = q := by
    split at inside <;> split <;> split <;> omega
  have dayOfYear : (if (365 * q + if q = 0 then 0 else 1) + day < 366 then (365 * q + if q = 0 then 0 else 1) + day
      else ((365 * q + if q = 0 then 0 else 1) + day - 366) % 365) = day := by
    split at inside <;> split <;> split <;> omega
  simp only [civil, cycle, place, year, dayOfYear, and_true]
  omega

/-- Every instant falls on a day of some year, within the clock's range up to 2099. -/
theorem exists_year_day (instant : Nat) :
    ∃ year day, 2000 ≤ year ∧ instant / 86400 = daysBeforeYear year + day ∧
      day < (monthLengths (isLeap year)).sum ∧ (instant < wallEnd → year ≤ 2099) := by
  obtain ⟨q, day, hq, e, inside⟩ : ∃ q day, q < 4 ∧ instant / 86400 % 1461 = (365 * q + if q = 0 then 0 else 1) + day ∧
      day < 365 + if q = 0 then 1 else 0 := by
    by_cases first : instant / 86400 % 1461 < 366
    · exact ⟨0, instant / 86400 % 1461, by decide, by simp, by simpa using first⟩
    · refine ⟨1 + (instant / 86400 % 1461 - 366) / 365, (instant / 86400 % 1461 - 366) % 365, by omega, ?_, ?_⟩
      · rw [if_neg (by omega)]
        omega
      · rw [if_neg (by omega)]
        omega
  refine ⟨2000 + 4 * (instant / 86400 / 1461) + q, day, by omega, ?_, ?_, fun range => ?_⟩
  · rw [daysBeforeYear_cycle _ hq]
    omega
  · rw [isLeap_cycle _ hq, sum_monthLengths]
    simpa using inside
  · unfold wallEnd at range
    omega

/-- R105, R163: a date and time name an instant of the clock's range exactly where they are its own. -/
theorem instantOf_eq_some_iff {year month day hour minute second instant : Nat} :
    instantOf year month day hour minute second = some instant ↔ instant < wallEnd ∧
      (civil instant).year = year ∧ (civil instant).month = month ∧ (civil instant).day = day ∧
        (civil instant).hour = hour ∧ (civil instant).minute = minute ∧ (civil instant).second = second := by
  constructor
  · intro h
    rw [instantOf, Option.ite_none_right_eq_some] at h
    obtain ⟨⟨y0, y99, m1, m12, d1, most, hh, mm, ss⟩, e⟩ := h
    obtain ⟨m, rfl⟩ := Nat.exists_eq_add_of_le m1
    obtain ⟨d, rfl⟩ := Nat.exists_eq_add_of_le' d1
    rw [Nat.add_sub_cancel_left] at most
    rw [Option.some.injEq, Nat.add_sub_cancel_left, Nat.add_sub_cancel] at e
    have inMonths : m < (monthLengths (isLeap year)).length := by rw [monthLengths_length]; omega
    have inside := sum_take_add_lt inMonths most
    obtain ⟨yearIs, date⟩ := civil_date (instant := instant) y0 (by rw [← Nat.add_assoc]; omega) inside
    rw [monthOfDay_eq 1 inMonths most, Prod.mk.injEq] at date
    refine ⟨?_, yearIs, date.1, date.2, ?_, ?_, ?_⟩
    · rw [sum_monthLengths] at inside
      unfold wallEnd
      unfold daysBeforeYear at e
      split at inside
      · have : year ≠ 2099 := by
          rintro rfl
          contradiction
        omega
      · omega
    · show instant / 3600 % 24 = hour
      omega
    · show instant / 60 % 60 = minute
      omega
    · show instant % 60 = second
      omega
  · rintro ⟨range, rfl, rfl, rfl, rfl, rfl, rfl⟩
    obtain ⟨year, day, y0, e, inside, y99⟩ := exists_year_day instant
    obtain ⟨yearIs, date⟩ := civil_date y0 e inside
    obtain ⟨m, d, inMonths, most, rfl⟩ := exists_month_day inside
    rw [monthOfDay_eq 1 inMonths most, Prod.mk.injEq] at date
    obtain ⟨monthIs, dayIs⟩ := date
    rw [monthLengths_length] at inMonths
    rw [yearIs, monthIs, dayIs, instantOf, Nat.add_sub_cancel_left, Nat.add_sub_cancel]
    have hour : (civil instant).hour = instant / 3600 % 24 := rfl
    have minute : (civil instant).minute = instant / 60 % 60 := rfl
    have second : (civil instant).second = instant % 60 := rfl
    rw [hour, minute, second, if_pos ⟨y0, y99 range, by omega, by omega, by omega, most, by omega, by omega, by omega⟩]
    simp only [Option.some.injEq]
    omega

theorem monthLengths_le (leap : Bool) (m : Nat) : (monthLengths leap).getD m 0 ≤ 31 := by
  obtain inside | beyond := Nat.lt_or_ge m (monthLengths leap).length
  · rw [List.getD_eq_getElem _ _ inside]
    have most : ∀ x ∈ monthLengths leap, x ≤ 31 := by cases leap <;> decide
    exact most _ (List.getElem_mem inside)
  · rw [List.getD_eq_default _ _ beyond]
    omega

/-- A date and time of the clock's range fill the digits they are written in. -/
theorem civil_digits {instant : Nat} (range : instant < wallEnd) :
    (civil instant).year < 10 ^ 4 ∧ (civil instant).month < 10 ^ 2 ∧ (civil instant).day < 10 ^ 2 ∧
      (civil instant).hour < 10 ^ 2 ∧ (civil instant).minute < 10 ^ 2 ∧ (civil instant).second < 10 ^ 2 := by
  have named := instantOf_eq_some_iff.mpr ⟨range, rfl, rfl, rfl, rfl, rfl, rfl⟩
  rw [instantOf, Option.ite_none_right_eq_some] at named
  obtain ⟨⟨-, year, -, month, -, day, hour, minute, second⟩, -⟩ := named
  have most := day.trans (monthLengths_le _ _)
  omega

/-- R105, R163: a date and time are read exactly where they are those of an instant of the clock's range. -/
theorem readWall_eq_some_iff {date time : Text} {instant : Nat} :
    readWall date time = some instant ↔ WallForm date time instant := by
  unfold readWall WallForm
  constructor
  · intro h
    split at h
    case h_2 => cases h
    case h_1 dateParts timeParts =>
      obtain ⟨rfl, -, -, -⟩ := splitOn_eq_three_iff.mp dateParts
      obtain ⟨rfl, -, -, -⟩ := splitOn_eq_three_iff.mp timeParts
      simp only [Option.bind_eq_bind, Option.bind_eq_some_iff, readFixed_eq_some_iff (Nat.succ_pos _),
        instantOf_eq_some_iff] at h
      obtain ⟨_, ⟨-, rfl⟩, _, ⟨-, rfl⟩, _, ⟨-, rfl⟩, _, ⟨-, rfl⟩, _, ⟨-, rfl⟩, _, ⟨-, rfl⟩, range, rfl, rfl, rfl, rfl,
        rfl, rfl⟩ := h
      exact ⟨range, by simp [dateText], by simp [timeText]⟩
  · rintro ⟨range, rfl, rfl⟩
    obtain ⟨year, month, day, hour, minute, second⟩ := civil_digits range
    have read {width n : Nat} (wide : 0 < width) (small : n < 10 ^ width) : readFixed width (padded width n) = some n :=
      (readFixed_eq_some_iff wide).mpr ⟨small, rfl⟩
    have dateParts : splitOn '-' (dateText instant) = [padded 4 (civil instant).year, padded 2 (civil instant).month,
        padded 2 (civil instant).day] :=
      splitOn_eq_three_iff.mpr ⟨by simp [dateText], not_mem_padded (by decide) year (by decide),
        not_mem_padded (by decide) month (by decide), not_mem_padded (by decide) day (by decide)⟩
    have timeParts : splitOn ':' (timeText instant) = [padded 2 (civil instant).hour, padded 2 (civil instant).minute,
        padded 2 (civil instant).second] :=
      splitOn_eq_three_iff.mpr ⟨by simp [timeText], not_mem_padded (by decide) hour (by decide),
        not_mem_padded (by decide) minute (by decide), not_mem_padded (by decide) second (by decide)⟩
    rw [dateParts, timeParts]
    simp only [read (by decide) year, read (by decide) month, read (by decide) day, read (by decide) hour,
      read (by decide) minute, read (by decide) second, Option.bind_eq_bind, Option.bind_some]
    exact instantOf_eq_some_iff.mpr ⟨range, rfl, rfl, rfl, rfl, rfl, rfl⟩

end Sys2Proof.Machine
end

section
/-! SUPPORT. PLAY and TOLL (R98, R100, R105, R126 to R128): the request the fields make, and the offer with its
reply. -/

namespace Sys2Proof.Machine

/-! ## The offer and its reply (R102, R105, R128) -/

section Offer

variable {s : State}

/-- R105, R127: the start that AT or CLOCK gives. -/
theorem State.startOf_eq (s : State) (o : Options) :
    s.startOf o = match o.atTime with
      | some instant => some ((instant : Int) * 10000 - s.time.offset)
      | none => o.clock.map (fun t => (t : Int)) := by
  unfold State.startOf
  cases o.atTime <;> cases o.clock <;> rfl

/-- R102: an offer that is merged or finds the queue full changes nothing, and the reply says which. -/
theorem State.replyOffer_eq (s : State) (tag : Text) (r : PlayRequest) (shown : List Fld) :
    (s.offer r).1.replyOffer tag shown (s.offer r).2 =
      match s.offer r with
      | (_, .merged q) => s.ok tag [.num q.id, .word .MERGED, .word (if q.isToll then .TOLL else .TUNE)]
      | (_, .full) => s.err tag .qfull
      | (t, .admitted id) => t.ok tag ([.num id, .word .QUEUED] ++ shown) := by
  obtain ⟨q, -, -, e⟩ | ⟨-, -, e⟩ | ⟨-, -, e⟩ := s.offer_cases r
  · rw [e]
    simp only [State.replyOffer, classWord_eq]
  · rw [e]
    rfl
  · rw [e]
    rfl

theorem State.offerLine_eq (s : State) (tag : Text) (o : Options) (r : PlayRequest) (shown : List Fld) :
    s.offerLine tag o r shown =
      if o.atTime.isSome = true ∧ s.time.isSet = false then s.err tag .unset
      else if r.latest < (s.now : Int) then s.err tag .arg
      else
        match s.offer r with
        | (_, .merged q) => s.ok tag [.num q.id, .word .MERGED, .word (if q.isToll then .TOLL else .TUNE)]
        | (_, .full) => s.err tag .qfull
        | (t, .admitted id) => t.ok tag ([.num id, .word .QUEUED] ++ shown) := by
  unfold State.offerLine
  rw [State.replyOffer_eq]
  simp only [State.namesUnset, Bool.and_eq_true, Bool.not_eq_true']

end Offer

/-! ## The requests (R105, R127) -/

section Requests

variable {s : State} {tag f : Text} {fields options : List Text} {o : Options} {wait : Nat}

theorem Options.waitOf_eq_some_iff {most : Nat} :
    o.waitOf most = some wait ↔ o.wait.getD 120 = wait ∧ wait ≤ most := by
  rw [Options.waitOf, within_eq_some_iff, eq_comm (a := wait)]
  omega

theorem Options.waitOf_eq_none {most : Nat} (long : most < o.wait.getD 120) : o.waitOf most = none := by
  cases e : o.waitOf most with
  | none => rfl
  | some wait =>
    obtain ⟨rfl, short⟩ := Options.waitOf_eq_some_iff.mp e
    omega

theorem readWithin15_eq_some_iff {lo hi n : Nat} {t : Text} :
    readWithin15 lo hi t = some n ↔ readNum 15 t = some n ∧ lo ≤ n ∧ n ≤ hi := bind_within_eq_some_iff

theorem playRequest_offers {m : Nat} (number : readWithin15 1 64 f = some m)
    (given : readOptions 15 playOptions options = some o) (waits : o.waitOf 300 = some wait) :
    playRequest tag (f :: options) s =
      s.offerLine tag o (s.makeRequest .line (.tune (o.tuneSpec m)) (s.startOf o) wait o.capOf o.slipOf false)
        (shownTune (o.tuneSpec m)
          (s.makeRequest .line (.tune (o.tuneSpec m)) (s.startOf o) wait o.capOf o.slipOf false)) := by
  simp only [playRequest, number, given, waits]

/-- R105: a line of any other form, or with a longer wait, is refused. -/
theorem playRequest_malformed
    (h : ∀ f options m o, fields = f :: options → readNum 15 f = some m → 1 ≤ m → m ≤ 64 →
      readOptions 15 playOptions options = some o → 300 < o.wait.getD 120) :
    playRequest tag fields s = s.err tag .arg := by
  unfold playRequest
  split
  next => rfl
  next f options =>
    split
    next m o number given =>
      obtain ⟨number, low, high⟩ := readWithin15_eq_some_iff.mp number
      rw [Options.waitOf_eq_none (h f options m o rfl number low high given)]
    next => rfl

theorem State.readToll_eq_some_iff {spec : TollSpec} :
    s.readToll fields = some (spec, o) ↔
      ∃ rule f options b, readRule 15 fields = some (rule, f :: options) ∧ readNum 15 f = some b ∧ 1 ≤ b ∧
        b ≤ s.bellCount ∧ readOptions 15 tollOptions options = some o ∧ spec = o.tollSpec rule b := by
  unfold State.readToll
  simp only [Option.bind_eq_bind, Option.pure_def, Option.bind_eq_some_iff]
  constructor
  · rintro ⟨⟨rule, rest⟩, read, h⟩
    cases rest with
    | nil => cases h
    | cons f options =>
      simp only [Option.bind_eq_some_iff, readWithin15_eq_some_iff, Option.some.injEq, Prod.mk.injEq] at h
      obtain ⟨b, ⟨number, low, high⟩, _, given, rfl, rfl⟩ := h
      exact ⟨rule, f, options, b, read, number, low, high, given, rfl⟩
  · rintro ⟨rule, f, options, b, read, number, low, high, given, rfl⟩
    refine ⟨(rule, f :: options), read, ?_⟩
    simp only [readWithin15_eq_some_iff.mpr ⟨number, low, high⟩, given, Option.bind_some]

theorem tollRequest_offers {spec : TollSpec} (read : s.readToll fields = some (spec, o))
    (waits : o.waitOf 120 = some wait) :
    tollRequest tag fields s =
      s.offerLine tag o (s.makeRequest .line (.toll spec) (s.startOf o) wait o.capOf o.slipOf false)
        (shownToll spec (s.makeRequest .line (.toll spec) (s.startOf o) wait o.capOf o.slipOf false)) := by
  simp only [tollRequest, read, waits]

/-- R128: the fields of a TOLL reply in their order. -/
theorem shownToll_eq (spec : TollSpec) (r : PlayRequest) :
    shownToll spec r = .word .TOLL :: ruleFields spec.rule ++
      [.word .BELL, .num spec.bell, .word .INTERVAL, .num spec.interval, .word .LEVEL, .num spec.level, .word .MODE,
        modeWord spec.mode, .word .CAP, .num r.cap, .word .SLIP, .num r.slip, .word .LATEST, .int r.latest] := by
  simp [shownToll, tollFields]

/-- R127: a line of any other form, or with a longer wait, is refused. -/
theorem tollRequest_malformed
    (h : ∀ rule f options b o, readRule 15 fields = some (rule, f :: options) → readNum 15 f = some b → 1 ≤ b →
      b ≤ s.bellCount → readOptions 15 tollOptions options = some o → 120 < o.wait.getD 120) :
    tollRequest tag fields s = s.err tag .arg := by
  unfold tollRequest
  split
  next => rfl
  next spec o read =>
    obtain ⟨rule, f, options, b, first, number, low, high, given, -⟩ := State.readToll_eq_some_iff.mp read
    rw [Options.waitOf_eq_none (h rule f options b o first number low high given)]

end Requests

/-- Settles O43: the fields by their forms, the request by its makers, and the reply by what becomes of the offer. -/
theorem playAndTollOffered : Obligations.PlayAndTollOffered := by
  unfold Obligations.PlayAndTollOffered
  refine ⟨fun most allowed fields o => readOptions_eq_some_iff fun _ _ _ _ => readWall_eq_some_iff,
    fun most fields rest rule => readRule_eq_some_iff, rfl, rfl, fun s tag fields can => ⟨fun malformed => ?_,
      fun malformed => ?_⟩, fun s tag o wait can => ?offers⟩
  · exact exec_request_eq rfl can (playRequest_malformed malformed)
  · exact exec_request_eq rfl can (tollRequest_malformed malformed)
  case offers =>
    intro start made answered
    have asked (play : Play) :
        s.makeRequest .line play (s.startOf o) wait o.capOf o.slipOf false = made play := by
      rw [State.startOf_eq]
      rfl
    have answers (r : PlayRequest) (shown : List Fld) : s.offerLine tag o r shown = answered r shown :=
      s.offerLine_eq tag o r shown
    refine ⟨fun f m options number low high given waits short => exec_request_eq rfl can ?_,
      fun fields rule f b options first number low high given waits short => exec_request_eq rfl can ?_⟩
    · refine (playRequest_offers (readWithin15_eq_some_iff.mpr ⟨number, low, high⟩) given
        (Options.waitOf_eq_some_iff.mpr ⟨waits, short⟩)).trans ?_
      rw [asked, answers]
      rfl
    · refine (tollRequest_offers (State.readToll_eq_some_iff.mpr ⟨rule, f, options, b, first, number, low, high, given,
        rfl⟩) (Options.waitOf_eq_some_iff.mpr ⟨waits, short⟩)).trans ?_
      rw [asked, answers, shownToll_eq]
      rfl

end Sys2Proof.Machine
end

section
/-! SUPPORT. The calendar schedule (R145 to R149): the pending table applied, an instant evaluated, and each entry
matched at most once by it. -/

namespace Sys2Proof.Machine

/-! ## Matching under the stamp (R146, R148) -/

section Matching

variable {s t : State} {j k instant : Nat} {e : ScheduleEntry}

theorem stampAdmits_iff {stamp : Option Nat} :
    stampAdmits stamp instant = true ↔ ∀ t, stamp = some t → t < instant := by
  cases stamp <;> simp [stampAdmits]

theorem State.matchOf_eq_some_iff :
    s.matchOf k instant = some e ↔
      slot s.live k none = some e ∧ e.matchesAt instant = true ∧
        ∀ t, slot s.stamps k none = some t → t < instant := by
  rw [← stampAdmits_iff, ← Bool.and_eq_true]
  unfold State.matchOf
  cases slot s.live k none with
  | none => simp
  | some x =>
    simp only [Option.ite_none_right_eq_some, Option.some.injEq]
    constructor
    · rintro ⟨h, rfl⟩
      exact ⟨rfl, h⟩
    · rintro ⟨rfl, h⟩
      exact ⟨h, rfl⟩

theorem State.matchOf_congr (live : t.live = s.live) (stamps : slot t.stamps k none = slot s.stamps k none) :
    t.matchOf k instant = s.matchOf k instant := by
  unfold State.matchOf
  rw [live, stamps]

/-- R148: a stamp at an instant bars it. -/
theorem State.matchOf_of_stamped (stamped : slot s.stamps k none = some instant) : s.matchOf k instant = none := by
  rw [Option.eq_none_iff_forall_ne_some]
  intro e matched
  obtain ⟨-, -, admitted⟩ := State.matchOf_eq_some_iff.mp matched
  exact Nat.lt_irrefl _ (admitted instant stamped)

end Matching

/-! ## The evaluation of an entry (R146, R149, R154) -/

section Evaluation

variable {s : State} {missed : List (Nat × Nat)} {j k instant : Nat} {d : Disposal} {e : ScheduleEntry}

theorem State.evaluateEntry_of_none {acc : State × List (Nat × Nat)} (h : acc.1.matchOf k instant = none) :
    State.evaluateEntry instant d acc k = acc := by
  unfold State.evaluateEntry
  simp only [h]

theorem State.evaluateEntry_ordinary (h : s.matchOf k instant = some e) :
    State.evaluateEntry instant .ordinary (s, missed) k =
      ((s.stamp k (some instant)).offerQuiet (s.scheduled k e (s.equivalent instant)) instant, missed) := by
  simp only [State.evaluateEntry, h]
  rfl

theorem State.evaluateEntry_catchUp (h : s.matchOf k instant = some e) :
    State.evaluateEntry instant .catchUp (s, missed) k =
      ((s.stamp k (some instant)).offerQuiet (s.scheduled k e ((s.now : Int) + 2500)) instant, missed) := by
  simp only [State.evaluateEntry, h]
  rfl

theorem State.evaluateEntry_missed (h : s.matchOf k instant = some e) :
    State.evaluateEntry instant .missed (s, missed) k = (s.stamp k (some instant), missed ++ [(k, instant)]) := by
  simp only [State.evaluateEntry, h]

/-- R148: however a match is disposed of, it is stamped. -/
theorem State.evaluateEntry_stamps {acc : State × List (Nat × Nat)} (h : acc.1.matchOf k instant = some e) :
    (State.evaluateEntry instant d acc k).1.stamps = setSlot acc.1.stamps k (some instant) := by
  obtain ⟨s, missed⟩ := acc
  cases d with
  | ordinary => simp [State.evaluateEntry_ordinary h]
  | catchUp => simp [State.evaluateEntry_catchUp h]
  | missed => simp [State.evaluateEntry_missed h]

/-- An entry evaluated at an instant does not match it again. -/
theorem State.evaluateEntry_bars (acc : State × List (Nat × Nat)) (h1 : 1 ≤ k) (h48 : k ≤ 48) :
    (State.evaluateEntry instant d acc k).1.matchOf k instant = none := by
  cases h : acc.1.matchOf k instant with
  | none => rw [State.evaluateEntry_of_none h, h]
  | some e =>
    refine State.matchOf_of_stamped ?_
    rw [State.evaluateEntry_stamps h, slot_setSlot_same _ _ _ _ h1 h48]

/-- The evaluation of an entry keeps every entry that does not match from matching. -/
theorem State.evaluateEntry_keeps_barred {acc : State × List (Nat × Nat)} (barred : acc.1.matchOf j instant = none)
    (k : Nat) : (State.evaluateEntry instant d acc k).1.matchOf j instant = none := by
  cases h : acc.1.matchOf k instant with
  | none => rw [State.evaluateEntry_of_none h, barred]
  | some e =>
    have other : j ≠ k := by
      rintro rfl
      rw [barred] at h
      cases h
    rw [← barred]
    refine State.matchOf_congr (by simp) ?_
    rw [State.evaluateEntry_stamps h, slot_setSlot_other _ _ _ _ _ other]

theorem foldl_evaluateEntry_keeps_barred {acc : State × List (Nat × Nat)} (barred : acc.1.matchOf j instant = none)
    (ks : List Nat) : (ks.foldl (State.evaluateEntry instant d) acc).1.matchOf j instant = none := by
  induction ks generalizing acc with
  | nil => exact barred
  | cons k ks ih => exact ih (State.evaluateEntry_keeps_barred barred k)

/-- R148: no entry matches an instant twice. -/
theorem State.evaluate_bars (acc : State × List (Nat × Nat)) (h1 : 1 ≤ k) (h48 : k ≤ 48) :
    (State.evaluate instant d acc).1.matchOf k instant = none := by
  have listed : k ∈ List.range' 1 48 := List.mem_range'_1.mpr (by omega)
  obtain ⟨before, after, split⟩ := List.append_of_mem listed
  rw [State.evaluate, split, List.foldl_append, List.foldl_cons]
  exact foldl_evaluateEntry_keeps_barred (State.evaluateEntry_bars _ h1 h48) after

end Evaluation

/-! ## The crossing of a second (R145, R146) -/

theorem State.boundaryDue_iff {s : State} : s.boundaryDue = true ↔ s.held = false ∧ s.slewDue = false ∧
    s.time.isSet = true ∧ s.time.crossed < s.wallSecond ∧ s.time.crossed + 1 < wallEnd := by
  simp only [State.boundaryDue, Bool.and_eq_true, Bool.not_eq_true', decide_eq_true_eq, and_assoc]

/-- R143: no entry is counted where the pending table is the live one. -/
theorem State.changed_eq_zero_iff {s : State} : s.changed = 0 ↔ s.draft = s.live := by
  simp only [State.changed, List.countP_eq_zero, bne_iff_ne, not_not]
  constructor
  · exact fun same => table_ext none fun k h1 h48 => same k (List.mem_range'_1.mpr (by omega))
  · intro same k _
    rw [same]

theorem State.applyDraft_eq {s : State} (set : s.time.isSet = true) :
    s.applyDraft = if s.hold = false ∧ s.draft ≠ s.live then s.copyDraft else s := by
  simp only [State.applyDraft, set, Bool.true_and, Bool.and_eq_true, Bool.not_eq_true', bne_iff_ne, ne_eq,
    State.changed_eq_zero_iff]

/-- Settles O53: the crossing by the rule for the pending table, and the single match by the stamp it leaves. -/
theorem boundaryEvaluates : Obligations.BoundaryEvaluates := by
  unfold Obligations.BoundaryEvaluates
  refine ⟨fun _ => State.boundaryDue_iff, fun _ => event_idle, fun s due => ?crossing,
    fun s k instant missed => ⟨fun h => State.evaluateEntry_of_none h, fun _ => State.evaluateEntry_ordinary⟩,
    fun _ _ _ => rfl, fun _ _ _ _ => State.matchOf_eq_some_iff,
    fun s k e start => ⟨fun _ _ h => ?tune, fun _ h => ?toll⟩,
    fun s instant k _ => State.evaluate_bars _⟩
  case crossing =>
    intro t u applied
    obtain ⟨-, -, set, -, -⟩ := State.boundaryDue_iff.mp due
    refine (event_taken due).trans (congrArg Host.Outcome.next ?_)
    have table : (if t % 60 = 0 then u.applyDraft else u) =
        if t % 60 = 0 ∧ s.hold = false ∧ s.draft ≠ s.live then applied else u := by
      rw [State.applyDraft_eq (s := u) set, ← ite_and]
      rfl
    rw [← table]
    rfl
  case tune =>
    rw [State.scheduled, h]
    rfl
  case toll =>
    rw [State.scheduled, h]
    rfl

end Sys2Proof.Machine
end

section
/-! SUPPORT. Dates, matching and quiet rules (R146, R147, R151, R152). -/

namespace Sys2Proof.Machine

/-! ## The date of an instant (R147, R160) -/

/-- R160: the day of an instant is the days before its year, those before its month, and those before it in the
month. -/
theorem civil_days (instant : Nat) :
    2000 ≤ (civil instant).year ∧ (instant < wallEnd → (civil instant).year ≤ 2099) ∧ 1 ≤ (civil instant).month ∧
      (civil instant).month ≤ 12 ∧ 1 ≤ (civil instant).day ∧
      (civil instant).day ≤ (monthLengths (isLeap (civil instant).year)).getD ((civil instant).month - 1) 0 ∧
      instant / 86400 = daysBeforeYear (civil instant).year +
        ((monthLengths (isLeap (civil instant).year)).take ((civil instant).month - 1)).sum +
          ((civil instant).day - 1) := by
  obtain ⟨year, day, from2000, e, inside, to2099⟩ := exists_year_day instant
  obtain ⟨yearIs, date⟩ := civil_date from2000 e inside
  obtain ⟨m, d, inMonths, most, rfl⟩ := exists_month_day inside
  rw [monthOfDay_eq 1 inMonths most, Prod.mk.injEq] at date
  obtain ⟨monthIs, dayIs⟩ := date
  rw [monthLengths_length] at inMonths
  rw [yearIs, monthIs, dayIs, Nat.add_sub_cancel_left, Nat.add_sub_cancel]
  exact ⟨from2000, to2099, by omega, by omega, by omega, most, by omega⟩

theorem monthLengths_isLeap (year : Nat) :
    monthLengths (isLeap year) = [31, if year % 4 = 0 then 29 else 28, 31, 30, 31, 30, 31, 31, 30, 31, 30, 31] := by
  simp only [monthLengths, isLeap, beq_iff_eq]

theorem civil_weekday (instant : Nat) : (civil instant).weekday = weekdayOf (instant / 86400) := by
  unfold civil
  rfl

theorem civil_weekday_next (instant : Nat) :
    (civil (instant + 86400)).weekday = ((civil instant).weekday + 1) % 7 := by
  rw [civil_weekday, civil_weekday, weekdayOf, weekdayOf]
  omega

/-- The weekday is that of the day's midnight. -/
theorem civil_weekday_midnight (instant : Nat) :
    (civil instant).weekday = (civil (instant / 86400 * 86400)).weekday := by
  rw [civil_weekday, civil_weekday, Nat.mul_div_cancel _ (by decide)]

/-! ## Matching (R146, R147) -/

theorem DayMonth.le_iff {a b : DayMonth} : a.le b = true ↔ a.month < b.month ∨ (a.month = b.month ∧ a.day ≤ b.day) := by
  simp only [DayMonth.le, Bool.or_eq_true, Bool.and_eq_true, decide_eq_true_eq, beq_iff_eq]

/-- R147: a range of dates in order holds the days between its ends, one that wraps those outside. -/
theorem inDates_iff {a b d : DayMonth} :
    inDates (a, b) d = true ↔ (a.le b = true ∧ a.le d = true ∧ d.le b = true) ∨
      (¬ a.le b = true ∧ (a.le d = true ∨ d.le b = true)) := by
  unfold inDates
  cases a.le b <;> simp

theorem ScheduleEntry.matchesAt_iff {e : ScheduleEntry} {instant : Nat} :
    e.matchesAt instant = true ↔ instant < wallEnd ∧ (civil instant).hour ∈ e.hours ∧
      (civil instant).minute ∈ e.minutes ∧ (civil instant).second = e.second ∧ (civil instant).weekday ∈ e.days ∧
        (civil instant).month ∈ e.months ∧
          ∀ a b, e.dates = some (a, b) → inDates (a, b) ⟨(civil instant).day, (civil instant).month⟩ = true := by
  unfold ScheduleEntry.matchesAt
  simp only [Bool.and_eq_true, decide_eq_true_eq, List.contains_iff_mem, beq_iff_eq, and_assoc,
    eq_comm (a := e.second)]
  cases e.dates with
  | none => simp
  | some range =>
    obtain ⟨a, b⟩ := range
    simp

/-! ## Quiet rules (R151, R152) -/

section Quiet

variable {q : QuietRule} {instant : Nat}

theorem QuietRule.covers_of_lt (h : q.fromMin < q.toMin) : q.covers instant = true ↔
    (civil instant).weekday ∈ q.days ∧ q.fromMin ≤ instant / 60 % 1440 ∧ instant / 60 % 1440 < q.toMin := by
  rw [civil_weekday]
  simp only [QuietRule.covers, if_pos h, Bool.and_eq_true, List.contains_iff_mem, decide_eq_true_eq, and_assoc]

/-- R151: a rule over midnight covers the evening of its days and the morning after each. -/
theorem QuietRule.covers_of_gt (h : q.toMin < q.fromMin) : q.covers instant = true ↔
    ((civil instant).weekday ∈ q.days ∧ q.fromMin ≤ instant / 60 % 1440) ∨
      ((civil (instant + 6 * 86400)).weekday ∈ q.days ∧ instant / 60 % 1440 < q.toMin) := by
  have yesterday : (instant + 6 * 86400) / 86400 = instant / 86400 + 6 := by omega
  rw [civil_weekday, civil_weekday, yesterday]
  simp only [QuietRule.covers, if_neg h.not_gt, if_pos h, Bool.or_eq_true, Bool.and_eq_true, List.contains_iff_mem,
    decide_eq_true_eq]

theorem QuietRule.covers_of_eq (h : q.fromMin = q.toMin) :
    q.covers instant = true ↔ (civil instant).weekday ∈ q.days := by
  rw [civil_weekday]
  simp only [QuietRule.covers, h, lt_irrefl, if_false, List.contains_iff_mem]

end Quiet

/-- The rule numbered `q`, if it is in use and covers the instant. -/
def State.ruleAt (s : State) (instant q : Nat) : Option (Nat × QuietRule) :=
  match s.quietRule q with
  | some r => if r.covers instant then some (q, r) else none
  | none => none

theorem State.quietAt_eq (s : State) (instant : Nat) :
    s.quietAt instant = (List.range' 1 8).filterMap (s.ruleAt instant) := rfl

theorem State.ruleAt_eq_some_iff {s : State} {instant p q : Nat} {r : QuietRule} :
    s.ruleAt instant p = some (q, r) ↔ p = q ∧ slot s.quiet q none = some r ∧ r.covers instant = true := by
  unfold State.ruleAt State.quietRule
  cases h : slot s.quiet p none with
  | none =>
    simp only [reduceCtorEq, false_iff]
    rintro ⟨rfl, used, -⟩
    rw [h] at used
    cases used
  | some x =>
    simp only [Option.ite_none_right_eq_some, Option.some.injEq, Prod.mk.injEq]
    constructor
    · rintro ⟨covers, rfl, rfl⟩
      exact ⟨rfl, h, covers⟩
    · rintro ⟨rfl, used, covers⟩
      obtain rfl : x = r := Option.some.inj (h.symm.trans used)
      exact ⟨covers, rfl, rfl⟩

theorem State.mem_quietAt_iff {s : State} {instant q : Nat} {r : QuietRule} : (q, r) ∈ s.quietAt instant ↔
    1 ≤ q ∧ q ≤ 8 ∧ slot s.quiet q none = some r ∧ r.covers instant = true := by
  simp only [State.quietAt_eq, List.mem_filterMap, State.ruleAt_eq_some_iff, List.mem_range'_1]
  constructor
  · rintro ⟨_, ⟨low, high⟩, rfl, used, covers⟩
    exact ⟨low, by omega, used, covers⟩
  · rintro ⟨low, high, used, covers⟩
    exact ⟨q, ⟨low, by omega⟩, rfl, used, covers⟩

theorem State.quietAt_ascending (s : State) (instant : Nat) :
    (s.quietAt instant).Pairwise (fun x y => x.1 < y.1) := by
  rw [State.quietAt_eq]
  refine List.Pairwise.filterMap _ (fun p p' less x hx y hy => ?_) List.pairwise_lt_range'
  obtain ⟨rfl, -, -⟩ := State.ruleAt_eq_some_iff.mp hx
  obtain ⟨rfl, -, -⟩ := State.ruleAt_eq_some_iff.mp hy
  exact less

/-! ## The verdict (R152) -/

/-- A cap lowered by levels is the least of them all. -/
theorem foldl_min_eq_iff {cap c : Nat} {levels : List Nat} :
    levels.foldl min cap = c ↔ c ≤ cap ∧ (∀ l ∈ levels, c ≤ l) ∧ (c = cap ∨ c ∈ levels) := by
  rw [← Option.some_inj, ← List.min?_cons', List.min?_eq_some_iff]
  simp only [List.mem_cons, forall_eq_or_imp]
  tauto

/-- The level a quiet rule caps tunes at, where it does not silence them. -/
def QuietTune.level : QuietTune → Option Nat
  | .silence => none
  | .cap level => some level

theorem QuietTune.level_eq_some_iff {t : QuietTune} {level : Nat} : t.level = some level ↔ t = .cap level := by
  cases t <;> simp [QuietTune.level]

section Verdict

variable {rules before after : List (Nat × QuietRule)} {cap c q : Nat} {r : QuietRule}

theorem quietVerdict_toll :
    quietVerdict rules true cap = .capped ((rules.map (·.2.tollCap)).foldl min cap) := by
  simp only [quietVerdict, if_true, List.foldl_map]

theorem quietVerdict_tune (silent : ∀ r ∈ rules, r.2.tune ≠ .silence) :
    quietVerdict rules false cap = .capped ((rules.filterMap (·.2.tune.level)).foldl min cap) := by
  have unsilenced : rules.find? (fun r => r.2.tune == .silence) = none := by simpa using silent
  simp only [quietVerdict, Bool.false_eq_true, if_false, unsilenced, List.foldl_filterMap, QuietVerdict.capped.injEq]
  congr 1
  funext level r
  cases r.2.tune <;> rfl

/-- R152: the lowest-numbered SILENCE rule silences a tune. -/
theorem quietVerdict_silenced (first : ∀ x ∈ before, x.2.tune ≠ .silence) (silence : r.tune = .silence) :
    quietVerdict (before ++ (q, r) :: after) false cap = .silenced q := by
  have found : (before ++ (q, r) :: after).find? (fun r => r.2.tune == .silence) = some (q, r) := by
    rw [List.find?_append, List.find?_eq_none.mpr (by simpa using first), Option.none_or,
      List.find?_cons_of_pos (by simpa using silence)]
  simp only [quietVerdict, Bool.false_eq_true, if_false, found]

theorem quietVerdict_toll_eq_capped_iff : quietVerdict rules true cap = .capped c ↔
    c ≤ cap ∧ (∀ r ∈ rules, c ≤ r.2.tollCap) ∧ (c = cap ∨ ∃ r ∈ rules, c = r.2.tollCap) := by
  rw [quietVerdict_toll, QuietVerdict.capped.injEq, foldl_min_eq_iff, List.forall_mem_map, List.mem_map]
  simp only [eq_comm (b := c)]

theorem quietVerdict_tune_eq_capped_iff (silent : ∀ r ∈ rules, r.2.tune ≠ .silence) :
    quietVerdict rules false cap = .capped c ↔
      c ≤ cap ∧ (∀ r ∈ rules, ∀ level, r.2.tune = .cap level → c ≤ level) ∧
        (c = cap ∨ ∃ r ∈ rules, r.2.tune = .cap c) := by
  rw [quietVerdict_tune silent, QuietVerdict.capped.injEq, foldl_min_eq_iff]
  simp only [List.mem_filterMap, QuietTune.level_eq_some_iff]
  refine and_congr_right fun _ => and_congr_left fun _ => ?_
  exact ⟨fun h r hr level e => h level ⟨r, hr, e⟩, fun h level ⟨r, hr, e⟩ => h r hr level e⟩

end Verdict

/-! ## The offer under the quiet rules (R152) -/

section Offer

variable {s : State} {r : PlayRequest} {instant : Nat}

theorem State.offerQuiet_unruled (h : r.force = true ∨ s.time.isSet = false) :
    s.offerQuiet r instant = s.offerReported r := by
  have free : (r.force || !s.time.isSet) = true := by simpa using h
  simp only [State.offerQuiet, free, if_true]

theorem State.offerQuiet_silenced {q : Nat} (force : r.force = false) (set : s.time.isSet = true)
    (verdict : quietVerdict (s.quietAt instant) r.isToll r.cap = .silenced q) :
    s.offerQuiet r instant = s.post .quiet (sourceFields r.source ++ [.num q]) := by
  simp only [State.offerQuiet, force, set, Bool.not_true, Bool.or_self, Bool.false_eq_true, if_false, verdict]

theorem State.offerQuiet_capped {c : Nat} (force : r.force = false) (set : s.time.isSet = true)
    (verdict : quietVerdict (s.quietAt instant) r.isToll r.cap = .capped c) :
    s.offerQuiet r instant = s.offerReported { r with cap := c } := by
  simp only [State.offerQuiet, force, set, Bool.not_true, Bool.or_self, Bool.false_eq_true, if_false, verdict]

end Offer

/-- Settles O54: the calendar, matching, cover and verdict each by its own rule. -/
theorem matchingAndQuiet : Obligations.MatchingAndQuiet := by
  unfold Obligations.MatchingAndQuiet
  refine ⟨fun instant => ?calendar, fun e instant => ?matching,
    fun q instant => ⟨QuietRule.covers_of_lt, QuietRule.covers_of_gt, QuietRule.covers_of_eq⟩,
    fun _ _ _ _ => State.mem_quietAt_iff, State.quietAt_ascending, fun _ _ _ => quietVerdict_toll_eq_capped_iff,
    fun rules cap => ⟨fun silent c => quietVerdict_tune_eq_capped_iff silent, ?silenced⟩,
    fun s r instant => ⟨State.offerQuiet_unruled, fun force set =>
      ⟨fun _ => State.offerQuiet_silenced force set, fun _ => State.offerQuiet_capped force set⟩⟩⟩
  case calendar =>
    intro c years lengths
    refine ⟨rfl, rfl, rfl, rfl, Nat.mod_lt _ (by decide), civil_weekday_next instant, civil_weekday_midnight instant,
      rfl, fun range => ?_⟩
    obtain ⟨from2000, to2099, m1, m12, d1, most, days⟩ := civil_days instant
    rw [monthLengths_isLeap] at most days
    rw [daysBeforeYear, Nat.mul_comm] at days
    exact ⟨from2000, to2099 range, m1, m12, d1, most, days⟩
  case matching =>
    intro c
    simp only [ScheduleEntry.matchesAt_iff, inDates_iff, DayMonth.le_iff]
    rfl
  case silenced =>
    rintro before q r after rfl first silence
    exact quietVerdict_silenced first silence

end Sys2Proof.Machine
end

section
/-! SUPPORT. TIME and the steps of the wall clock (R153 to R156, R162 to R165). -/

namespace Sys2Proof.Machine

/-! ## The correction (R164) -/

section Correction

variable {s : State} {instant : Nat}

/-- R164: the correction with the slew still pending counted in or not (assumption 27). -/
theorem State.correction_eq (s : State) (instant : Nat) :
    s.correction instant = (instant : Int) * 10000 - ((s.now : Int) + s.time.offset +
      if Config.slewCounted = true ∧ s.time.slew ≤ (instant : Int) * 10000 then s.time.slew else 0) := by
  simp only [State.correction, State.countedSlew, State.wall, Bool.and_eq_true, decide_eq_true_eq]

theorem State.applyTime_unset (unset : s.time.isSet = false) :
    s.applyTime instant = (s.setWall instant).post .set [.wall instant] := by
  simp only [State.applyTime, unset, Bool.not_false, if_true]

theorem State.applyTime_slews (set : s.time.isSet = true) (small : (s.correction instant).natAbs ≤ 1000) :
    s.applyTime instant = s.setSlew (s.correction instant) := by
  simp only [State.applyTime, set, Bool.not_true, Bool.false_eq_true, if_false, if_pos small]

theorem State.applyTime_steps (set : s.time.isSet = true) (large : ¬ (s.correction instant).natAbs ≤ 1000) :
    s.applyTime instant = s.stepWall (s.correction instant) := by
  simp only [State.applyTime, set, Bool.not_true, Bool.false_eq_true, if_false, if_neg large]

theorem State.timeFields_unset (unset : s.time.isSet = false) : s.timeFields instant = [.word .SET, .wall instant] := by
  simp only [State.timeFields, unset, Bool.not_false, if_true]

theorem State.timeFields_slews (set : s.time.isSet = true) (small : (s.correction instant).natAbs ≤ 1000) :
    s.timeFields instant = [.word .SLEW, .signed (s.correction instant)] := by
  simp only [State.timeFields, set, Bool.not_true, Bool.false_eq_true, if_false, if_pos small]

theorem State.timeFields_steps (set : s.time.isSet = true) (large : ¬ (s.correction instant).natAbs ≤ 1000) :
    s.timeFields instant = [.word .STEP, .signed (s.correction instant)] := by
  simp only [State.timeFields, set, Bool.not_true, Bool.false_eq_true, if_false, if_neg large]

end Correction

/-! ## The request (R163 to R165) -/

section Request

variable {s : State} {tag date time : Text} {fields : List Text} {instant : Nat}

/-- R165: a TIME while LOCKED waits for the sync to go. -/
theorem timeRequest_held (read : readWall date time = some instant) (locked : s.time.sync = .locked) :
    timeRequest tag [date, time] s =
      (s.modTime (fun t => { t with pendingTime := some instant })).ok tag [.word .PENDING, .wall instant] := by
  simp only [timeRequest, read, if_pos locked]

theorem timeRequest_applied (read : readWall date time = some instant) (unlocked : s.time.sync ≠ .locked) :
    timeRequest tag [date, time] s = (s.ok tag (s.timeFields instant)).applyTime instant := by
  simp only [timeRequest, read, if_neg unlocked]

theorem timeRequest_sets (read : readWall date time = some instant) (unlocked : s.time.sync ≠ .locked)
    (unset : s.time.isSet = false) :
    timeRequest tag [date, time] s =
      ((s.ok tag [.word .SET, .wall instant]).setWall instant).post .set [.wall instant] := by
  rw [timeRequest_applied read unlocked, State.timeFields_unset unset]
  exact State.applyTime_unset (s := s.ok ..) unset

theorem timeRequest_slews (read : readWall date time = some instant) (unlocked : s.time.sync ≠ .locked)
    (set : s.time.isSet = true) (small : (s.correction instant).natAbs ≤ 1000) :
    timeRequest tag [date, time] s =
      (s.ok tag [.word .SLEW, .signed (s.correction instant)]).setSlew (s.correction instant) := by
  rw [timeRequest_applied read unlocked, State.timeFields_slews set small]
  exact State.applyTime_slews (s := s.ok ..) set small

theorem timeRequest_steps (read : readWall date time = some instant) (unlocked : s.time.sync ≠ .locked)
    (set : s.time.isSet = true) (large : ¬ (s.correction instant).natAbs ≤ 1000) :
    timeRequest tag [date, time] s =
      (s.ok tag [.word .STEP, .signed (s.correction instant)]).stepWall (s.correction instant) := by
  rw [timeRequest_applied read unlocked, State.timeFields_steps set large]
  exact State.applyTime_steps (s := s.ok ..) set large

theorem timeRequest_malformed (h : ∀ date time, fields = [date, time] → readWall date time = none) :
    timeRequest tag fields s = s.err tag .arg := by
  unfold timeRequest
  split
  next date time => rw [h date time rfl]
  next => rfl

end Request

/-! ## The reaction to a step (R154 to R156) -/

section Step

variable {s : State} {d : Int} {k instant latest : Nat} {missed before after : List (Nat × Nat)}

theorem State.stepWall_back (back : d ≤ 0) :
    s.stepWall d =
      ((s.modTime fun t => { t with offset := t.offset + d, slew := 0 }).post .step [.signed d,
        .wall (s.modTime fun t => { t with offset := t.offset + d, slew := 0 }).wallSecond]).modTime fun t =>
          { t with crossed := (s.modTime fun t => { t with offset := t.offset + d, slew := 0 }).wallSecond } := by
  simp only [State.stepWall, if_neg (Int.not_lt.mpr back)]
  rfl

theorem State.stepWall_forward (forward : 0 < d) :
    s.stepWall d =
      ((s.modTime fun t => { t with offset := t.offset + d, slew := 0 }).post .step [.signed d,
        .wall (s.modTime fun t => { t with offset := t.offset + d, slew := 0 }).wallSecond]).afterForwardStep
          s.time.crossed := by
  simp only [State.stepWall, if_pos forward]

theorem State.disposalOf_ordinary (ahead : (s.now : Int) + 2500 ≤ s.equivalent instant) :
    s.disposalOf instant = .ordinary := by
  simp only [State.disposalOf, if_pos ahead]

theorem State.disposalOf_catchUp (past : s.equivalent instant < (s.now : Int) + 2500)
    (recent : s.wall - 600000 ≤ (instant : Int) * 10000) : s.disposalOf instant = .catchUp := by
  simp only [State.disposalOf, if_neg (Int.not_le.mpr past), if_pos recent]

theorem State.disposalOf_missed (past : s.equivalent instant < (s.now : Int) + 2500)
    (old : (instant : Int) * 10000 < s.wall - 600000) : s.disposalOf instant = .missed := by
  simp only [State.disposalOf, if_neg (Int.not_le.mpr past), if_neg (Int.not_le.mpr old)]

theorem filter_entry_eq_nil (h : ∀ x ∈ missed, x.1 ≠ k) : missed.filter (fun m => m.1 == k) = [] := by
  simpa [List.filter_eq_nil_iff] using h

theorem State.reportMissed_of_none (h : ∀ x ∈ missed, x.1 ≠ k) : State.reportMissed missed s k = s := by
  simp only [State.reportMissed, filter_entry_eq_nil h, List.getLast?_nil]

/-- R155: the report of an entry's missed matches gives their number and the latest. -/
theorem State.reportMissed_of_last (last : ∀ x ∈ after, x.1 ≠ k) :
    State.reportMissed (before ++ (k, latest) :: after) s k =
      s.post .missed [.num k, .num ((before.filter (fun x => x.1 == k)).length + 1), .wall latest] := by
  have mine : (before ++ (k, latest) :: after).filter (fun m => m.1 == k) =
      before.filter (fun m => m.1 == k) ++ [(k, latest)] := by
    simp only [List.filter_append, List.filter_cons, beq_self_eq_true, if_true, filter_entry_eq_nil last]
  simp only [State.reportMissed, mine, List.getLast?_concat, List.length_append, List.length_singleton]

end Step

/-- Settles O55: the request and the correction by their cases, and the reaction to a step piece by piece. -/
theorem timeSetsWallClock : Obligations.TimeSetsWallClock := by
  unfold Obligations.TimeSetsWallClock
  refine ⟨fun s tag date time instant can read => ?request, fun s instant => ?applied,
    fun s tag fields can malformed => exec_request_eq rfl can (timeRequest_malformed malformed),
    fun s d => ⟨State.stepWall_back, State.stepWall_forward⟩, fun _ _ => rfl, fun missed s k => ?reported,
    fun _ _ _ _ => ⟨rfl, rfl⟩,
    fun _ _ => ⟨State.disposalOf_ordinary, State.disposalOf_catchUp, State.disposalOf_missed⟩,
    fun _ _ _ _ _ matched => ⟨State.evaluateEntry_missed matched, State.evaluateEntry_catchUp matched⟩⟩
  case request =>
    intro counted d
    have measured : s.correction instant = d := s.correction_eq instant
    refine ⟨fun locked => exec_request_eq rfl can (timeRequest_held read locked), fun unlocked =>
      ⟨fun unset => exec_request_eq rfl can (timeRequest_sets read unlocked unset),
        fun set low high => exec_request_eq rfl can ?_, fun set large => exec_request_eq rfl can ?_⟩⟩
    · refine (timeRequest_slews read unlocked set (by omega)).trans ?_
      rw [measured]
      rfl
    · refine (timeRequest_steps read unlocked set (by omega)).trans ?_
      rw [measured]
  case applied =>
    intro counted d
    have measured : s.correction instant = d := s.correction_eq instant
    refine ⟨State.applyTime_unset, fun set low high => ?_, fun set large => ?_⟩
    · rw [State.applyTime_slews set (by omega), measured]
      rfl
    · rw [State.applyTime_steps set (by omega), measured]
  case reported =>
    refine ⟨State.reportMissed_of_none, ?_⟩
    rintro before latest after rfl last
    exact State.reportMissed_of_last last

end Sys2Proof.Machine
end

section
/-! SUPPORT. The strike clock and the queue of commands (R159): the commands that write the timebase, and what every
command leaves of the clock and of the queue. -/

namespace Sys2Proof

/-- R146, R160 to R170, R173, R174: the commands that write the timebase, and the execution of a line, which may be
one of them. -/
def Instr.writesTime : Instr → Bool
  | .powerOnReset _ => true
  | .resetLineFall => true
  | .resetLineRise _ => true
  | .warmResetCommand _ => true
  | .lineExecute => true
  | .secondBoundary => true
  | .time _ _ => true
  | .slewTick => true
  | .wallClockRangeEnd => true
  | .syncFree _ _ => true
  | .syncPulse _ _ => true
  | .secpulseEdge => true
  | .pulseLoss => true
  | _ => false

namespace Machine

/-! ## The queue of commands -/

theorem runRequest_pending (i : Instr) (s : State) : (runRequest i s).pending = s.pending := by
  cases i <;> simp [runRequest]

theorem State.executeLine_pending (s : State) : s.executeLine.pending = s.pending := by
  obtain ⟨l, e | ⟨i, e⟩⟩ := s.executeLine_cases
  · rw [e]
  · rw [e, runRequest_pending]

theorem State.load_pending (s : State) : s.load.pending = s.pending := by
  unfold State.load
  split
  · rfl
  · rfl
  · split
    · rw [State.loadContents_frame]
    · rfl

theorem effectOf_pending (i : Instr) (s : State) : (effectOf i s).pending = s.pending := by
  cases i
  case powerOnReset pins => exact (State.start_frame _ pins).1.trans (State.load_pending _)
  case lineExecute => exact s.executeLine_pending
  case senseActiveEdge | senseReleaseEdge | windowEnd | cueLineChange | supgoodFall | supgoodRise =>
    simp only [effectOf, State.activeEdge, State.releaseEdge, State.endWindow, State.changeCueLine]
    split <;> simp
  case resetLineFall | resetLineRise | warmResetCommand | lineReceived | transmitLine | dispatch | coilRelease
    | coilWaitDeadline | stuckTimeout | expired | tuneTake | expandRecord | tollTake | expandStroke | cutOrder
    | secondBoundary | slewTick | wallClockRangeEnd | secpulseEdge | pulseLoss | cueDebounceExpire | supplyLost
    | supplyGood | saveComplete | saveTimeout | characterReceived =>
    simp [effectOf]
  all_goals exact runRequest_pending _ s

/-! ## The timebase -/

theorem runRequest_time {i : Instr} (h : i.writesTime = false) (s : State) : (runRequest i s).time = s.time := by
  cases i
  case time | syncFree | syncPulse => cases h
  all_goals simp [runRequest]

/-- No other command writes the timebase. -/
theorem effectOf_time {i : Instr} (h : i.writesTime = false) (s : State) : (effectOf i s).time = s.time := by
  cases i
  case powerOnReset | resetLineFall | resetLineRise | warmResetCommand | lineExecute | secondBoundary | slewTick
    | wallClockRangeEnd | secpulseEdge | pulseLoss => cases h
  case senseActiveEdge | senseReleaseEdge | windowEnd | cueLineChange | supgoodFall | supgoodRise =>
    simp only [effectOf, State.activeEdge, State.releaseEdge, State.endWindow, State.changeCueLine]
    split <;> simp
  case lineReceived | transmitLine | dispatch | coilRelease | coilWaitDeadline | stuckTimeout | expired | tuneTake
    | expandRecord | tollTake | expandStroke | cutOrder | cueDebounceExpire | supplyLost | supplyGood | saveComplete
    | saveTimeout | characterReceived =>
    simp [effectOf]
  all_goals exact runRequest_time h s

/-! ## The strike clock (R159) -/

/-- No edit moves the strike clock. -/
theorem State.Edits.now {s t : State} (h : s.Edits t) : t.now = s.now := by
  induction h with
  | refl => rfl
  | trans _ _ first second => exact second.trans first
  | time s f keeps => exact keeps s.time
  | _ => simp [State.now]

theorem syncPulseRequest_edits (tag : Text) (more : List Text) (s : State) :
    s.Edits (syncPulseRequest tag more s) := by
  unfold syncPulseRequest
  split
  · exact .err ..
  · split
    · exact .ok ..
    · refine .trans (.time s _ ?_) (.trans (.ok ..) (.post ..))
      exact fun _ => rfl

theorem runRequest_now (i : Instr) (s : State) : (runRequest i s).now = s.now := by
  cases i
  case time tag fields => exact (timeRequest_edits tag fields s).now
  case syncFree tag more => exact (syncFreeRequest_edits tag more s).now
  case syncPulse tag more => exact (syncPulseRequest_edits tag more s).now
  all_goals simp [runRequest, State.now]

/-- R159, R174: a command other than a power-on reset leaves the strike clock alone. -/
theorem effectOf_now {i : Instr} (h : ∀ pins, i ≠ .powerOnReset pins) (s : State) : (effectOf i s).now = s.now := by
  cases i
  case powerOnReset pins => exact absurd rfl (h pins)
  case resetLineFall | resetLineRise | warmResetCommand | slewTick | wallClockRangeEnd => rfl
  case lineExecute =>
    obtain ⟨l, e | ⟨i, e⟩⟩ := s.executeLine_cases
    · exact (congrArg State.now e :)
    · exact (congrArg State.now e :).trans (runRequest_now i _)
  case secondBoundary => exact (State.Edits.crossBoundary s).now
  case secpulseEdge => exact (State.Edits.takePulse s).now
  case pulseLoss => exact (State.Edits.losePulse s).now
  case time | syncFree | syncPulse => exact runRequest_now _ s
  all_goals exact congrArg Timebase.now (effectOf_time rfl s)

/-- R194: a load from the image writes the sync source of the timebase, and its start state, or nothing of it. -/
theorem State.load_time (s : State) :
    s.load.time = s.time ∨ ∃ source, s.load.time = { s.time with source := source, sync := source.startState } := by
  unfold State.load
  split
  · exact .inl rfl
  · exact .inl rfl
  · split
    · rw [State.loadContents_frame]
      exact .inr ⟨_, rfl⟩
    · exact .inl rfl

/-- R173: a power-on reset sets the strike clock to 0. -/
theorem State.powerOn_now (s : State) (pins : Pins) : (s.powerOn pins).now = 0 := by
  have loaded := State.load_time { State.blank with pending := s.pending, choices := s.choices, image := s.image }
  have kept : (s.powerOn pins).now =
      ({ State.blank with pending := s.pending, choices := s.choices, image := s.image } : State).load.time.now := rfl
  obtain e | ⟨source, e⟩ := loaded <;> rw [kept, e] <;> rfl

/-- No command stops the machine: it is taken, or changes nothing. -/
theorem exec_answers (i : Instr) (s : State) : ∃ t, exec i s = .next t := by
  cases taken : conditionOf i s with
  | true => exact ⟨_, exec_taken taken⟩
  | false => exact ⟨s, exec_idle taken⟩

/-- Settles O3: what a command answers by its condition, and the clock and the queue under its effect. -/
theorem commandsAnswerKeepClock : Obligations.CommandsAnswerKeepClock := by
  unfold Obligations.CommandsAnswerKeepClock
  refine ⟨⟨exec_answers, fun i s request idle => ?_⟩, fun i s t h => ?_⟩
  · obtain ⟨p, hp⟩ := Option.isSome_iff_exists.mp request
    rw [exec_request hp, event_idle idle]
  · obtain ⟨-, rfl⟩ | ⟨idle, rfl⟩ := exec_inv h
    · refine ⟨effectOf_pending i s, fun other => effectOf_now other s, ?_⟩
      rintro ⟨pins, rfl⟩
      exact s.powerOn_now pins
    · refine ⟨rfl, fun _ => rfl, ?_⟩
      rintro ⟨pins, rfl⟩
      cases idle

end Machine

end Sys2Proof
end

section
/-! SUPPORT. The sync (R165 to R171): SYNC, the pulses in each sync state, the lock, and the loss of the pulse. -/

namespace Sys2Proof.Machine

section Sync

variable {s : State}

/-! ## The request (R166) -/

theorem syncFreeRequest_leaves (tag : Text) (source : s.time.source = .pulse) :
    syncFreeRequest tag [] s =
      (((s.restartSync .free .free).ok tag [.word .SYNC, .word .FREE, .word .FREE]).post .clock
        [.word .FREE]).applyPending := by
  simp only [syncFreeRequest, source, List.isEmpty_nil, Bool.not_true, Bool.false_eq_true, if_false, reduceCtorEq]
  rfl

theorem syncPulseRequest_leaves (tag : Text) (source : s.time.source = .free) :
    syncPulseRequest tag [] s =
      ((s.restartSync .pulse .acquire).ok tag [.word .SYNC, .word .PULSE, .word .ACQUIRE]).post .clock
        [.word .ACQUIRE] := by
  simp only [syncPulseRequest, source, List.isEmpty_nil, Bool.not_true, Bool.false_eq_true, if_false, reduceCtorEq]
  rfl

theorem syncFreeRequest_stays (tag : Text) (source : s.time.source = .free) :
    syncFreeRequest tag [] s = s.ok tag [.word .SYNC, .word .FREE, syncWord s.time.sync] := by
  simp [syncFreeRequest, State.replySync, source, sourceWord]

theorem syncPulseRequest_stays (tag : Text) (source : s.time.source = .pulse) :
    syncPulseRequest tag [] s = s.ok tag [.word .SYNC, .word .PULSE, syncWord s.time.sync] := by
  simp [syncPulseRequest, State.replySync, source, sourceWord]

/-! ## The interval and the phase (R167, R169) -/

theorem State.goodInterval_iff :
    s.goodInterval = true ↔ ∃ p, s.time.lastPulse = some p ∧ 9990 ≤ s.now - p ∧ s.now - p ≤ 10010 := by
  unfold State.goodInterval
  cases s.time.lastPulse <;> simp

/-- R169: the phase error is the distance to the nearest second, at most half a second. -/
theorem State.phaseError_nearest (s : State) :
    s.phaseError ≤ 4999 ∧ -5000 ≤ s.phaseError ∧ ∃ n : Int, s.wall = 10000 * n + s.phaseError := by
  have inside : 0 ≤ s.wall % 10000 ∧ s.wall % 10000 < 10000 := by omega
  have whole : s.wall = 10000 * (s.wall / 10000) + s.wall % 10000 := by omega
  unfold State.phaseError
  dsimp only
  split
  · exact ⟨by omega, by omega, s.wall / 10000, whole⟩
  · exact ⟨by omega, by omega, s.wall / 10000 + 1, by omega⟩

theorem wallInRange_iff {x : Int} : wallInRange x = true ↔ 0 ≤ x ∧ x < (wallEnd : Int) * 10000 := by
  simp [wallInRange]

/-! ## The pending TIME (R165) -/

theorem State.applyPending_some {instant : Nat} (waits : s.time.pendingTime = some instant) :
    s.applyPending = State.applyTime { s with time := { s.time with pendingTime := none } } instant := by
  simp only [State.applyPending, waits]
  rfl

/-! ## The pulses (R167 to R169) -/

theorem State.takePulse_free (sync : s.time.sync = .free) : s.takePulse = s := by
  simp only [State.takePulse, sync]

theorem State.takePulse_bad (sync : s.time.sync = .locked) (bad : s.goodInterval = false) : s.takePulse = s := by
  simp only [State.takePulse, sync, bad, Bool.false_eq_true, if_false]

theorem State.takePulse_good (sync : s.time.sync = .locked) (good : s.goodInterval = true) :
    s.takePulse = s.goodPulse := by
  simp only [State.takePulse, sync, good, if_true]

theorem State.takePulse_away (away : s.time.sync = .acquire ∨ s.time.sync = .holdover) : s.takePulse = s.qualify := by
  unfold State.takePulse
  obtain e | e := away <;> rw [e]

/-- R165: a good pulse with a TIME pending applies it. -/
theorem State.goodPulse_pending {instant : Nat} (waits : s.time.pendingTime = some instant) :
    s.goodPulse = State.applyTime
      { s with time := { s.time with lastPulse := some s.now, pendingTime := none } } instant :=
  (if_pos (Option.isSome_iff_exists.mpr ⟨_, waits⟩)).trans (State.applyPending_some waits)

/-- R169: a good pulse of a SET clock with no TIME pending slews the phase error away. -/
theorem State.goodPulse_set (quiet : s.time.pendingTime = none) (set : s.time.isSet = true) :
    s.goodPulse = { s with time := { s.time with lastPulse := some s.now, slew := -s.phaseError } } :=
  (if_neg (by simp [quiet])).trans (if_pos set)

theorem State.goodPulse_unset (quiet : s.time.pendingTime = none) (unset : s.time.isSet = false) :
    s.goodPulse = { s with time := { s.time with lastPulse := some s.now } } :=
  (if_neg (by simp [quiet])).trans (if_neg (by simp [unset]))

/-! ## The lock (R168) -/

theorem State.correctAtLock_unset (unset : s.time.isSet = false) (fromAcquire : Bool) :
    s.correctAtLock fromAcquire = s := by
  simp only [State.correctAtLock, unset, Bool.not_false, if_true]

theorem State.correctAtLock_steps (set : s.time.isSet = true) (large : 1000 < s.phaseError.natAbs)
    (range : wallInRange (s.wall - s.phaseError) = true) : s.correctAtLock true = s.stepWall (-s.phaseError) := by
  simp only [State.correctAtLock, set, Bool.not_true, Bool.false_eq_true, if_false, large, range, decide_true,
    Bool.and_self, if_true]

theorem State.correctAtLock_slews {fromAcquire : Bool} (set : s.time.isSet = true)
    (small : fromAcquire = false ∨ s.phaseError.natAbs ≤ 1000 ∨ wallInRange (s.wall - s.phaseError) = false) :
    s.correctAtLock fromAcquire = s.setSlew (-s.phaseError) := by
  have stays : ¬ ((fromAcquire = true ∧ 1000 < s.phaseError.natAbs) ∧ wallInRange (s.wall - s.phaseError) = true) := by
    rintro ⟨⟨acquire, large⟩, range⟩
    obtain h | h | h := small
    · rw [h] at acquire
      cases acquire
    · omega
    · rw [h] at range
      cases range
  simp only [State.correctAtLock, set, Bool.not_true, Bool.false_eq_true, if_false, Bool.and_eq_true,
    decide_eq_true_eq, if_neg stays]

/-- R168: the state as the third good interval in a row locks it, before its correction. -/
def State.lock (s : State) : State :=
  State.post { s with time := { s.time with sync := .locked, qualified := 0, lastPulse := some s.now } } .clock
    [.word .LOCKED]

/-- R168: the count of good intervals in a row after a pulse. -/
def State.goodCount (s : State) : Nat := if s.goodInterval then s.time.qualified + 1 else 0

theorem State.qualify_few (few : s.goodCount < 3) :
    s.qualify = { s with time := { s.time with qualified := s.goodCount, lastPulse := some s.now } } :=
  if_neg (Nat.not_le.mpr few)

theorem State.qualify_locks (enough : 3 ≤ s.goodCount) :
    s.qualify = s.lock.correctAtLock (s.time.sync == .acquire) :=
  if_pos enough

end Sync

/-! ## The loss of the pulse (R170) -/

theorem State.pulseLossDue_iff {s : State} :
    s.pulseLossDue = true ↔ s.held = false ∧ s.time.sync = .locked ∧
      ∃ p, s.time.lastPulse = some p ∧ p + 15000 ≤ s.now := by
  unfold State.pulseLossDue
  cases s.time.lastPulse <;> simp [and_assoc]

/-- R167: an edge seen while RESET is high acts by the sync state. -/
theorem exec_secpulseEdge {s t : State} (high : s.held = false) (e : s.takePulse = t) :
    exec .secpulseEdge s = .next t := e ▸ exec_taken (i := .secpulseEdge) (by simp [conditionOf, high])

/-- Settles O57: SYNC by the source it finds, the pulses by the sync state, and the loss of the pulse. -/
theorem syncFollowsPulses : Obligations.SyncFollowsPulses := by
  unfold Obligations.SyncFollowsPulses
  refine ⟨fun s tag can => ⟨fun source => exec_request_eq rfl can (syncFreeRequest_leaves tag source),
      fun source => exec_request_eq rfl can (syncPulseRequest_leaves tag source),
      fun source => exec_request_eq rfl can (syncFreeRequest_stays tag source),
      fun source => exec_request_eq rfl can (syncPulseRequest_stays tag source),
      fun _ _ => ⟨exec_request_eq rfl can rfl, exec_request_eq rfl can rfl⟩⟩,
    fun s idle => ?idle, fun _ => State.goodInterval_iff, State.phaseError_nearest, fun s high locked => ?locked,
    fun s high away => ?away, fun _ => State.pulseLossDue_iff, fun _ => exec_idle (i := .pulseLoss),
    fun _ => exec_taken (i := .pulseLoss), fun _ => ⟨State.applyPending_none, fun _ => State.applyPending_some⟩⟩
  case idle =>
    cases held : s.held with
    | true => exact exec_idle (by simp [conditionOf, held])
    | false => exact exec_secpulseEdge held (State.takePulse_free (idle.resolve_left (by simp [held])))
  case locked =>
    refine ⟨fun bad => exec_secpulseEdge high (State.takePulse_bad locked bad), fun good =>
      ⟨fun instant waits => ?_, fun quiet => ⟨fun set => ?_, fun unset => ?_⟩⟩⟩
    all_goals refine exec_secpulseEdge high ((State.takePulse_good locked good).trans ?_)
    · exact State.goodPulse_pending waits
    · exact State.goodPulse_set quiet set
    · exact State.goodPulse_unset quiet unset
  case away =>
    intro count pulsed locked
    have taken : s.takePulse = s.qualify := State.takePulse_away away
    refine ⟨fun few => exec_secpulseEdge high (taken.trans (State.qualify_few few)), fun enough => ?_⟩
    have locks : s.takePulse = s.lock.correctAtLock (s.time.sync == .acquire) := taken.trans (State.qualify_locks enough)
    refine ⟨fun unset => ?_, fun set acquire large low below => ?_, fun set small => ?_⟩
    all_goals refine exec_secpulseEdge high (locks.trans ?_)
    · exact State.correctAtLock_unset (s := s.lock) unset _
    · rw [acquire]
      exact State.correctAtLock_steps set large (wallInRange_iff.mpr ⟨low, below⟩)
    · refine State.correctAtLock_slews set ?_
      rw [← Bool.not_eq_true (wallInRange _), wallInRange_iff]
      obtain holdover | small | low | above := small
      · exact .inl (by rw [holdover]; rfl)
      · exact .inr (.inl small)
      · exact .inr (.inr fun range => absurd range.1 (Int.not_le.mpr low))
      · exact .inr (.inr fun range => absurd range.2 (Int.not_lt.mpr above))

end Sys2Proof.Machine
end

section
/-! SUPPORT. Every step keeps the timebase sound (R161, R165, R166, R168): the requests, the events and the resets that
write it; all other commands leave it alone. -/

namespace Sys2Proof.Machine

/-- R166: a sync that begins afresh, with no TIME pending, outside LOCKED and HOLDOVER. -/
theorem Timebase.Sound.restarted {t : Timebase} (h : t.Sound) (quiet : t.pendingTime = none) {source : SyncSource}
    {state : SyncState} (free : source = .free ↔ state = .free) (unlocked : state ≠ .locked)
    (fresh : state ≠ .holdover) :
    Timebase.Sound { t with source := source, sync := state, qualified := 0, lastPulse := none } :=
  { h with
    free := free
    pending := by simp [quiet]
    qualified := Nat.zero_le _
    locked := fun e => absurd e unlocked
    holdover := fun e => absurd e fresh
    past := nofun }

namespace State.TimeSound

/-- The second crossed last is no matter of the invariant. -/
theorem crossed {s t : State} (h : s.TimeSound) {n : Nat} (e : t.time = { s.time with crossed := n }) :
    t.TimeSound := by
  unfold State.TimeSound
  rw [e]
  exact { h with }

/-! ## The requests -/

/-- R165: a TIME waits only in LOCKED. -/
theorem timeRequest {s : State} (h : s.TimeSound) (tag : Text) (fields : List Text) :
    (timeRequest tag fields s).TimeSound := by
  unfold Machine.timeRequest
  repeat' split
  case h_2.isTrue locked => exact { (h : s.time.Sound) with pending := fun _ => locked }
  case h_2.isFalse => exact State.TimeSound.applyTime (h.congr (by simp)) _
  all_goals exact h.congr (by simp)

/-- R166: SYNC FREE from PULSE leaves FREE with no pulse seen, and a pending TIME is applied. -/
theorem syncFreeRequest {s : State} (h : s.TimeSound) (tag : Text) (more : List Text) :
    (syncFreeRequest tag more s).TimeSound := by
  unfold Machine.syncFreeRequest
  repeat' split
  case isFalse.isFalse =>
    have restarted := Timebase.Sound.restarted (Timebase.Sound.noPending h) rfl (source := .free) (state := .free)
      (by decide) nofun nofun
    exact State.TimeSound.applyPending restarted
  all_goals exact h.congr (by simp)

/-- R166: SYNC PULSE from FREE leaves ACQUIRE; no TIME was pending, for the sync was not LOCKED (R165). -/
theorem syncPulseRequest {s : State} (h : s.TimeSound) (tag : Text) (more : List Text) :
    (syncPulseRequest tag more s).TimeSound := by
  unfold Machine.syncPulseRequest
  repeat' split
  case isFalse.isFalse away =>
    have free : s.time.sync = .free := by
      refine (Timebase.Sound.free h).mp ?_
      cases e : s.time.source with
      | free => rfl
      | pulse => exact absurd e away
    have quiet : s.time.pendingTime = none :=
      Option.not_isSome_iff_eq_none.mp fun waits => absurd (free.symm.trans (Timebase.Sound.pending h waits)) nofun
    exact Timebase.Sound.restarted h quiet (by decide) nofun nofun
  all_goals exact h.congr (by simp)

theorem runRequest {s : State} (h : s.TimeSound) (i : Instr) : (runRequest i s).TimeSound := by
  cases i
  case time => exact h.timeRequest ..
  case syncFree => exact h.syncFreeRequest ..
  case syncPulse => exact h.syncPulseRequest ..
  all_goals exact h.congr (by simp [Machine.runRequest])

theorem executeLine {s : State} (h : s.TimeSound) : s.executeLine.TimeSound := by
  obtain ⟨l, e | ⟨i, e⟩⟩ := s.executeLine_cases
  · rw [e]
    exact h
  · rw [e]
    exact State.TimeSound.runRequest (s := { s with serial := l }) h i

/-! ## The events -/

/-- R161: an UNSET wall clock has no slew for a tick to move. -/
theorem slewOnce {s : State} (h : s.TimeSound) : s.slewOnce.TimeSound :=
  { (h : s.time.Sound) with
    unset := fun unset => by
      have still : s.time.slew = 0 := Timebase.Sound.unset h unset
      show s.time.slew - s.time.slew.sign = 0
      rw [still]
      rfl }

theorem endRange {s : State} (h : s.TimeSound) : s.endRange.TimeSound :=
  { (h : s.time.Sound) with pending := by simp [State.endRange], unset := fun _ => rfl }

theorem passGrain {s : State} (h : s.TimeSound) : (s.modTime fun t => { t with now := t.now + 1 }).TimeSound :=
  { (h : s.time.Sound) with past := fun p e => (Timebase.Sound.past h p e).trans (Nat.le_succ _) }

/-! ## The resets -/

theorem warm (s : State) (cause : ResetCause) : (s.warm cause).TimeSound := Timebase.warm_sound s.time

theorem start {s : State} (h : s.TimeSound) (pins : Pins) : (s.start pins).TimeSound :=
  h.crossed (n := s.wallSecond) rfl

/-- R173: what the image gives the timebase is the sync source, with its start state. -/
theorem powerOn (s : State) (pins : Pins) : (s.powerOn pins).TimeSound := by
  refine State.TimeSound.start ?_ pins
  unfold State.TimeSound
  obtain e | ⟨source, e⟩ :=
      State.load_time { State.blank with pending := s.pending, choices := s.choices, image := s.image }
  · rw [e]
    exact Timebase.warm_sound State.blank.time
  · rw [e]
    exact Timebase.warm_sound { State.blank.time with source := source }

end State.TimeSound

/-! ## Every command -/

theorem State.TimeSound.effectOf {s : State} (h : s.TimeSound) {i : Instr} (taken : conditionOf i s = true) :
    (effectOf i s).TimeSound := by
  cases i
  case powerOnReset pins => exact .powerOn s pins
  case resetLineFall => exact (State.TimeSound.warm s .line : State.TimeSound _)
  case resetLineRise pins => exact h.start pins
  case warmResetCommand pins => exact (State.TimeSound.warm s .command).start pins
  case lineExecute => exact h.executeLine
  case secondBoundary => exact h.crossed s.crossBoundary_time
  case slewTick => exact h.slewOnce
  case wallClockRangeEnd => exact h.endRange
  case secpulseEdge => exact h.takePulse
  case pulseLoss =>
    obtain ⟨-, locked, -⟩ := State.pulseLossDue_iff.mp taken
    exact h.losePulse locked
  case time => exact h.runRequest _
  case syncFree => exact h.runRequest _
  case syncPulse => exact h.runRequest _
  all_goals exact h.congr (effectOf_time rfl s)

/-- Settles O14: each command that writes the timebase keeps it sound, and so does the passing of a grain. -/
theorem timebaseStaysSound : Obligations.TimebaseStaysSound := by
  unfold Obligations.TimebaseStaysSound
  intro s t h next
  refine step_keeps (P := State.TimeSound) next h (fun i s t hs done => ?_) (fun s hs => hs.passGrain)
    (fun s cs hs => hs) (fun s hs => hs)
  exact exec_keeps done hs fun taken => hs.effectOf taken

end Sys2Proof.Machine
end

section
/-! SUPPORT. The text of the line read back (R163, R185, R188): the report kinds, and the readers of words, numbers and
wall instants together. -/

namespace Sys2Proof.Machine

/-- Every report kind is read from its name. -/
theorem readKind_text (k : Kind) : readKind (kindText k) = some k := by
  cases k <;> decide

/-- A report kind is read from its name and from nothing else. -/
theorem readKind_eq_some_iff {t : Text} {k : Kind} : readKind t = some k ↔ t = kindText k := by
  constructor
  · intro h
    have same := List.find?_some h
    exact (beq_iff_eq.mp same).symm
  · rintro rfl
    exact readKind_text k

/-- Settles O21: each reader by the form that it reads. -/
theorem textReadsBack : Obligations.TextReadsBack := by
  unfold Obligations.TextReadsBack
  exact ⟨⟨fun _ _ => readKw_eq_some_iff, fun _ _ => readKind_eq_some_iff, readNat_decimal,
    fun _ _ => readNat_eq_some_iff, fun _ _ _ => readNum_eq_some_iff, fun _ _ _ => readInt_eq_some_iff⟩,
    fun _ _ _ => readWall_eq_some_iff⟩

end Sys2Proof.Machine
end

section
/-! SUPPORT. The slew ticks and the end of the wall clock's range (R160, R161). -/

namespace Sys2Proof.Machine

/-! ## The ticks (R161) -/

section Ticks

variable {s : State}

theorem State.tickDue_iff :
    s.tickDue = true ↔ s.held = false ∧ s.now % 500 = 0 ∧ s.time.slewedAt ≠ some s.now := by
  simp [State.tickDue, and_assoc]

theorem State.slewDue_iff : s.slewDue = true ↔ s.tickDue = true ∧ s.time.slew ≠ 0 := by
  simp [State.slewDue]

/-- Assumption 4: a tick that has been taken at its strike-clock value is not due there again. -/
theorem State.tickDue_of_slewedAt (taken : s.time.slewedAt = some s.now) : s.tickDue = false := by
  refine Bool.eq_false_iff.mpr fun due => ?_
  obtain ⟨-, -, fresh⟩ := State.tickDue_iff.mp due
  exact fresh taken

/-- R161: a tick moves the sign of the pending slew, which is one grain or none. -/
theorem exec_slewTick (due : s.tickDue = true) {unit : Int} (sign : s.time.slew.sign = unit) :
    exec .slewTick s = .next
      { s with
        time :=
          { s.time with
            offset := s.time.offset + unit, slew := s.time.slew - unit, slewedAt := some s.now } } := by
  subst sign
  exact exec_taken (i := .slewTick) due

/-- A grain nearer to zero, unless there already. -/
theorem natAbs_sub_sign (x : Int) : (x - x.sign).natAbs = x.natAbs - 1 := by
  obtain below | rfl | above := lt_trichotomy x 0
  · rw [Int.sign_eq_neg_one_of_neg below]
    omega
  · rfl
  · rw [Int.sign_eq_one_of_pos above]
    omega

end Ticks

/-! ## The end of the range (R160) -/

theorem State.rangeEndDue_iff {s : State} :
    s.rangeEndDue = true ↔ s.held = false ∧ s.slewDue = false ∧ s.time.isSet = true ∧
      (wallEnd : Int) * 10000 ≤ (s.now : Int) + s.time.offset := by
  simp only [State.rangeEndDue, Bool.and_eq_true, Bool.not_eq_true', decide_eq_true_eq, and_assoc]
  rfl

/-- Settles O56: the tick by the sign of the pending slew, and the end of the range. -/
theorem slewAndRangeEnd : Obligations.SlewAndRangeEnd := by
  unfold Obligations.SlewAndRangeEnd
  refine ⟨fun _ => State.tickDue_iff, fun _ => State.slewDue_iff, fun _ => exec_idle (i := .slewTick),
    fun s due => ⟨fun rest => ?_, fun forward => ?_, fun back => ?_⟩, fun s t due tick => ?_,
    fun s t d due tick => ?_, fun _ => State.rangeEndDue_iff, fun _ => exec_idle (i := .wallClockRangeEnd),
    fun _ => exec_taken (i := .wallClockRangeEnd)⟩
  · rw [exec_slewTick due (Int.sign_eq_zero_iff_zero.mpr rest)]
    simp
  · exact exec_slewTick due (Int.sign_eq_one_of_pos forward)
  · exact exec_slewTick due (Int.sign_eq_neg_one_of_neg back)
  · obtain rfl := Host.Outcome.next.inj ((exec_slewTick due rfl).symm.trans tick)
    exact ⟨State.tickDue_of_slewedAt rfl, by dsimp only; omega, natAbs_sub_sign _⟩
  · obtain rfl := Host.Outcome.next.inj ((exec_slewTick due rfl).symm.trans tick)
    exact ⟨due, exec_idle (i := .slewTick) (State.tickDue_of_slewedAt rfl)⟩

end Sys2Proof.Machine
end

section
/-! SUPPORT. The cue lines (R176 to R178): the debounce of a line, the press it latches, and the action of a cue that can
act. -/

namespace Sys2Proof.Machine

/-! ## The debounce (R176) -/

theorem isCueNumber_iff {c : Nat} : isCueNumber c = true ↔ 1 ≤ c ∧ c ≤ 4 := by
  simp [isCueNumber]

section Seen

variable {r : Cue} {now : Nat} {high : Bool}

theorem Cue.seen_settled (back : high = r.settled) : r.seen now high = { r with timer := none } := if_pos back

theorem Cue.seen_idle (away : high ≠ r.settled) (idle : r.timer = none) :
    r.seen now high = { r with timer := some ⟨now, r.config.debounce⟩ } := by
  rw [Cue.seen, if_neg away, idle]
  rfl

theorem Cue.seen_running (away : high ≠ r.settled) (runs : r.timer ≠ none) : r.seen now high = r := by
  obtain ⟨t, e⟩ := Option.ne_none_iff_exists'.mp runs
  rw [Cue.seen, if_neg away, e, Option.getD_some, ← e]

end Seen

/-- R176: an accepted change is a press by the edge field. -/
theorem CueEdge.isPress_iff {e : CueEdge} {high : Bool} :
    e.isPress high = true ↔
      (high = true ∧ (e = .rise ∨ e = .both)) ∨ (high = false ∧ (e = .fall ∨ e = .both)) := by
  cases e <;> simp [CueEdge.isPress]

section Line

variable {s : State} {c : Nat}

/-- Writing the record that a cue holds changes nothing. -/
theorem State.setCue_self (s : State) (c : Nat) : s.setCue c (s.cue c) = s := by
  rw [State.setCue, State.cue, setSlot_self]

theorem State.changeCueLine_held (held : s.held = true) : s.changeCueLine c = s.setCueLine c (!s.cueLevel c) :=
  if_pos held

theorem State.changeCueLine_seen (high : s.held = false) :
    s.changeCueLine c =
      (s.setCueLine c (!s.cueLevel c)).setCue c ((s.cue c).seen s.now (!s.cueLevel c)) :=
  if_neg (Bool.eq_false_iff.mp high)

theorem State.changeCueLine_running (high : s.held = false) (away : (!s.cueLevel c) ≠ (s.cue c).settled)
    (runs : (s.cue c).timer ≠ none) : s.changeCueLine c = s.setCueLine c (!s.cueLevel c) := by
  rw [State.changeCueLine_seen high, Cue.seen_running away runs]
  exact State.setCue_self (s.setCueLine c _) c

theorem State.debounceDue_iff (number : isCueNumber c = true) :
    s.debounceDue c = true ↔ s.held = false ∧ s.cueLevel c ≠ (s.cue c).settled ∧
      ∃ t, (s.cue c).timer = some t ∧ t.start + t.length ≤ s.now := by
  unfold State.debounceDue
  cases (s.cue c).timer <;> simp [number, and_assoc]

/-! ## When a cue acts (R178) -/

/-- No request of the cue is active: none stands in the play queue, and neither lane holds one. -/
theorem State.activeOf_eq_none_iff :
    s.activeOf c = none ↔ (∀ q ∈ s.playQueue, q.source ≠ .cue c) ∧
      (∀ l, s.tune = some l → l.request.source ≠ .cue c) ∧ ∀ l, s.toll = some l → l.request.source ≠ .cue c := by
  simp [State.activeOf]

theorem State.cueReady_iff :
    s.cueReady c = true ↔ (s.cue c).config.enable = true ∧ (s.cue c).latch = true ∧
      (s.cue c).config.action ≠ .none ∧ s.activeOf c = none := by
  simp [State.cueReady, and_assoc]

/-! ## The action (R178) -/

theorem State.clearLatch_config (s : State) (c : Nat) : ((s.clearLatch c).cue c).config = (s.cue c).config := by
  obtain ⟨latch, e⟩ := (State.Spares.clearLatch s c).cue c
  rw [e]

/-- The request of a cue carries the cue's own force, and the latch is no part of it. -/
theorem State.cueRequest_clearLatch (s : State) (c : Nat) (play : Play) (cap slip wait : Nat) :
    (s.clearLatch c).cueRequest c play cap slip wait =
      (s.clearLatch c).offerQuiet (s.makeRequest (.cue c) play none wait cap slip (s.cue c).config.force)
        s.wallSecond := by
  rw [State.cueRequest, State.clearLatch_config]
  rfl

theorem State.cueAct_tune {spec : TuneSpec} {cap slip wait : Nat}
    (action : (s.cue c).config.action = .tune spec cap slip wait) :
    s.cueAct c = (s.clearLatch c).cueRequest c (.tune spec) cap slip wait := by
  simp only [State.cueAct, State.clearLatch_config, action]

theorem State.cueAct_toll {spec : TollSpec} {cap slip wait : Nat}
    (action : (s.cue c).config.action = .toll spec cap slip wait) :
    s.cueAct c = (s.clearLatch c).cueRequest c (.toll spec) cap slip wait := by
  simp only [State.cueAct, State.clearLatch_config, action]

theorem State.cueAct_stop (action : (s.cue c).config.action = .stop) :
    s.cueAct c = ((s.clearLatch c).barStopTune .stop).settleLanes := by
  simp only [State.cueAct, State.clearLatch_config, action]

/-- The one cue that can act acts, and then those that can act after it. -/
theorem State.settleCues_of_one (number : c ∈ [1, 2, 3, 4]) (ready : s.cueReady c = true)
    (alone : ∀ d ∈ [1, 2, 3, 4], d ≠ c → s.cueReady d = false) (fuel : Nat) :
    s.settleCues (fuel + 1) = (s.cueAct c).settleCues fuel := by
  have only : ∀ d ∈ [1, 2, 3, 4], s.cueReady d = (d == c) := by
    intro d hd
    by_cases e : d = c
    · rw [e, ready, beq_self_eq_true]
    · rw [alone d hd e, beq_false_of_ne e]
  have one : (List.range' 1 4).filter s.cueReady = [c] := by
    calc (List.range' 1 4).filter s.cueReady = [1, 2, 3, 4].filter (· == c) := List.filter_congr only
      _ = List.replicate ([1, 2, 3, 4].count c) c := List.filter_beq ..
      _ = [c] := by rw [List.count_eq_one_of_mem (by decide) number, List.replicate_one]
  rw [State.settleCues, one]
  rfl

end Line

/-- Settles O58: a line by what its new level is to the settled one, the expiry by the edge field, and a cue by its
action. -/
theorem cueLinesLatchAndAct : Obligations.CueLinesLatchAndAct := by
  unfold Obligations.CueLinesLatchAndAct
  refine ⟨fun s c low most => ?one, fun s fuel idle => State.settleCues_of_none idle fuel,
    fun s c number ready alone => State.settleCues_of_one number ready alone⟩
  intro high u r
  have number : isCueNumber c = true := isCueNumber_iff.mpr ⟨low, most⟩
  have changes {t : State} (e : s.changeCueLine c = t) : exec (.cueLineChange c) s = .next t :=
    e ▸ exec_taken (i := .cueLineChange c) number
  refine ⟨fun held => changes (State.changeCueLine_held held), fun up back => changes ?settled,
    fun up away => ⟨fun idle => changes ?starts, fun runs => changes (State.changeCueLine_running up away runs)⟩,
    State.debounceDue_iff number, exec_idle (i := .cueDebounceExpire c), fun due => ?expires,
    State.cueReady_iff.trans (by rw [State.activeOf_eq_none_iff]), ?acts⟩
  case settled => exact (State.changeCueLine_seen up).trans (congrArg (u.setCue c) (Cue.seen_settled back))
  case starts => exact (State.changeCueLine_seen up).trans (congrArg (u.setCue c) (Cue.seen_idle away idle))
  case expires =>
    refine ⟨r.latch || r.config.edge.isPress (s.cueLevel c), ?_, exec_taken (i := .cueDebounceExpire c) due⟩
    rw [Bool.or_eq_true, CueEdge.isPress_iff]
  case acts =>
    intro cleared made
    exact ⟨fun _ _ _ _ action => (State.cueAct_tune action).trans (s.cueRequest_clearLatch ..),
      fun _ _ _ _ action => (State.cueAct_toll action).trans (s.cueRequest_clearLatch ..), State.cueAct_stop⟩

end Sys2Proof.Machine
end

section
/-! SUPPORT. The CUE requests (R179, R180): the settings of a line held against their form, and what each request writes
and replies. -/

namespace Sys2Proof.Machine

/-! ## The settings before ACTION (R179) -/

theorem readEdge_eq_some_iff {t : Text} {e : CueEdge} :
    readEdge t = some e ↔ CueSettingForm [Kw.EDGE.text, t] (.edge e) := by
  constructor
  · intro h
    unfold readEdge at h
    split at h
    case h_4 => cases h
    all_goals
      rename_i hk
      obtain rfl := Option.some.inj h
      exact congrArg ([_, ·]) (readKw_eq_some_iff.mp hk)
  · intro h
    cases e
    all_goals
      obtain ⟨-, e⟩ := List.cons.inj h
      obtain ⟨rfl, -⟩ := List.cons.inj e
      rfl

/-- The settings hold a value that the setting of a line would give again. -/
def CueSettings.holds (f : CueSettings) : CueValue → Prop
  | .edge _ => f.edge.isSome
  | .debounce _ => f.debounce.isSome
  | .force _ => f.force.isSome

theorem CueSettings.holds_put (f : CueSettings) (v w : CueValue) : (f.put v).holds w ↔ f.holds w ∨ v.key = w.key := by
  cases v <;> cases w <;> simp [CueSettings.holds, CueSettings.put, CueValue.key]

theorem CueSettings.not_holds_empty (v : CueValue) : ¬ CueSettings.holds {} v := by
  cases v <;> simp [CueSettings.holds]

/-- A setting is its keyword and one value. -/
theorem CueSettingForm.eq_pair {piece : List Text} {v : CueValue} (h : CueSettingForm piece v) :
    ∃ t, piece = [v.key.text, t] := by
  cases v with
  | edge e => cases e <;> exact ⟨_, h⟩
  | debounce n =>
    obtain ⟨t, d, rfl, -⟩ := h
    exact ⟨t, rfl⟩
  | force on => exact ⟨_, h⟩

/-- The settings of a CUE line, less ACTION. -/
def cueRepertoire : Repertoire CueSettings CueValue where
  form := CueSettingForm
  clash v w := v.key = w.key
  refuses := CueSettings.holds
  put := CueSettings.put
  form_ne_nil h := by
    obtain ⟨_, rfl⟩ := h.eq_pair
    exact nofun
  refuses_put := CueSettings.holds_put

/-- A setting of one value, where it is not held. -/
theorem readCueValue_eq_some_iff {f g : CueSettings} {k : Kw} {t : Text} :
    readCueValue f k t = some g ↔ ∃ v, CueSettingForm [k.text, t] v ∧ ¬ f.holds v ∧ g = f.put v := by
  constructor
  · intro h
    unfold readCueValue at h
    split at h
    case h_4 => cases h
    all_goals
      obtain ⟨free, h⟩ := Option.ite_none_left_eq_some.mp h
      obtain ⟨x, hx, rfl⟩ := Option.map_eq_some_iff.mp h
    case h_1 => exact ⟨.edge x, readEdge_eq_some_iff.mp hx, free, rfl⟩
    case h_2 => exact ⟨.debounce (clamp 200 5000 x), ⟨t, x, rfl, readNum_eq_some_iff.mp hx, rfl⟩, free, rfl⟩
    case h_3 => exact ⟨.force x, congrArg ([_, ·]) (readOnOff_eq_some_iff.mp hx), free, rfl⟩
  · rintro ⟨v, form, free, rfl⟩
    obtain ⟨u, e⟩ := form.eq_pair
    obtain ⟨key, -⟩ := List.cons.inj e
    obtain rfl := Kw.text_inj.mp key
    cases v with
    | edge x => exact (if_neg free).trans (by rw [readEdge_eq_some_iff.mpr form]; rfl)
    | debounce n =>
      obtain ⟨_, d, e, number, rfl⟩ := form
      cases e
      exact (if_neg free).trans (by rw [readNum_eq_some_iff.mpr number]; rfl)
    | force on =>
      have value := (List.cons.inj (List.cons.inj form).2).1
      exact (if_neg free).trans (by rw [readOnOff_eq_some_iff.mpr value]; rfl)

/-! ## The action (R179) -/

/-- R98: a slip limit has no lower end to be clamped to. -/
theorem Options.slipOf_eq (o : Options) : o.slipOf = min 1000 (o.slip.getD 150) := Nat.zero_max _

theorem readCueTune_eq_some_iff {fields : List Text} {action : CueAction} :
    readCueTune fields = some action ↔
      (∃ spec cap slip wait, action = .tune spec cap slip wait) ∧ CueActionForm (Kw.TUNE.text :: fields) action := by
  have options {ws : List Text} {o : Options} :=
    readOptions_eq_some_iff_of_not_mem (most := 6) (ws := ws) (o := o)
      (show Kw.AT ∉ [Kw.TEMPO, .TRANSPOSE, .CAP, .REPEAT, .SLIP, .WAIT] by decide)
  constructor
  · intro h
    cases fields with
    | nil => cases h
    | cons m ws =>
      simp only [readCueTune, Option.pure_def, Option.bind_eq_bind, Option.bind_eq_some_iff, readWithin6_eq_some_iff,
        Options.waitOf_eq_some_iff, Option.some.injEq] at h
      obtain ⟨melody, hm, o, ho, _, ⟨rfl, most⟩, rfl⟩ := h
      exact ⟨⟨_, _, _, _, rfl⟩, melody, o, ⟨m, ws, rfl, hm, options.mp ho⟩, rfl, rfl, o.slipOf_eq, rfl, most⟩
  · rintro ⟨⟨spec, cap, slip, wait, rfl⟩, melody, o, ⟨m, ws, e, hm, ho⟩, rfl, rfl, rfl, rfl, most⟩
    obtain ⟨-, rfl⟩ := List.cons.inj e
    simp only [readCueTune, readWithin6_eq_some_iff.mpr hm, options.mpr ho, Option.bind_eq_bind, Option.bind_some,
      Options.waitOf_eq_some_iff.mpr ⟨rfl, most⟩, o.slipOf_eq]
    rfl

theorem readCueToll_eq_some_iff {fields : List Text} {action : CueAction} :
    readCueToll fields = some action ↔
      (∃ spec cap slip wait, action = .toll spec cap slip wait) ∧ CueActionForm (Kw.TOLL.text :: fields) action := by
  have options {ws : List Text} {o : Options} :=
    readOptions_eq_some_iff_of_not_mem (most := 6) (ws := ws) (o := o)
      (show Kw.AT ∉ [Kw.INTERVAL, .LEVEL, .MODE, .CAP, .SLIP, .WAIT] by decide)
  constructor
  · intro h
    simp only [readCueToll, Option.bind_eq_bind, Option.bind_eq_some_iff, Prod.exists, readRule_eq_some_iff] at h
    obtain ⟨rule, rest, ⟨piece, rfl, form⟩, h⟩ := h
    cases rest with
    | nil => cases h
    | cons b ws =>
      simp only [Option.pure_def, Option.bind_eq_some_iff, readWithin6_eq_some_iff, Options.waitOf_eq_some_iff,
        Option.some.injEq] at h
      obtain ⟨bell, hb, o, ho, _, ⟨rfl, most⟩, rfl⟩ := h
      exact ⟨⟨_, _, _, _, rfl⟩, rule, bell, o, ⟨piece, b, ws, rfl, form, hb, options.mp ho⟩, rfl, rfl, o.slipOf_eq, rfl,
        most⟩
  · rintro ⟨⟨spec, cap, slip, wait, rfl⟩, rule, bell, o, ⟨piece, b, ws, e, form, hb, ho⟩, rfl, rfl, rfl, rfl, most⟩
    obtain ⟨-, rfl⟩ := List.cons.inj e
    have hrule := readRule_eq_some_iff.mpr ⟨piece, (rfl : piece ++ b :: ws = _), form⟩
    simp only [readCueToll, List.append_eq, hrule, readWithin6_eq_some_iff.mpr hb, options.mpr ho, Option.bind_eq_bind,
      Option.bind_some, Options.waitOf_eq_some_iff.mpr ⟨rfl, most⟩, o.slipOf_eq]
    rfl

/-- R179: the action that ends a line is read as its form gives it. -/
theorem readAction_eq_some_iff {fields : List Text} {action : CueAction} :
    readAction fields = some action ↔ CueActionForm fields action := by
  constructor
  · intro h
    unfold readAction at h
    split at h
    case h_1 => cases h
    case h_2 w rest =>
    split at h
    case h_1 hk => exact readKw_eq_some_iff.mp hk ▸ (readCueTune_eq_some_iff.mp h).2
    case h_2 hk => exact readKw_eq_some_iff.mp hk ▸ (readCueToll_eq_some_iff.mp h).2
    case h_3 hk =>
      obtain ⟨last, e⟩ := Option.ite_none_right_eq_some.mp h
      cases e
      exact List.cons_eq_cons.mpr ⟨readKw_eq_some_iff.mp hk, List.isEmpty_iff.mp last⟩
    case h_4 => cases h
  · intro form
    have whole := form
    cases action with
    | none => exact absurd form id
    | tune =>
      obtain ⟨_, _, ⟨m, options, rfl, -⟩, -⟩ := form
      rw [readAction, readKw_text]
      exact readCueTune_eq_some_iff.mpr ⟨⟨_, _, _, _, rfl⟩, whole⟩
    | toll =>
      obtain ⟨_, _, _, ⟨piece, b, options, rfl, -⟩, -⟩ := form
      rw [List.cons_append, readAction, readKw_text]
      exact readCueToll_eq_some_iff.mpr ⟨⟨_, _, _, _, rfl⟩, whole⟩
    | stop =>
      obtain rfl := form
      rw [readAction, readKw_text]
      rfl

/-! ## The settings of a line (R179) -/

/-- What follows the settings of one value: nothing, or ACTION with its action. -/
def CueSettings.EndsAs (g f : CueSettings) (rest : List Text) : Prop :=
  (rest = [] ∧ g = f) ∨
    ∃ fields action, rest = Kw.ACTION.text :: fields ∧ CueActionForm fields action ∧ g = { f with action := some action }

theorem readCueFrom_value {fuel : Nat} {f : CueSettings} {k : Kw} (hk : k ≠ .ACTION) (t : Text) (rest : List Text) :
    readCueFrom (fuel + 1) f (k.text :: t :: rest) = (readCueValue f k t).bind fun g => readCueFrom fuel g rest := by
  rw [readCueFrom, readKw_text]
  split
  case h_1 e => cases e
  case h_2 e => exact absurd (Option.some.inj e) hk
  case h_3 e =>
    cases e
    rfl

/-- At each field a CUE line has ACTION with its action, or one setting more. -/
theorem readCueFrom_cons_eq_some_iff {fuel : Nat} {f g : CueSettings} {w : Text} {ws : List Text} :
    readCueFrom (fuel + 1) f (w :: ws) = some g ↔
      g.EndsAs f (w :: ws) ∨ cueRepertoire.Takes f (w :: ws) (fun u rest => readCueFrom fuel u rest = some g) := by
  constructor
  · intro h
    rw [readCueFrom] at h
    split at h
    case h_1 => cases h
    case h_2 hk =>
      obtain ⟨action, read, rfl⟩ := Option.map_eq_some_iff.mp h
      exact .inl (.inr ⟨ws, action, congrArg (· :: ws) (readKw_eq_some_iff.mp hk), readAction_eq_some_iff.mp read, rfl⟩)
    case h_3 k _ hk =>
      split at h
      case h_1 => cases h
      case h_2 t rest =>
      obtain ⟨u, value, h⟩ := Option.bind_eq_some_iff.mp h
      obtain ⟨v, form, free, rfl⟩ := readCueValue_eq_some_iff.mp value
      exact .inr ⟨[k.text, t], v, rest, congrArg (· :: t :: rest) (readKw_eq_some_iff.mp hk), form, free, h⟩
  · rintro ((⟨e, -⟩ | ⟨fields, action, e, form, rfl⟩) | ⟨piece, v, rest, e, form, free, h⟩)
    · cases e
    · obtain ⟨rfl, rfl⟩ := List.cons.inj e
      rw [readCueFrom, readKw_text]
      exact Option.map_eq_some_iff.mpr ⟨action, readAction_eq_some_iff.mpr form, rfl⟩
    · obtain ⟨t, rfl⟩ := CueSettingForm.eq_pair form
      obtain ⟨rfl, rfl⟩ := List.cons.inj e
      have key : v.key ≠ .ACTION := by cases v <;> exact nofun
      exact (readCueFrom_value key t rest).trans
        (Option.bind_eq_some_iff.mpr ⟨_, readCueValue_eq_some_iff.mpr ⟨v, form, free, rfl⟩, h⟩)

theorem readCueFrom_nil_eq_some_iff {fuel : Nat} {f g : CueSettings} :
    readCueFrom fuel f [] = some g ↔ g.EndsAs f [] := by
  have last : readCueFrom fuel f [] = some f := by cases fuel <;> rfl
  rw [last, CueSettings.EndsAs, Option.some.injEq, eq_comm (a := f)]
  simp

/-- R179: the settings of a CUE line are read as its form gives them. -/
theorem readCueSettings_eq_some_iff {fields : List Text} {g : CueSettings} :
    readCueSettings fields = some g ↔ CueSettingsForm fields g := by
  rw [readCueSettings, Option.ite_none_left_eq_some, List.isEmpty_iff,
    Repertoire.read_eq_some_iff (R := cueRepertoire) (read := readCueFrom) (ends := CueSettings.EndsAs)
      (fun _ _ _ => readCueFrom_nil_eq_some_iff) (fun _ _ _ _ _ => readCueFrom_cons_eq_some_iff) le_rfl]
  constructor
  · rintro ⟨given, settings, rest, _, e, ⟨values, spelled, apart, -, rfl⟩, ends⟩
    exact ⟨settings, rest, values, e, given, spelled, List.pairwise_map.mpr apart, ends⟩
  · rintro ⟨settings, rest, values, e, given, spelled, apart, ends⟩
    exact ⟨given, settings, rest, _, e,
      ⟨values, spelled, List.pairwise_map.mp apart, fun v _ => CueSettings.not_holds_empty v, rfl⟩, ends⟩

/-! ## The requests (R179, R180) -/

section Requests

variable {s : State} {tag f : Text} {c : Nat}

theorem cueRequest_writes {settings : List Text} {g : CueSettings} (number : readWithin6 1 4 f = some c)
    (given : readCueSettings settings = some g) :
    cueRequest tag (f :: settings) s = (s.modConfig c (·.apply g)).okCue tag c := by
  simp only [cueRequest, number, given]

/-- R179: a line with a longer number, or of any other form, is refused. -/
theorem cueRequest_malformed {settings : List Text} (h : 6 < f.length ∨ readCueSettings settings = none) :
    cueRequest tag (f :: settings) s = s.err tag .arg := by
  simp only [cueRequest]
  split
  next number given =>
    obtain long | malformed := h
    · exact absurd (readWithin6_eq_some_iff.mp number).1.2 (Nat.not_le.mpr long)
    · exact absurd (malformed.symm.trans given) nofun
  next => rfl

theorem readCueAlone_nil (f : Text) : readCueAlone f [] = readCue f := rfl

theorem cueEnableRequest_actionless (number : readCue f = some c) (action : (s.cue c).config.action = .none) :
    cueEnableRequest tag f [] s = s.err tag .notready := by
  simp only [cueEnableRequest, readCueAlone_nil, number, action, if_true]

theorem cueEnableRequest_enabled (number : readCue f = some c) (action : (s.cue c).config.action ≠ .none)
    (enabled : (s.cue c).config.enable = true) : cueEnableRequest tag f [] s = s.okCue tag c := by
  simp only [cueEnableRequest, readCueAlone_nil, number, if_neg action, enabled, if_true]

/-- R180: a cue that is enabled may act on the press it latched, after the reply. -/
theorem cueEnableRequest_enables (number : readCue f = some c) (action : (s.cue c).config.action ≠ .none)
    (disabled : (s.cue c).config.enable = false) :
    cueEnableRequest tag f [] s =
      ((s.modConfig c fun r => { r with enable := true }).okCue tag c).settleCues 4 := by
  simp only [cueEnableRequest, readCueAlone_nil, number, if_neg action, disabled, Bool.false_eq_true, if_false]

theorem cueDisableRequest_disables (number : readCue f = some c) :
    cueDisableRequest tag f [] s = (s.modConfig c fun r => { r with enable := false }).okCue tag c := by
  simp only [cueDisableRequest, readCueAlone_nil, number]

theorem cueClearRequest_clears (number : readCue f = some c) :
    cueClearRequest tag f [] s = (s.clearLatch c).okCue tag c := by
  simp only [cueClearRequest, readCueAlone_nil, number]

end Requests

/-- Settles O59: the settings by their form, and each request by what it finds. -/
theorem cueRequestsConfigure : Obligations.CueRequestsConfigure := by
  unfold Obligations.CueRequestsConfigure
  refine ⟨fun _ _ => readCueSettings_eq_some_iff, fun s tag f c can decimal low most => ?_⟩
  intro r written
  have number : readCue f = some c := bind_within_eq_some_iff.mpr ⟨decimal, low, most⟩
  have short (h : f.length ≤ 6) : readWithin6 1 4 f = some c :=
    readWithin6_eq_some_iff.mpr ⟨⟨readNat_eq_some_iff.mp decimal, h⟩, low, most⟩
  exact ⟨fun _ _ digits given => exec_request_eq rfl can (cueRequest_writes (short digits) given),
    fun _ malformed => exec_request_eq rfl can (cueRequest_malformed malformed),
    fun action => exec_request_eq rfl can (cueEnableRequest_actionless number action),
    fun action enabled => exec_request_eq rfl can (cueEnableRequest_enabled number action enabled),
    fun action disabled => exec_request_eq rfl can (cueEnableRequest_enables number action disabled),
    exec_request_eq rfl can (cueDisableRequest_disables number),
    exec_request_eq rfl can (cueClearRequest_clears number),
    fun _ _ => ⟨exec_request_eq rfl can rfl, exec_request_eq rfl can rfl, exec_request_eq rfl can rfl⟩⟩

end Sys2Proof.Machine
end

section
/-! SUPPORT. Request lines (R185): the tag a line begins with, the request its verb and fields make, and the line that
spells a request. -/

namespace Sys2Proof

/-! ## Tags -/

theorem tagOk_iff {tag : Text} :
    tagOk tag = true ↔ 1 ≤ tag.length ∧ tag.length ≤ 4 ∧ ∀ c ∈ tag, 48 ≤ c.toNat ∧ c.toNat ≤ 57 := by
  simp [tagOk, isDigit, and_assoc]

/-- Assumption 8: a tag that ends its line is a tag followed by nothing. -/
theorem readTag_self {tag : Text} (h : tagOk tag = true) : readTag tag = some (tag, []) := by
  simp only [tagOk, Bool.and_eq_true, decide_eq_true_eq, List.all_eq_true] at h
  obtain ⟨length, digits⟩ := h
  have all : tag.takeWhile isDigit = tag := List.takeWhile_eq_self_iff.mpr digits
  simp [readTag, all, length]

/-- R185: a line begins with its tag, and what follows the tag is a space or nothing. -/
theorem readTag_eq_some_iff {line tag rest : Text} :
    readTag line = some (tag, rest) ↔ tagOk tag = true ∧ (line = tag ++ ' ' :: rest ∨ line = tag ∧ rest = []) := by
  constructor
  · intro h
    have whole := List.prefix_iff_eq_append.mp (List.takeWhile_prefix isDigit (l := line))
    have digits : (line.takeWhile isDigit).all isDigit = true := List.all_takeWhile
    unfold readTag at h
    dsimp only at h
    split at h
    next length =>
      split at h
      next ends =>
        cases h
        rw [ends, List.append_nil] at whole
        exact ⟨by simp [tagOk, length, digits], .inr ⟨whole.symm, rfl⟩⟩
      next c more follows =>
        split at h
        next space =>
          cases h
          rw [follows, space] at whole
          exact ⟨by simp [tagOk, length, digits], .inl whole.symm⟩
        next => cases h
    next => cases h
  · rintro ⟨ok, rfl | ⟨rfl, rfl⟩⟩
    · exact readTag_append ok rest
    · exact readTag_self ok

/-! ## From the fields to the request -/

/-- What a line with this tag and these fields may be read as: a request that has them and no other, or a refusal with
the tag. -/
def RequestLine.Reads (tag : Text) (fields : List Text) : RequestLine → Prop
  | .request i => i.fields = some (tag, fields)
  | .badArg t => t = tag
  | .unknown t => t = tag
  | .noTag => False

/-- R185: a verb and its fields are read as a request that has them, or refused: the verb, and a keyword that makes
another request of it, are read from their spelling and no other. -/
theorem readVerb_reads (tag : Text) (fields : List Text) : (readVerb tag fields).Reads tag fields := by
  unfold readVerb
  repeat' split
  all_goals simp_all [RequestLine.Reads, Instr.fields, readKw_eq_some_iff]

theorem readVerb_request {tag : Text} {fields : List Text} {i : Instr} (h : readVerb tag fields = .request i) :
    i.fields = some (tag, fields) := by
  have reads := readVerb_reads tag fields
  rwa [h] at reads

theorem readVerb_ne_noTag (tag : Text) (fields : List Text) : readVerb tag fields ≠ .noTag := by
  intro h
  have reads := readVerb_reads tag fields
  rwa [h] at reads

/-- R185: a line without a valid tag, and no other, has none. -/
theorem readRequest_eq_noTag_iff {line : Text} : readRequest line = .noTag ↔ readTag line = none := by
  unfold readRequest
  split
  next none => simp [none]
  next tag rest some => simp [some, readVerb_ne_noTag]

/-- R185: a line that is read as a request has the tag and the fields of that request. -/
theorem readRequest_request {line : Text} {i : Instr} (h : readRequest line = .request i) :
    ∃ tag rest, readTag line = some (tag, rest) ∧ i.fields = some (tag, words rest) := by
  unfold readRequest at h
  split at h
  next => cases h
  next tag rest some => exact ⟨tag, rest, some, readVerb_request h⟩

/-! ## From the request to the line -/

/-- A well-formed request is read from its tag and its fields. -/
theorem readVerb_fields {i : Instr} {tag : Text} {fields : List Text} (h : i.wellFormed = true)
    (e : i.fields = some (tag, fields)) : readVerb tag fields = .request i := by
  cases i <;> simp only [Instr.fields, Option.some.injEq, Prod.mk.injEq, reduceCtorEq] at e <;>
    obtain ⟨rfl, rfl⟩ := e
  case bell tag args | countRead tag args | entry tag args | quiet tag args | cue tag args =>
    simp only [Instr.wellFormed, Bool.and_eq_true] at h
    obtain ⟨-, apart⟩ := h
    match args with
    | [] => simp [readVerb]
    | [_] => simp [readVerb]
    | b :: w :: more =>
      simp only [secondIsNot, List.all_cons, List.all_nil, Bool.and_true, Bool.and_eq_true, bne_iff_ne] at apart
      simp [readVerb, apart]
  all_goals simp [readVerb]

/-- A well-formed request has a valid tag and fields without spaces, and its line fits the buffer (R184). -/
theorem Instr.wellFormed_request {i : Instr} {tag : Text} {fields : List Text} (h : i.wellFormed = true)
    (e : i.fields = some (tag, fields)) :
    tagOk tag = true ∧ (∀ w ∈ fields, fieldOk w = true) ∧ (tag ++ ' ' :: joinWords fields).length ≤ 120 := by
  have ok : lineOk i = true := by
    cases i <;> simp_all [Instr.wellFormed, Instr.fields]
  simpa [lineOk, e, encode, and_assoc] using ok

/-- R185: the line that spells a well-formed request is read as that request. -/
theorem readRequest_encode {i : Instr} {tag : Text} {fields : List Text} (h : i.wellFormed = true)
    (e : i.fields = some (tag, fields)) : readRequest (tag ++ ' ' :: joinWords fields) = .request i := by
  obtain ⟨ok, plain, -⟩ := Instr.wellFormed_request h e
  have read : readVerb tag (words (joinWords fields)) = .request i := by
    rw [words_joinWords fun w hw => fieldOk_plain (plain w hw)]
    exact readVerb_fields h e
  simpa only [readRequest, readTag_append ok] using read

/-- Settles O20: a well-formed request by the line that joins its fields, a tag by the digits a line begins with, and
the fields of a request by its verb. -/
theorem requestLinesReadBack : Obligations.RequestLinesReadBack := by
  unfold Obligations.RequestLinesReadBack
  refine ⟨fun i h request => ?_, fun line tag rest => ?_, fun _ => readRequest_eq_noTag_iff,
    fun _ _ => readRequest_request⟩
  · obtain ⟨⟨tag, fields⟩, e⟩ := Option.isSome_iff_exists.mp request
    obtain ⟨-, -, fits⟩ := Instr.wellFormed_request h e
    exact ⟨tag ++ ' ' :: joinWords fields, by rw [encode, e]; rfl, fits, readRequest_encode h e⟩
  · rw [readTag_eq_some_iff, tagOk_iff, and_assoc, and_assoc]

end Sys2Proof
end

section
/-! SUPPORT. What arrives on the serial line (R184 to R186, R195): a character, and the line that a CR ends. -/

namespace Sys2Proof.Machine

/-! ## Characters (R184) -/

section Characters

variable {s : State} {c : BitVec 8} {stopBit : Bool}

theorem isPrintable_iff : isPrintable c = true ↔ 32 ≤ c.toNat ∧ c.toNat ≤ 126 := by
  simp [isPrintable]

theorem exec_characterReceived (high : s.held = false) :
    exec (.characterReceived c stopBit) s = .next { s with serial := s.serial.receive c stopBit } :=
  exec_taken (by simp [conditionOf, high])

/-- A printable character is neither LF nor CR. -/
theorem Serial.receive_printable (l : Serial) (low : 32 ≤ c.toNat) (most : c.toNat ≤ 126) :
    l.receive c true = l.store c := by
  have lf : c ≠ 10 := by
    rintro rfl
    exact absurd low (by decide)
  have cr : c ≠ 13 := by
    rintro rfl
    exact absurd low (by decide)
  simp only [Serial.receive, Bool.not_true, Bool.false_eq_true, if_false, if_neg lf, if_neg cr,
    if_pos (isPrintable_iff.mpr ⟨low, most⟩)]

theorem Serial.receive_unprintable (l : Serial) (lf : c ≠ 10) (cr : c ≠ 13) (out : c.toNat < 32 ∨ 126 < c.toNat) :
    l.receive c true = l.markBad := by
  have bad : isPrintable c = false := Bool.eq_false_iff.mpr fun h => by
    have := isPrintable_iff.mp h
    omega
  simp only [Serial.receive, Bool.not_true, Bool.false_eq_true, if_false, if_neg lf, if_neg cr, bad]

end Characters

/-! ## Lines (R184 to R186) -/

section Lines

variable {s : State} {l : Serial}

theorem exec_lineReceived (high : s.held = false) :
    exec .lineReceived s = .next { s with serial := s.serial.endLine } :=
  exec_taken (by simp [conditionOf, high])

theorem Serial.endLine_bad (bad : l.badLine = true) :
    l.endLine = Serial.refuse { l with buffer := [], badLine := false } badLineReply := by
  simp [Serial.endLine, bad]

theorem Serial.endLine_empty (good : l.badLine = false) (empty : l.buffer = []) :
    l.endLine = { l with buffer := [], badLine := false } := by
  simp [Serial.endLine, good, empty]

theorem Serial.endLine_complete (good : l.badLine = false) (text : l.buffer ≠ []) :
    l.endLine = Serial.accept { l with buffer := [], badLine := false } l.buffer := by
  simp [Serial.endLine, good, text]

theorem Serial.accept_untagged {line : Text} (h : readTag line = none) : l.accept line = l.refuse badLineReply := by
  simp [Serial.accept, h]

theorem Serial.accept_tagged {line tag rest : Text} (h : readTag line = some (tag, rest)) :
    l.accept line =
      if l.input.length < 4 then { l with input := l.input ++ [line] } else l.refuse (.error tag .busy) := by
  simp [Serial.accept, h]

/-- R185: an empty line has no tag. -/
theorem ne_nil_of_readTag {line tag rest : Text} (h : readTag line = some (tag, rest)) : line ≠ [] := by
  rintro rfl
  simp [readTag] at h

end Lines

/-- Settles O15: a character by its kind, and a line by its mark, its tag and the room in the input queue. -/
theorem linesArrive : Obligations.LinesArrive := by
  unfold Obligations.LinesArrive
  refine ⟨fun s c => ⟨fun low stopBit => exec_idle (by simp [conditionOf, low]), fun high => ?_⟩,
    fun s => ⟨fun low => exec_idle (by simp [conditionOf, low]), fun high => ?_⟩⟩
  · simp only [exec_characterReceived high]
    refine ⟨rfl, ?_, fun low most room => ?_, fun low most full => ?_, fun lf cr out => ?_⟩
    · rintro rfl
      rfl
    · rw [Serial.receive_printable _ low most, Serial.store, if_pos room]
    · rw [Serial.receive_printable _ low most, Serial.store, if_neg (by omega)]
      rfl
    · rw [Serial.receive_unprintable _ lf cr out]
      rfl
  · simp only [exec_lineReceived high]
    refine ⟨fun bad => ?_, fun good empty => ?_, fun good text untagged => ?_, fun tag rest good tagged =>
      ⟨fun room => ?_, fun full => ?_⟩⟩
    · rw [Serial.endLine_bad bad]
      rfl
    · rw [Serial.endLine_empty good empty]
    · rw [Serial.endLine_complete good text, Serial.accept_untagged untagged]
      rfl
    · rw [Serial.endLine_complete good (ne_nil_of_readTag tagged), Serial.accept_tagged tagged, if_pos room]
    · rw [Serial.endLine_complete good (ne_nil_of_readTag tagged), Serial.accept_tagged tagged,
        if_neg (Nat.not_lt.mpr full)]
      rfl

end Sys2Proof.Machine
end

section
/-! SUPPORT. The transmitter (R187, R188, R195): which of the waiting lines is sent first, and what its queue is left
with. -/

namespace Sys2Proof.Machine

/-! ## The line made first (R187) -/

section Earliest

variable {a b : Option (Waiting × MadeLine)} {x y : Waiting × MadeLine}

theorem earlier_left (first : ∀ y ∈ b, x.2.order ≤ y.2.order) : earlier (some x) b = some x := by
  cases b with
  | none => rfl
  | some y => exact if_neg (Nat.not_lt.mpr (first y rfl))

theorem earlier_right (first : ∀ x ∈ a, y.2.order < x.2.order) : earlier a (some y) = some y := by
  cases a with
  | none => rfl
  | some x => exact if_pos (first x rfl)

theorem mem_earlier (h : x ∈ earlier a b) : x ∈ a ∨ x ∈ b := by
  unfold earlier at h
  split at h
  · split at h
    · exact .inr h
    · exact .inl h
  · exact .inl h
  · exact .inr h

variable {l : Serial} {m : MadeLine}

theorem Serial.earliest_executed (waits : l.executed = some m) (refusals : ∀ y ∈ l.refusals.head?, m.order ≤ y.order)
    (reports : ∀ y ∈ l.reports.head?, m.order ≤ y.order) : l.earliest = some (.executed, m) := by
  unfold Serial.earliest
  rw [waits, Option.map_some, earlier_left, earlier_left]
  · simpa using reports
  · simpa using refusals

theorem Serial.earliest_refusal (waits : l.refusals.head? = some m) (executed : ∀ y ∈ l.executed, m.order < y.order)
    (reports : ∀ y ∈ l.reports.head?, m.order ≤ y.order) : l.earliest = some (.refusal, m) := by
  unfold Serial.earliest
  rw [waits, Option.map_some, earlier_right, earlier_left]
  · simpa using reports
  · simpa using executed

theorem Serial.earliest_report (waits : l.reports.head? = some m) (executed : ∀ y ∈ l.executed, m.order < y.order)
    (refusals : ∀ y ∈ l.refusals.head?, m.order < y.order) : l.earliest = some (.report, m) := by
  unfold Serial.earliest
  rw [waits, Option.map_some, earlier_right]
  intro x hx
  obtain hx | hx := mem_earlier hx
  · obtain ⟨y, hy, rfl⟩ := Option.mem_map.mp hx
    exact executed y hy
  · obtain ⟨y, hy, rfl⟩ := Option.mem_map.mp hx
    exact refusals y hy

end Earliest

/-! ## The row (R187, R188, R195) -/

section Transmit

variable {s : State} {m : MadeLine} {w : Waiting}

/-- R187: the line made first is sent and leaves its queue. -/
theorem exec_transmitLine (high : s.held = false) (idle : s.transmitterIdle = true)
    (free : ∀ f, s.serial.resetWait ≠ .replySending f) (first : s.serial.earliest = some (w, m)) :
    exec .transmitLine s = .next
      { s with
        serial :=
          { s.serial.take w (s.now + sendGrains s.lineRate m.line) with
            sending := some ⟨m.line, s.now + sendGrains s.lineRate m.line⟩ } } := by
  have waits := (Serial.earliest_isSome_iff s.serial).mp (by rw [first]; rfl)
  have due : s.transmitDue = true := State.transmitDue_iff.mpr ⟨high, idle, free, waits⟩
  rw [exec_taken (i := .transmitLine) due]
  simp only [effectOf, State.transmit, first]
  rfl

theorem Serial.take_report_none {l : Serial} {x : MadeLine} {rest : List MadeLine} (waits : l.reports = x :: rest)
    (none : l.discards = 0) (finish : Nat) : l.take .report finish = { l with reports := rest } := by
  simp [Serial.take, Serial.overrun, waits, none]

/-- R188: OVERRUN takes the slot that is freed while the discard count is above 0. -/
theorem Serial.take_report_some {l : Serial} {x : MadeLine} {rest : List MadeLine} (waits : l.reports = x :: rest)
    (some : 0 < l.discards) (finish : Nat) :
    l.take .report finish =
      { l with
        reports := rest ++ [⟨l.made, .report .overrun [.num l.discards]⟩], made := l.made + 1, discards := 0 } := by
  simp [Serial.take, Serial.overrun, waits, Nat.pos_iff_ne_zero.mp some]

end Transmit

/-- Settles O18: the row by its condition, and the line sent by the one made first. -/
theorem transmitterSendsEarliest : Obligations.TransmitterSendsEarliest := by
  unfold Obligations.TransmitterSendsEarliest
  refine ⟨fun s shut => exec_idle (Bool.eq_false_iff.mpr fun due => ?_), fun s high idle free => ?_⟩
  · obtain ⟨high, idle, free, waits⟩ := State.transmitDue_iff.mp due
    obtain h | h | ⟨f, h⟩ | ⟨h, h', h''⟩ := shut
    · simp [high] at h
    · simp [idle] at h
    · exact free f h
    · simp [h, h', h''] at waits
  · intro l finish sent
    refine ⟨fun x waits refusals reports => ?_, fun x rest waits executed reports => ?_,
      fun x rest waits executed refusals => ?_⟩
    · rw [exec_transmitLine high idle free (Serial.earliest_executed waits refusals reports)]
      rfl
    · have head : l.refusals.head? = some x := by rw [waits]; rfl
      have left : l.refusals.drop 1 = rest := by rw [waits]; rfl
      rw [exec_transmitLine high idle free (Serial.earliest_refusal head executed reports), ← left]
      rfl
    · have head : l.reports.head? = some x := by rw [waits]; rfl
      rw [exec_transmitLine high idle free (Serial.earliest_report head executed refusals)]
      refine ⟨fun none => ?_, fun some => ?_⟩
      · rw [Serial.take_report_none waits none]
      · rw [Serial.take_report_some waits some]

end Sys2Proof.Machine
end

section
/-! SUPPORT. Reports, the report mask and ID (R188 to R190): what a post does, the pairs of a REPORT line, and the
replies. -/

namespace Sys2Proof.Machine

/-! ## The pairs of a line (R189) -/

/-- R189: how a pair names what it sets. -/
def MaskTarget.text : MaskTarget → Text
  | .all => Kw.ALL.text
  | .one kind => kindText kind

/-- R189: ALL is no kind, and each kind is read from its name. -/
theorem readTarget_eq_some_iff {t : Text} {target : MaskTarget} :
    readTarget t = some target ↔ t = target.text := by
  have apart (k : Kind) : readKw (kindText k) ≠ some .ALL := by
    cases k <;> decide
  unfold readTarget
  cases target with
  | all => simp [readKw_eq_some_iff, MaskTarget.text]
  | one kind =>
    split
    next all =>
      refine iff_of_false nofun ?_
      rintro rfl
      exact apart kind all
    next => simp [readKind_eq_some_iff, MaskTarget.text]

theorem pairForm_iff {piece : List Text} {target : MaskTarget} {on : Bool} :
    PairForm piece (target, on) ↔ piece = [target.text, if on then Kw.ON.text else Kw.OFF.text] := by
  cases target <;> rfl

theorem PairForm.ne_nil {piece : List Text} {pair : MaskTarget × Bool} (h : PairForm piece pair) : piece ≠ [] := by
  rw [h]
  exact nofun

/-- R189: a line's pairs are read where its fields fall into pairs. -/
theorem readPairs_eq_some_iff {fields : List Text} {pairs : List (MaskTarget × Bool)} :
    readPairs fields = some pairs ↔ Spells PairForm fields pairs := by
  induction fields using readPairs.induct generalizing pairs with
  | case1 =>
    rw [Spells.nil_iff PairForm.ne_nil]
    simp [readPairs, eq_comm]
  | case2 k =>
    rw [Spells.cons_iff]
    refine iff_of_false nofun ?_
    rintro ⟨_, _, _, _, e, rfl, -, -⟩
    cases e
  | case3 k v rest ih =>
    rw [Spells.cons_iff]
    simp only [readPairs, Option.pure_def, Option.bind_eq_bind, Option.bind_eq_some_iff, Option.some.injEq,
      readTarget_eq_some_iff, readOnOff_eq_some_iff, ih]
    constructor
    · rintro ⟨target, rfl, on, rfl, more, spelled, rfl⟩
      exact ⟨_, (target, on), rest, more, rfl, pairForm_iff.mpr rfl, spelled, rfl⟩
    · rintro ⟨_, ⟨target, on⟩, _, more, e, form, spelled, rfl⟩
      obtain rfl := pairForm_iff.mp form
      cases e
      exact ⟨target, rfl, on, rfl, more, spelled, rfl⟩

/-! ## The mask (R189) -/

theorem kindNumber_range (k : Kind) : 1 ≤ kindNumber k ∧ kindNumber k ≤ 12 := by
  cases k <;> decide

theorem kindNumber_inj {k m : Kind} (h : kindNumber k = kindNumber m) : k = m := by
  revert h
  cases k <;> cases m <;> decide

theorem slot_applyPair_one (mask : Table Bool 12) (kind other : Kind) (on : Bool) :
    slot (applyPair mask (.one kind, on)) (kindNumber other) true =
      if other = kind then on else slot mask (kindNumber other) true := by
  rw [applyPair, slot_setSlot]
  by_cases same : other = kind
  · rw [if_pos ⟨congrArg _ same, kindNumber_range kind⟩, if_pos same]
  · rw [if_neg fun h => same (kindNumber_inj h.1), if_neg same]

theorem slot_applyPair_all (mask : Table Bool 12) (other : Kind) (on : Bool) :
    slot (applyPair mask (.all, on)) (kindNumber other) true = on := by
  rw [applyPair, slot_replicate, if_pos (kindNumber_range other)]

/-! ## Reports (R188) -/

section Post

variable {s : State} {kind : Kind} {fields : List Fld}

theorem State.post_masked (masked : slot s.serial.mask (kindNumber kind) true = false) :
    s.post kind fields =
      { s with serial := { s.serial with latched := setSlot s.serial.latched (kindNumber kind) true } } := by
  simp [State.post, Serial.post, masked]

theorem State.post_queued (enabled : slot s.serial.mask (kindNumber kind) true = true)
    (room : s.serial.reports.length < 32) :
    s.post kind fields =
      { s with
        serial :=
          { s.serial with
            reports := s.serial.reports ++ [⟨s.serial.made, .report (.maskable kind) fields⟩]
            made := s.serial.made + 1 } } := by
  simp [State.post, Serial.post, enabled, room]

theorem State.post_discarded (enabled : slot s.serial.mask (kindNumber kind) true = true)
    (full : 32 ≤ s.serial.reports.length) :
    s.post kind fields = { s with serial := { s.serial with discards := min (s.serial.discards + 1) 65535 } } := by
  simp [State.post, Serial.post, enabled, Nat.not_lt.mpr full, bump16]

end Post

/-! ## REPORT and ID (R189, R190) -/

theorem reportRequest_masks {fields : List Text} {pair : MaskTarget × Bool} {pairs : List (MaskTarget × Bool)}
    (h : readPairs fields = some (pair :: pairs)) (tag : Text) (s : State) :
    reportRequest tag fields s =
      (s.modSerial fun l => { l with mask := (pair :: pairs).foldl applyPair l.mask }).replyMask tag := by
  simp only [reportRequest, h]

theorem reportRequest_refuses {fields : List Text} (h : readPairs fields = none ∨ fields = []) (tag : Text)
    (s : State) : reportRequest tag fields s = s.err tag .arg := by
  obtain h | rfl := h
  · simp only [reportRequest, h]
  · rfl

/-- Settles O19: a post by the mask and the room, the pairs by their form, and the replies by the mask they leave. -/
theorem reportsPostedAndMasked : Obligations.ReportsPostedAndMasked := by
  unfold Obligations.ReportsPostedAndMasked
  refine ⟨fun s kind fields => ⟨State.post_masked, fun enabled =>
      ⟨State.post_queued enabled, State.post_discarded enabled⟩⟩,
    fun _ _ => readPairs_eq_some_iff, fun s tag fields pair pairs can h => ?_,
    fun mask kind on other => ⟨slot_applyPair_one .., slot_applyPair_all ..⟩,
    fun s tag fields can h => exec_request_eq rfl can (reportRequest_refuses h tag s),
    fun s tag can => ⟨exec_request_eq rfl can rfl, fun f more => exec_request_eq rfl can rfl⟩⟩
  exact exec_request_eq rfl can (reportRequest_masks h tag s)

/-- Settles O22: the words for the store state and the cause, in the fields of the reply. -/
theorem idShowsPart : Obligations.IdShowsPart := by
  unfold Obligations.IdShowsPart
  intro s tag can store cause
  have storeShown : storeWord s.store = .word store := by
    cases h : s.store <;> simp [store, h, storeWord]
  have causeShown : causeWord s.cause = .word cause := by
    cases h : s.cause <;> simp [cause, h, causeWord]
  refine ⟨exec_request_eq rfl can ?_, fun f more => exec_request_eq rfl can rfl⟩
  rw [runRequest, identityRequest, State.idFields, storeShown, causeShown]
  rfl

end Sys2Proof.Machine
end

section
/-! SUPPORT. The reply of an executed request (R185 to R188): every request makes one, with its tag, posts its reports
after it, and touches no other line; a refusal changes nothing but its reply. -/

namespace Sys2Proof.Machine

/-! ## Posts (R188) -/

/-- Reports are posted, in any number, and nothing else happens to the serial line. -/
inductive Serial.Posts : Serial → Serial → Prop where
  | refl (l : Serial) : Posts l l
  | trans {l m n : Serial} : Posts l m → Posts m n → Posts l n
  | post (l : Serial) (kind : ReportKind) (fields : List Fld) : Posts l (l.post kind fields)

/-- Reports made from now on may have joined the report queue; every other line stands as it stood. -/
structure Serial.AddsReports (l m : Serial) : Prop where
  executed : m.executed = l.executed
  input : m.input = l.input
  refusals : m.refusals = l.refusals
  buffer : m.buffer = l.buffer
  sending : m.sending = l.sending
  made : l.made ≤ m.made
  reports : ∃ posted, m.reports = l.reports ++ posted ∧ ∀ x ∈ posted, l.made ≤ x.order

theorem Serial.AddsReports.refl (l : Serial) : l.AddsReports l :=
  ⟨rfl, rfl, rfl, rfl, rfl, le_rfl, [], (List.append_nil _).symm, nofun⟩

theorem Serial.AddsReports.trans {l m n : Serial} (h : l.AddsReports m) (k : m.AddsReports n) : l.AddsReports n where
  executed := k.executed.trans h.executed
  input := k.input.trans h.input
  refusals := k.refusals.trans h.refusals
  buffer := k.buffer.trans h.buffer
  sending := k.sending.trans h.sending
  made := h.made.trans k.made
  reports := by
    obtain ⟨first, hfirst, early⟩ := h.reports
    obtain ⟨more, hmore, late⟩ := k.reports
    refine ⟨first ++ more, by rw [hmore, hfirst, List.append_assoc], fun x hx => ?_⟩
    obtain hx | hx := List.mem_append.mp hx
    · exact early x hx
    · exact h.made.trans (late x hx)

/-- R188: a post queues a report made now, or leaves the lines alone. -/
theorem Serial.addsReports_post (l : Serial) (kind : ReportKind) (fields : List Fld) :
    l.AddsReports (l.post kind fields) := by
  obtain ⟨k, -, -, e⟩ | ⟨-, e⟩ | ⟨-, e⟩ := l.post_cases kind fields
  · rw [e]
    exact { Serial.AddsReports.refl l with }
  · rw [e]
    exact ⟨rfl, rfl, rfl, rfl, rfl, Nat.le_succ _, [⟨l.made, .report kind fields⟩], rfl, by simp⟩
  · rw [e]
    exact { Serial.AddsReports.refl l with }

theorem Serial.Posts.addsReports {l m : Serial} (h : l.Posts m) : l.AddsReports m := by
  induction h with
  | refl l => exact .refl l
  | trans _ _ first second => exact first.trans second
  | post l kind fields => exact l.addsReports_post kind fields

theorem Serial.Sound.posts {l m : Serial} (h : l.Sound) (posts : l.Posts m) : m.Sound := by
  induction posts with
  | refl => exact h
  | trans _ _ first second => exact second (first h)
  | post l kind fields => exact h.post kind fields

/-! ## What only posts reports -/

section Posting

variable (s : State)

theorem State.post_posts (kind : Kind) (fields : List Fld) : s.serial.Posts (s.post kind fields).serial :=
  .post s.serial (.maskable kind) fields

theorem State.reportHealth_posts (b : Nat) (before : Health) :
    s.serial.Posts (s.reportHealth b before).serial := by
  unfold State.reportHealth
  split
  · exact .refl _
  · exact State.post_posts ..

theorem State.drainTune_posts : s.serial.Posts s.drainTune.serial := by
  obtain e | ⟨l, reason, -, -, -, e⟩ := s.drainTune_cases
  · rw [e]
    exact .refl _
  · rw [e]
    exact State.post_posts ..

theorem State.drainToll_posts : s.serial.Posts s.drainToll.serial := by
  obtain e | ⟨l, reason, -, -, -, e⟩ := s.drainToll_cases
  · rw [e]
    exact .refl _
  · rw [e]
    exact State.post_posts ..

theorem State.settleLanes_posts : s.serial.Posts s.settleLanes.serial := by
  have tune := (s.retryLags 2).drainTune_posts
  rw [show (s.retryLags 2).serial = s.serial by simp] at tune
  exact tune.trans (State.drainToll_posts _)

theorem State.offerReported_posts (r : PlayRequest) : s.serial.Posts (s.offerReported r).serial := by
  have reported (a : Admission) : s.serial.Posts ((s.offer r).1.reportOffer r a).serial := by
    rw [← show (s.offer r).1.serial = s.serial by simp]
    cases a <;> exact State.post_posts ..
  exact reported (s.offer r).2

theorem State.offerQuiet_posts (r : PlayRequest) (instant : Nat) :
    s.serial.Posts (s.offerQuiet r instant).serial := by
  unfold State.offerQuiet
  dsimp only
  split
  · exact State.post_posts ..
  · exact State.offerReported_posts ..

theorem State.cueAct_posts (c : Nat) : s.serial.Posts (s.cueAct c).serial := by
  unfold State.cueAct
  dsimp only
  split
  · exact .refl _
  · exact State.offerQuiet_posts (s.clearLatch c) ..
  · exact State.offerQuiet_posts (s.clearLatch c) ..
  · have stopped := State.settleLanes_posts ((s.clearLatch c).barStopTune .stop)
    rwa [show ((s.clearLatch c).barStopTune .stop).serial = s.serial by simp] at stopped

theorem State.settleCues_posts (fuel : Nat) : s.serial.Posts (s.settleCues fuel).serial := by
  induction fuel generalizing s with
  | zero => exact .refl _
  | succ fuel ih =>
    unfold State.settleCues
    split
    · exact .refl _
    · rename_i c t choice
      have serial : t.serial = s.serial := by
        obtain ⟨-, rfl | rfl⟩ := choose_frame choice <;> rfl
      rw [← serial]
      exact (t.cueAct_posts c).trans (ih _)

theorem State.settle_posts : s.serial.Posts s.settle.serial :=
  s.settleLanes_posts.trans (State.settleCues_posts _ 4)

/-! ### The wall clock (R154, R155, R162, R164) -/

theorem State.evaluateEntry_posts (instant : Nat) (d : Disposal) (acc : State × List (Nat × Nat)) (k : Nat) :
    acc.1.serial.Posts (State.evaluateEntry instant d acc k).1.serial := by
  unfold State.evaluateEntry
  dsimp only
  split
  · exact .refl _
  · split
    · exact State.offerQuiet_posts (acc.1.stamp k (some instant)) ..
    · exact State.offerQuiet_posts (acc.1.stamp k (some instant)) ..
    · exact .refl _

theorem State.evaluate_posts (instant : Nat) (d : Disposal) (acc : State × List (Nat × Nat)) :
    acc.1.serial.Posts (State.evaluate instant d acc).1.serial := by
  unfold State.evaluate
  generalize List.range' 1 48 = ks
  induction ks generalizing acc with
  | nil => exact .refl _
  | cons k rest ih => exact (State.evaluateEntry_posts instant d acc k).trans (ih _)

theorem State.evaluateSpan_posts (count boundary : Nat) (acc : State × List (Nat × Nat)) :
    acc.1.serial.Posts (State.evaluateSpan count boundary acc).1.serial := by
  induction count generalizing boundary acc with
  | zero => exact .refl _
  | succ count ih => exact (State.evaluate_posts ..).trans (ih ..)

theorem State.reportAllMissed_posts (missed : List (Nat × Nat)) (ks : List Nat) :
    s.serial.Posts (ks.foldl (State.reportMissed missed) s).serial := by
  induction ks generalizing s with
  | nil => exact .refl _
  | cons k rest ih =>
    refine .trans ?_ (ih _)
    unfold State.reportMissed
    dsimp only
    split
    · exact .refl _
    · exact State.post_posts ..

theorem State.afterForwardStep_posts (crossed : Nat) : s.serial.Posts (s.afterForwardStep crossed).serial := by
  have drafted (c : Prop) [Decidable c] (u : State) : (if c then u.applyDraft else u).serial = u.serial := by
    split <;> simp
  unfold State.afterForwardStep
  dsimp only
  refine .trans ?_ (State.reportAllMissed_posts ..)
  refine .trans ?_ (State.evaluateSpan_posts ..)
  rw [drafted]
  exact .refl _

theorem State.stepWall_posts (d : Int) : s.serial.Posts (s.stepWall d).serial := by
  unfold State.stepWall
  dsimp only
  split
  · refine .trans ?_ (State.afterForwardStep_posts ..)
    exact State.post_posts (s.modTime _) ..
  · exact State.post_posts ..

theorem State.applyTime_posts (instant : Nat) : s.serial.Posts (s.applyTime instant).serial := by
  unfold State.applyTime
  split
  · exact State.post_posts ..
  · split
    · exact .refl _
    · exact State.stepWall_posts ..

theorem State.applyPending_posts : s.serial.Posts s.applyPending.serial := by
  unfold State.applyPending
  split
  · exact .refl _
  · exact State.applyTime_posts (s.modTime fun t => { t with pendingTime := none }) _

end Posting

/-! ## One reply (R185, R186) -/

/-- How an executed request is answered: with an error code, and nothing else changes; or with OK, and then reports
alone are posted. The report mask, the latched kinds and the wait for a reset may change with the reply. -/
inductive State.Answered (s : State) (tag : Text) (t : State) : Prop where
  | refused (code : ErrCode) (h : t = s.err tag code)
  | replied (shown : List Fld) (mask latched : Table Bool 12) (wait : ResetWait)
      (h : (Serial.reply { s.serial with mask := mask, latched := latched, resetWait := wait } (.ok tag shown)).Posts
        t.serial)

namespace State.Answered

variable {s t u : State} {tag : Text}

@[simp] theorem err (code : ErrCode) : s.Answered tag (s.err tag code) := .refused code rfl

/-- A reply over a change that leaves the serial line alone, and what then only posts reports. -/
theorem ok_then {shown : List Fld} (same : u.serial = s.serial) (posts : (u.ok tag shown).serial.Posts t.serial) :
    s.Answered tag t := by
  refine .replied shown s.serial.mask s.serial.latched s.serial.resetWait ?_
  rw [← same]
  exact posts

@[simp] theorem ok {shown : List Fld} (same : u.serial = s.serial) : s.Answered tag (u.ok tag shown) :=
  ok_then same (.refl _)

theorem settled {shown : List Fld} (same : u.serial = s.serial) : s.Answered tag (u.ok tag shown).settle :=
  ok_then same (State.settle_posts _)

/-! ### Requests that do more than reply -/

theorem bellRequest (fields : List Text) : s.Answered tag (bellRequest tag fields s) := by
  unfold Machine.bellRequest
  repeat' split
  · exact err _
  · refine ok ?_
    rw [settings_frame]
  · exact err _

theorem restored (b : Nat) (before : Health) :
    s.Answered tag (((s.restoreBell b).okBell tag b).reportHealth b before) :=
  ok_then (u := s.restoreBell b) (by simp) (State.reportHealth_posts ..)

theorem bellDisableRequest (b : Text) (more : List Text) : s.Answered tag (bellDisableRequest tag b more s) := by
  unfold Machine.bellDisableRequest
  split
  · exact err _
  · rename_i b _
    dsimp only
    split
    · exact ok rfl
    · exact ok_then (u := s.modBell b Bell.disable) rfl (State.reportHealth_posts ..)

theorem bellEnableRequest (b : Text) (more : List Text) : s.Answered tag (bellEnableRequest tag b more s) := by
  unfold Machine.bellEnableRequest
  repeat' split
  · exact err _
  · exact restored ..
  · exact ok rfl

theorem bellClearRequest (b : Text) (more : List Text) : s.Answered tag (bellClearRequest tag b more s) := by
  unfold Machine.bellClearRequest
  repeat' split
  · exact err _
  · exact restored ..
  · exact restored ..
  · exact ok rfl
  · exact ok rfl

/-- R18: the reply shows the counters before they are cleared. -/
theorem countClearRequest (b : Text) (more : List Text) : s.Answered tag (countClearRequest tag b more s) := by
  unfold Machine.countClearRequest
  split
  · exact err _
  · exact .replied _ _ _ _ (.refl _)

theorem melAddRequest (m : Text) (args : List Text) : s.Answered tag (melAddRequest tag m args s) := by
  unfold Machine.melAddRequest
  repeat' split
  · exact err _
  · exact err _
  · exact err _
  · exact err _
  · rename_i appended
    refine ok ?_
    rw [appendAll_frame _ _ _ _ appended]

/-- R102: an offer that finds the queue full changes nothing. -/
theorem offerLine (o : Options) (r : PlayRequest) (shown : List Fld) : s.Answered tag (s.offerLine tag o r shown) := by
  unfold State.offerLine
  repeat' split
  · exact err _
  · exact err _
  · obtain ⟨q, -, -, e⟩ | ⟨-, -, e⟩ | ⟨-, -, e⟩ := s.offer_cases r
    · rw [e]
      exact ok rfl
    · rw [e]
      exact err _
    · rw [e]
      exact ok rfl

theorem playRequest (fields : List Text) : s.Answered tag (playRequest tag fields s) := by
  unfold Machine.playRequest
  repeat' split
  · exact err _
  · exact err _
  · exact offerLine ..
  · exact err _

theorem tollRequest (fields : List Text) : s.Answered tag (tollRequest tag fields s) := by
  unfold Machine.tollRequest
  repeat' split
  · exact err _
  · exact err _
  · exact offerLine ..

theorem cancelRequest (fields : List Text) : s.Answered tag (cancelRequest tag fields s) := by
  unfold Machine.cancelRequest
  repeat' split
  case h_2.isTrue => exact settled rfl
  all_goals exact err _

theorem stopNowRequest (lane : Text) (more : List Text) : s.Answered tag (stopNowRequest tag lane more s) := by
  unfold Machine.stopNowRequest
  repeat' split
  · exact err _
  · exact err _
  · exact settled (by simp)
  · exact settled (by simp)

theorem stopBarRequest (lane : Text) (more : List Text) : s.Answered tag (stopBarRequest tag lane more s) := by
  unfold Machine.stopBarRequest
  repeat' split
  · exact err _
  · exact err _
  · exact settled (by simp)
  · exact settled (by simp)

theorem timeRequest (fields : List Text) : s.Answered tag (timeRequest tag fields s) := by
  unfold Machine.timeRequest
  repeat' split
  case h_2.isTrue => exact ok rfl
  case h_2.isFalse => exact ok_then rfl (State.applyTime_posts ..)
  all_goals exact err _

theorem syncFreeRequest (more : List Text) : s.Answered tag (syncFreeRequest tag more s) := by
  unfold Machine.syncFreeRequest
  repeat' split
  · exact err _
  · exact ok rfl
  · exact ok_then (u := s.restartSync .free .free) rfl (.trans (State.post_posts ..) (State.applyPending_posts _))

theorem syncPulseRequest (more : List Text) : s.Answered tag (syncPulseRequest tag more s) := by
  unfold Machine.syncPulseRequest
  repeat' split
  · exact err _
  · exact ok rfl
  · exact ok_then (u := s.restartSync .pulse .acquire) rfl (State.post_posts ..)

theorem cueEnableRequest (c : Text) (more : List Text) : s.Answered tag (cueEnableRequest tag c more s) := by
  unfold Machine.cueEnableRequest
  repeat' split
  · exact err _
  · exact err _
  · exact ok rfl
  · rename_i c _ _ _
    exact ok_then (u := s.modConfig c fun f => { f with enable := true }) rfl (State.settleCues_posts ..)

/-- R189: the mask is set before the reply that shows it. -/
theorem reportRequest (fields : List Text) : s.Answered tag (reportRequest tag fields s) := by
  unfold Machine.reportRequest
  split
  · exact err _
  · exact err _
  · exact .replied _ _ _ _ (.refl _)

/-- R191: the latched kinds are cleared with the reply that shows them. -/
theorem statusRequest (more : List Text) : s.Answered tag (statusRequest tag more s) := by
  unfold Machine.statusRequest
  split
  · exact .replied s.statusFields s.serial.mask (Vector.replicate 12 false) s.serial.resetWait (.refl _)
  · exact err _

theorem resetRequest (more : List Text) : s.Answered tag (resetRequest tag more s) := by
  unfold Machine.resetRequest
  split
  · exact .replied [.word .RESET] s.serial.mask s.serial.latched .replyMade (.refl _)
  · exact err _

/-- R185, R186: every request is answered once. -/
theorem runRequest {i : Instr} {fields : List Text} (h : i.fields = some (tag, fields)) :
    s.Answered tag (runRequest i s) := by
  cases i <;> simp only [Instr.fields, Option.some.injEq, Prod.mk.injEq, reduceCtorEq] at h <;>
    obtain ⟨rfl, -⟩ := h
  case bell => exact bellRequest ..
  case bellDisable => exact bellDisableRequest ..
  case bellEnable => exact bellEnableRequest ..
  case bellClear => exact bellClearRequest ..
  case countClear => exact countClearRequest ..
  case melAdd => exact melAddRequest ..
  case play => exact playRequest ..
  case toll => exact tollRequest ..
  case cancel => exact cancelRequest ..
  case stopNow => exact stopNowRequest ..
  case stopBar => exact stopBarRequest ..
  case time => exact timeRequest ..
  case syncFree => exact syncFreeRequest ..
  case syncPulse => exact syncPulseRequest ..
  case cueEnable => exact cueEnableRequest ..
  case report => exact reportRequest ..
  case status => exact statusRequest ..
  case reset => exact resetRequest ..
  all_goals
    simp only [Machine.runRequest, bellReadRequest, countReadRequest, strikeRequest, testRequest,
      liveRequest, melOpenRequest, melCloseRequest, melDeleteRequest, melReadRequest, adjustRequest, entryRequest,
      entryClearRequest, entryReadRequest, holdRequest, quietRequest, quietClearRequest, quietReadRequest,
      Machine.cueRequest, cueDisableRequest, cueClearRequest, cueReadRequest, reportReadRequest, identityRequest,
      queueSummaryRequest, queuePlayItemRequest, queueStrikeItemRequest, queueWaitItemRequest, itemRequest, saveRequest]
    repeat' split
    all_goals
      simp [State.okBell, State.okCue, State.replyEntry, State.replyQuiet, State.replyMask, State.beginSave]

end State.Answered

end Sys2Proof.Machine
end

section
/-! SUPPORT. The execution of lines (R185, R186, R195): when one is executed, and that it does what the request it
spells does, with one reply. -/

namespace Sys2Proof.Machine

/-! ## When a line is executed (R186, R195) -/

section Execute

variable {s : State}

theorem State.canExecute_iff :
    s.canExecute = true ↔ s.held = false ∧ s.serial.executed = none ∧ s.serial.resetWait = .none := by
  simp [State.canExecute, and_assoc]

variable {line : Text} {rest : List Text}

/-- R186: the first line of the input queue leaves it and is run. -/
theorem exec_lineExecute (can : s.canExecute = true) (waits : s.serial.input = line :: rest) :
    exec .lineExecute s = .next (State.runLine { s with serial := { s.serial with input := rest } } line) := by
  have due : s.lineDue = true := by simp [State.lineDue, can, waits]
  rw [exec_taken (i := .lineExecute) due]
  simp only [effectOf, State.executeLine, waits]
  rfl

theorem State.runLine_request {i : Instr} (h : readRequest line = .request i) : s.runLine line = runRequest i s := by
  simp only [State.runLine, h]

theorem State.runLine_unknown {tag : Text} (h : readRequest line = .unknown tag) :
    s.runLine line = s.err tag .unknown := by
  simp only [State.runLine, h]

theorem State.runLine_badArg {tag : Text} (h : readRequest line = .badArg tag) : s.runLine line = s.err tag .arg := by
  simp only [State.runLine, h]

end Execute

/-- Settles O16: the condition written out, and a line by what it is read as. -/
theorem lineExecutesItsRequest : Obligations.LineExecutesItsRequest := by
  unfold Obligations.LineExecutesItsRequest
  refine ⟨fun _ => State.canExecute_iff, fun s shut => exec_idle (Bool.eq_false_iff.mpr fun due => ?_),
    fun s line rest can waits => ?_⟩
  · obtain ⟨-, can, waits⟩ := State.lineDue_iff.mp due
    obtain shut | empty := shut
    · simp [can] at shut
    · exact waits empty
  · intro u
    rw [exec_lineExecute can waits]
    refine ⟨fun i read => ?_, fun tag read => ?_, fun tag read => ?_⟩
    · obtain ⟨tag, rest, -, isRequest⟩ := readRequest_request read
      exact ⟨runRequest i u, exec_request_taken isRequest can, by rw [State.runLine_request read]⟩
    · rw [State.runLine_unknown read]
    · rw [State.runLine_badArg read]

/-! ## One reply (R185 to R187) -/

/-- Settles O17: every request by how it is answered. -/
theorem requestsReplyOnce : Obligations.RequestsReplyOnce := by
  unfold Obligations.RequestsReplyOnce
  have answered {i : Instr} {tag : Text} {fields : List Text} {s t : State} (h : i.fields = some (tag, fields))
      (can : s.canExecute = true) (next : exec i s = .next t) : s.Answered tag t := by
    rw [exec_request_taken h can, Host.Outcome.next.injEq] at next
    exact next ▸ State.Answered.runRequest h
  refine ⟨fun i tag fields s t h can next => ?_, fun i tag fields code s t h can next reply => ?_⟩
  · obtain ⟨code, rfl⟩ | ⟨shown, mask, latched, wait, posts⟩ := answered h can next
    · exact ⟨⟨_, rfl, .inr ⟨code, rfl⟩⟩, rfl, rfl, rfl, rfl, [], (List.append_nil _).symm, nofun⟩
    · have adds := posts.addsReports
      exact ⟨⟨_, adds.executed, .inl ⟨shown, rfl⟩⟩, adds.input, adds.refusals, adds.buffer, adds.sending, adds.reports⟩
  · obtain ⟨other, rfl⟩ | ⟨shown, mask, latched, wait, posts⟩ := answered h can next
    · cases reply
      rfl
    · have kept := posts.addsReports.executed
      rw [reply] at kept
      cases kept

end Sys2Proof.Machine
end

section
/-! SUPPORT. Every step keeps the serial line sound (R184, R186 to R188): the line's own events, the requests, the
events that post reports, and the resets. -/

namespace Sys2Proof.Machine

namespace State.LineSound

variable {s : State}

/-! ## Requests and lines -/

theorem posts {t : State} (h : s.LineSound) (p : s.serial.Posts t.serial) : t.LineSound := Serial.Sound.posts h p

theorem answered {tag : Text} {t : State} (h : s.LineSound) (a : s.Answered tag t) : t.LineSound := by
  obtain ⟨code, rfl⟩ | ⟨shown, mask, latched, wait, p⟩ := a
  · exact h.err ..
  · have changed : Serial.Sound { s.serial with mask := mask, latched := latched, resetWait := wait } :=
      { (h : s.serial.Sound) with }
    exact (changed.reply _).posts p

theorem runRequest (h : s.LineSound) (i : Instr) : (runRequest i s).LineSound := by
  cases e : i.fields with
  | none => rwa [runRequest_event e]
  | some p => exact h.answered (State.Answered.runRequest e)

/-- R186: the line that is executed leaves the input queue. -/
theorem executeLine (h : s.LineSound) : s.executeLine.LineSound := by
  unfold State.executeLine
  split
  · exact h
  next line rest waits =>
    have left : (s.modSerial fun l => { l with input := rest }).LineSound :=
      { (h : s.serial.Sound) with
        input := by
          have most := Serial.Sound.input h
          rw [waits, List.length_cons] at most
          exact Nat.le_of_succ_le most }
    unfold State.runLine
    split
    · exact left.runRequest _
    · exact left.err ..
    · exact left.err ..
    · exact Serial.Sound.refuse left _

theorem transmit (h : s.LineSound) : s.transmit.LineSound := by
  unfold State.transmit
  split
  · exact h
  · exact { Serial.Sound.take h _ _ with }

/-! ## The sense lines, the dispatcher and the store -/

theorem activeEdge (h : s.LineSound) (b : Nat) : (s.activeEdge b).LineSound := by
  have sensed : (s.setSense b (!s.senseLevel b)).LineSound := h.congr (by simp)
  unfold State.activeEdge
  dsimp only
  split
  · exact congr (sensed.judgeEdge b) (by simp)
  · exact sensed

theorem endSave (h : s.LineSound) (good : Option StoreContents) : (s.endSave good).LineSound := by
  cases good <;> exact post (h.congr rfl) ..

theorem dispatchHead (h : s.LineSound) : s.dispatchHead.LineSound := by
  unfold State.dispatchHead
  split
  · exact h
  · refine carryOut (judgeFirst ?_ ..) ..
    exact h.congr rfl

theorem releaseCoil (h : s.LineSound) (b : Nat) : (s.releaseCoil b).LineSound := by
  refine grantFrom _ ?_
  exact h.congr rfl

theorem dropAtDeadline (h : s.LineSound) (p : Nat) : (s.dropAtDeadline p).LineSound := by
  unfold State.dropAtDeadline
  split
  · exact h
  · exact h.congr (by simp)

theorem settle (h : s.LineSound) : s.settle.LineSound := h.posts s.settle_posts

/-! ## The lanes -/

theorem expire (h : s.LineSound) (id : Nat) : (s.expire id).LineSound := by
  unfold State.expire
  split
  · exact h
  · exact settle (post (h.congr rfl) ..)

theorem takeFirstTune (h : s.LineSound) : s.takeFirstTune.LineSound := by
  unfold State.takeFirstTune
  split
  · exact h
  · split
    · refine settle ?_
      unfold State.takeTune
      dsimp only
      split
      · exact post (h.congr rfl) ..
      · exact post (h.congr rfl) ..
    · exact h

theorem takeFirstToll (h : s.LineSound) : s.takeFirstToll.LineSound := by
  unfold State.takeFirstToll
  split
  · exact h
  · split
    · exact h
    · exact post (h.congr rfl) ..

theorem cutOrder (h : s.LineSound) (id : Nat) : (s.cutOrder id).LineSound :=
  edits (s := s.markCut id) (h.congr rfl) (.trans (.post ..) (.trans (.barStopTune ..) (.settle _)))

theorem loseSupply (h : s.LineSound) : s.loseSupply.LineSound :=
  edits (s := { s with supply := .lost }) (h.congr rfl)
    (.trans (.post ..) (.trans (.stopTuneNow ..) (.trans (.stopTollNow ..) (.settle _))))

/-! ## The resets (R195, R196) -/

theorem warm (s : State) (cause : ResetCause) : (s.warm cause).LineSound := Serial.sound_empty s.serial.mask

theorem start (h : s.LineSound) (pins : Pins) : (s.start pins).LineSound := by
  unfold State.LineSound
  rw [State.start_eq]
  dsimp only
  exact Serial.Sound.post h ..

/-- R189, R194: what the image gives the serial line is the report mask. -/
theorem load (h : s.LineSound) : s.load.LineSound := by
  unfold State.load
  split
  · exact h.congr rfl
  · exact h.congr rfl
  · split
    · rw [State.loadContents_frame]
      exact { (h : s.serial.Sound) with }
    · exact h.congr rfl

theorem powerOn (s : State) (pins : Pins) : (s.powerOn pins).LineSound := by
  have blank : State.LineSound { State.blank with pending := s.pending, choices := s.choices, image := s.image } :=
    Serial.sound_empty _
  exact blank.load.start pins

/-! ## Every command -/

theorem effectOf (h : s.LineSound) (i : Instr) : (effectOf i s).LineSound := by
  cases i
  case powerOnReset pins => exact powerOn s pins
  case resetLineFall => exact Serial.sound_empty s.serial.mask
  case resetLineRise pins => exact h.start pins
  case warmResetCommand pins => exact (warm s .command).start pins
  case lineReceived => exact Serial.Sound.endLine h
  case characterReceived c stopBit => exact Serial.Sound.receive h c stopBit
  case lineExecute => exact h.executeLine
  case transmitLine => exact h.transmit
  case dispatch => exact h.dispatchHead.settle
  case coilRelease b => exact (h.releaseCoil b).settle
  case coilWaitDeadline p => exact (h.dropAtDeadline p).settle
  case senseActiveEdge b => exact h.activeEdge b
  case windowEnd b =>
    simp only [Machine.effectOf, State.endWindow]
    split
    · exact h
    · exact h.miss ..
  case stuckTimeout b => exact h.moveBell ..
  case expired id => exact h.expire id
  case tuneTake => exact h.takeFirstTune
  case tollTake => exact h.takeFirstToll
  case expandRecord => exact h.edits (.trans (.expandTune s) (.settle _))
  case expandStroke => exact h.edits (.trans (.expandToll s) (.settle _))
  case cutOrder id => exact h.cutOrder id
  case secondBoundary => exact h.edits (.crossBoundary s)
  case wallClockRangeEnd => exact post (h.congr rfl) ..
  case secpulseEdge => exact h.edits (.takePulse s)
  case pulseLoss => exact h.edits (.losePulse s)
  case cueDebounceExpire c => exact posts (s := s.acceptChange c) (h.congr rfl) (State.settleCues_posts ..)
  case supgoodFall =>
    simp only [Machine.effectOf, State.supplyFalls]
    repeat' split
    case h_1 => exact post (h.congr rfl) ..
    all_goals exact h.congr rfl
  case supplyLost => exact h.loseSupply
  case supplyGood => exact post (h.congr rfl) ..
  case saveComplete | saveTimeout => exact h.endSave _
  case slewTick => exact h.congr rfl
  case senseReleaseEdge | cueLineChange | supgoodRise =>
    refine h.congr ?_
    simp only [Machine.effectOf, State.releaseEdge, State.changeCueLine]
    split <;> simp
  all_goals exact h.runRequest _

end State.LineSound

/-- Settles O12: every command's effect keeps the line sound, and nothing else in a step touches it. -/
theorem serialStaysSound : Obligations.SerialStaysSound := by
  unfold Obligations.SerialStaysSound
  intro s t h next
  refine step_keeps (P := State.LineSound) next h ?_ ?_ ?_ ?_
  · exact fun i s t hs done => exec_keeps done hs fun _ => hs.effectOf i
  · exact fun s hs => hs
  · exact fun s cs hs => hs
  · exact fun s hs => hs

end Sys2Proof.Machine
end


section

namespace Sys2Proof.Machine

/-- Where a command waits, the step is that command's, on the state whose queue is the rest. -/
theorem step_of_pending_cons {s : State} {c : Instr} {rest : List Instr} (hp : s.pending = c :: rest) :
    step s = exec c { s with pending := rest } := by
  unfold step
  rw [hp]

/-- Settles O1: the front of the queue is the command that the step takes, and the queue it sees is the rest. -/
theorem stepRunsFrontCommand : Obligations.StepRunsFrontCommand := by
  unfold Obligations.StepRunsFrontCommand
  intro c rest s
  exact step_of_pending_cons rfl

end Sys2Proof.Machine
end
